-- ==== Sys2Proof/Word.lean ====
section
/-! DEFINITION. The word types of the block: 8-bit bytes and symbols, 32-bit host registers, command words and
shared-memory addresses, 40-bit BITCNT, and node indices 0..510 (spec/00_scope.md R6). -/

namespace Sys2Proof

/-- A 32-bit host register value, command word or shared-memory byte address (R6). -/
abbrev Word := BitVec 32

/-- A byte of shared memory, or a symbol 0..255 (R6). -/
abbrev Byte := BitVec 8

/-- The 40-bit bit count BITCNT (R6, R39). -/
abbrev BitCount := BitVec 40

/-- An index of the node memory, 0..510 (R6: 511 entries). -/
abbrev NodeIdx := Fin 511

end Sys2Proof
end

