-- ==== Sys2Proof/Config.lean ====
section
/-! DEFINITION. What an implementation of the block fixes (spec/00_scope.md R6, spec/10_state.md R31) and the free
values: constants with no body, applied to the model's draw counter or to an address, for every value the spec
leaves unspecified ("model: a draw"). -/

namespace Sys2Proof

/-- The constant the ID register reads: "HUFF" in ASCII (R31). -/
def Config.idValue : Word := 0x48554646#32

/-- The constant the VERSION register reads (R31). -/
def Config.versionValue : Word := 0x00000001#32

/-- The largest frequency sum BUILD accepts (R144). -/
def Config.maxTotal : Nat := 0xFFFFFFFF

/-- How many tree levels a walk may visit: depths 0..255 (R49 with R154 and R196: no leaf is deeper than 255). -/
def Config.treeLevels : Nat := 256

/-- The free 32-bit value of draw number `k`: what a host read that the spec calls unspecified returns (R44, R61),
and the two words of a NODE entry a rule leaves unspecified (R143, R144, R199). Assumption log 2. -/
opaque Config.freeWord : Nat → Word

/-- The free byte of draw number `k`: a byte of an aborted command's destination region (R252), and a byte that the
host raced for (R86). Assumption log 2. -/
opaque Config.freeByte : Nat → Byte

/-- What shared-memory byte `a` holds while nothing has written it: shared memory is the platform's, and the spec
gives its contents no value (R70, spec/10_state.md section 10). Assumption log 3. -/
opaque Config.powerOnByte : Nat → Byte

end Sys2Proof
end

