-- ==== Sys2Proof/Syntax.lean ====
section
/-! DEFINITION. The command set HTB-CMD version 1 (spec/30_encoding.md R102): one constructor for each row of
spec/opcode_table.json. No command has an operand field (R101): every operand is a register or an internal memory. -/

namespace Sys2Proof

/-- The eight commands (R102). -/
inductive Instr where
  /-- NOP, word 0x00000000 (R125). -/
  | nop
  /-- CLEAR, word 0x00000001 (R126). -/
  | clear
  /-- BUILD, word 0x00000010 (R140). -/
  | build
  /-- GENCODE, word 0x00000011 (R160). -/
  | gencode
  /-- SERIALIZE, word 0x00000020 (R182). -/
  | serialize
  /-- DESERIALIZE, word 0x00000021 (R190). -/
  | deserialize
  /-- PACK, word 0x00000030 (R210). -/
  | pack
  /-- UNPACK, word 0x00000031 (R230). -/
  | unpack
deriving DecidableEq, Repr

/-- The command's mnemonic as R102 and R110 write it. -/
def Instr.mnemonic : Instr → String
  | .nop => "NOP"
  | .clear => "CLEAR"
  | .build => "BUILD"
  | .gencode => "GENCODE"
  | .serialize => "SERIALIZE"
  | .deserialize => "DESERIALIZE"
  | .pack => "PACK"
  | .unpack => "UNPACK"

/-- All commands, in the order of R102. -/
def Instr.all : List Instr :=
  [.nop, .clear, .build, .gencode, .serialize, .deserialize, .pack, .unpack]

end Sys2Proof
end

