-- ==== Sys2Proof/WellFormed.lean ====
section
/-! DEFINITION. Well-formedness. A command has no operand field (spec/30_encoding.md R101), so every term of `Instr` is
well-formed; what can be ill-formed is a command WORD (R100, R104): a reserved field that is not 0, or an opcode
outside the map of R102. -/

namespace Sys2Proof

/-- Every command term is well-formed: R101 gives no command an immediate or a register number. -/
def Instr.wellFormed (_ : Instr) : Bool := true

/-- First check on a command word: bits [31:8], the field RSV, are 0 (R100). -/
def reservedFieldOk (w : Word) : Bool := w.extractLsb' 8 24 == 0#24

/-- Second check on a command word: bits [7:0], the field OP, are one of the eight opcodes (R102, R104). -/
def opcodeOk (w : Word) : Bool :=
  [0x00#8, 0x01#8, 0x10#8, 0x11#8, 0x20#8, 0x21#8, 0x30#8, 0x31#8].contains (w.extractLsb' 0 8)

/-- A command word is well-formed when both checks pass; every other word is an illegal command (R104). -/
def wordWellFormed (w : Word) : Bool := reservedFieldOk w && opcodeOk w

end Sys2Proof
end

