-- ==== Sys2Proof/Decode.lean ====
section
/-! DEFINITION. Decoding of command words, total on every 32-bit word and rejecting by name (spec/30_encoding.md R103,
R104), and the encoder, both read from one table of the opcode map (R102). -/

namespace Sys2Proof

/-- Why a word is an illegal command (R104). -/
inductive Reject where
  /-- Bits [31:8] are not 0 (R100). -/
  | reservedField
  /-- Bits [31:8] are 0 and bits [7:0] are no opcode of R102. -/
  | unknownOpcode
deriving DecidableEq, Repr

/-- One row of the opcode map (R102). -/
structure OpcodeRow where
  op  : Byte
  cmd : Instr
deriving DecidableEq, Repr

/-- The opcode map of R102. -/
def opcodeMap : List OpcodeRow :=
  [⟨0x00#8, .nop⟩, ⟨0x01#8, .clear⟩, ⟨0x10#8, .build⟩, ⟨0x11#8, .gencode⟩,
   ⟨0x20#8, .serialize⟩, ⟨0x21#8, .deserialize⟩, ⟨0x30#8, .pack⟩, ⟨0x31#8, .unpack⟩]

/-- The field OP, bits [7:0] (R100). -/
def opField (w : Word) : Byte := w.extractLsb' 0 8

/-- The field RSV, bits [31:8] (R100). -/
def rsvField (w : Word) : BitVec 24 := w.extractLsb' 8 24

/-- The command a word selects, or why it selects none: a total function of the word alone (R103). -/
def decode (w : Word) : Except Reject Instr :=
  if rsvField w = 0#24 then
    match opcodeMap.find? (fun r => r.op == opField w) with
    | some r => .ok r.cmd
    | none => .error .unknownOpcode
  else .error .reservedField

/-- The opcode of a command, from the same table (R102). -/
def opcodeOf (i : Instr) : Byte :=
  match opcodeMap.find? (fun r => r.cmd == i) with
  | some r => r.op
  | none => 0#8

/-- The word of a command: RSV = 0 and OP from the opcode map (R100, R102). -/
def encode (i : Instr) : Word := 0#24 ++ opcodeOf i

/-- The command that a mnemonic of R110 names: one of the eight names, upper case. -/
def Instr.ofMnemonic (m : String) : Option Instr := Instr.all.find? (fun i => i.mnemonic == m)

/-- The 32-bit word of an opcode-table row's bits: `w` numbered from bit 0, `nbits` of them, zero above (R100: every
command is exactly one word, so a longer row has none). -/
def tableWord (nbits w : Nat) : Option Word :=
  if nbits ≤ 32 then some (BitVec.ofNat 32 (w % 2 ^ nbits)) else none

/-- What the decoder reads from a row of spec/opcode_table.json. -/
def decodeTableWord (nbits w : Nat) : Option Instr :=
  match tableWord nbits w with
  | none => none
  | some word =>
    match decode word with
    | .ok i => some i
    | .error _ => none

end Sys2Proof
end

