-- ==== Sys2Proof/Machine/State.lean ====
section
/-! DEFINITION. The state of the block, its platform and its host, as plain data (spec/10_state.md section 10 and
R30 to R61), the reasons a step can stop, and the state right after hardware reset (R60, R61). -/

namespace Sys2Proof.Machine

/-- CTRL (R33). Bits [31:3] are reserved, read 0 and hold nothing. -/
structure Ctrl where
  symw   : Bool
  strict : Bool
  irqEn  : Bool
deriving DecidableEq, Repr

/-- STATUS (R35). Bits [7:6] and [31:24] are reserved, read 0 and hold nothing. -/
structure Status where
  busy       : Bool
  done       : Bool
  treeValid  : Bool
  empty      : Bool
  codesValid : Bool
  accerr     : Bool
  err        : Byte
  lastop     : Byte
deriving DecidableEq, Repr

/-- One entry of the NODE memory (R41, R47). -/
structure Node where
  valid : Bool
  leaf  : Bool
  sym   : Byte
  freq  : Word
  left  : NodeIdx
  right : NodeIdx
deriving DecidableEq, Repr

/-- One entry of the CODE memory (R42, R48). LEN is the length of BITS (R12: BITS is a bit string of length LEN), so it
is not stored a second time: `Code.len` (Machine/Operands.lean) reads it. -/
structure Code where
  present : Bool
  bits    : List Bool
deriving DecidableEq, Repr

/-- The kind of a shared-memory access, the second argument of ADMIT (R7). -/
inductive AccessKind where
  | read
  | write
deriving DecidableEq, Repr

/-- One record of the platform's memory map: addresses `first` to `last` inclusive and the accesses it admits. The
first record that holds an address decides; an address in none is not admitted. A list of these is ADMIT as data (R7):
every function of a 32-bit address and a kind is such a list (Laws/Memory.lean, `admit_map_complete`). -/
structure AdmitRegion where
  first : Word
  last  : Word
  read  : Bool
  write : Bool
deriving DecidableEq, Repr

/-- The width of a host register access (R23, R43). -/
inductive AccessSize where
  | byte
  | half
  | word
deriving DecidableEq, Repr

/-- A HOST step (R21): a register read, a register write, or an access to shared memory outside the block. `off` is
the byte offset the host drives, of which the port decodes the low 15 bits (R24). DESIGN CHOICE (assumption log 21): R21
gives no width for a host access to shared memory; here each is one byte, and a wider one is several steps. -/
inductive HostOp where
  | readReg (off : Word) (size : AccessSize)
  | writeReg (off : Word) (size : AccessSize) (v : Word)
  | readMem (a : Word)
  | writeMem (a : Word) (v : Byte)
deriving DecidableEq, Repr

/-- Which agent moves next (R20): the ENGINE, the HOST with a transaction, the HOST in a polling loop on STATUS.DONE
(R112), or the input `rst` (R280). -/
inductive Event where
  | engine
  | host (op : HostOp)
  | wait
  | reset
deriving DecidableEq, Repr

/-- What the last host read returned, on the register port or from shared memory. -/
inductive Response where
  | silent
  | word (w : Word)
  | byte (b : Byte)
deriving DecidableEq, Repr

/-- What a register-window offset selects (R30). -/
inductive Target where
  | id
  | version
  | ctrl
  | cmd
  | status
  | total
  | root
  | nodeCount
  | leafCount
  | srcAddr
  | srcEnd
  | dstAddr
  | dstEnd
  | outcnt
  | bitcntLo
  | bitcntHi
  | errInfo
  | freq (s : Byte)
  | nodeW0 (i : NodeIdx)
  | nodeW1 (i : NodeIdx)
  | code (s : Byte) (w : Fin 16)
  | reserved
deriving DecidableEq, Repr

/-- The errors a command can raise (R251). -/
inductive Err where
  | illegal
  | empty
  | totalOvf
  | notree
  | nocodes
  | range
  | overlap
  | dstFull
  | srcExhausted
  | length
  | nocode
  | badTag
  | badSym
  | treeOvf
  | dupSym
  | pad
  | trail
  | bus
deriving DecidableEq, Repr

/-- Why a step stops. Only `unwrittenFreq` can happen in a state that a run reaches. -/
inductive Fault where
  /-- BUILD read a FREQ entry that nothing has written since hardware reset: it "has no defined result; a model faults
  the command" (R153, R61). Raised by BUILD. Safe: nothing is provable past it. -/
  | unwrittenFreq
  /-- A command walked the NODE memory with TREE_VALID = 1 and met an unwritten entry or a path longer than 255 edges,
  which R49 excludes. Raised by GENCODE, SERIALIZE and UNPACK, in unreachable states only. Safe. -/
  | malformedTree
  /-- PACK with CODES_VALID = 1 read an unwritten CODE entry, which R51 excludes. Unreachable. Safe. -/
  | unwrittenCode
  /-- An ENGINE step with BUSY = 1 and no pending command word, which R120 and R121 exclude. Unreachable. Safe. -/
  | noPendingWord
deriving DecidableEq, Repr

/-- Why a step gives an instruction no meaning. -/
inductive Refusal where
  /-- An instruction that is not modelled, by its mnemonic. Raised by an arm of `exec`. Safe. No arm of this model
  raises it: every command has its meaning. -/
  | notModelled (mnemonic : String)
deriving DecidableEq, Repr

/-- Shared memory (R70): (address, byte) pairs, addresses strictly rising. An unlisted address is one that nothing has
written; it holds `Config.powerOnByte`. -/
abbrev Memory := List Host.Cell

/-- The canonical form of a memory: addresses strictly rising, each below 2^32 (R6, R70). An unlisted address holds no
known byte, so no listed entry can equal what an unlisted address reads as. -/
abbrev Memory.wf (m : Memory) : Prop :=
  (m.map Prod.fst).Pairwise (fun a b => a < b) ∧ ∀ c ∈ m, c.1 < 4294967296

/-- The machine: the block's registers and internal memories, the platform's shared memory and memory map, and the
model's own fields (who moves next, the host's last read, the raced bytes, the draw counter). -/
structure State where
  /-- CTRL (R33). -/
  ctrl      : Ctrl
  /-- STATUS (R35). -/
  status    : Status
  /-- The pending command word (R55). -/
  pending   : Option Word
  /-- TOTAL (R36). -/
  total     : Word
  /-- ROOT (R37). -/
  root      : NodeIdx
  /-- NODE_COUNT (R37). -/
  nodeCount : Fin 512
  /-- LEAF_COUNT (R37). -/
  leafCount : Fin 257
  /-- SRC_ADDR (R38). -/
  srcAddr   : Word
  /-- SRC_END (R38). -/
  srcEnd    : Word
  /-- DST_ADDR (R38). -/
  dstAddr   : Word
  /-- DST_END (R38). -/
  dstEnd    : Word
  /-- OUTCNT (R39). -/
  outcnt    : Word
  /-- BITCNT, read as BITCNT_HI and BITCNT_LO (R39). -/
  bitcnt    : BitCount
  /-- ERR_INFO (R39). -/
  errInfo   : Word
  /-- FREQ memory; `none` is the spec's own "unwritten" (R46, R61). -/
  freq      : Vector (Option Word) 256
  /-- NODE memory; `none` is "unwritten" (R47, R61). -/
  node      : Vector (Option Node) 511
  /-- CODE memory; `none` is "unwritten" (R48, R61). -/
  code      : Vector (Option Code) 256
  /-- Shared memory, the platform's (R70). -/
  mem       : Memory
  /-- The platform's ADMIT, as a memory map (R7). -/
  admitMap     : List AdmitRegion
  /-- MODEL: shared-memory addresses the host wrote in a region of the running command (R86), rising. -/
  raced     : List Nat
  /-- MODEL: the number of the next free value (assumption log 2). -/
  draws     : Nat
  /-- MODEL: who moves next, oldest first (R20, R21; assumption log 1). -/
  schedule  : List Event
  /-- MODEL: what the last host read returned (R23). -/
  response  : Response
deriving DecidableEq, Repr

/-- The state right after hardware reset: R60 for the registers, R61 for the internal memories (unwritten). Shared
memory lists nothing; the memory map admits every address (assumption log 4); nobody is scheduled. -/
def State.reset : State where
  ctrl      := { symw := false, strict := false, irqEn := false }
  status    := { busy := false, done := false, treeValid := false, empty := false, codesValid := false,
                 accerr := false, err := 0#8, lastop := 0#8 }
  pending   := none
  total     := 0#32
  root      := 0
  nodeCount := 0
  leafCount := 0
  srcAddr   := 0#32
  srcEnd    := 0#32
  dstAddr   := 0#32
  dstEnd    := 0#32
  outcnt    := 0#32
  bitcnt    := 0#40
  errInfo   := 0#32
  freq      := Vector.replicate 256 none
  node      := Vector.replicate 511 none
  code      := Vector.replicate 256 none
  mem       := []
  admitMap     := [{ first := 0#32, last := 0xFFFFFFFF#32, read := true, write := true }]
  raced     := []
  draws     := 0
  schedule  := []
  response  := .silent

end Sys2Proof.Machine
end

