-- ==== Sys2Proof/Machine/Flags.lean ====
section
/-! DEFINITION. STATUS and CTRL as words, the error codes and kinds, the write-one-to-clear rule and the interrupt
(spec/10_state.md R33, R35, R53; spec/60_exceptions.md R251, R256, R260). -/

namespace Sys2Proof.Machine

/-- The code of an error in STATUS.ERR (R251). Code 0x00 is "no error". -/
def Err.code : Err → Byte
  | .illegal => 0x01#8
  | .empty => 0x02#8
  | .totalOvf => 0x03#8
  | .notree => 0x04#8
  | .nocodes => 0x05#8
  | .range => 0x06#8
  | .overlap => 0x07#8
  | .dstFull => 0x08#8
  | .srcExhausted => 0x09#8
  | .length => 0x0A#8
  | .nocode => 0x0B#8
  | .badTag => 0x0C#8
  | .badSym => 0x0D#8
  | .treeOvf => 0x0E#8
  | .dupSym => 0x0F#8
  | .pad => 0x10#8
  | .trail => 0x11#8
  | .bus => 0x12#8

/-- The source's three error kinds, and the errors of the host's command sequence that have none (R256). -/
inductive ErrKind where
  | invalidInput
  | corruptArtifact
  | ioError
  | protocol
deriving DecidableEq, Repr

/-- The kind of an error (R256, the "source kind" column of R251). -/
def Err.kind : Err → ErrKind
  | .empty | .totalOvf | .length | .nocode => .invalidInput
  | .srcExhausted | .badTag | .badSym | .treeOvf | .dupSym | .pad | .trail => .corruptArtifact
  | .range | .overlap | .dstFull | .bus => .ioError
  | .illegal | .notree | .nocodes => .protocol

/-- STATUS as the host reads it (R35): reserved bits [7:6] and [31:24] read 0. -/
def Status.toWord (st : Status) : Word :=
  0#8 ++ st.lastop ++ st.err ++ 0#2 ++ BitVec.ofBool st.accerr ++ BitVec.ofBool st.codesValid ++
    BitVec.ofBool st.empty ++ BitVec.ofBool st.treeValid ++ BitVec.ofBool st.done ++ BitVec.ofBool st.busy

/-- What a host write of `v` to STATUS does while BUSY = 0: bits 1 and 5 are write-one-to-clear, every other bit is
ignored (R35). -/
def Status.writeOneToClear (st : Status) (v : Word) : Status :=
  { st with done := st.done && !v.getLsbD 1, accerr := st.accerr && !v.getLsbD 5 }

/-- CTRL as the host reads it (R33): bits [31:3] read 0. -/
def Ctrl.toWord (c : Ctrl) : Word :=
  0#29 ++ BitVec.ofBool c.irqEn ++ BitVec.ofBool c.strict ++ BitVec.ofBool c.symw

/-- What a host write of `v` leaves in CTRL: bits [31:3] are ignored (R33). -/
def Ctrl.ofWord (v : Word) : Ctrl :=
  { symw := v.getLsbD 0, strict := v.getLsbD 1, irqEn := v.getLsbD 2 }

/-- The interrupt output: a level, not a stored bit (R260). -/
def State.irq (s : State) : Bool := s.status.done && s.ctrl.irqEn

/-- STATUS.ACCERR <- 1: a host access was refused (R43, R44). -/
def State.setAccerr (s : State) : State := { s with status := { s.status with accerr := true } }

/-- TREE_VALID, EMPTY and CODES_VALID take the values given; no other flag changes (R53). -/
def State.setTreeFlags (s : State) (treeValid empty codesValid : Bool) : State :=
  { s with status := { s.status with treeValid := treeValid, empty := empty, codesValid := codesValid } }

/-- CODES_VALID <- 0, the first action of BUILD and GENCODE (R141, R160). -/
def State.clearCodesValid (s : State) : State :=
  { s with status := { s.status with codesValid := false } }

/-- The STATUS part of every completion (R121): BUSY <- 0, DONE <- 1, ERR <- the code. -/
def Status.complete (st : Status) (err : Byte) : Status :=
  { st with busy := false, done := true, err := err }

/-- The STATUS part of every launch (R120): LASTOP <- w[7:0], DONE <- 0, BUSY <- 1; ERR keeps the previous code. -/
def Status.launch (st : Status) (w : Word) : Status :=
  { st with busy := true, done := false, lastop := opField w }

end Sys2Proof.Machine
end

