-- ==== Sys2Proof/Machine/Operands.lean ====
section
/-! DEFINITION. What a command or a host access names: regions of shared memory (spec/20_memory.md R71, R82), the
register window's offsets (spec/10_state.md R24, R30), the words of the NODE and CODE windows (R41, R42, R168), and
the header's symbol field (R180). -/

namespace Sys2Proof.Machine

/-! ## Regions -/

/-- How many bytes the region [A, E) holds when it is well formed (R71). -/
def regionBytes (a e : Word) : Nat := e.toNat - a.toNat

/-- A region is malformed when END < ADDR (R71). -/
def regionMalformed (a e : Word) : Bool := decide (e.toNat < a.toNat)

/-- Whether byte address `x` lies in the half-open region [A, E) (R71). -/
def inRegion (a e : Word) (x : Nat) : Bool := decide (a.toNat ≤ x) && decide (x < e.toNat)

/-- Both regions are non-empty and SRC_ADDR < DST_END and DST_ADDR < SRC_END (R82). -/
def State.overlap (s : State) : Bool :=
  s.srcAddr != s.srcEnd && s.dstAddr != s.dstEnd &&
    decide (s.srcAddr.toNat < s.dstEnd.toNat) && decide (s.dstAddr.toNat < s.srcEnd.toNat)

/-- Whether a command has a source region (R70: DESERIALIZE, PACK and UNPACK read shared memory). -/
def Instr.usesSrc : Instr → Bool
  | .deserialize | .pack | .unpack => true
  | .nop | .clear | .build | .gencode | .serialize => false

/-- Whether a command has a destination region (R70: SERIALIZE, PACK and UNPACK write shared memory). -/
def Instr.usesDst : Instr → Bool
  | .serialize | .pack | .unpack => true
  | .nop | .clear | .build | .gencode | .deserialize => false

/-- The command that is running, if one is and its word decodes (R55, R103). -/
def State.running (s : State) : Option Instr :=
  if s.status.busy then
    match s.pending with
    | none => none
    | some w =>
      match decode w with
      | .ok i => some i
      | .error _ => none
  else none

/-- Whether address `x` lies in the source region of the running command (R86). -/
def State.inRunningSrc (s : State) (x : Nat) : Bool :=
  match s.running with
  | some i => Instr.usesSrc i && inRegion s.srcAddr s.srcEnd x
  | none => false

/-- Whether address `x` lies in the destination region of the running command (R86, R280). -/
def State.inRunningDst (s : State) (x : Nat) : Bool :=
  match s.running with
  | some i => Instr.usesDst i && inRegion s.dstAddr s.dstEnd x
  | none => false

/-! ## The register window -/

/-- The host register port decodes only the low 15 bits of a byte offset (R24). -/
def portOffset (off : Word) : BitVec 15 := off.setWidth 15

/-- Whether a host access is one that is defined: 4 bytes wide, with off[1:0] = 0 (R43). -/
def accessDefined (off : Word) (size : AccessSize) : Bool :=
  size == .word && off.extractLsb' 0 2 == 0#2

/-- The word numbered `k` of the window (its offset divided by 4), as the map of R30 assigns it. -/
def targetOfWord (k : Nat) : Target :=
  if k = 0 then .id
  else if k = 1 then .version
  else if k = 2 then .ctrl
  else if k = 3 then .cmd
  else if k = 4 then .status
  else if k = 5 then .total
  else if k = 6 then .root
  else if k = 7 then .nodeCount
  else if k = 8 then .leafCount
  else if k = 9 then .srcAddr
  else if k = 10 then .srcEnd
  else if k = 11 then .dstAddr
  else if k = 12 then .dstEnd
  else if k = 13 then .outcnt
  else if k = 14 then .bitcntLo
  else if k = 15 then .bitcntHi
  else if k = 16 then .errInfo
  else if k < 256 then .reserved                                                    -- 0x0044 - 0x03FC
  else if k < 512 then .freq (BitVec.ofNat 8 (k - 256))                             -- 0x0400 - 0x07FC
  else if k < 2048 then .reserved                                                   -- 0x0800 - 0x1FFC
  else if k < 3070 then                                                             -- 0x2000 - 0x2FF4
    if (k - 2048) % 2 = 0 then .nodeW0 (Fin.ofNat 511 ((k - 2048) / 2))
    else .nodeW1 (Fin.ofNat 511 ((k - 2048) / 2))
  else if k < 4096 then .reserved                                                   -- 0x2FF8 - 0x3FFC
  else .code (BitVec.ofNat 8 ((k - 4096) / 16)) (Fin.ofNat 16 ((k - 4096) % 16))    -- 0x4000 - 0x7FFC

/-- What an offset selects (R24, R30). -/
def decodeOffset (off : Word) : Target := targetOfWord ((portOffset off).toNat / 4)

/-- The offset of a register or window word (R30, R111). `reserved` stands for the first reserved offset. -/
def Target.offset : Target → Word
  | .id => 0x0000#32
  | .version => 0x0004#32
  | .ctrl => 0x0008#32
  | .cmd => 0x000C#32
  | .status => 0x0010#32
  | .total => 0x0014#32
  | .root => 0x0018#32
  | .nodeCount => 0x001C#32
  | .leafCount => 0x0020#32
  | .srcAddr => 0x0024#32
  | .srcEnd => 0x0028#32
  | .dstAddr => 0x002C#32
  | .dstEnd => 0x0030#32
  | .outcnt => 0x0034#32
  | .bitcntLo => 0x0038#32
  | .bitcntHi => 0x003C#32
  | .errInfo => 0x0040#32
  | .reserved => 0x0044#32
  | .freq s => BitVec.ofNat 32 (0x0400 + 4 * s.toNat)
  | .nodeW0 i => BitVec.ofNat 32 (0x2000 + 8 * i.val)
  | .nodeW1 i => BitVec.ofNat 32 (0x2000 + 8 * i.val + 4)
  | .code s w => BitVec.ofNat 32 (0x4000 + 64 * s.toNat + 4 * w.val)

/-- The registers whose host read is defined while BUSY = 1 (R44). -/
def Target.readableWhileBusy : Target → Bool
  | .id | .version | .ctrl | .cmd | .status => true
  | .total | .root | .nodeCount | .leafCount | .srcAddr | .srcEnd | .dstAddr | .dstEnd | .outcnt | .bitcntLo
  | .bitcntHi | .errInfo | .freq _ | .nodeW0 _ | .nodeW1 _ | .code _ _ | .reserved => false

/-! ## The words of the NODE and CODE windows -/

/-- Word 0 of a node: FREQ (R41). -/
def Node.word0 (n : Node) : Word := n.freq

/-- Word 1 of a node: VALID, LEAF, four reserved zero bits, LEFT, RIGHT, SYM (R41). -/
def Node.word1 (n : Node) : Word :=
  BitVec.ofBool n.valid ++ BitVec.ofBool n.leaf ++ 0#4 ++ BitVec.ofNat 9 n.left.val ++
    BitVec.ofNat 9 n.right.val ++ n.sym

/-- The node whose two window words are given (R41): how two free words make a free entry. Bits [29:26] hold nothing. -/
def Node.ofWords (w0 w1 : Word) : Node where
  valid := w1.getLsbD 31
  leaf  := w1.getLsbD 30
  sym   := w1.extractLsb' 0 8
  freq  := w0
  left  := Fin.ofNat 511 (w1.extractLsb' 17 9).toNat
  right := Fin.ofNat 511 (w1.extractLsb' 8 9).toNat

/-- LEN of a code: the length of BITS (R12, R42). -/
def Code.len (c : Code) : Nat := c.bits.length

/-- The word whose bit 31 is the first bit of `bits`, whose bit 30 is the second, and so on; bits past the end of
`bits` are 0 (R168: left-aligned). -/
def wordOfBits (bits : List Bool) : Word :=
  (List.range 32).foldl (fun acc k => (acc.concat (bits.getD k false)).setWidth 32) 0#32

/-- Word `w` of a code's sixteen (R42, R168): word 0 is PRESENT, 23 zero bits, LEN; words 1 to 8 are BITS, left-aligned;
words 9 to 15 are reserved and 0. -/
def Code.word (c : Code) (w : Fin 16) : Word :=
  if w.val = 0 then BitVec.ofBool c.present ++ 0#23 ++ BitVec.ofNat 8 c.len
  else if w.val ≤ 8 then wordOfBits (c.bits.drop (32 * (w.val - 1)))
  else 0#32

/-! ## The header's fields -/

/-- The bytes of a leaf's symbol in the header: one byte, or two with a high byte of 0 when CTRL.SYMW = 1 (R180). -/
def symField (symw : Bool) (s : Byte) : List Byte := if symw then [0x00#8, s] else [s]

/-- w = 1 + CTRL.SYMW, the bytes of a symbol field (R182). -/
def symWidth (symw : Bool) : Nat := if symw then 2 else 1

/-- The count field: four bytes, most significant first (R181). -/
def countField (t : Word) : List Byte :=
  [t.extractLsb' 24 8, t.extractLsb' 16 8, t.extractLsb' 8 8, t.extractLsb' 0 8]

/-- The 32-bit count whose four bytes are given, `c3` in bits [31:24] (R190). -/
def countOfBytes (c3 c2 c1 c0 : Byte) : Word := c3 ++ c2 ++ c1 ++ c0

end Sys2Proof.Machine
end

