-- ==== Sys2Proof/Machine/Ops.lean ====
section
/-! DEFINITION. The shared operations: shared memory and ADMIT (spec/00_scope.md R7, R12), free values, the internal
memories, launch and completion of a command (spec/40_control.md R120 to R122), RAISING AN ERROR as one operation
(spec/60_exceptions.md R252), and hardware reset (spec/70_reset_and_hazards.md R280). The block has no trap entry and no
return from one (R254, R255): an error is a completion that records its code. -/

namespace Sys2Proof.Machine

/-! ## Shared memory -/

/-- The byte listed at address `a`, if anything has written one. -/
def Memory.lookup : Memory → Nat → Option Byte
  | [], _ => none
  | (b, v) :: m, a => if a = b then some v else Memory.lookup m a

/-- The byte at address `a`: the listed one, else the free value the platform's memory held (assumption log 3). -/
def Memory.read (m : Memory) (a : Nat) : Byte := (Memory.lookup m a).getD (Config.powerOnByte a)

/-- `M[a] <- v` (R12), keeping the canonical form. -/
def Memory.write : Memory → Nat → Byte → Memory
  | [], a, v => [(a, v)]
  | (b, w) :: m, a, v =>
    if a < b then (a, v) :: (b, w) :: m
    else if a = b then (a, v) :: m
    else (b, w) :: Memory.write m a v

/-- Bytes `bs` placed at address `a` and up: the `MEM a: b0 b1 ...` of R114. -/
def Memory.load : Memory → Nat → List Byte → Memory
  | m, _, [] => m
  | m, a, b :: bs => Memory.load (Memory.write m a b) (a + 1) bs

/-- The `n` bytes from address `a` become unspecified: one free byte each, draws `k`, `k + 1`, ... (R252 item 3). -/
def Memory.havoc : Memory → Nat → Nat → Nat → Memory
  | m, _, 0, _ => m
  | m, a, n + 1, k => Memory.havoc (Memory.write m a (Config.freeByte k)) (a + 1) n (k + 1)

/-- The bytes at the listed addresses become unspecified: one free byte each (R86). -/
def Memory.havocAt : Memory → List Nat → Nat → Memory
  | m, [], _ => m
  | m, a :: as, k => Memory.havocAt (Memory.write m a (Config.freeByte k)) as (k + 1)

/-! ## ADMIT -/

/-- What one record of the memory map says of an access kind. -/
def AdmitRegion.allows (r : AdmitRegion) : AccessKind → Bool
  | .read => r.read
  | .write => r.write

/-- Whether a record holds the address. -/
def AdmitRegion.holds (r : AdmitRegion) (a : Word) : Bool :=
  decide (r.first.toNat ≤ a.toNat) && decide (a.toNat ≤ r.last.toNat)

/-- `ADMIT(a, kind)` of a memory map: the first record that holds the address decides; no record, no access (R7). -/
def admitOf (regions : List AdmitRegion) (a : Word) (k : AccessKind) : Bool :=
  match regions.find? (fun r => r.holds a) with
  | some r => r.allows k
  | none => false

/-- `ADMIT(a, kind)` of the platform (R7). -/
def State.admits (s : State) (a : Word) (k : AccessKind) : Bool := admitOf s.admitMap a k

/-! ## Free values -/

/-- One free 32-bit value (R44, R61). -/
def State.drawWord (s : State) : Word × State := (Config.freeWord s.draws, { s with draws := s.draws + 1 })

/-- One free byte (R86). -/
def State.drawByte (s : State) : Byte × State := (Config.freeByte s.draws, { s with draws := s.draws + 1 })

/-- The free NODE entry of draw number `k`: two free words read as the entry's window words (R143, R144, R199). -/
def freeNode (k : Nat) : Node := Node.ofWords (Config.freeWord k) (Config.freeWord (k + 1))

/-- A list of length `n`: `l` cut to `n` entries, or filled up with `d`. -/
def fill {α : Type} (n : Nat) (d : α) (l : List α) : Vector α n :=
  ⟨(l.take n ++ List.replicate (n - l.length) d).toArray, by simp; omega⟩

/-- A NODE memory of free values: entry `i` takes draws `k + 2i` and `k + 2i + 1`. -/
@[irreducible] def freeNodes (k : Nat) : Vector (Option Node) 511 :=
  fill 511 none ((List.range 511).map (fun i => some (freeNode (k + 2 * i))))

/-- How many draws a NODE memory of free values takes: two for each entry. -/
def nodeDraws : Nat := 1022

/-- Every NODE entry becomes unspecified: a free value per entry (R143, R144, R199). -/
def State.trashNodes (s : State) : State :=
  { s with node := freeNodes s.draws, draws := s.draws + nodeDraws }

/-! ## The internal memories -/

/-- FREQ[sym]. -/
def State.freqAt (s : State) (sym : Byte) : Option Word := s.freq[sym.toNat]'(sym.isLt)

/-- FREQ[sym] <- v. -/
def State.setFreq (s : State) (sym : Byte) (v : Word) : State :=
  { s with freq := s.freq.set sym.toNat (some v) sym.isLt }

/-- NODE[i] of a node memory. -/
def nodeIn (m : Vector (Option Node) 511) (i : NodeIdx) : Option Node := m[i.val]'(i.isLt)

/-- NODE[i]. -/
def State.nodeAt (s : State) (i : NodeIdx) : Option Node := nodeIn s.node i

/-- CODE[sym] of a code table. -/
def codeIn (t : Vector (Option Code) 256) (sym : Byte) : Option Code := t[sym.toNat]'(sym.isLt)

/-- CODE[sym]. -/
def State.codeAt (s : State) (sym : Byte) : Option Code := codeIn s.code sym

/-- The NODE entry of a node that belongs to no tree, as CLEAR writes it (R126). -/
def Node.zero : Node := { valid := false, leaf := false, sym := 0#8, freq := 0#32, left := 0, right := 0 }

/-- `Leaf(s)` with a frequency, as BUILD and DESERIALIZE write it (R140, R190). -/
def Node.mkLeaf (sym : Byte) (freq : Word) : Node :=
  { valid := true, leaf := true, sym := sym, freq := freq, left := 0, right := 0 }

/-- `Node(l, r)` with a frequency, as BUILD and DESERIALIZE write it (R140, R190). -/
def Node.mkNode (freq : Word) (left right : NodeIdx) : Node :=
  { valid := true, leaf := false, sym := 0#8, freq := freq, left := left, right := right }

/-- The CODE entry of a symbol without a code (R126, R160). -/
def Code.absent : Code := { present := false, bits := [] }

/-- A CODE memory with every entry absent (R126, R160, R164). -/
def noCodes : Vector (Option Code) 256 := Vector.replicate 256 (some Code.absent)

/-- TOTAL, ROOT, NODE_COUNT and LEAF_COUNT <- 0 (R126, R143, R144, R190). -/
def State.clearTreeRegs (s : State) : State :=
  { s with total := 0#32, root := 0, nodeCount := 0, leafCount := 0 }

/-- OUTCNT and BITCNT take the values a command reports (R39, R122). -/
def State.setCounts (s : State) (out : Word) (bits : BitCount) : State :=
  { s with outcnt := out, bitcnt := bits }

/-! ## A part of a command's body -/

/-- How a part of a command's pseudocode ends: it falls through with a result, or raises an error (R12), or meets a
state that the spec gives no result for. -/
inductive Part (α : Type) where
  | ok (x : α)
  | raise (e : Err) (info : Word) (s : State)
  | stuck (f : Fault)

/-- The lines `f` after the part `p`: nothing after a raise runs (R252). -/
def Part.bind {α β : Type} (p : Part α) (f : α → Part β) : Part β :=
  match p with
  | .ok x => f x
  | .raise e info s => .raise e info s
  | .stuck r => .stuck r

/-- `MemRead(a, 1)` (R12): BUS when ADMIT refuses; a byte the host raced for reads as a free value (R86). -/
def memRead (s : State) (a : Word) : Part (Byte × State) :=
  if s.admits a .read then
    if s.raced.contains a.toNat then .ok s.drawByte else .ok (s.mem.read a.toNat, s)
  else .raise .bus a s

/-- `MemWrite(a, 1, v)` (R12): BUS when ADMIT refuses. -/
def memWrite (s : State) (a : Word) (v : Byte) : Part State :=
  if s.admits a .write then .ok { s with mem := s.mem.write a.toNat v } else .raise .bus a s

/-! ## Launch, completion and error -/

/-- Launch of the command word `w` (R120). -/
def State.launch (s : State) (w : Word) : State :=
  { s with pending := some w, status := s.status.launch w }

/-- How the rule of a command ends: `done()` (R122), `raise E(info)` (R252), or no result at all. `trash` says whether
the error leaves the destination region unspecified (R252 item 3). -/
inductive RunResult where
  | done (s : State)
  | raised (e : Err) (info : Word) (trash : Bool) (s : State)
  | stuck (f : Fault)

/-- Every byte of [DST_ADDR, DST_END), launch values in `s0`, becomes unspecified (R252 item 3, R280). -/
def State.trashDst (s0 s : State) : State :=
  { s with
    mem := s.mem.havoc s0.dstAddr.toNat (regionBytes s0.dstAddr s0.dstEnd) s.draws
    draws := s.draws + regionBytes s0.dstAddr s0.dstEnd }

/-- The lines every completion ends with (R121, R122): ERR and ERR_INFO, BUSY <- 0, DONE <- 1, no pending word. -/
def State.finish (s : State) (err : Byte) (info : Word) : State :=
  { s with pending := none, errInfo := info, status := s.status.complete err }

/-- The register part of an error (R121, R252): OUTCNT and BITCNT <- 0, SRC_ADDR and DST_ADDR <- their launch values. -/
def State.abortRegs (s0 s : State) : State :=
  { s with outcnt := 0#32, bitcnt := 0#40, srcAddr := s0.srcAddr, dstAddr := s0.dstAddr }

/-- Raising an error (R252), the one operation of every command error: `s0` is the state at launch, `s` what the
command rule wrote before the raise. -/
def raiseError (s0 : State) (e : Err) (info : Word) (trash : Bool) (s : State) : State :=
  (State.abortRegs s0 (if trash then State.trashDst s0 s else s)).finish e.code info

/-- Completion of the command that ran from the launch state `s0` (R121, R122). -/
def complete (s0 : State) : RunResult → Host.Outcome State Fault Refusal
  | .done s => .next (s.finish 0#8 0#32)
  | .raised e info trash s => .next (raiseError s0 e info trash s)
  | .stuck f => .fault f

/-- The bytes the host raced for take unspecified values when the command is over (R86). -/
def State.settleRaces (s : State) : State :=
  { s with
    mem := s.mem.havocAt s.raced s.draws
    draws := s.draws + s.raced.length
    raced := [] }

/-! ## Hardware reset -/

/-- The command between launch and completion, if one is, abandoned: its destination region becomes unspecified, and no
other byte of shared memory changes (R280, R61). -/
def State.abandon (s : State) : State :=
  match s.running with
  | some i => if Instr.usesDst i then State.trashDst s s else s
  | none => s

/-- Hardware reset (R280, R60, R61): every register, field and internal memory as after reset. Shared memory keeps its
bytes but for the destination region of an abandoned command. The platform's memory map and the model's own draws,
schedule and response stay; no race outlives the command it was with (assumption log 7). -/
def State.hardwareReset (s : State) : State :=
  { State.reset with
    mem := s.abandon.mem
    admitMap := s.admitMap
    draws := s.abandon.draws
    schedule := s.schedule
    response := s.response }

end Sys2Proof.Machine
end

