-- ==== Sys2Proof/Machine/BitPacker.lean ====
section
/-! DEFINITION. PACK, the bit packer (spec/44_bit_packer.md R210 to R220). -/

namespace Sys2Proof.Machine

/-- The working state of PACK (R210, R56): the machine, the output pointer `q`, the accumulator `acc` with `n` pending
bits, and the bits produced. -/
structure PackState where
  s    : State
  q    : Word
  acc  : Byte
  n    : Nat
  bits : Nat

/-- `emit(v)` (R210): DST_FULL at DST_END (R218), else one byte written. -/
def PackState.emit (st : PackState) (v : Byte) : Part PackState :=
  if st.q = st.s.dstEnd then .raise .dstFull st.s.dstEnd st.s
  else (memWrite st.s st.q v).bind (fun s' => .ok { st with s := s', q := st.q + 1#32 })

/-- `(acc[6:0], b)`: the bit enters at bit 0 and earlier bits move up (R220). -/
def shiftIn (acc : Byte) (b : Bool) : Byte := (acc.extractLsb' 0 7).concat b

/-- One code bit (R210): shifted in, and the byte emitted when it is the eighth. -/
def PackState.pushBit (st : PackState) (b : Bool) : Part PackState :=
  let st1 := { st with acc := shiftIn st.acc b, n := st.n + 1, bits := st.bits + 1 }
  if st1.n = 8 then (st1.emit st1.acc).bind (fun st2 => .ok { st2 with acc := 0x00#8, n := 0 })
  else .ok st1

/-- The bits of one code, in order (R210). -/
def packCode : List Bool → PackState → Part PackState
  | [], st => .ok st
  | b :: bs, st => (st.pushBit b).bind (packCode bs)

/-- The loop over `k` source bytes from address `a` (R210, R214): NOCODE at a byte without a code (R215). -/
def packBytes : Nat → Word → PackState → Part PackState
  | 0, _, st => .ok st
  | k + 1, a, st =>
    (memRead st.s a).bind (fun r =>
      match r.2.codeAt r.1 with
      | none => .stuck .unwrittenCode
      | some c =>
        if c.present then (packCode c.bits { st with s := r.2 }).bind (packBytes k (a + 1#32))
        else .raise .nocode a r.2)

/-- The final partial byte, left-aligned with zero padding (R210, R220). -/
def PackState.flush (st : PackState) : Part PackState :=
  if st.n = 0 then .ok st else st.emit (st.acc <<< (8 - st.n))

/-- The body of PACK after its precondition checks (R210). -/
def packBody (s : State) : Part PackState :=
  (packBytes (regionBytes s.srcAddr s.srcEnd) s.srcAddr
    { s := s, q := s.dstAddr, acc := 0x00#8, n := 0, bits := 0 }).bind PackState.flush

/-- The rule of PACK (R210): RANGE (source, then destination), OVERLAP, LENGTH (R212), NOCODES (R213), then the body. -/
def runPack (s : State) : RunResult :=
  if regionMalformed s.srcAddr s.srcEnd then .raised .range 0#32 false s
  else if regionMalformed s.dstAddr s.dstEnd then .raised .range 0#32 false s
  else if s.overlap then .raised .overlap 0#32 false s
  else if regionBytes s.srcAddr s.srcEnd ≠ s.total.toNat then .raised .length 0#32 false s
  else if s.total ≠ 0#32 ∧ s.status.codesValid = false then .raised .nocodes 0#32 false s
  else
    match packBody s with
    | .ok st =>
      let moved := { st.s with srcAddr := s.srcEnd, dstAddr := st.q }
      .done (moved.setCounts (st.q - s.dstAddr) (BitVec.ofNat 40 st.bits))
    | .raise e info s' => .raised e info true s'
    | .stuck f => .stuck f

/-- PACK (R210). -/
def execPack (s : State) : Host.Outcome State Fault Refusal := complete s (runPack s)

end Sys2Proof.Machine
end

