-- ==== Sys2Proof/Machine/BitUnpacker.lean ====
section
/-! DEFINITION. UNPACK, the bit unpacker (spec/45_bit_unpacker.md R230 to R244). -/

namespace Sys2Proof.Machine

/-- The working state of UNPACK (R230, R231, R56): the machine, the read pointer `p`, the write pointer `q`, the symbols
written, the bits consumed, the walk pointer `n`, and the loaded byte `cur` with `rem` unread bits. -/
structure UnpackState where
  s    : State
  p    : Word
  q    : Word
  cnt  : Nat
  bits : Nat
  n    : NodeIdx
  cur  : Byte
  rem  : Nat

/-- A symbol written at `q` (R230, R233). -/
def UnpackState.putSym (st : UnpackState) (sym : Byte) : Part UnpackState :=
  (memWrite st.s st.q sym).bind (fun s' => .ok { st with s := s', q := st.q + 1#32, cnt := st.cnt + 1 })

/-- The single-leaf tree (R235): the symbol written `k` times, no payload read. -/
def putRun (sym : Byte) : Nat → UnpackState → Part UnpackState
  | 0, st => .ok st
  | k + 1, st => (st.putSym sym).bind (putRun sym k)

/-- One bit of the payload (R230): the next bit of `cur`, most significant first, moves the walk pointer to LEFT (0) or
RIGHT (1); on a leaf its symbol is written and the walk starts again at ROOT. -/
def UnpackState.takeBit (st : UnpackState) : Part UnpackState :=
  let bit := st.cur.getLsbD (st.rem - 1)
  match st.s.nodeAt st.n with
  | none => .stuck .malformedTree
  | some nd =>
    let child := if bit then nd.right else nd.left
    let st1 := { st with rem := st.rem - 1, bits := st.bits + 1, n := child }
    match st1.s.nodeAt child with
    | none => .stuck .malformedTree
    | some cd =>
      if cd.leaf then (st1.putSym cd.sym).bind (fun st2 => .ok { st2 with n := st2.s.root })
      else .ok st1

/-- At most `k` bits of the loaded byte, stopping at once when `total` symbols are written (R240). -/
def takeBits (total : Nat) : Nat → UnpackState → Part UnpackState
  | 0, st => .ok st
  | k + 1, st => if st.cnt = total then .ok st else st.takeBit.bind (takeBits total k)

/-- The decode loop for an internal root (R230), with `left` bytes between `p` and SRC_END: a byte is loaded only when a
bit is needed (R233), and SRC_EXHAUSTED when none is left (R237). -/
def unpackBytes (total : Nat) : Nat → UnpackState → Part UnpackState
  | 0, st => if st.cnt = total then .ok st else .raise .srcExhausted st.s.srcEnd st.s
  | left + 1, st =>
    if st.cnt = total then .ok st
    else
      (memRead st.s st.p).bind (fun r =>
        (takeBits total 8 { st with s := r.2, p := st.p + 1#32, cur := r.1, rem := 8 }).bind
          (unpackBytes total left))

/-- The symbols of a non-zero TOTAL (R230): NOTREE and DST_FULL before any access are in `runUnpack`. -/
def unpackSymbols (s : State) (st : UnpackState) : Part UnpackState :=
  match s.nodeAt s.root with
  | none => .stuck .malformedTree
  | some nd =>
    if nd.leaf then putRun nd.sym s.total.toNat st
    else unpackBytes s.total.toNat (regionBytes s.srcAddr s.srcEnd) st

/-- The padding bits cur[rem-1:0] are all 0 (R236). -/
def UnpackState.paddingZero (st : UnpackState) : Bool :=
  (List.range st.rem).all (fun i => !st.cur.getLsbD i)

/-- The strict checks after the last symbol (R236): PAD at the last byte read, then TRAIL at the first byte unread. -/
def strictChecks (st : UnpackState) : Part UnpackState :=
  if st.s.ctrl.strict then
    if 0 < st.rem ∧ st.paddingZero = false then .raise .pad (st.p - 1#32) st.s
    else if st.p ≠ st.s.srcEnd then .raise .trail st.p st.s
    else .ok st
  else .ok st

/-- How UNPACK ends once its symbols are written (R230): OUTCNT, BITCNT and the advanced pointers. -/
def unpackDone (st : UnpackState) : RunResult :=
  let moved := { st.s with srcAddr := st.p, dstAddr := st.q }
  .done (moved.setCounts (BitVec.ofNat 32 st.cnt) (BitVec.ofNat 40 st.bits))

/-- The working state UNPACK starts with (R231). -/
def unpackStart (s : State) : UnpackState :=
  { s := s, p := s.srcAddr, q := s.dstAddr, cnt := 0, bits := 0, n := s.root, cur := 0x00#8, rem := 0 }

/-- Whether an error of the symbols or the strict checks comes after UNPACK has begun its accesses (R252 items 2 and 3):
each does but SRC_EXHAUSTED at an empty source region, which is raised for the first bit, before any read or write. -/
def unpackAccessed (s : State) (e : Err) : Bool := !(e == .srcExhausted && s.srcAddr == s.srcEnd)

/-- The rule of UNPACK (R230): RANGE (source, then destination), OVERLAP; for TOTAL != 0 also NOTREE (R232) and DST_FULL
(R234); then the symbols and the strict checks. With TOTAL = 0 no access is made (R238), so its one error, TRAIL, leaves
shared memory unchanged (R252 item 2; assumption log 6). -/
def runUnpack (s : State) : RunResult :=
  if regionMalformed s.srcAddr s.srcEnd then .raised .range 0#32 false s
  else if regionMalformed s.dstAddr s.dstEnd then .raised .range 0#32 false s
  else if s.overlap then .raised .overlap 0#32 false s
  else if s.total = 0#32 then
    match strictChecks (unpackStart s) with
    | .ok st => unpackDone st
    | .raise e info s' => .raised e info false s'
    | .stuck f => .stuck f
  else if s.status.treeValid = false then .raised .notree 0#32 false s
  else if regionBytes s.dstAddr s.dstEnd < s.total.toNat then .raised .dstFull s.dstEnd false s
  else
    match (unpackSymbols s (unpackStart s)).bind strictChecks with
    | .ok st => unpackDone st
    | .raise e info s' => .raised e info (unpackAccessed s e) s'
    | .stuck f => .stuck f

/-- UNPACK (R230). -/
def execUnpack (s : State) : Host.Outcome State Fault Refusal := complete s (runUnpack s)

end Sys2Proof.Machine
end

