-- ==== Sys2Proof/Machine/CodeGenerator.lean ====
section
/-! DEFINITION. GENCODE, the code generator (spec/42_code_generator.md R160 to R168). -/

namespace Sys2Proof.Machine

/-- How the walk ends: the code table, a duplicate symbol (R164), or a node memory that holds no tree. -/
inductive WalkResult where
  | ok (table : Vector (Option Code) 256)
  | dup (sym : Byte)
  | stuck
deriving DecidableEq

/-- CODE[sym].PRESENT = 1. -/
def codePresent (t : Vector (Option Code) 256) (sym : Byte) : Bool :=
  match codeIn t sym with
  | some c => c.present
  | none => false

/-- CODE[sym] <- (PRESENT = 1, LEN = |p|, BITS = p) (R160). -/
def assignCode (t : Vector (Option Code) 256) (sym : Byte) (p : List Bool) : Vector (Option Code) 256 :=
  t.set sym.toNat (some { present := true, bits := p }) sym.isLt

/-- `walk(n, p)` (R160, R161): pre-order, left with `p ++ [0]`, right with `p ++ [1]`. `levels` bounds the depth: a tree
that R49 allows has at most 256 levels. -/
def walk (nodes : Vector (Option Node) 511) :
    Nat → NodeIdx → List Bool → Vector (Option Code) 256 → WalkResult
  | 0, _, _, _ => .stuck
  | levels + 1, n, p, t =>
    match nodeIn nodes n with
    | none => .stuck
    | some nd =>
      if nd.leaf then
        if codePresent t nd.sym then .dup nd.sym else .ok (assignCode t nd.sym p)
      else
        match walk nodes levels nd.left (p ++ [false]) t with
        | .ok t' => walk nodes levels nd.right (p ++ [true]) t'
        | .dup sym => .dup sym
        | .stuck => .stuck

/-- The rule of GENCODE (R160): NOTREE (R162), DUP_SYM (R164), or the code table (R163). -/
def runGencode (s : State) : RunResult :=
  if s.status.treeValid then
    match walk s.node Config.treeLevels s.root [] noCodes with
    | .ok t =>
      let coded := { s with code := t, status := { s.status with codesValid := true } }
      .done (coded.setCounts 0#32 0#40)
    | .dup sym => .raised .dupSym (sym.setWidth 32) false { s.clearCodesValid with code := noCodes }
    | .stuck => .stuck .malformedTree
  else .raised .notree 0#32 false s.clearCodesValid

/-- GENCODE (R160). -/
def execGencode (s : State) : Host.Outcome State Fault Refusal := complete s (runGencode s)

end Sys2Proof.Machine
end

