-- ==== Sys2Proof/Machine/Control.lean ====
section
/-! DEFINITION. NOP, CLEAR and the illegal command (spec/40_control.md R124 to R126). -/

namespace Sys2Proof.Machine

/-- The rule of NOP (R125): OUTCNT and BITCNT <- 0. -/
def runNop (s : State) : RunResult := .done (s.setCounts 0#32 0#40)

/-- NOP (R125). -/
def execNop (s : State) : Host.Outcome State Fault Refusal := complete s (runNop s)

/-- The rule of CLEAR (R126): FREQ, CODE and NODE zeroed, no tree, no codes. -/
def runClear (s : State) : RunResult :=
  let cleared :=
    { s with
      freq := Vector.replicate 256 (some 0#32)
      code := noCodes
      node := Vector.replicate 511 (some Node.zero) }
  .done ((cleared.clearTreeRegs.setTreeFlags false false false).setCounts 0#32 0#40)

/-- CLEAR (R126). -/
def execClear (s : State) : Host.Outcome State Fault Refusal := complete s (runClear s)

/-- An illegal command (R124): `raise ILLEGAL(w)`. -/
def execIllegal (w : Word) (s : State) : Host.Outcome State Fault Refusal :=
  complete s (.raised .illegal w false s)

end Sys2Proof.Machine
end

