-- ==== Sys2Proof/Machine/TreeBuilder.lean ====
section
/-! DEFINITION. BUILD, the tree builder (spec/41_tree_builder.md R140 to R154): a minimum-frequency priority queue with
the key (frequency, node index). -/

namespace Sys2Proof.Machine

/-- An entry of the priority queue: a node and the key it is ordered by (R146). -/
structure QEntry where
  freq : Word
  idx  : Nat
deriving DecidableEq, Repr

/-- The order of the queue: FREQ first, then the node index (R146). -/
def QEntry.before (a b : QEntry) : Bool :=
  decide (a.freq.toNat < b.freq.toNat) || (a.freq == b.freq && decide (a.idx < b.idx))

/-- The entry with the smallest key among `e` and `q` (R146). -/
def minEntry (e : QEntry) (q : List QEntry) : QEntry :=
  q.foldl (fun m x => if x.before m then x else m) e

/-- `extractMin(Q)` (R146). -/
def extractMin : List QEntry → Option (QEntry × List QEntry)
  | [] => none
  | e :: q => some (minEntry e q, (e :: q).erase (minEntry e q))

/-- Every FREQ entry's value in symbol order, or `none` when an entry is unwritten (R153). -/
def freqValues (s : State) : Option (List Word) := s.freq.toList.mapM id

/-- SUM over s of FREQ[s], exact (R140). -/
def freqSum (fs : List Word) : Nat := (fs.map BitVec.toNat).sum

/-- The present symbols with their frequencies, in ascending symbol order (R142). -/
def presentSymbols (fs : List Word) : List (Byte × Word) :=
  (fs.zipIdx.filter (fun p => p.1 != 0#32)).map (fun p => (BitVec.ofNat 8 p.2, p.1))

/-- The leaves, one for each present symbol (R142). -/
def leafNodes (present : List (Byte × Word)) : List Node := present.map (fun p => Node.mkLeaf p.1 p.2)

/-- The queue Q = {0, ..., L-1} (R140). -/
def initialQueue (leaves : List Node) : List QEntry := leaves.zipIdx.map (fun p => ⟨p.1.freq, p.2⟩)

/-- The merged node: the first extracted entry `x` is the RIGHT child, the second `y` the LEFT (R147); FREQ is the sum
(R148). -/
def mergedNode (x y : QEntry) : Node :=
  Node.mkNode (x.freq + y.freq) (Fin.ofNat 511 y.idx) (Fin.ofNat 511 x.idx)

/-- The merge loop (R140), at most `fuel` merges: `nodes` holds NODE[0 .. next-1], so `next` is its length. The loop
ends when |Q| < 2. -/
def mergeLoop : Nat → List Node → List QEntry → List Node × List QEntry
  | 0, nodes, q => (nodes, q)
  | fuel + 1, nodes, q =>
    match extractMin q with
    | none => (nodes, q)
    | some (x, q1) =>
      match extractMin q1 with
      | none => (nodes, q)
      | some (y, q2) =>
        let n := mergedNode x y
        mergeLoop fuel (nodes ++ [n]) (⟨n.freq, nodes.length⟩ :: q2)

/-- The node list of the whole tree and the last queue, for leaves `leaves`: L leaves make L-1 merges (R149). -/
def buildNodes (leaves : List Node) : List Node × List QEntry :=
  mergeLoop leaves.length leaves (initialQueue leaves)

/-- The one element of the last queue (R149). -/
def queueRoot (q : List QEntry) : NodeIdx :=
  match q with
  | [] => 0
  | e :: _ => Fin.ofNat 511 e.idx

/-- A success of BUILD (R145): NODE, ROOT, NODE_COUNT = 2L-1, LEAF_COUNT = L, TOTAL, and the flags. -/
def buildSuccess (s : State) (fs : List Word) : State :=
  let leaves := leafNodes (presentSymbols fs)
  let built := buildNodes leaves
  let installed :=
    { s with
      node := fill 511 (some Node.zero) (built.1.map some)
      root := queueRoot built.2
      nodeCount := Fin.ofNat 512 (2 * leaves.length - 1)
      leafCount := Fin.ofNat 257 leaves.length
      total := BitVec.ofNat 32 (freqSum fs) }
  (installed.setTreeFlags true false false).setCounts 0#32 0#40

/-- The rule of BUILD (R140): EMPTY first (R143), then TOTAL_OVF (R144), then the tree. -/
def runBuild (s : State) : RunResult :=
  match freqValues s with
  | none => .stuck .unwrittenFreq
  | some fs =>
    if presentSymbols fs = [] then
      .raised .empty 0#32 false ((s.clearTreeRegs.setTreeFlags false true false).trashNodes)
    else if Config.maxTotal < freqSum fs then
      .raised .totalOvf 0#32 false ((s.clearTreeRegs.setTreeFlags false false false).trashNodes)
    else .done (buildSuccess s fs)

/-- BUILD (R140). -/
def execBuild (s : State) : Host.Outcome State Fault Refusal := complete s (runBuild s)

end Sys2Proof.Machine
end

