-- ==== Sys2Proof/Machine/TreeSerializer.lean ====
section
/-! DEFINITION. SERIALIZE and DESERIALIZE, the tree serializer (spec/43_tree_serializer.md R180 to R200). -/

namespace Sys2Proof.Machine

/-! ## SERIALIZE -/

/-- The bytes `ser(n)` puts, in order (R180, R182); `none` when the node memory holds no tree of at most `levels`
levels at `n`. -/
def serBytes (nodes : Vector (Option Node) 511) (symw : Bool) : Nat → NodeIdx → Option (List Byte)
  | 0, _ => none
  | levels + 1, n =>
    match nodeIn nodes n with
    | none => none
    | some nd =>
      if nd.leaf then some (0x01#8 :: symField symw nd.sym)
      else
        match serBytes nodes symw levels nd.left, serBytes nodes symw levels nd.right with
        | some l, some r => some (0x00#8 :: (l ++ r))
        | _, _ => none

/-- The bytes SERIALIZE writes: the count, then the tree unless there is none (R182, R184). -/
def headerBytes (s : State) : Option (List Byte) :=
  if s.status.treeValid then
    match serBytes s.node s.ctrl.symw Config.treeLevels s.root with
    | some bs => some (countField s.total ++ bs)
    | none => none
  else some (countField s.total)

/-- The header size of R182. -/
def headerSize (s : State) : Nat :=
  4 + (if s.status.treeValid then s.nodeCount.val + symWidth s.ctrl.symw * s.leafCount.val else 0)

/-- `put` of each byte in turn, from address `q` (R182, R183): the state and the address after the last. -/
def putBytes : List Byte → State → Word → Part (State × Word)
  | [], s, q => .ok (s, q)
  | b :: bs, s, q => (memWrite s q b).bind (fun s' => putBytes bs s' (q + 1#32))

/-- The rule of SERIALIZE (R182): RANGE, NOTREE, DST_FULL (R186), then the writes, each of which may raise BUS. -/
def runSerialize (s : State) : RunResult :=
  if regionMalformed s.dstAddr s.dstEnd then .raised .range 0#32 false s
  else if !s.status.treeValid && !s.status.empty then .raised .notree 0#32 false s
  else if regionBytes s.dstAddr s.dstEnd < headerSize s then .raised .dstFull s.dstEnd false s
  else
    match headerBytes s with
    | none => .stuck .malformedTree
    | some bs =>
      match putBytes bs s s.dstAddr with
      | .ok (s', q) =>
        let moved := { s' with dstAddr := q }
        .done (moved.setCounts (BitVec.ofNat 32 (headerSize s)) 0#40)
      | .raise e info s' => .raised e info true s'
      | .stuck f => .stuck f

/-- SERIALIZE (R182). -/
def execSerialize (s : State) : Host.Outcome State Fault Refusal := complete s (runSerialize s)

/-! ## DESERIALIZE -/

/-- The working state of `parse()` (R190, R56): the machine, the read pointer `p`, the nodes allocated `k` and the
leaves read. -/
structure ParseState where
  s      : State
  p      : Word
  k      : Nat
  leaves : Nat

/-- `readByte()` (R190): SRC_EXHAUSTED at SRC_END (R200), checked before the read it would have made (R253). -/
def readByte (s : State) (p : Word) : Part (Byte × State) :=
  if p = s.srcEnd then .raise .srcExhausted s.srcEnd s else memRead s p

/-- `readByte()` inside `parse()`: the byte, and the working state with `p` advanced. -/
def ParseState.next (st : ParseState) : Part (Byte × ParseState) :=
  (readByte st.s st.p).bind (fun r => .ok (r.1, { st with s := r.2, p := st.p + 1#32 }))

/-- NODE[i] <- n. -/
def ParseState.putNode (st : ParseState) (i : NodeIdx) (n : Node) : ParseState :=
  { st with s := { st.s with node := st.s.node.set i.val (some n) i.isLt } }

/-- The symbol field of a leaf (R190): one byte, or two with BAD_SYM at the high byte's address when it is not 0
(R195), checked after both are read. -/
def parseSym (st : ParseState) : Part (Byte × ParseState) :=
  if st.s.ctrl.symw then
    st.next.bind (fun hi =>
      hi.2.next.bind (fun lo =>
        if hi.1 = 0x00#8 then .ok lo else .raise .badSym st.p lo.2.s))
  else st.next

/-- `parse()` (R190): the index of the subtree's root and the working state. `calls` bounds the nesting: a call at
nesting 511 finds k = 511 and raises TREE_OVF (R192), so 512 is never used up. -/
def parse : Nat → ParseState → Part (NodeIdx × ParseState)
  | 0, _ => .stuck .malformedTree
  | calls + 1, st =>
    if h : st.k < 511 then
      let idx : NodeIdx := ⟨st.k, h⟩
      let st1 := { st with k := st.k + 1 }
      st1.next.bind (fun tag =>
        if tag.1 = 0x01#8 then
          (parseSym tag.2).bind (fun sym =>
            let st2 := sym.2.putNode idx (Node.mkLeaf sym.1 0#32)
            .ok (idx, { st2 with leaves := st2.leaves + 1 }))
        else if tag.1 = 0x00#8 then
          (parse calls tag.2).bind (fun l =>
            (parse calls l.2).bind (fun r =>
              .ok (idx, r.2.putNode idx (Node.mkNode 0#32 l.1 r.1))))
        else .raise .badTag st.p tag.2.s)
    else .raise .treeOvf st.p st.s

/-- The four bytes of the count (R190), the machine and the address after them. -/
def readCount (s : State) (p : Word) : Part (Word × State × Word) :=
  (readByte s p).bind (fun c3 =>
    (readByte c3.2 (p + 1#32)).bind (fun c2 =>
      (readByte c2.2 (p + 2#32)).bind (fun c1 =>
        (readByte c1.2 (p + 3#32)).bind (fun c0 =>
          .ok (countOfBytes c3.1 c2.1 c1.1 c0.1, c0.2, p + 4#32)))))

/-- The NODE memory of a state that DESERIALIZE leaves without a tree after a count of 0: unspecified when the command
invalidated a tree (`hadTree`), else as it was, which is what CLEAR left or already unspecified (R41; assumption log
20). -/
def State.dropTree (s : State) (hadTree : Bool) : State := if hadTree then s.trashNodes else s

/-- The body of DESERIALIZE after its RANGE check and the invalidation of tree and codes (R190): count 0 is the empty
artifact (R191), else the tree (R193). `hadTree` is TREE_VALID at launch. -/
def deserializeBody (hadTree : Bool) (s : State) : Part State :=
  (readCount s s.srcAddr).bind (fun c =>
    let cnt := c.1
    let s1 := c.2.1
    let p := c.2.2
    if cnt = 0#32 then
      let emptied := { (s1.dropTree hadTree).setTreeFlags false true false with srcAddr := p }
      .ok (emptied.setCounts (p - s.srcAddr) 0#40)
    else
      (parse 512 { s := s1, p := p, k := 0, leaves := 0 }).bind (fun r =>
        let st := r.2
        let installed :=
          { st.s with
            root := r.1
            node := fill 511 (some Node.zero) (st.s.node.toList.take st.k)
            nodeCount := Fin.ofNat 512 st.k
            leafCount := Fin.ofNat 257 st.leaves
            total := cnt
            srcAddr := st.p }
        .ok ((installed.setTreeFlags true false false).setCounts (st.p - s.srcAddr) 0#40)))

/-- The rule of DESERIALIZE (R190): RANGE changes nothing; a later error leaves no tree, no codes and an unspecified
NODE memory (R199). -/
def runDeserialize (s : State) : RunResult :=
  if regionMalformed s.srcAddr s.srcEnd then .raised .range 0#32 false s
  else
    match deserializeBody s.status.treeValid (s.setTreeFlags false false false).clearTreeRegs with
    | .ok s' => .done s'
    | .raise e info s' => .raised e info false s'.trashNodes
    | .stuck f => .stuck f

/-- DESERIALIZE (R190). -/
def execDeserialize (s : State) : Host.Outcome State Fault Refusal := complete s (runDeserialize s)

end Sys2Proof.Machine
end

