-- ==== Sys2Proof/Machine/Engine.lean ====
section
/-! DEFINITION. The ENGINE's step (spec/10_state.md R22, R55; spec/40_control.md R121, R124): the pending command word
is decoded and run to completion. -/

namespace Sys2Proof.Machine

/-- What follows a completion: the bytes the host raced for take unspecified values (R86). -/
def afterCompletion : Host.Outcome State Fault Refusal → Host.Outcome State Fault Refusal
  | .next s => .next s.settleRaces
  | .fault r => .fault r
  | .refused r => .refused r

/-- The pending word run to completion: a command by its meaning, any other word as an illegal command (R103, R124). -/
def runWord (w : Word) (s : State) : Host.Outcome State Fault Refusal :=
  match decode w with
  | .ok i => exec i s
  | .error _ => execIllegal w s

/-- The ENGINE step (R22): enabled only when BUSY = 1; otherwise the engine keeps all state (R274). -/
def engineStep (s : State) : Host.Outcome State Fault Refusal :=
  if s.status.busy then
    match s.pending with
    | some w => afterCompletion (runWord w s)
    | none => .fault .noPendingWord
  else .next s

/-- The state with `w` launched and the ENGINE moving next: how a command word is placed for the very next step. -/
def launchNext (s : State) (w : Word) : State :=
  { s.launch w with schedule := .engine :: s.schedule }

end Sys2Proof.Machine
end

