-- ==== Sys2Proof/Machine/HostPort.lean ====
section
/-! DEFINITION. The HOST's steps (spec/10_state.md R21, R43 to R45; spec/20_memory.md R85, R86): register reads and
writes, shared-memory accesses, and the polling loop of R112. -/

namespace Sys2Proof.Machine

/-- What a read of a window word returns while BUSY = 0: the value, or `none` when the entry is unwritten and the value
is unspecified (R61). Reserved offsets and words read 0 (R32). -/
def registerValue (s : State) : Target → Option Word
  | .id => some Config.idValue
  | .version => some Config.versionValue
  | .ctrl => some s.ctrl.toWord
  | .cmd => some 0#32
  | .status => some s.status.toWord
  | .total => some s.total
  | .root => some (BitVec.ofNat 32 s.root.val)
  | .nodeCount => some (BitVec.ofNat 32 s.nodeCount.val)
  | .leafCount => some (BitVec.ofNat 32 s.leafCount.val)
  | .srcAddr => some s.srcAddr
  | .srcEnd => some s.srcEnd
  | .dstAddr => some s.dstAddr
  | .dstEnd => some s.dstEnd
  | .outcnt => some s.outcnt
  | .bitcntLo => some (s.bitcnt.extractLsb' 0 32)
  | .bitcntHi => some ((s.bitcnt.extractLsb' 32 8).setWidth 32)
  | .errInfo => some s.errInfo
  | .freq sym => s.freqAt sym
  | .nodeW0 i => (s.nodeAt i).map Node.word0
  | .nodeW1 i => (s.nodeAt i).map Node.word1
  | .code sym w => if 9 ≤ w.val then some 0#32 else (s.codeAt sym).map (fun c => c.word w)
  | .reserved => some 0#32

/-- The host read returns the word `w`. -/
def State.respondWord (s : State) (w : Word) : State := { s with response := .word w }

/-- The host read returns the byte `b`. -/
def State.respondByte (s : State) (b : Byte) : State := { s with response := .byte b }

/-- The host read returns an unspecified word: a fresh free value (R44, R61). -/
def State.respondFree (s : State) : State := s.drawWord.2.respondWord s.drawWord.1

/-- `HostRead(off)` (R43, R44, R45): a refused access returns 0 and sets ACCERR; while BUSY = 1 only ID, VERSION, CTRL,
CMD and STATUS return their values; an unwritten entry returns a free value. -/
def hostReadReg (s : State) (off : Word) (size : AccessSize) : State :=
  if accessDefined off size then
    if s.status.busy && !(decodeOffset off).readableWhileBusy then s.respondFree
    else
      match registerValue s (decodeOffset off) with
      | some v => s.respondWord v
      | none => s.respondFree
  else s.setAccerr.respondWord 0#32

/-- A defined host write while BUSY = 0 (R45): RW registers and FREQ take the value at once, CMD launches (R120), STATUS
clears (R35), everything else ignores it. -/
def writeTarget (s : State) (t : Target) (v : Word) : State :=
  match t with
  | .ctrl => { s with ctrl := Ctrl.ofWord v }
  | .cmd => s.launch v
  | .status => { s with status := s.status.writeOneToClear v }
  | .srcAddr => { s with srcAddr := v }
  | .srcEnd => { s with srcEnd := v }
  | .dstAddr => { s with dstAddr := v }
  | .dstEnd => { s with dstEnd := v }
  | .freq sym => s.setFreq sym v
  | .id | .version | .total | .root | .nodeCount | .leafCount | .outcnt | .bitcntLo | .bitcntHi | .errInfo
  | .nodeW0 _ | .nodeW1 _ | .code _ _ | .reserved => s

/-- `HostWrite(off, size, v)` (R43, R44): refused, with ACCERR, when it is not a 4-byte access at an aligned offset or
when BUSY = 1. -/
def hostWriteReg (s : State) (off : Word) (size : AccessSize) (v : Word) : State :=
  if accessDefined off size && !s.status.busy then writeTarget s (decodeOffset off) v else s.setAccerr

/-- A host read of a shared-memory byte (R86): unspecified in the running command's destination region. -/
def hostReadMem (s : State) (a : Word) : State :=
  if s.inRunningDst a.toNat then s.drawByte.2.respondByte s.drawByte.1
  else s.respondByte (s.mem.read a.toNat)

/-- Address `a` added to a rising list without repeats. -/
def insertAddr : Nat → List Nat → List Nat
  | a, [] => [a]
  | a, b :: bs => if a < b then a :: b :: bs else if a = b then b :: bs else b :: insertAddr a bs

/-- A host write of a shared-memory byte (R86): in a region of the running command it is a race. -/
def hostWriteMem (s : State) (a : Word) (v : Byte) : State :=
  let written := { s with mem := s.mem.write a.toNat v }
  if s.inRunningSrc a.toNat || s.inRunningDst a.toNat then { written with raced := insertAddr a.toNat s.raced }
  else written

/-- One HOST transaction (R21). -/
def hostStep (op : HostOp) (s : State) : State :=
  match op with
  | .readReg off size => hostReadReg s off size
  | .writeReg off size v => hostWriteReg s off size v
  | .readMem a => hostReadMem s a
  | .writeMem a v => hostWriteMem s a v

/-- One poll of the WAIT loop (R112): the host reads STATUS. When DONE is 1 the loop is over; else the engine moves (if
a command is pending) and the host polls again. `rest` is what follows the loop. -/
def waitStep (rest : List Event) (s : State) : State :=
  let polled := hostReadReg s 0x0010#32 .word
  if s.status.done then { polled with schedule := rest }
  else if s.status.busy then { polled with schedule := .engine :: .wait :: rest }
  else { polled with schedule := .wait :: rest }

end Sys2Proof.Machine
end

