-- ==== Sys2Proof/Machine/Step.lean ====
section
/-! DEFINITION. One step of the machine (spec/10_state.md R20 to R22): the agent the schedule names moves; when the
schedule is empty the ENGINE moves if a command is pending (spec/40_control.md R127), and otherwise nothing does. -/

namespace Sys2Proof.Machine

/-- The state with the head of the schedule taken. -/
def State.takeEvent (s : State) (rest : List Event) : State := { s with schedule := rest }

/-- One step. -/
def step (s : State) : Host.Outcome State Fault Refusal :=
  match s.schedule with
  | [] => engineStep s
  | .engine :: rest => engineStep (s.takeEvent rest)
  | .host op :: rest => .next (hostStep op (s.takeEvent rest))
  | .wait :: rest => .next (waitStep rest (s.takeEvent rest))
  | .reset :: rest => .next (s.takeEvent rest).hardwareReset

/-- `s` with the command word of a table row launched (R120) and the ENGINE moving next. A row that is no 32-bit word
changes nothing. -/
def State.withFetchWord (s : State) (nbits w : Nat) : State :=
  match tableWord nbits w with
  | some word => launchNext s word
  | none => s

end Sys2Proof.Machine
end

