-- ==== Sys2Proof/Safety.lean ====
section
/-! DEFINITION. What counts as a safe run, in the terms the claims use: trees and the artifact as plain data
(spec/43_tree_serializer.md R180, spec/44_bit_packer.md R211), the invariants of spec/10_state.md R49 to R51, and what a
command leaves alone. Nothing here is used by the machine. -/

namespace Sys2Proof.Machine

/-! ## Trees -/

/-- A strict binary tree over symbols (R47, R14). -/
inductive Shape where
  | leaf (sym : Byte)
  | node (l r : Shape)
deriving DecidableEq, Repr

/-- The number of nodes. -/
def Shape.nodes : Shape → Nat
  | .leaf _ => 1
  | .node l r => l.nodes + r.nodes + 1

/-- The symbols of the leaves in pre-order. -/
def Shape.symbols : Shape → List Byte
  | .leaf sym => [sym]
  | .node l r => l.symbols ++ r.symbols

/-- Each leaf's symbol with the path from the root to it, in pre-order: 0 = left, 1 = right (R161). -/
def Shape.codes : Shape → List (Byte × List Bool)
  | .leaf sym => [(sym, [])]
  | .node l r =>
    l.codes.map (fun p => (p.1, false :: p.2)) ++ r.codes.map (fun p => (p.1, true :: p.2))

/-- `enc` of R180: the bytes of the tree in the header. -/
def Shape.enc (symw : Bool) : Shape → List Byte
  | .leaf sym => 0x01#8 :: symField symw sym
  | .node l r => 0x00#8 :: (l.enc symw ++ r.enc symw)

/-- SUM over the leaves of weight * depth (R152). -/
def Shape.cost (weight : Byte → Nat) (sh : Shape) : Nat :=
  (sh.codes.map (fun p => weight p.1 * p.2.length)).sum

/-- A tree whose nodes carry their index in the node memory. -/
inductive NodeTree where
  | leaf (i : NodeIdx) (sym : Byte)
  | node (i : NodeIdx) (l r : NodeTree)
deriving DecidableEq, Repr

/-- The index of the root. -/
def NodeTree.idx : NodeTree → NodeIdx
  | .leaf i _ => i
  | .node i _ _ => i

/-- The tree without its indices. -/
def NodeTree.shape : NodeTree → Shape
  | .leaf _ sym => .leaf sym
  | .node _ l r => .node l.shape r.shape

/-- The indices in pre-order. -/
def NodeTree.indices : NodeTree → List NodeIdx
  | .leaf i _ => [i]
  | .node i l r => i :: (l.indices ++ r.indices)

/-- The node memory holds the tree at its indices: VALID = 1, a leaf with its symbol and no children, an internal node
with its two children and SYM = 0 (R41, R47). FREQ may be anything. -/
def NodeTree.heldIn (m : Vector (Option Node) 511) : NodeTree → Bool
  | .leaf i sym => (nodeIn m i).any (fun nd => nd == Node.mkLeaf sym nd.freq)
  | .node i l r =>
    (nodeIn m i).any (fun nd => nd == Node.mkNode nd.freq l.idx r.idx) && l.heldIn m && r.heldIn m

/-- The registers and the node memory describe the tree `t` (R41, R49): rooted at ROOT, each node 0..NODE_COUNT-1 in it
exactly once, every other node zero, LEAF_COUNT leaves. -/
structure TreeAt (s : State) (t : NodeTree) : Prop where
  root   : t.idx = s.root
  held   : t.heldIn s.node = true
  once   : t.indices.Nodup
  all    : ∀ i : NodeIdx, i ∈ t.indices ↔ i.val < s.nodeCount.val
  others : ∀ i : NodeIdx, s.nodeCount.val ≤ i.val → s.nodeAt i = some Node.zero
  leaves : s.leafCount.val = t.shape.symbols.length

/-- The code of a symbol in a tree: its path, or no code (R161, R163). -/
def Shape.codeOf (sh : Shape) (sym : Byte) : Code :=
  match sh.codes.find? (fun p => p.1 == sym) with
  | some p => { present := true, bits := p.2 }
  | none => Code.absent

/-- CODE is the code table of the tree: the leaf symbols are distinct and every entry is its path (R51, R163). -/
structure CodesOf (s : State) (sh : Shape) : Prop where
  distinct : sh.symbols.Nodup
  entry    : ∀ sym : Byte, s.codeAt sym = some (sh.codeOf sym)

/-- The first symbol of a list that stands earlier in it: what DUP_SYM reports (R164). -/
def firstDuplicate : List Byte → List Byte → Option Byte
  | _, [] => none
  | seen, sym :: rest => if seen.contains sym then some sym else firstDuplicate (sym :: seen) rest

/-! ## The frequency table -/

/-- FREQ[sym] as a number; 0 for an unwritten entry. -/
def State.freqNat (s : State) (sym : Byte) : Nat := ((s.freqAt sym).getD 0#32).toNat

/-- Every symbol, in ascending order. -/
def allSymbols : List Byte := (List.range 256).map (BitVec.ofNat 8)

/-- SUM over all symbols of FREQ (R140). -/
def State.freqTotal (s : State) : Nat := (allSymbols.map s.freqNat).sum

/-- The present symbols, those with FREQ != 0, in ascending order (R142). -/
def State.presentList (s : State) : List Byte := allSymbols.filter (fun sym => decide (s.freqNat sym ≠ 0))

/-- Every FREQ entry is written (R61, R285 item 4). -/
def State.freqWritten (s : State) : Prop := ∀ sym : Byte, (s.freqAt sym).isSome = true

/-! ## Payload and regions -/

/-- The byte whose bit 7 is the first bit of `bits`, whose bit 6 is the second, and so on; missing bits are 0 (R211). -/
def byteOfBits (bits : List Bool) : Byte :=
  (List.range 8).foldl (fun acc k => (acc.concat (bits.getD k false)).setWidth 8) 0#8

/-- ceil(n / 8) (R211). -/
def bytesFor (n : Nat) : Nat := (n + 7) / 8

/-- The payload bytes of a bit string: byte j holds bits 8j to 8j+7, zero padded (R211). -/
def packBits (bits : List Bool) : List Byte :=
  (List.range (bytesFor bits.length)).map (fun j => byteOfBits (bits.drop (8 * j)))

/-- The bits of the payload of an input: the concatenation of its bytes' codes (R211). -/
def State.payloadOf (s : State) (input : List Byte) : List Bool :=
  input.flatMap (fun b => ((s.codeAt b).getD Code.absent).bits)

/-- The `n` bytes of shared memory from address `a`. -/
def Memory.bytesAt (m : Memory) (a n : Nat) : List Byte := (List.range n).map (fun k => Memory.read m (a + k))

/-- The bytes of the source region. -/
def State.srcBytes (s : State) : List Byte :=
  Memory.bytesAt s.mem s.srcAddr.toNat (regionBytes s.srcAddr s.srcEnd)

/-- Bit `j` of the bytes from address `a`, most significant bit of each byte first (R74). -/
def Memory.bitAt (m : Memory) (a j : Nat) : Bool := (Memory.read m (a + j / 8)).getLsbD (7 - j % 8)

/-- ADMIT allows the access kind at every address from `lo` up to, not including, `hi` (R7). -/
def State.admitsRange (s : State) (k : AccessKind) (lo hi : Nat) : Prop :=
  ∀ x : Word, lo ≤ x.toNat → x.toNat < hi → s.admits x k = true

/-- No byte of the source region was raced for (R86, R291). -/
def State.srcUnraced (s : State) : Prop := ∀ x : Nat, inRegion s.srcAddr s.srcEnd x = true → x ∉ s.raced

/-- The first `n` bytes of the source region. -/
def State.srcPrefix (s : State) (n : Nat) : List Byte := Memory.bytesAt s.mem s.srcAddr.toNat n

/-- Every byte of a list has a code. -/
def State.coded (s : State) (input : List Byte) : Prop :=
  ∀ b ∈ input, ∃ c : Code, s.codeAt b = some c ∧ c.present = true

/-- The precondition checks of PACK all pass (R210). -/
structure PackReady (s : State) : Prop where
  src     : s.srcAddr.toNat ≤ s.srcEnd.toNat
  dst     : s.dstAddr.toNat ≤ s.dstEnd.toNat
  apart   : s.overlap = false
  length  : regionBytes s.srcAddr s.srcEnd = s.total.toNat
  codes   : s.total ≠ 0#32 → s.status.codesValid = true
  unraced : s.srcUnraced

/-- The precondition checks of UNPACK all pass on a non-zero TOTAL, with the tree `t` (R230). -/
structure UnpackReady (s : State) (t : NodeTree) : Prop where
  tree    : s.status.treeValid = true
  held    : TreeAt s t
  total   : s.total ≠ 0#32
  src     : s.srcAddr.toNat ≤ s.srcEnd.toNat
  room    : s.dstAddr.toNat + s.total.toNat ≤ s.dstEnd.toNat
  apart   : s.overlap = false
  unraced : s.srcUnraced

/-- The bits of a run of leaves, each with its path. -/
def runBits (picks : List (Byte × List Bool)) : List Bool := picks.flatMap Prod.snd

/-- A run of TOTAL leaves of the tree `t`, each with its path. -/
structure RunOf (s : State) (t : NodeTree) (picks : List (Byte × List Bool)) : Prop where
  count : picks.length = s.total.toNat
  codes : ∀ p ∈ picks, p ∈ t.shape.codes

/-- The first `n` payload bits in the source region are those of the run (R74). -/
def PayloadBegins (s : State) (picks : List (Byte × List Bool)) (n : Nat) : Prop :=
  ∀ j : Nat, j < n → Memory.bitAt s.mem s.srcAddr.toNat j = (runBits picks).getD j false

/-! ## Reading a header -/

/-- How reading a header from a list of bytes ends: the whole header is there, one more byte is needed after the last, or
an error is raised at an offset. -/
inductive Scan where
  | whole
  | more
  | bad (e : Err) (off : Nat)
deriving DecidableEq, Repr

/-- Reading `need` encoded trees one after the other from a list of bytes, the first at offset `off`, with `nodes` nodes
already read (R180, R190): TREE_OVF before the tag of a 512th node (R192), BAD_TAG at a tag that is neither 0x00 nor 0x01
(R194), BAD_SYM at a high symbol byte that is not 0, once both are read (R195). -/
def scanTrees (symw : Bool) : List Byte → Nat → Nat → Nat → Scan
  | _, 0, _, _ => .whole
  | [], _ + 1, nodes, off => if nodes = 511 then .bad .treeOvf off else .more
  | tag :: rest, need + 1, nodes, off =>
    if nodes = 511 then .bad .treeOvf off
    else if tag = 0x00#8 then scanTrees symw rest (need + 2) (nodes + 1) (off + 1)
    else if tag = 0x01#8 then
      match symw, rest with
      | false, _ :: rest' => scanTrees symw rest' need (nodes + 1) (off + 2)
      | true, hi :: _ :: rest' =>
        if hi = 0x00#8 then scanTrees symw rest' need (nodes + 1) (off + 3) else .bad .badSym (off + 1)
      | _, _ => .more
    else .bad .badTag off
termination_by structural bs => bs

/-- Reading a header: the four bytes of the count, and a tree unless the count is 0 (R190, R191). -/
def scanHeader (symw : Bool) : List Byte → Scan
  | c3 :: c2 :: c1 :: c0 :: rest =>
    if countOfBytes c3 c2 c1 c0 = 0#32 then .whole else scanTrees symw rest 1 0 4
  | _ => .more

/-! ## Invariants -/

/-- Shared memory keeps its canonical form, and raced addresses are addresses. -/
def MemInv (s : State) : Prop := Memory.wf s.mem ∧ ∀ a ∈ s.raced, a < 4294967296

/-- The invariants of the STATUS flags and the counts (R49 last sentence, R50, R51 first clause, R22, R120, R121, R251,
R261). -/
structure StatusInv (s : State) : Prop where
  busy_pending : s.status.busy = s.pending.isSome
  busy_undone  : s.status.busy = true → s.status.done = false
  empty_clear  : s.status.empty = true →
    s.status.treeValid = false ∧ s.status.codesValid = false ∧ s.total = 0#32
  codes_tree   : s.status.codesValid = true → s.status.treeValid = true
  no_tree      : s.status.treeValid = false →
    s.total = 0#32 ∧ s.root = 0 ∧ s.nodeCount = 0 ∧ s.leafCount = 0
  err_code     : s.status.err.toNat ≤ 0x12

/-- The invariants of the tree and the code table (R49, R51), and TOTAL != 0 while there is a tree (R140, R190). -/
def TablesInv (s : State) : Prop :=
  s.status.treeValid = true →
    s.total ≠ 0#32 ∧ ∃ t : NodeTree, TreeAt s t ∧ (s.status.codesValid = true → CodesOf s t.shape)

/-! ## What a command leaves alone -/

/-- What no command writes: CTRL, SRC_END, DST_END, STATUS.ACCERR, STATUS.LASTOP (R38, R53, R120), the platform's memory
map and the model's schedule, response and raced bytes. -/
structure KeepsHost (s t : State) : Prop where
  ctrl     : t.ctrl = s.ctrl
  srcEnd   : t.srcEnd = s.srcEnd
  dstEnd   : t.dstEnd = s.dstEnd
  accerr   : t.status.accerr = s.status.accerr
  lastop   : t.status.lastop = s.status.lastop
  admitMap    : t.admitMap = s.admitMap
  raced    : t.raced = s.raced
  schedule : t.schedule = s.schedule
  response : t.response = s.response

/-- The tree state is unchanged: NODE, ROOT, NODE_COUNT, LEAF_COUNT, TOTAL, TREE_VALID, EMPTY. -/
structure KeepsTree (s t : State) : Prop where
  node      : t.node = s.node
  root      : t.root = s.root
  nodeCount : t.nodeCount = s.nodeCount
  leafCount : t.leafCount = s.leafCount
  total     : t.total = s.total
  treeValid : t.status.treeValid = s.status.treeValid
  empty     : t.status.empty = s.status.empty

/-- The code table is unchanged: CODE and CODES_VALID. -/
structure KeepsCodes (s t : State) : Prop where
  code       : t.code = s.code
  codesValid : t.status.codesValid = s.status.codesValid

/-- Every byte of shared memory outside [lo, hi) reads as before. -/
def KeepsBytesOutside (lo hi : Nat) (s t : State) : Prop :=
  ∀ a : Nat, ¬ (lo ≤ a ∧ a < hi) → Memory.read t.mem a = Memory.read s.mem a

/-- Every byte of shared memory reads as before. -/
def KeepsBytes (s t : State) : Prop := ∀ a : Nat, Memory.read t.mem a = Memory.read s.mem a

/-- The completion of R121: no pending word, BUSY = 0, DONE = 1. -/
structure Completed (t : State) : Prop where
  pending : t.pending = none
  busy    : t.status.busy = false
  done    : t.status.done = true

/-- What an error leaves in the result registers (R121, R252): the code, ERR_INFO, no counts, the launch pointers. -/
structure Aborted (s t : State) (e : Err) (info : Word) : Prop where
  err     : t.status.err = e.code
  errInfo : t.errInfo = info
  outcnt  : t.outcnt = 0#32
  bitcnt  : t.bitcnt = 0#40
  srcAddr : t.srcAddr = s.srcAddr
  dstAddr : t.dstAddr = s.dstAddr

/-- What a success leaves in the result registers (R122): no error, and the counts given. -/
structure Succeeded (t : State) (out : Nat) (bits : Nat) : Prop where
  err     : t.status.err = 0#8
  errInfo : t.errInfo = 0#32
  outcnt  : t.outcnt = BitVec.ofNat 32 out
  bitcnt  : t.bitcnt = BitVec.ofNat 40 bits

/-- What an error in the body of SERIALIZE, PACK or UNPACK leaves once accesses have begun (R121, R252): the launch
pointers, the tables as they were, no byte changed outside [DST_ADDR, DST_END) and a free value at every byte inside. -/
structure AbortedInBody (s t : State) (e : Err) (info : Word) : Prop where
  completed : Completed t
  aborted   : Aborted s t e info
  tree      : KeepsTree s t
  codes     : KeepsCodes s t
  freq      : t.freq = s.freq
  outside   : KeepsBytesOutside s.dstAddr.toNat s.dstEnd.toNat s t
  inside    : ∀ x : Nat, s.dstAddr.toNat ≤ x → x < s.dstEnd.toNat →
    ∃ d : Nat, s.draws ≤ d ∧ Memory.lookup t.mem x = some (Config.freeByte d)

/-- What an error of DESERIALIZE leaves of the result registers and of shared memory (R121, R199). -/
structure AbortedRead (s t : State) (e : Err) (info : Word) : Prop where
  completed : Completed t
  aborted   : Aborted s t e info
  mem       : t.mem = s.mem

end Sys2Proof.Machine
end

