-- ==== Sys2Proof/Certificates/Slice0/Obligations.lean ====
section
/-! DEFINITION. The statements for the provers, each from a numbered rule of spec/ or from the sections it names. No
statement rests on the value a free value takes: `Config.freeWord`, `Config.freeByte` and `Config.powerOnByte` have no
body. -/

open Sys2Proof Sys2Proof.Machine

/-! ## Encoding -/

/-- R102: the eight words of the opcode map select the eight commands. -/
def Obligations.OpcodeMapWordsDecode : Prop :=
  decode 0x00000000#32 = .ok .nop ∧ decode 0x00000001#32 = .ok .clear ∧
  decode 0x00000010#32 = .ok .build ∧ decode 0x00000011#32 = .ok .gencode ∧
  decode 0x00000020#32 = .ok .serialize ∧ decode 0x00000021#32 = .ok .deserialize ∧
  decode 0x00000030#32 = .ok .pack ∧ decode 0x00000031#32 = .ok .unpack

/-- R100, R102, R103: decoding a command's own word gives the command back. -/
def Obligations.DecodeInvertsEncode : Prop :=
  ∀ i : Instr, i.wellFormed = true → decode (encode i) = .ok i

/-- R103, R104: a word selects a command exactly when its bits [31:8] are 0 and its bits [7:0] are that command's opcode,
so every other word is illegal. -/
def Obligations.DecodeIsTotalAndExact : Prop :=
  (∀ (w : Word) (i : Instr), decode w = .ok i ↔ w.toNat / 256 = 0 ∧ w.toNat % 256 = (opcodeOf i).toNat) ∧
  (∀ w : Word, (∃ r, decode w = .error r) ↔
    w.toNat / 256 ≠ 0 ∨ w.toNat % 256 ∉ [0x00, 0x01, 0x10, 0x11, 0x20, 0x21, 0x30, 0x31])

/-! ## The step and the host port -/

/-- R22, R121, R123 with R20: when the ENGINE moves and the pending word decodes to `i`, the step is `exec i`, followed by
the settling of raced bytes, which is nothing when no byte was raced for; and a word placed by `withFetchWord` is what the
next step runs. The model's own choices in it: the ENGINE moves on an empty schedule (assumption log 1, DESIGN CHOICE),
`withFetchWord` stands for a launch (log 5, DEDUCED), raced bytes settle in the ENGINE's step (log 16, DEDUCED). -/
def Obligations.StepRunsDecodedCommand : Prop :=
  (∀ (s : State) (w : Word) (i : Instr), s.status.busy = true → s.pending = some w → decode w = .ok i →
    (s.schedule = [] → step s = afterCompletion (exec i s)) ∧
    (∀ rest : List Event, s.schedule = .engine :: rest →
      step s = afterCompletion (exec i { s with schedule := rest }))) ∧
  (∀ t : State, t.raced = [] → afterCompletion (.next t) = .next t) ∧
  (∀ (s : State) (i : Instr),
    step (s.withFetchWord 32 (encode i).toNat) = afterCompletion (exec i (s.launch (encode i))))

/-- R22, R274: when no command is pending the ENGINE takes no step, and that idle state keeps all state. That nothing moves
on an empty schedule, and that an ENGINE event is just taken off, is the model's choice (assumption log 1, DESIGN CHOICE). -/
def Obligations.IdleEngineKeepsAllState : Prop :=
  ∀ s : State, s.status.busy = false →
    engineStep s = .next s ∧ (s.schedule = [] → step s = .next s) ∧
    (∀ rest : List Event, s.schedule = .engine :: rest → step s = .next { s with schedule := rest })

/-- R120: a write of CMD while BUSY = 0 latches the word, sets LASTOP and BUSY and clears DONE, whatever DONE was, and
changes nothing else; while BUSY = 1 the word is lost and ACCERR is set. -/
def Obligations.LaunchLatchesTheWord : Prop :=
  ∀ (s : State) (w : Word),
    (s.status.busy = false →
      hostWriteReg s 0x000C#32 .word w =
        { s with
          pending := some w
          status := { s.status with lastop := BitVec.ofNat 8 (w.toNat % 256), done := false, busy := true } }) ∧
    (s.status.busy = true →
      hostWriteReg s 0x000C#32 .word w = { s with status := { s.status with accerr := true } })

/-- R44: while BUSY = 1 every host write only sets ACCERR; a read of ID, VERSION, CTRL, CMD or STATUS returns its value,
with BUSY reading 1; a read of any other offset returns a fresh free value. -/
def Obligations.BusyAccessesAreRefusedOrFree : Prop :=
  ∀ s : State, s.status.busy = true →
    (∀ (off : Word) (size : AccessSize) (v : Word),
      hostWriteReg s off size v = { s with status := { s.status with accerr := true } }) ∧
    hostReadReg s 0x0000#32 .word = { s with response := .word 0x48554646#32 } ∧
    hostReadReg s 0x0004#32 .word = { s with response := .word 0x00000001#32 } ∧
    hostReadReg s 0x0008#32 .word = { s with response := .word s.ctrl.toWord } ∧
    hostReadReg s 0x000C#32 .word = { s with response := .word 0#32 } ∧
    hostReadReg s 0x0010#32 .word = { s with response := .word s.status.toWord } ∧
    s.status.toWord.getLsbD 0 = true ∧
    (∀ off : Word, off.toNat % 4 = 0 → 0x0014 ≤ off.toNat % 32768 →
      hostReadReg s off .word = { s with response := .word (Config.freeWord s.draws), draws := s.draws + 1 })

/-- R43: a host access that is not 4 bytes wide at an offset with off[1:0] = 0 is refused: a write changes nothing but
ACCERR, a read returns 0 and sets ACCERR. That a read is refused so while BUSY = 1 too, where R44 also applies, is the
model's choice (assumption log 10, DEDUCED). -/
def Obligations.UndefinedAccessIsRefused : Prop :=
  ∀ (s : State) (off : Word) (size : AccessSize) (v : Word), (size ≠ .word ∨ off.toNat % 4 ≠ 0) →
    hostWriteReg s off size v = { s with status := { s.status with accerr := true } } ∧
    hostReadReg s off size = { s with response := .word 0#32, status := { s.status with accerr := true } }

/-- R30 with R24: the register map, every offset of it, and only the low 15 bits of an offset count. -/
def Obligations.RegisterMapSelectsTargets : Prop :=
  ([0x0000#32, 0x0004#32, 0x0008#32, 0x000C#32, 0x0010#32, 0x0014#32, 0x0018#32, 0x001C#32, 0x0020#32, 0x0024#32,
    0x0028#32, 0x002C#32, 0x0030#32, 0x0034#32, 0x0038#32, 0x003C#32, 0x0040#32].map decodeOffset =
    [.id, .version, .ctrl, .cmd, .status, .total, .root, .nodeCount, .leafCount, .srcAddr, .srcEnd, .dstAddr, .dstEnd,
     .outcnt, .bitcntLo, .bitcntHi, .errInfo]) ∧
  (∀ sym : Byte, decodeOffset (BitVec.ofNat 32 (0x0400 + 4 * sym.toNat)) = .freq sym) ∧
  (∀ i : NodeIdx, decodeOffset (BitVec.ofNat 32 (0x2000 + 8 * i.val)) = .nodeW0 i ∧
    decodeOffset (BitVec.ofNat 32 (0x2000 + 8 * i.val + 4)) = .nodeW1 i) ∧
  (∀ (sym : Byte) (w : Fin 16),
    decodeOffset (BitVec.ofNat 32 (0x4000 + 64 * sym.toNat + 4 * w.val)) = .code sym w) ∧
  (∀ off : Word, (0x0044 ≤ off.toNat ∧ off.toNat ≤ 0x03FF) ∨ (0x0800 ≤ off.toNat ∧ off.toNat ≤ 0x1FFF) ∨
    (0x2FF8 ≤ off.toNat ∧ off.toNat ≤ 0x3FFF) → decodeOffset off = .reserved) ∧
  (∀ off : Word, decodeOffset off = decodeOffset (BitVec.ofNat 32 (off.toNat % 32768)))

/-- R31: ID and VERSION read their constants at all times, and writes to them change nothing. -/
def Obligations.ConstantRegistersNeverChange : Prop :=
  ∀ s : State,
    hostReadReg s 0x0000#32 .word = { s with response := .word 0x48554646#32 } ∧
    hostReadReg s 0x0004#32 .word = { s with response := .word 0x00000001#32 } ∧
    (∀ v : Word, s.status.busy = false →
      hostWriteReg s 0x0000#32 .word v = s ∧ hostWriteReg s 0x0004#32 .word v = s)

/-- R45: no defined read changes anything but what the host reads; while BUSY = 0 a write to an RW register or to FREQ
takes effect at once and changes nothing else (R294: TREE_VALID and CODES_VALID stay), and a write to a read-only register
or window, or to a reserved word, is ignored without ACCERR. -/
def Obligations.HostAccessEffects : Prop :=
  (∀ (s : State) (off : Word), off.toNat % 4 = 0 →
    { hostReadReg s off .word with response := s.response, draws := s.draws } = s) ∧
  (∀ (s : State) (v : Word), s.status.busy = false →
    hostWriteReg s 0x0008#32 .word v =
      { s with ctrl := { symw := v.getLsbD 0, strict := v.getLsbD 1, irqEn := v.getLsbD 2 } } ∧
    hostWriteReg s 0x0024#32 .word v = { s with srcAddr := v } ∧
    hostWriteReg s 0x0028#32 .word v = { s with srcEnd := v } ∧
    hostWriteReg s 0x002C#32 .word v = { s with dstAddr := v } ∧
    hostWriteReg s 0x0030#32 .word v = { s with dstEnd := v } ∧
    (∀ sym x : Byte,
      (hostWriteReg s (BitVec.ofNat 32 (0x0400 + 4 * sym.toNat)) .word v).freqAt x =
        (if x = sym then some v else s.freqAt x)) ∧
    (∀ sym : Byte,
      { hostWriteReg s (BitVec.ofNat 32 (0x0400 + 4 * sym.toNat)) .word v with freq := s.freq } = s) ∧
    (∀ off : Word, off.toNat % 4 = 0 →
      (off.toNat % 32768 ∉ [0x0008, 0x000C, 0x0010, 0x0024, 0x0028, 0x002C, 0x0030]) →
      ¬ (0x0400 ≤ off.toNat % 32768 ∧ off.toNat % 32768 ≤ 0x07FF) →
      hostWriteReg s off .word v = s))

/-- R35: every bit of STATUS, and what a host write of it clears while BUSY = 0. -/
def Obligations.StatusWordLayout : Prop :=
  ∀ st : Status,
    (st.toWord.getLsbD 0 = st.busy ∧ st.toWord.getLsbD 1 = st.done ∧ st.toWord.getLsbD 2 = st.treeValid ∧
      st.toWord.getLsbD 3 = st.empty ∧ st.toWord.getLsbD 4 = st.codesValid ∧ st.toWord.getLsbD 5 = st.accerr ∧
      st.toWord.extractLsb' 6 2 = 0#2 ∧ st.toWord.extractLsb' 8 8 = st.err ∧
      st.toWord.extractLsb' 16 8 = st.lastop ∧ st.toWord.extractLsb' 24 8 = 0#8) ∧
    (∀ (s : State) (v : Word), s.status.busy = false → s.status = st →
      hostWriteReg s 0x0010#32 .word v =
        { s with status := { st with done := st.done && !v.getLsbD 1, accerr := st.accerr && !v.getLsbD 5 } })

/-- R32 to R42, R61: what a read of every register and window word returns while BUSY = 0. CTRL's bits, CMD 0, STATUS (its
bits are in `StatusWordLayout`), the read-only and region registers, the halves of BITCNT; a reserved offset or word 0; a
FREQ or NODE word its entry's, with the fields where R41 puts them; an unwritten entry a fresh free value. That the reserved
fields of an unwritten NODE word 1 or CODE word 0 are free with the rest of the word, while CODE words 9 to 15 of an
unwritten entry read 0, is the model's reading of R32 and R61 (assumption log 11, DEDUCED). ID and VERSION are in
`ConstantRegistersNeverChange`, the words of a written code in `CodeWindowForm`. -/
def Obligations.WindowReadsReturnEntries : Prop :=
  ∀ s : State, s.status.busy = false →
    (∃ w : Word, hostReadReg s 0x0008#32 .word = { s with response := .word w } ∧
      w.getLsbD 0 = s.ctrl.symw ∧ w.getLsbD 1 = s.ctrl.strict ∧ w.getLsbD 2 = s.ctrl.irqEn ∧
      w.extractLsb' 3 29 = 0#29) ∧
    (∀ p ∈ [(0x000C#32, 0#32), (0x0010#32, s.status.toWord), (0x0014#32, s.total),
        (0x0018#32, BitVec.ofNat 32 s.root.val), (0x001C#32, BitVec.ofNat 32 s.nodeCount.val),
        (0x0020#32, BitVec.ofNat 32 s.leafCount.val), (0x0024#32, s.srcAddr), (0x0028#32, s.srcEnd),
        (0x002C#32, s.dstAddr), (0x0030#32, s.dstEnd), (0x0034#32, s.outcnt),
        (0x0038#32, BitVec.ofNat 32 (s.bitcnt.toNat % 4294967296)),
        (0x003C#32, BitVec.ofNat 32 (s.bitcnt.toNat / 4294967296)), (0x0040#32, s.errInfo)],
      hostReadReg s p.1 .word = { s with response := .word p.2 }) ∧
    (∀ off : Word, off.toNat % 4 = 0 →
      (0x0044 ≤ off.toNat % 32768 ∧ off.toNat % 32768 ≤ 0x03FF) ∨
      (0x0800 ≤ off.toNat % 32768 ∧ off.toNat % 32768 ≤ 0x1FFF) ∨
      (0x2FF8 ≤ off.toNat % 32768 ∧ off.toNat % 32768 ≤ 0x3FFF) →
      hostReadReg s off .word = { s with response := .word 0#32 }) ∧
    (∀ sym : Byte,
      (hostReadReg s (BitVec.ofNat 32 (0x0400 + 4 * sym.toNat)) .word).response =
        .word ((s.freqAt sym).getD (Config.freeWord s.draws))) ∧
    (∀ i : NodeIdx,
      (hostReadReg s (BitVec.ofNat 32 (0x2000 + 8 * i.val)) .word).response =
        .word (match s.nodeAt i with
          | some n => n.freq
          | none => Config.freeWord s.draws)) ∧
    (∀ (i : NodeIdx) (n : Node), s.nodeAt i = some n →
      ∃ w : Word, (hostReadReg s (BitVec.ofNat 32 (0x2000 + 8 * i.val + 4)) .word).response = .word w ∧
        w.getLsbD 31 = n.valid ∧ w.getLsbD 30 = n.leaf ∧ w.extractLsb' 26 4 = 0#4 ∧
        (w.extractLsb' 17 9).toNat = n.left.val ∧ (w.extractLsb' 8 9).toNat = n.right.val ∧
        w.extractLsb' 0 8 = n.sym) ∧
    (∀ i : NodeIdx, s.nodeAt i = none →
      (hostReadReg s (BitVec.ofNat 32 (0x2000 + 8 * i.val + 4)) .word).response =
        .word (Config.freeWord s.draws)) ∧
    (∀ (sym : Byte) (k : Nat), k ≤ 8 → s.codeAt sym = none →
      hostReadReg s (BitVec.ofNat 32 (0x4000 + 64 * sym.toNat + 4 * k)) .word =
        { s with response := .word (Config.freeWord s.draws), draws := s.draws + 1 }) ∧
    (∀ (sym : Byte) (k : Nat), 9 ≤ k → k ≤ 15 →
      hostReadReg s (BitVec.ofNat 32 (0x4000 + 64 * sym.toNat + 4 * k)) .word = { s with response := .word 0#32 })

/-- R168: the window form of a code: word 0 is PRESENT, 23 zero bits and LEN; bit j of word w, w = 1..8, is code bit
32 (w - 1) + 31 - j, and 0 past the code's end. -/
def Obligations.CodeWindowForm : Prop :=
  ∀ (s : State) (sym : Byte) (c : Code), s.status.busy = false → s.codeAt sym = some c → c.bits.length ≤ 255 →
    (∃ w : Word, (hostReadReg s (BitVec.ofNat 32 (0x4000 + 64 * sym.toNat)) .word).response = .word w ∧
      w.getLsbD 31 = c.present ∧ w.extractLsb' 8 23 = 0#23 ∧ (w.extractLsb' 0 8).toNat = c.bits.length) ∧
    (∀ k : Nat, 1 ≤ k → k ≤ 8 →
      ∃ w : Word, (hostReadReg s (BitVec.ofNat 32 (0x4000 + 64 * sym.toNat + 4 * k)) .word).response = .word w ∧
        ∀ j : Nat, j < 32 → w.getLsbD j = c.bits.getD (32 * (k - 1) + (31 - j)) false)

/-- R260: `irq` is DONE and IRQ_EN at every point; it is asserted, when enabled, at the completion of every command, and
falls with a launch, with a write-one-to-clear of DONE and with IRQ_EN <- 0, which leaves DONE alone; after reset it is
0. -/
def Obligations.IrqIsDoneAndEnabled : Prop :=
  (∀ s : State, s.irq = (s.status.done && s.ctrl.irqEn)) ∧ State.reset.irq = false ∧
  (∀ (i : Instr) (s u : State), exec i s = .next u → u.irq = s.ctrl.irqEn) ∧
  (∀ (w : Word) (s u : State), execIllegal w s = .next u → u.irq = s.ctrl.irqEn) ∧
  (∀ (s : State) (v : Word), s.status.busy = false →
    (hostWriteReg s 0x000C#32 .word v).irq = false ∧
    (v.getLsbD 1 = true → (hostWriteReg s 0x0010#32 .word v).irq = false) ∧
    (v.getLsbD 2 = false → (hostWriteReg s 0x0008#32 .word v).irq = false ∧
      (hostWriteReg s 0x0008#32 .word v).status.done = s.status.done))

/-- R60, R61: the value of every register after hardware reset, and the internal memories unwritten. -/
def Obligations.ResetValues : Prop :=
  ∀ s : State, s = State.reset ∨ (∃ t : State, s = t.hardwareReset) →
    s.ctrl = { symw := false, strict := false, irqEn := false } ∧ s.status.toWord = 0#32 ∧ s.pending = none ∧
    s.total = 0#32 ∧ s.root = 0 ∧ s.nodeCount = 0 ∧ s.leafCount = 0 ∧
    s.srcAddr = 0#32 ∧ s.srcEnd = 0#32 ∧ s.dstAddr = 0#32 ∧ s.dstEnd = 0#32 ∧
    s.outcnt = 0#32 ∧ s.bitcnt = 0#40 ∧ s.errInfo = 0#32 ∧ s.irq = false ∧
    (∀ sym : Byte, s.freqAt sym = none ∧ s.codeAt sym = none) ∧ (∀ i : NodeIdx, s.nodeAt i = none) ∧
    (hostReadReg s 0x0000#32 .word).response = .word 0x48554646#32 ∧
    (hostReadReg s 0x0004#32 .word).response = .word 0x00000001#32

/-- R280: a hardware reset gives every register and internal memory its reset value and drops the pending word; it changes
no byte of shared memory, but every byte of the destination region of a command abandoned before its ENGINE step is a free
value. Two parts are the model's own: that a source byte the host raced for keeps the host's value and the race list is
emptied is its reading of R61, R280 and R86 (assumption log 7, DEDUCED), and that the platform's memory map and the host's
schedule and last response stay is its choice (log 19, DESIGN CHOICE). -/
def Obligations.HardwareResetMemory : Prop :=
  ∀ (s : State) (rest : List Event), s.schedule = .reset :: rest →
    ∃ u : State, step s = .next u ∧
      u = { State.reset with
        mem := u.mem, draws := u.draws, admitMap := s.admitMap, schedule := rest, response := s.response } ∧
      u.irq = false ∧
      (∀ a : Nat, s.inRunningDst a = false → Memory.read u.mem a = Memory.read s.mem a) ∧
      (∀ a : Nat, s.inRunningDst a = true →
        ∃ k : Nat, s.draws ≤ k ∧ Memory.lookup u.mem a = some (Config.freeByte k))

/-- R86: while BUSY = 1 a host read of a byte of the running command's destination region is a free value; a host write to
a byte of one of its regions makes every ENGINE read of it, and its value after completion, free values. How a race is kept
and settled is the model's choice (assumption log 16, DEDUCED). -/
def Obligations.HostRaceMakesByteFree : Prop :=
  ∀ (s : State) (a : Word) (v : Byte),
    (s.inRunningDst a.toNat = true →
      hostReadMem s a = { s with response := .byte (Config.freeByte s.draws), draws := s.draws + 1 }) ∧
    (s.inRunningSrc a.toNat = true ∨ s.inRunningDst a.toNat = true →
      (∀ t : State, t.raced = (hostWriteMem s a v).raced → t.admits a .read = true →
        memRead t a = .ok (Config.freeByte t.draws, { t with draws := t.draws + 1 })) ∧
      (∀ u : State, engineStep (hostWriteMem s a v) = .next u →
        ∃ k : Nat, Memory.lookup u.mem a.toNat = some (Config.freeByte k))) ∧
    (s.inRunningSrc a.toNat = false → s.inRunningDst a.toNat = false →
      hostWriteMem s a v = { s with mem := Memory.write s.mem a.toNat v } ∧
      hostReadMem s a = { s with response := .byte (Memory.read s.mem a.toNat) })

/-! ## NOP, CLEAR and the illegal command -/

/-- R125: NOP completes from every state; only the result registers, BUSY, DONE, ERR and the pending word change, and its
launch leaves LASTOP = 0. -/
def Obligations.NopEffect : Prop :=
  ∀ s : State,
    exec .nop s =
      .next { s with
        pending := none, outcnt := 0#32, bitcnt := 0#40, errInfo := 0#32
        status := { s.status with busy := false, done := true, err := 0x00#8 } } ∧
    (s.launch 0x00000000#32).status.lastop = 0x00#8

/-- R126: CLEAR completes from every state: FREQ, CODE and NODE zeroed, no tree, no codes; CTRL, the region registers,
ACCERR and shared memory stay; its launch leaves LASTOP = 0x01; BUILD right after it aborts with EMPTY. -/
def Obligations.ClearEffect : Prop :=
  ∀ s : State, (s.launch 0x00000001#32).status.lastop = 0x01#8 ∧
    ∃ u : State, exec .clear s = .next u ∧
      (∀ sym : Byte, u.freqAt sym = some 0#32 ∧ u.codeAt sym = some { present := false, bits := [] }) ∧
      (∀ i : NodeIdx, u.nodeAt i =
        some { valid := false, leaf := false, sym := 0#8, freq := 0#32, left := 0, right := 0 }) ∧
      u = { s with
        freq := u.freq, code := u.code, node := u.node
        total := 0#32, root := 0, nodeCount := 0, leafCount := 0
        pending := none, outcnt := 0#32, bitcnt := 0#40, errInfo := 0#32
        status := { s.status with
          busy := false, done := true, treeValid := false, empty := false, codesValid := false, err := 0x00#8 } } ∧
      ∃ v : State, exec .build u = .next v ∧ v.status.err = 0x02#8

/-- R124: any word that decodes to no command completes with ILLEGAL and ERR_INFO = the word, and changes no internal
memory, shared memory or pointer register; its launch leaves LASTOP = w[7:0]. -/
def Obligations.IllegalCommandEffect : Prop :=
  ∀ (s : State) (w : Word),
    (w.toNat / 256 ≠ 0 ∨ w.toNat % 256 ∉ [0x00, 0x01, 0x10, 0x11, 0x20, 0x21, 0x30, 0x31]) →
    runWord w s =
      .next { s with
        pending := none, outcnt := 0#32, bitcnt := 0#40, errInfo := w
        status := { s.status with busy := false, done := true, err := 0x01#8 } } ∧
    (s.launch w).status.lastop = BitVec.ofNat 8 (w.toNat % 256)

/-! ## BUILD -/

/-- R153: BUILD stops with the fault `unwrittenFreq` when an entry of FREQ is unwritten. -/
def Obligations.BuildStopsOnUnwrittenFrequency : Prop :=
  ∀ s : State, (∃ sym : Byte, s.freqAt sym = none) → exec .build s = .fault .unwrittenFreq

/-- R143: on an all-zero table BUILD raises EMPTY(0), leaves no tree, free values in NODE, and sets EMPTY. -/
def Obligations.BuildEmptyTable : Prop :=
  ∀ s : State, (∀ sym : Byte, s.freqAt sym = some 0#32) →
    ∃ u : State, exec .build s = .next u ∧ Completed u ∧ Aborted s u .empty 0#32 ∧
      u.status.treeValid = false ∧ u.status.empty = true ∧ u.status.codesValid = false ∧
      u.total = 0#32 ∧ u.root = 0 ∧ u.nodeCount = 0 ∧ u.leafCount = 0 ∧
      (∀ i : NodeIdx, ∃ k : Nat, s.draws ≤ k ∧ u.nodeAt i = some (freeNode k))

/-- R144: when the exact sum of FREQ exceeds 0xFFFFFFFF BUILD raises TOTAL_OVF(0), leaves no tree, free values in
NODE, and EMPTY = 0. -/
def Obligations.BuildTotalOverflow : Prop :=
  ∀ s : State, s.freqWritten → 0xFFFFFFFF < s.freqTotal →
    ∃ u : State, exec .build s = .next u ∧ Completed u ∧ Aborted s u .totalOvf 0#32 ∧
      u.status.treeValid = false ∧ u.status.empty = false ∧ u.status.codesValid = false ∧
      u.total = 0#32 ∧ u.root = 0 ∧ u.nodeCount = 0 ∧ u.leafCount = 0 ∧
      (∀ i : NodeIdx, ∃ k : Nat, s.draws ≤ k ∧ u.nodeAt i = some (freeNode k))

/-- R145 with R149: BUILD on a written table with a present symbol and a sum below 2^32 succeeds: L leaves, 2L-1 nodes,
ROOT the last of them, TOTAL the sum, the rest of NODE zero; shared memory, the pointers, FREQ and CODE stay. -/
def Obligations.BuildSuccess : Prop :=
  ∀ s : State, s.freqWritten → s.presentList ≠ [] → s.freqTotal ≤ 0xFFFFFFFF →
    ∃ u : State, exec .build s = .next u ∧ Completed u ∧ Succeeded u 0 0 ∧ KeepsHost s u ∧
      u.status.treeValid = true ∧ u.status.empty = false ∧ u.status.codesValid = false ∧
      u.nodeCount.val = 2 * s.presentList.length - 1 ∧ u.leafCount.val = s.presentList.length ∧
      u.root.val = 2 * s.presentList.length - 2 ∧ u.total.toNat = s.freqTotal ∧
      (∀ i : NodeIdx, 2 * s.presentList.length - 1 ≤ i.val → u.nodeAt i = some Node.zero) ∧
      u.mem = s.mem ∧ u.srcAddr = s.srcAddr ∧ u.dstAddr = s.dstAddr ∧ u.freq = s.freq ∧ u.code = s.code

/-- R142: after a successful BUILD the leaf of the k-th present symbol, in ascending order, is NODE[k], with the symbol's
frequency, and no other node is a leaf. -/
def Obligations.BuildLeavesInSymbolOrder : Prop :=
  ∀ s : State, s.freqWritten → s.presentList ≠ [] → s.freqTotal ≤ 0xFFFFFFFF →
    ∃ u : State, exec .build s = .next u ∧
      (∀ (i : NodeIdx) (sym : Byte) (f : Word), s.presentList[i.val]? = some sym → s.freqAt sym = some f →
        u.nodeAt i =
          some { valid := true, leaf := true, sym := sym, freq := f, left := 0, right := 0 }) ∧
      (∀ (i : NodeIdx) (n : Node), s.presentList.length ≤ i.val → u.nodeAt i = some n → n.leaf = false)

/-- R151: after a successful BUILD the node memory holds a strict binary tree of all its nodes whose leaves are exactly the
present symbols, each once. -/
def Obligations.BuildTreeHasThePresentLeaves : Prop :=
  ∀ s : State, s.freqWritten → s.presentList ≠ [] → s.freqTotal ≤ 0xFFFFFFFF →
    ∃ (u : State) (t : NodeTree), exec .build s = .next u ∧ TreeAt u t ∧ t.shape.symbols.Perm s.presentList

/-- R146, R147, R148: each merge extracts the two entries with the smallest keys (FREQ, then node index), the first as the
RIGHT child and the second as the LEFT, and appends a node with the sum of their FREQ. -/
def Obligations.MergeTakesTheTwoSmallestKeys : Prop :=
  (∀ q : List QEntry, q ≠ [] → ∃ m : QEntry, extractMin q = some (m, q.erase m) ∧ m ∈ q ∧
    ∀ x ∈ q, m.freq.toNat < x.freq.toNat ∨ (m.freq = x.freq ∧ m.idx ≤ x.idx)) ∧
  (∀ (fuel : Nat) (nodes : List Node) (q q1 q2 : List QEntry) (x y : QEntry),
    extractMin q = some (x, q1) → extractMin q1 = some (y, q2) →
    mergeLoop (fuel + 1) nodes q =
      mergeLoop fuel
        (nodes ++ [{ valid := true, leaf := false, sym := 0#8, freq := x.freq + y.freq
                     left := Fin.ofNat 511 y.idx, right := Fin.ofNat 511 x.idx }])
        ({ freq := x.freq + y.freq, idx := nodes.length } :: q2))

/-- R152: the tree BUILD makes minimises the sum of FREQ times depth over all strict binary trees with the same leaves. -/
def Obligations.BuildTreeIsOptimal : Prop :=
  ∀ s : State, s.freqWritten → s.presentList ≠ [] → s.freqTotal ≤ 0xFFFFFFFF →
    ∃ (u : State) (t : NodeTree), exec .build s = .next u ∧ TreeAt u t ∧ t.shape.symbols.Perm s.presentList ∧
      ∀ sh : Shape, sh.symbols.Perm s.presentList → t.shape.cost s.freqNat ≤ sh.cost s.freqNat

/-! ## GENCODE -/

/-- R162: with TREE_VALID = 0 GENCODE clears CODES_VALID, leaves CODE unchanged and raises NOTREE(0). -/
def Obligations.GencodeWithoutTree : Prop :=
  ∀ s : State, s.status.treeValid = false →
    exec .gencode s =
      .next { s with
        pending := none, outcnt := 0#32, bitcnt := 0#40, errInfo := 0#32
        status := { s.status with busy := false, done := true, codesValid := false, err := 0x04#8 } }

/-- R161, R163: GENCODE on a tree with distinct leaf symbols completes: every present symbol's code is its path from ROOT,
every other entry is absent, CODES_VALID = 1; shared memory and the pointers stay. -/
def Obligations.GencodeWritesPaths : Prop :=
  ∀ (s : State) (t : NodeTree), s.status.treeValid = true → TreeAt s t → t.shape.symbols.Nodup →
    ∃ u : State, exec .gencode s = .next u ∧ Completed u ∧ Succeeded u 0 0 ∧ KeepsHost s u ∧ KeepsTree s u ∧
      u.status.codesValid = true ∧
      (∀ (sym : Byte) (p : List Bool), (sym, p) ∈ t.shape.codes →
        u.codeAt sym = some { present := true, bits := p }) ∧
      (∀ sym : Byte, sym ∉ t.shape.symbols → u.codeAt sym = some { present := false, bits := [] }) ∧
      u.mem = s.mem ∧ u.srcAddr = s.srcAddr ∧ u.dstAddr = s.dstAddr ∧ u.freq = s.freq

/-- R164: on a tree with a repeated leaf symbol GENCODE raises DUP_SYM with the symbol of the second leaf in pre-order,
clears every CODE entry and leaves CODES_VALID = 0. -/
def Obligations.GencodeDuplicateSymbol : Prop :=
  ∀ (s : State) (t : NodeTree) (sym : Byte), s.status.treeValid = true → TreeAt s t →
    firstDuplicate [] t.shape.symbols = some sym →
    ∃ u : State, exec .gencode s = .next u ∧ Completed u ∧ Aborted s u .dupSym (sym.setWidth 32) ∧
      u.status.codesValid = false ∧ (∀ x : Byte, u.codeAt x = some { present := false, bits := [] }) ∧
      KeepsTree s u ∧ u.mem = s.mem

/-- R166: with CODES_VALID = 1 no present symbol's code is a prefix of another's. -/
def Obligations.CodesArePrefixFree : Prop :=
  ∀ s : State, TablesInv s → s.status.treeValid = true → s.status.codesValid = true →
    ∀ (x y : Byte) (c d : Code), x ≠ y → s.codeAt x = some c → s.codeAt y = some d →
      c.present = true → d.present = true → ¬ c.bits <+: d.bits

/-- R167: with CODES_VALID = 1 the code is complete: 2 to the minus LEN sums to 1 over the present symbols. -/
def Obligations.CodesAreComplete : Prop :=
  ∀ s : State, TablesInv s → s.status.treeValid = true → s.status.codesValid = true →
    (allSymbols.map (fun sym =>
      match s.codeAt sym with
      | some c => if c.present then ((1 : ℚ) / 2) ^ c.len else 0
      | none => 0)).sum = 1

/-! ## SERIALIZE -/

/-- R182, R183, R185: with a tree, a well-formed destination that holds the header and an ADMIT that allows its bytes,
SERIALIZE completes: the count and the pre-order tree at DST_ADDR, OUTCNT the size, DST_ADDR after it, no other byte
changed. -/
def Obligations.SerializeWritesHeader : Prop :=
  ∀ (s : State) (t : NodeTree), s.status.treeValid = true → TreeAt s t → s.dstAddr.toNat ≤ s.dstEnd.toNat →
    s.dstAddr.toNat + (4 + (2 * s.leafCount.val - 1) + (if s.ctrl.symw then 2 else 1) * s.leafCount.val) ≤
      s.dstEnd.toNat →
    s.admitsRange .write s.dstAddr.toNat
      (s.dstAddr.toNat + (4 + (2 * s.leafCount.val - 1) + (if s.ctrl.symw then 2 else 1) * s.leafCount.val)) →
    ∃ (u : State) (size : Nat), exec .serialize s = .next u ∧
      size = 4 + (2 * s.leafCount.val - 1) + (if s.ctrl.symw then 2 else 1) * s.leafCount.val ∧
      Completed u ∧ Succeeded u size 0 ∧ KeepsHost s u ∧ KeepsTree s u ∧ KeepsCodes s u ∧ u.freq = s.freq ∧
      u.srcAddr = s.srcAddr ∧ u.dstAddr.toNat = s.dstAddr.toNat + size ∧
      Memory.bytesAt u.mem s.dstAddr.toNat size = countField s.total ++ t.shape.enc s.ctrl.symw ∧
      KeepsBytesOutside s.dstAddr.toNat (s.dstAddr.toNat + size) s u

/-- R184: in the EMPTY state SERIALIZE writes the four bytes of TOTAL, which are 0, and nothing else. -/
def Obligations.SerializeEmptyArtifact : Prop :=
  ∀ s : State, s.status.empty = true → s.status.treeValid = false → s.total = 0#32 →
    s.dstAddr.toNat + 4 ≤ s.dstEnd.toNat →
    s.admitsRange .write s.dstAddr.toNat (s.dstAddr.toNat + 4) →
    ∃ u : State, exec .serialize s = .next u ∧ Completed u ∧ Succeeded u 4 0 ∧
      u.dstAddr.toNat = s.dstAddr.toNat + 4 ∧
      Memory.bytesAt u.mem s.dstAddr.toNat 4 = [0#8, 0#8, 0#8, 0#8] ∧
      KeepsBytesOutside s.dstAddr.toNat (s.dstAddr.toNat + 4) s u

/-- R12, R80, R252, R253: the first access that ADMIT refuses, a write of SERIALIZE, a read of DESERIALIZE, a read or a
write of PACK or UNPACK, aborts the command with BUS at its address, when no other error comes before it. SERIALIZE, PACK
and UNPACK then leave every byte of the destination region a free value. That they do so when it is their very first access
that is refused is the model's choice (assumption log 6, DEDUCED). -/
def Obligations.SerializeStopsAtRefusedWrite : Prop :=
  -- SERIALIZE: the write of header byte k
  (∀ (s : State) (k : Nat) (a : Word), s.status.treeValid = true ∨ s.status.empty = true →
    (s.status.treeValid = true → ∃ t : NodeTree, TreeAt s t) →
    s.dstAddr.toNat + headerSize s ≤ s.dstEnd.toNat → k < headerSize s →
    s.admitsRange .write s.dstAddr.toNat (s.dstAddr.toNat + k) →
    a.toNat = s.dstAddr.toNat + k → s.admits a .write = false →
    ∃ u : State, exec .serialize s = .next u ∧ AbortedInBody s u .bus a) ∧
  -- DESERIALIZE: the read of header byte n
  (∀ (s : State) (n : Nat) (a : Word), s.srcAddr.toNat + n < s.srcEnd.toNat →
    s.admitsRange .read s.srcAddr.toNat (s.srcAddr.toNat + n) → s.srcUnraced →
    scanHeader s.ctrl.symw (s.srcPrefix n) = .more →
    a.toNat = s.srcAddr.toNat + n → s.admits a .read = false →
    ∃ u : State, exec .deserialize s = .next u ∧ AbortedRead s u .bus a) ∧
  -- PACK: the read of input byte k
  (∀ (s : State) (k : Nat) (a : Word), PackReady s → k < s.total.toNat → s.coded (s.srcPrefix k) →
    s.dstAddr.toNat + (s.payloadOf (s.srcPrefix k)).length / 8 ≤ s.dstEnd.toNat →
    s.admitsRange .read s.srcAddr.toNat (s.srcAddr.toNat + k) →
    s.admitsRange .write s.dstAddr.toNat (s.dstAddr.toNat + (s.payloadOf (s.srcPrefix k)).length / 8) →
    a.toNat = s.srcAddr.toNat + k → s.admits a .read = false →
    ∃ u : State, exec .pack s = .next u ∧ AbortedInBody s u .bus a) ∧
  -- PACK: the write of payload byte k, whose bits the first m input bytes give
  (∀ (s : State) (k m : Nat) (a : Word), PackReady s → m ≤ s.total.toNat → s.coded (s.srcPrefix m) →
    8 * (k + 1) ≤ (s.payloadOf (s.srcPrefix m)).length ∨
      (m = s.total.toNat ∧ k < bytesFor (s.payloadOf (s.srcPrefix m)).length) →
    s.dstAddr.toNat + k < s.dstEnd.toNat →
    s.admitsRange .read s.srcAddr.toNat (s.srcAddr.toNat + m) →
    s.admitsRange .write s.dstAddr.toNat (s.dstAddr.toNat + k) →
    a.toNat = s.dstAddr.toNat + k → s.admits a .write = false →
    ∃ u : State, exec .pack s = .next u ∧ AbortedInBody s u .bus a) ∧
  -- UNPACK: the read of payload byte k, when each symbol complete before it may be written
  (∀ (s : State) (i : NodeIdx) (l r : NodeTree) (picks : List (Byte × List Bool)) (k : Nat) (a : Word),
    UnpackReady s (.node i l r) → RunOf s (.node i l r) picks → 8 * k < (runBits picks).length →
    s.srcAddr.toNat + k < s.srcEnd.toNat → PayloadBegins s picks (8 * k) →
    s.admitsRange .read s.srcAddr.toNat (s.srcAddr.toNat + k) →
    (∀ (m : Nat) (x : Word), m < s.total.toNat → (runBits (picks.take (m + 1))).length ≤ 8 * k →
      x.toNat = s.dstAddr.toNat + m → s.admits x .write = true) →
    a.toNat = s.srcAddr.toNat + k → s.admits a .read = false →
    ∃ u : State, exec .unpack s = .next u ∧ AbortedInBody s u .bus a) ∧
  -- UNPACK: the write of symbol k, when each payload byte it needs may be read
  (∀ (s : State) (i : NodeIdx) (l r : NodeTree) (picks : List (Byte × List Bool)) (k : Nat) (a : Word),
    UnpackReady s (.node i l r) → RunOf s (.node i l r) picks → k < s.total.toNat →
    s.srcAddr.toNat + bytesFor (runBits (picks.take (k + 1))).length ≤ s.srcEnd.toNat →
    PayloadBegins s picks (runBits (picks.take (k + 1))).length →
    s.admitsRange .read s.srcAddr.toNat (s.srcAddr.toNat + bytesFor (runBits (picks.take (k + 1))).length) →
    s.admitsRange .write s.dstAddr.toNat (s.dstAddr.toNat + k) →
    a.toNat = s.dstAddr.toNat + k → s.admits a .write = false →
    ∃ u : State, exec .unpack s = .next u ∧ AbortedInBody s u .bus a) ∧
  -- UNPACK of a single-leaf tree: the write of symbol k
  (∀ (s : State) (i : NodeIdx) (sym : Byte) (k : Nat) (a : Word), UnpackReady s (.leaf i sym) →
    k < s.total.toNat → s.admitsRange .write s.dstAddr.toNat (s.dstAddr.toNat + k) →
    a.toNat = s.dstAddr.toNat + k → s.admits a .write = false →
    ∃ u : State, exec .unpack s = .next u ∧ AbortedInBody s u .bus a)

/-! ## DESERIALIZE -/

/-- R190, R192, R193: when the source region begins with a count other than 0 and the encoding of a tree of at most 511
nodes, and its bytes are admitted and not raced for, DESERIALIZE completes: the tree with its nodes numbered in pre-order,
every FREQ 0, TOTAL the count, SRC_ADDR after the tree; shared memory, FREQ, CODE and DST_ADDR stay. -/
def Obligations.DeserializeRebuildsTree : Prop :=
  ∀ (s : State) (sh : Shape) (count : Word), count ≠ 0#32 → sh.nodes ≤ 511 →
    s.srcAddr.toNat + (4 + (sh.enc s.ctrl.symw).length) ≤ s.srcEnd.toNat →
    Memory.bytesAt s.mem s.srcAddr.toNat (4 + (sh.enc s.ctrl.symw).length) =
      countField count ++ sh.enc s.ctrl.symw →
    s.admitsRange .read s.srcAddr.toNat (s.srcAddr.toNat + (4 + (sh.enc s.ctrl.symw).length)) →
    s.srcUnraced →
    ∃ (u : State) (t : NodeTree), exec .deserialize s = .next u ∧ Completed u ∧
      Succeeded u (4 + (sh.enc s.ctrl.symw).length) 0 ∧ KeepsHost s u ∧
      TreeAt u t ∧ t.shape = sh ∧ t.indices = (List.finRange 511).take sh.nodes ∧ u.root = 0 ∧
      u.nodeCount.val = sh.nodes ∧ u.total = count ∧
      (∀ (i : NodeIdx) (n : Node), u.nodeAt i = some n → n.freq = 0#32) ∧
      u.status.treeValid = true ∧ u.status.empty = false ∧ u.status.codesValid = false ∧
      u.srcAddr.toNat = s.srcAddr.toNat + (4 + (sh.enc s.ctrl.symw).length) ∧ u.dstAddr = s.dstAddr ∧
      u.mem = s.mem ∧ u.freq = s.freq ∧ u.code = s.code

/-- R191: when the count read is 0, DESERIALIZE reads no tree, sets EMPTY, advances SRC_ADDR by 4 and succeeds; shared
memory, FREQ and CODE stay. That NODE stays too when there was no tree before is the model's choice (assumption log 20,
DEDUCED; R41 calls it unspecified unless CLEAR left it). -/
def Obligations.DeserializeCountZero : Prop :=
  ∀ s : State, s.srcAddr.toNat + 4 ≤ s.srcEnd.toNat →
    Memory.bytesAt s.mem s.srcAddr.toNat 4 = [0#8, 0#8, 0#8, 0#8] →
    s.admitsRange .read s.srcAddr.toNat (s.srcAddr.toNat + 4) → s.srcUnraced →
    ∃ u : State, exec .deserialize s = .next u ∧ Completed u ∧ Succeeded u 4 0 ∧
      u.status.empty = true ∧ u.status.treeValid = false ∧ u.status.codesValid = false ∧ u.total = 0#32 ∧
      u.srcAddr.toNat = s.srcAddr.toNat + 4 ∧ u.dstAddr = s.dstAddr ∧ u.mem = s.mem ∧ u.freq = s.freq ∧
      u.code = s.code ∧ (s.status.treeValid = false → u.node = s.node)

/-- R199: a RANGE error of DESERIALIZE changes no tree or code state; any later error leaves no tree, no codes and zero
counts, SRC_ADDR at its launch value, free values in NODE, and the CODE memory and shared memory as they were. -/
def Obligations.DeserializeErrorState : Prop :=
  ∀ s : State,
    (s.srcEnd.toNat < s.srcAddr.toNat →
      ∃ u : State, exec .deserialize s = .next u ∧ Aborted s u .range 0#32 ∧ KeepsTree s u ∧ KeepsCodes s u) ∧
    (∀ u : State, s.srcAddr.toNat ≤ s.srcEnd.toNat → exec .deserialize s = .next u → u.status.err ≠ 0#8 →
      u.status.treeValid = false ∧ u.status.empty = false ∧ u.status.codesValid = false ∧
      u.total = 0#32 ∧ u.root = 0 ∧ u.nodeCount = 0 ∧ u.leafCount = 0 ∧ u.srcAddr = s.srcAddr ∧
      (∀ i : NodeIdx, ∃ k : Nat, s.draws ≤ k ∧ u.nodeAt i = some (freeNode k)) ∧
      u.code = s.code ∧ u.mem = s.mem)

/-- R190, R192, R194, R195, R200: the errors of reading a header. With the first `n` bytes of the source region admitted and
not raced for, DESERIALIZE completes with the error those bytes give (TREE_OVF at a 512th node, before its tag is read;
BAD_TAG at the address of a tag that is neither 0x00 nor 0x01; with SYMW = 1, BAD_SYM at the address of a leaf's high symbol
byte that is not 0, after both bytes are read), and with SRC_EXHAUSTED when they are the whole region and the header needs
one more. The last clauses say the same of `parse` and `parseSym`, wherever in the tree they stand. -/
def Obligations.ParseErrors : Prop :=
  (∀ (s : State) (n off : Nat) (e : Err), s.srcAddr.toNat + n ≤ s.srcEnd.toNat →
    s.admitsRange .read s.srcAddr.toNat (s.srcAddr.toNat + n) → s.srcUnraced →
    scanHeader s.ctrl.symw (s.srcPrefix n) = .bad e off →
    ∃ u : State, exec .deserialize s = .next u ∧ AbortedRead s u e (s.srcAddr + BitVec.ofNat 32 off)) ∧
  (∀ (s : State) (n : Nat), s.srcAddr.toNat + n = s.srcEnd.toNat →
    s.admitsRange .read s.srcAddr.toNat s.srcEnd.toNat → s.srcUnraced →
    scanHeader s.ctrl.symw (s.srcPrefix n) = .more →
    ∃ u : State, exec .deserialize s = .next u ∧ AbortedRead s u .srcExhausted s.srcEnd) ∧
  ∀ (calls : Nat) (st : ParseState),
    (st.k = 511 → parse (calls + 1) st = .raise .treeOvf st.p st.s) ∧
    (st.k < 511 → st.p = st.s.srcEnd → parse (calls + 1) st = .raise .srcExhausted st.s.srcEnd st.s) ∧
    (st.k < 511 → st.p ≠ st.s.srcEnd → st.s.admits st.p .read = true → st.p.toNat ∉ st.s.raced →
      Memory.read st.s.mem st.p.toNat ≠ 0x00#8 → Memory.read st.s.mem st.p.toNat ≠ 0x01#8 →
      parse (calls + 1) st = .raise .badTag st.p st.s) ∧
    (∀ hi lo : Byte, st.s.ctrl.symw = true → st.p.toNat + 2 ≤ st.s.srcEnd.toNat →
      st.s.admitsRange .read st.p.toNat (st.p.toNat + 2) →
      st.p.toNat ∉ st.s.raced → st.p.toNat + 1 ∉ st.s.raced →
      Memory.bytesAt st.s.mem st.p.toNat 2 = [hi, lo] → hi ≠ 0x00#8 →
      parseSym st = .raise .badSym st.p st.s)

/-- R198: DESERIALIZE of what SERIALIZE wrote, with the same SYMW, reads exactly those bytes and rebuilds a tree of the same
shape and symbols with the same TOTAL, whatever the rest of the state is. -/
def Obligations.SerializeDeserializeRoundTrip : Prop :=
  ∀ (s u v : State) (t : NodeTree), s.status.treeValid = true → TreeAt s t → s.total ≠ 0#32 →
    exec .serialize s = .next u → u.status.err = 0#8 →
    v.ctrl.symw = s.ctrl.symw → v.srcAddr = s.dstAddr → u.dstAddr.toNat ≤ v.srcEnd.toNat →
    (∀ a : Nat, s.dstAddr.toNat ≤ a → a < u.dstAddr.toNat → Memory.read v.mem a = Memory.read u.mem a) →
    v.admitsRange .read s.dstAddr.toNat u.dstAddr.toNat → v.srcUnraced →
    ∃ (w : State) (t' : NodeTree), exec .deserialize v = .next w ∧ w.status.err = 0#8 ∧ w.status.treeValid = true ∧
      TreeAt w t' ∧ t'.shape = t.shape ∧ w.total = s.total ∧ w.srcAddr = u.dstAddr ∧ w.outcnt = u.outcnt

/-! ## PACK -/

/-- R210, R211, R219: when the regions are well formed and do not overlap, the input's length is TOTAL, every input byte has
a code, the destination holds the payload and ADMIT allows the accesses, PACK completes: the payload at DST_ADDR, BITCNT
its bits, OUTCNT its bytes, the pointers advanced, no other byte changed. With TOTAL = 0 no codes are needed (R217). -/
def Obligations.PackWritesPayload : Prop :=
  ∀ s : State, s.srcAddr.toNat ≤ s.srcEnd.toNat → s.dstAddr.toNat ≤ s.dstEnd.toNat → s.overlap = false →
    regionBytes s.srcAddr s.srcEnd = s.total.toNat → (s.total ≠ 0#32 → s.status.codesValid = true) →
    (∀ b ∈ s.srcBytes, ∃ c : Code, s.codeAt b = some c ∧ c.present = true) →
    s.dstAddr.toNat + bytesFor (s.payloadOf s.srcBytes).length ≤ s.dstEnd.toNat →
    s.admitsRange .read s.srcAddr.toNat s.srcEnd.toNat →
    s.admitsRange .write s.dstAddr.toNat (s.dstAddr.toNat + bytesFor (s.payloadOf s.srcBytes).length) →
    s.srcUnraced →
    ∃ u : State, exec .pack s = .next u ∧ Completed u ∧
      Succeeded u (bytesFor (s.payloadOf s.srcBytes).length) (s.payloadOf s.srcBytes).length ∧
      KeepsHost s u ∧ KeepsTree s u ∧ KeepsCodes s u ∧ u.freq = s.freq ∧ u.srcAddr = s.srcEnd ∧
      u.dstAddr.toNat = s.dstAddr.toNat + bytesFor (s.payloadOf s.srcBytes).length ∧
      Memory.bytesAt u.mem s.dstAddr.toNat (bytesFor (s.payloadOf s.srcBytes).length) =
        packBits (s.payloadOf s.srcBytes) ∧
      KeepsBytesOutside s.dstAddr.toNat (s.dstAddr.toNat + bytesFor (s.payloadOf s.srcBytes).length) s u

/-- R82, R123, R186, R212, R213, R232, R234, R251, R252 item 2: the precondition checks of SERIALIZE, DESERIALIZE, PACK and
UNPACK in their order; each leaves shared memory and every table unchanged. -/
def Obligations.PreconditionErrors : Prop :=
  ∀ (i : Instr) (s : State) (e : Err) (info : Word),
    (i = .serialize ∧
      ((s.dstEnd.toNat < s.dstAddr.toNat ∧ e = .range ∧ info = 0#32) ∨
       (s.dstAddr.toNat ≤ s.dstEnd.toNat ∧ s.status.treeValid = false ∧ s.status.empty = false ∧
         e = .notree ∧ info = 0#32) ∨
       (s.dstAddr.toNat ≤ s.dstEnd.toNat ∧ s.status.treeValid = true ∧
         s.dstEnd.toNat < s.dstAddr.toNat + (4 + s.nodeCount.val + symWidth s.ctrl.symw * s.leafCount.val) ∧
         e = .dstFull ∧ info = s.dstEnd) ∨
       (s.dstAddr.toNat ≤ s.dstEnd.toNat ∧ s.status.treeValid = false ∧ s.status.empty = true ∧
         s.dstEnd.toNat < s.dstAddr.toNat + 4 ∧ e = .dstFull ∧ info = s.dstEnd))) ∨
    (i = .deserialize ∧ s.srcEnd.toNat < s.srcAddr.toNat ∧ e = .range ∧ info = 0#32) ∨
    ((i = .pack ∨ i = .unpack) ∧ e = .range ∧ info = 0#32 ∧
      (s.srcEnd.toNat < s.srcAddr.toNat ∨ s.dstEnd.toNat < s.dstAddr.toNat)) ∨
    ((i = .pack ∨ i = .unpack) ∧ s.srcAddr.toNat < s.srcEnd.toNat ∧ s.dstAddr.toNat < s.dstEnd.toNat ∧
      s.srcAddr.toNat < s.dstEnd.toNat ∧ s.dstAddr.toNat < s.srcEnd.toNat ∧ e = .overlap ∧ info = 0#32) ∨
    (s.srcAddr.toNat ≤ s.srcEnd.toNat ∧ s.dstAddr.toNat ≤ s.dstEnd.toNat ∧ s.overlap = false ∧ i = .pack ∧
      ((s.srcEnd.toNat - s.srcAddr.toNat ≠ s.total.toNat ∧ e = .length ∧ info = 0#32) ∨
       (s.srcEnd.toNat - s.srcAddr.toNat = s.total.toNat ∧ s.total ≠ 0#32 ∧ s.status.codesValid = false ∧
         e = .nocodes ∧ info = 0#32))) ∨
    (s.srcAddr.toNat ≤ s.srcEnd.toNat ∧ s.dstAddr.toNat ≤ s.dstEnd.toNat ∧ s.overlap = false ∧ i = .unpack ∧
      s.total ≠ 0#32 ∧
      ((s.status.treeValid = false ∧ e = .notree ∧ info = 0#32) ∨
       (s.status.treeValid = true ∧ s.dstEnd.toNat - s.dstAddr.toNat < s.total.toNat ∧ e = .dstFull ∧
         info = s.dstEnd))) →
    exec i s =
      .next { s with
        pending := none, outcnt := 0#32, bitcnt := 0#40, errInfo := info
        status := { s.status with busy := false, done := true, err := e.code } }

/-- R215 with R210's order: the first input byte without a code, the k-th, raises NOCODE at its address, when the bytes
before it have codes whose whole payload bytes fit the destination and ADMIT allows the accesses. -/
def Obligations.PackRejectsByteWithoutCode : Prop :=
  ∀ (s : State) (k : Nat) (a : Word) (c : Code), s.srcAddr.toNat ≤ s.srcEnd.toNat →
    s.dstAddr.toNat ≤ s.dstEnd.toNat → s.overlap = false → regionBytes s.srcAddr s.srcEnd = s.total.toNat →
    s.status.codesValid = true → k < s.total.toNat →
    (∀ b ∈ Memory.bytesAt s.mem s.srcAddr.toNat k, ∃ d : Code, s.codeAt b = some d ∧ d.present = true) →
    a.toNat = s.srcAddr.toNat + k → s.codeAt (Memory.read s.mem a.toNat) = some c → c.present = false →
    s.dstAddr.toNat + (s.payloadOf (Memory.bytesAt s.mem s.srcAddr.toNat k)).length / 8 ≤ s.dstEnd.toNat →
    s.admitsRange .read s.srcAddr.toNat s.srcEnd.toNat →
    s.admitsRange .write s.dstAddr.toNat s.dstEnd.toNat → s.srcUnraced →
    ∃ u : State, exec .pack s = .next u ∧ Completed u ∧ Aborted s u .nocode a ∧
      KeepsTree s u ∧ KeepsCodes s u ∧ KeepsBytesOutside s.dstAddr.toNat s.dstEnd.toNat s u

/-- R218: when every input byte has a code but the payload does not fit the destination, PACK raises DST_FULL with ERR_INFO =
DST_END, and every byte of the destination region is a free value afterwards. -/
def Obligations.PackDestinationTooSmall : Prop :=
  ∀ s : State, s.srcAddr.toNat ≤ s.srcEnd.toNat → s.dstAddr.toNat ≤ s.dstEnd.toNat → s.overlap = false →
    regionBytes s.srcAddr s.srcEnd = s.total.toNat → s.status.codesValid = true →
    (∀ b ∈ s.srcBytes, ∃ c : Code, s.codeAt b = some c ∧ c.present = true) →
    s.dstEnd.toNat < s.dstAddr.toNat + bytesFor (s.payloadOf s.srcBytes).length →
    s.admitsRange .read s.srcAddr.toNat s.srcEnd.toNat →
    s.admitsRange .write s.dstAddr.toNat s.dstEnd.toNat → s.srcUnraced →
    ∃ u : State, exec .pack s = .next u ∧ Completed u ∧ Aborted s u .dstFull s.dstEnd ∧
      KeepsBytesOutside s.dstAddr.toNat s.dstEnd.toNat s u ∧
      (∀ x : Nat, s.dstAddr.toNat ≤ x → x < s.dstEnd.toNat →
        ∃ d : Nat, s.draws ≤ d ∧ Memory.lookup u.mem x = some (Config.freeByte d))

/-! ## UNPACK -/

/-- R230, R239, R240, R244: with an internal root, and a source region whose bits begin with the paths of TOTAL leaves,
UNPACK writes the symbols of those leaves: BITCNT the bits of their paths, OUTCNT their number, SRC_ADDR after the last byte
a bit was needed from, DST_ADDR after the last symbol, no other byte changed. With STRICT = 1 the padding bits are 0 and no
byte trails. -/
def Obligations.UnpackDecodes : Prop :=
  ∀ (s : State) (i : NodeIdx) (l r : NodeTree) (picks : List (Byte × List Bool)),
    s.status.treeValid = true → TreeAt s (.node i l r) →
    s.srcAddr.toNat ≤ s.srcEnd.toNat → s.overlap = false →
    picks.length = s.total.toNat → (∀ p ∈ picks, p ∈ (NodeTree.node i l r).shape.codes) →
    s.dstAddr.toNat + s.total.toNat ≤ s.dstEnd.toNat →
    s.srcAddr.toNat + bytesFor (picks.flatMap Prod.snd).length ≤ s.srcEnd.toNat →
    (∀ j : Nat, j < (picks.flatMap Prod.snd).length →
      Memory.bitAt s.mem s.srcAddr.toNat j = (picks.flatMap Prod.snd).getD j false) →
    (s.ctrl.strict = true →
      s.srcAddr.toNat + bytesFor (picks.flatMap Prod.snd).length = s.srcEnd.toNat ∧
      ∀ j : Nat, (picks.flatMap Prod.snd).length ≤ j → j < 8 * bytesFor (picks.flatMap Prod.snd).length →
        Memory.bitAt s.mem s.srcAddr.toNat j = false) →
    s.admitsRange .read s.srcAddr.toNat s.srcEnd.toNat →
    s.admitsRange .write s.dstAddr.toNat (s.dstAddr.toNat + s.total.toNat) → s.srcUnraced →
    ∃ u : State, exec .unpack s = .next u ∧ Completed u ∧
      Succeeded u s.total.toNat (picks.flatMap Prod.snd).length ∧ KeepsHost s u ∧ KeepsTree s u ∧ KeepsCodes s u ∧
      u.freq = s.freq ∧
      u.srcAddr.toNat = s.srcAddr.toNat + bytesFor (picks.flatMap Prod.snd).length ∧
      u.dstAddr.toNat = s.dstAddr.toNat + s.total.toNat ∧
      Memory.bytesAt u.mem s.dstAddr.toNat s.total.toNat = picks.map Prod.fst ∧
      KeepsBytesOutside s.dstAddr.toNat (s.dstAddr.toNat + s.total.toNat) s u

/-- R235: with a single-leaf tree UNPACK writes its symbol TOTAL times and reads no payload byte: BITCNT = 0, SRC_ADDR
unchanged. -/
def Obligations.UnpackSingleLeaf : Prop :=
  ∀ (s : State) (i : NodeIdx) (sym : Byte), s.status.treeValid = true → TreeAt s (.leaf i sym) →
    s.srcAddr.toNat ≤ s.srcEnd.toNat → s.overlap = false → (s.ctrl.strict = true → s.srcAddr = s.srcEnd) →
    s.dstAddr.toNat + s.total.toNat ≤ s.dstEnd.toNat →
    s.admitsRange .write s.dstAddr.toNat (s.dstAddr.toNat + s.total.toNat) →
    ∃ u : State, exec .unpack s = .next u ∧ Completed u ∧ Succeeded u s.total.toNat 0 ∧
      u.srcAddr = s.srcAddr ∧ u.dstAddr.toNat = s.dstAddr.toNat + s.total.toNat ∧
      Memory.bytesAt u.mem s.dstAddr.toNat s.total.toNat = List.replicate s.total.toNat sym ∧
      KeepsBytesOutside s.dstAddr.toNat (s.dstAddr.toNat + s.total.toNat) s u

/-- R238: with TOTAL = 0 UNPACK reads and writes nothing, whatever TREE_VALID and EMPTY are: it succeeds with no counts, or,
with STRICT = 1 and a non-empty source region, raises TRAIL at SRC_ADDR. That this TRAIL, raised before any access, leaves
shared memory unchanged is read from R252 item 2 and D20, which do not name it (assumption log 6, DEDUCED). -/
def Obligations.UnpackCountZero : Prop :=
  ∀ s : State, s.total = 0#32 → s.srcAddr.toNat ≤ s.srcEnd.toNat → s.dstAddr.toNat ≤ s.dstEnd.toNat →
    s.overlap = false →
    ((s.ctrl.strict = false ∨ s.srcAddr = s.srcEnd) →
      exec .unpack s =
        .next { s with
          pending := none, outcnt := 0#32, bitcnt := 0#40, errInfo := 0#32
          status := { s.status with busy := false, done := true, err := 0x00#8 } }) ∧
    ((s.ctrl.strict = true ∧ s.srcAddr ≠ s.srcEnd) →
      exec .unpack s =
        .next { s with
          pending := none, outcnt := 0#32, bitcnt := 0#40, errInfo := s.srcAddr
          status := { s.status with busy := false, done := true, err := 0x11#8 } })

/-- R237, R243: with an internal root, and a source region one byte shorter than the payload of TOTAL leaves, UNPACK raises
SRC_EXHAUSTED with ERR_INFO = SRC_END whatever STRICT is; when a byte was read first, every byte of the destination region
is a free value (R252 item 3). That an empty source region, where no access comes first, leaves shared memory unchanged is
the model's reading of R252 item 2, whose list does not name SRC_EXHAUSTED, over R237 (assumption log 6, DEDUCED). -/
def Obligations.UnpackTruncatedPayload : Prop :=
  ∀ (s : State) (i : NodeIdx) (l r : NodeTree) (picks : List (Byte × List Bool)),
    s.status.treeValid = true → TreeAt s (.node i l r) → s.total ≠ 0#32 →
    s.overlap = false → picks.length = s.total.toNat → (∀ p ∈ picks, p ∈ (NodeTree.node i l r).shape.codes) →
    s.dstAddr.toNat + s.total.toNat ≤ s.dstEnd.toNat →
    s.srcAddr.toNat + bytesFor (picks.flatMap Prod.snd).length = s.srcEnd.toNat + 1 →
    (∀ j : Nat, j < 8 * regionBytes s.srcAddr s.srcEnd →
      Memory.bitAt s.mem s.srcAddr.toNat j = (picks.flatMap Prod.snd).getD j false) →
    s.admitsRange .read s.srcAddr.toNat s.srcEnd.toNat →
    s.admitsRange .write s.dstAddr.toNat s.dstEnd.toNat → s.srcUnraced →
    ∃ u : State, exec .unpack s = .next u ∧ Completed u ∧ Aborted s u .srcExhausted s.srcEnd ∧
      KeepsTree s u ∧ KeepsCodes s u ∧ KeepsBytesOutside s.dstAddr.toNat s.dstEnd.toNat s u ∧
      (s.srcAddr = s.srcEnd → u.mem = s.mem) ∧ (s.srcAddr ≠ s.srcEnd → AbortedInBody s u .srcExhausted s.srcEnd)

/-- R236: with STRICT = 1, once the symbols are written, UNPACK completes with PAD at the address of the last byte loaded
when a padding bit of it is 1, and otherwise with TRAIL at the address of the first byte not read when there is one, a
single-leaf tree's included. The last clauses say the same of `strictChecks`, and that with STRICT = 0 neither is checked. -/
def Obligations.UnpackStrictChecks : Prop :=
  (∀ (s : State) (i : NodeIdx) (l r : NodeTree) (picks : List (Byte × List Bool)),
    UnpackReady s (.node i l r) → RunOf s (.node i l r) picks → s.ctrl.strict = true →
    s.srcAddr.toNat + bytesFor (runBits picks).length ≤ s.srcEnd.toNat →
    PayloadBegins s picks (runBits picks).length →
    s.admitsRange .read s.srcAddr.toNat (s.srcAddr.toNat + bytesFor (runBits picks).length) →
    s.admitsRange .write s.dstAddr.toNat (s.dstAddr.toNat + s.total.toNat) →
    (∀ a : Word, a.toNat + 1 = s.srcAddr.toNat + bytesFor (runBits picks).length →
      (∃ j : Nat, (runBits picks).length ≤ j ∧ j < 8 * bytesFor (runBits picks).length ∧
        Memory.bitAt s.mem s.srcAddr.toNat j = true) →
      ∃ u : State, exec .unpack s = .next u ∧ AbortedInBody s u .pad a) ∧
    (∀ a : Word, a.toNat = s.srcAddr.toNat + bytesFor (runBits picks).length → a.toNat < s.srcEnd.toNat →
      (∀ j : Nat, (runBits picks).length ≤ j → j < 8 * bytesFor (runBits picks).length →
        Memory.bitAt s.mem s.srcAddr.toNat j = false) →
      ∃ u : State, exec .unpack s = .next u ∧ AbortedInBody s u .trail a)) ∧
  (∀ (s : State) (i : NodeIdx) (sym : Byte), UnpackReady s (.leaf i sym) → s.ctrl.strict = true →
    s.srcAddr ≠ s.srcEnd → s.admitsRange .write s.dstAddr.toNat (s.dstAddr.toNat + s.total.toNat) →
    ∃ u : State, exec .unpack s = .next u ∧ AbortedInBody s u .trail s.srcAddr) ∧
  ∀ st : UnpackState,
    (st.s.ctrl.strict = false → strictChecks st = .ok st) ∧
    (st.s.ctrl.strict = true →
      ((∃ j : Nat, j < st.rem ∧ st.cur.getLsbD j = true) → strictChecks st = .raise .pad (st.p - 1#32) st.s) ∧
      ((∀ j : Nat, j < st.rem → st.cur.getLsbD j = false) → st.p ≠ st.s.srcEnd →
        strictChecks st = .raise .trail st.p st.s) ∧
      ((∀ j : Nat, j < st.rem → st.cur.getLsbD j = false) → st.p = st.s.srcEnd → strictChecks st = .ok st))

/-- R242 (its payload part), R244: UNPACK of what PACK wrote, with a tree of the same shape and the same TOTAL, gives back
PACK's input, with STRICT = 0 or 1, and consumes as many bits and bytes as PACK produced. -/
def Obligations.PackUnpackRoundTrip : Prop :=
  ∀ (s u v : State) (t t' : NodeTree), s.status.codesValid = true → TreeAt s t → CodesOf s t.shape → s.srcUnraced →
    exec .pack s = .next u → u.status.err = 0#8 →
    v.status.treeValid = true → TreeAt v t' → t'.shape = t.shape → v.total = s.total →
    v.srcAddr.toNat + (u.dstAddr.toNat - s.dstAddr.toNat) = v.srcEnd.toNat →
    (∀ k : Nat, k < u.dstAddr.toNat - s.dstAddr.toNat →
      Memory.read v.mem (v.srcAddr.toNat + k) = Memory.read u.mem (s.dstAddr.toNat + k)) →
    v.overlap = false → v.dstAddr.toNat + v.total.toNat ≤ v.dstEnd.toNat →
    v.admitsRange .read v.srcAddr.toNat v.srcEnd.toNat →
    v.admitsRange .write v.dstAddr.toNat v.dstEnd.toNat → v.srcUnraced →
    ∃ w : State, exec .unpack v = .next w ∧ w.status.err = 0#8 ∧
      Memory.bytesAt w.mem v.dstAddr.toNat v.total.toNat = s.srcBytes ∧
      w.bitcnt = u.bitcnt ∧ w.srcAddr.toNat = v.srcAddr.toNat + (u.dstAddr.toNat - s.dstAddr.toNat)

/-! ## Frames and whole-machine rules -/

/-- R53, R81, R101, R141, R252: the frame of NOP, CLEAR, BUILD, GENCODE and DESERIALIZE whenever one answers a next state:
shared memory reads as before; FREQ changes only by CLEAR, the tree state only by CLEAR, BUILD and DESERIALIZE, CODE only by
CLEAR and GENCODE, CODES_VALID not by NOP, SRC_ADDR only by DESERIALIZE. -/
def Obligations.RegisterCommandFrame : Prop :=
  ∀ (i : Instr) (s u : State), i ∈ [Instr.nop, .clear, .build, .gencode, .deserialize] → exec i s = .next u →
    Completed u ∧ KeepsHost s u ∧ KeepsBytes s u ∧ u.dstAddr = s.dstAddr ∧
    (i ≠ .clear → u.freq = s.freq) ∧
    (i = .nop ∨ i = .gencode → KeepsTree s u) ∧
    (i = .nop → KeepsCodes s u) ∧
    (i = .build ∨ i = .deserialize → u.code = s.code) ∧
    (i = .build → u.status.codesValid = false) ∧
    (i ≠ .deserialize → u.srcAddr = s.srcAddr)

/-- R53, R81, R101, R122, R252: the frame of SERIALIZE, PACK and UNPACK whenever one answers a next state: FREQ, the tree and
the codes are unchanged; on success the stored bytes lie between the old and the new DST_ADDR, SRC_ADDR is unchanged by
SERIALIZE; on an error the pointers keep their launch values and only bytes of [DST_ADDR, DST_END) may change. -/
def Obligations.StreamCommandFrame : Prop :=
  ∀ (i : Instr) (s u : State), i ∈ [Instr.serialize, .pack, .unpack] → TablesInv s → exec i s = .next u →
    Completed u ∧ KeepsHost s u ∧ KeepsTree s u ∧ KeepsCodes s u ∧ u.freq = s.freq ∧
    (i = .serialize → u.srcAddr = s.srcAddr) ∧
    (u.status.err = 0#8 → s.dstAddr.toNat ≤ u.dstAddr.toNat ∧ u.dstAddr.toNat ≤ s.dstEnd.toNat ∧
      KeepsBytesOutside s.dstAddr.toNat u.dstAddr.toNat s u) ∧
    (u.status.err ≠ 0#8 → u.srcAddr = s.srcAddr ∧ u.dstAddr = s.dstAddr ∧ u.outcnt = 0#32 ∧ u.bitcnt = 0#40 ∧
      KeepsBytesOutside s.dstAddr.toNat s.dstEnd.toNat s u)

/-- R81: a command reads no byte of shared memory outside [SRC_ADDR, SRC_END): from two states that differ only in bytes
outside it, it stops alike or leaves states that differ only in shared memory, where every byte either reads alike or is
unchanged in both; and it writes no byte outside [DST_ADDR, DST_END). BUILD, GENCODE, NOP, CLEAR and an illegal command read
and write no byte at all. -/
def Obligations.CommandTouchesOnlyItsRegions : Prop :=
  ∀ (i : Instr) (s : State), TablesInv s →
    (∀ u : State, exec i s = .next u → ∀ a : Nat, inRegion s.dstAddr s.dstEnd a = false →
      Memory.read u.mem a = Memory.read s.mem a) ∧
    (i ∈ [Instr.nop, .clear, .build, .gencode] → ∀ u : State, exec i s = .next u → u.mem = s.mem) ∧
    (∀ (w : Word) (m : Memory), ∃ u : State, execIllegal w s = .next u ∧ u.mem = s.mem ∧
      execIllegal w { s with mem := m } = .next { u with mem := m }) ∧
    (∀ m : Memory, (i ∈ [Instr.nop, .clear, .build, .gencode, .serialize] ∨
        ∀ a : Nat, inRegion s.srcAddr s.srcEnd a = true → Memory.read m a = Memory.read s.mem a) →
      (∃ u v : State, exec i s = .next u ∧ exec i { s with mem := m } = .next v ∧ { v with mem := u.mem } = u ∧
        ∀ a : Nat, Memory.read u.mem a = Memory.read v.mem a ∨
          (Memory.read u.mem a = Memory.read s.mem a ∧ Memory.read v.mem a = Memory.read m a)) ∨
      (∃ f : Fault, exec i s = .fault f ∧ exec i { s with mem := m } = .fault f))

/-- R121, R127, R251: from every state that has the invariants of R49 to R51, every command word completes in one ENGINE step,
with an error code of R251 or none, except a BUILD that reads an unwritten FREQ entry (R153). That no byte is still raced for
afterwards is how the model settles races (assumption log 16, DEDUCED). -/
def Obligations.EveryCommandCompletes : Prop :=
  ∀ (s : State) (w : Word), StatusInv s → TablesInv s → s.status.busy = true → s.pending = some w →
    (∃ u : State, engineStep s = .next u ∧ Completed u ∧ u.raced = [] ∧
      (u.status.err = 0#8 ∨ ∃ e : Err, u.status.err = e.code)) ∨
    (decode w = .ok .build ∧ (∃ sym : Byte, s.freqAt sym = none) ∧ engineStep s = .fault .unwrittenFreq)

/-- R22, R49 (last sentence), R50, R51 (first clause), R120, R121, R251, R261: the invariants of the flags and counts are kept
by every step, from every state that has them. -/
def Obligations.StatusInvariantKept : Prop :=
  ∀ s u : State, StatusInv s → step s = .next u → StatusInv u

/-- R49, R51: the tree and code table invariants are kept by every step, from every state that has them. -/
def Obligations.TablesInvariantKept : Prop :=
  ∀ s u : State, TablesInv s → step s = .next u → TablesInv u

/-- Shared memory keeps its canonical form in every step (the form is the model's own, assumption log 3). -/
def Obligations.MemoryInvariantKept : Prop :=
  ∀ s u : State, MemInv s → step s = .next u → MemInv u

/-- R49, R50, R51 right after reset: the status and table invariants hold there. So does the memory invariant, which is the
model's own: its form (assumption log 3, DESIGN CHOICE) and the empty memory and race list of `State.reset` (log 19, DESIGN
CHOICE). -/
def Obligations.InvariantsHoldAtReset : Prop :=
  StatusInv State.reset ∧ TablesInv State.reset ∧ MemInv State.reset
end

