-- ==== Sys2Proof/Laws/State.lean ====
section
/-! SUPPORT. One lemma per field per named update of State, each true by rfl and tagged simp, so that no proof unfolds a
record update. -/

namespace Sys2Proof.Machine

/-! ### setAccerr -/

@[simp] theorem State.setAccerr_ctrl (s : State) : s.setAccerr.ctrl = s.ctrl := rfl
@[simp] theorem State.setAccerr_status_busy (s : State) : s.setAccerr.status.busy = s.status.busy := rfl
@[simp] theorem State.setAccerr_status_done (s : State) : s.setAccerr.status.done = s.status.done := rfl
@[simp] theorem State.setAccerr_status_treeValid (s : State) : s.setAccerr.status.treeValid = s.status.treeValid := rfl
@[simp] theorem State.setAccerr_status_empty (s : State) : s.setAccerr.status.empty = s.status.empty := rfl
@[simp] theorem State.setAccerr_status_codesValid (s : State) : s.setAccerr.status.codesValid = s.status.codesValid := rfl
@[simp] theorem State.setAccerr_status_accerr (s : State) : s.setAccerr.status.accerr = true := rfl
@[simp] theorem State.setAccerr_status_err (s : State) : s.setAccerr.status.err = s.status.err := rfl
@[simp] theorem State.setAccerr_status_lastop (s : State) : s.setAccerr.status.lastop = s.status.lastop := rfl
@[simp] theorem State.setAccerr_pending (s : State) : s.setAccerr.pending = s.pending := rfl
@[simp] theorem State.setAccerr_total (s : State) : s.setAccerr.total = s.total := rfl
@[simp] theorem State.setAccerr_root (s : State) : s.setAccerr.root = s.root := rfl
@[simp] theorem State.setAccerr_nodeCount (s : State) : s.setAccerr.nodeCount = s.nodeCount := rfl
@[simp] theorem State.setAccerr_leafCount (s : State) : s.setAccerr.leafCount = s.leafCount := rfl
@[simp] theorem State.setAccerr_srcAddr (s : State) : s.setAccerr.srcAddr = s.srcAddr := rfl
@[simp] theorem State.setAccerr_srcEnd (s : State) : s.setAccerr.srcEnd = s.srcEnd := rfl
@[simp] theorem State.setAccerr_dstAddr (s : State) : s.setAccerr.dstAddr = s.dstAddr := rfl
@[simp] theorem State.setAccerr_dstEnd (s : State) : s.setAccerr.dstEnd = s.dstEnd := rfl
@[simp] theorem State.setAccerr_outcnt (s : State) : s.setAccerr.outcnt = s.outcnt := rfl
@[simp] theorem State.setAccerr_bitcnt (s : State) : s.setAccerr.bitcnt = s.bitcnt := rfl
@[simp] theorem State.setAccerr_errInfo (s : State) : s.setAccerr.errInfo = s.errInfo := rfl
@[simp] theorem State.setAccerr_freq (s : State) : s.setAccerr.freq = s.freq := rfl
@[simp] theorem State.setAccerr_node (s : State) : s.setAccerr.node = s.node := rfl
@[simp] theorem State.setAccerr_code (s : State) : s.setAccerr.code = s.code := rfl
@[simp] theorem State.setAccerr_mem (s : State) : s.setAccerr.mem = s.mem := rfl
@[simp] theorem State.setAccerr_admitMap (s : State) : s.setAccerr.admitMap = s.admitMap := rfl
@[simp] theorem State.setAccerr_raced (s : State) : s.setAccerr.raced = s.raced := rfl
@[simp] theorem State.setAccerr_draws (s : State) : s.setAccerr.draws = s.draws := rfl
@[simp] theorem State.setAccerr_schedule (s : State) : s.setAccerr.schedule = s.schedule := rfl
@[simp] theorem State.setAccerr_response (s : State) : s.setAccerr.response = s.response := rfl

/-! ### setTreeFlags -/

@[simp] theorem State.setTreeFlags_ctrl (s : State) (t e c : Bool) : (s.setTreeFlags t e c).ctrl = s.ctrl := rfl
@[simp] theorem State.setTreeFlags_status_busy (s : State) (t e c : Bool) : (s.setTreeFlags t e c).status.busy = s.status.busy := rfl
@[simp] theorem State.setTreeFlags_status_done (s : State) (t e c : Bool) : (s.setTreeFlags t e c).status.done = s.status.done := rfl
@[simp] theorem State.setTreeFlags_status_treeValid (s : State) (t e c : Bool) : (s.setTreeFlags t e c).status.treeValid = t := rfl
@[simp] theorem State.setTreeFlags_status_empty (s : State) (t e c : Bool) : (s.setTreeFlags t e c).status.empty = e := rfl
@[simp] theorem State.setTreeFlags_status_codesValid (s : State) (t e c : Bool) : (s.setTreeFlags t e c).status.codesValid = c := rfl
@[simp] theorem State.setTreeFlags_status_accerr (s : State) (t e c : Bool) : (s.setTreeFlags t e c).status.accerr = s.status.accerr := rfl
@[simp] theorem State.setTreeFlags_status_err (s : State) (t e c : Bool) : (s.setTreeFlags t e c).status.err = s.status.err := rfl
@[simp] theorem State.setTreeFlags_status_lastop (s : State) (t e c : Bool) : (s.setTreeFlags t e c).status.lastop = s.status.lastop := rfl
@[simp] theorem State.setTreeFlags_pending (s : State) (t e c : Bool) : (s.setTreeFlags t e c).pending = s.pending := rfl
@[simp] theorem State.setTreeFlags_total (s : State) (t e c : Bool) : (s.setTreeFlags t e c).total = s.total := rfl
@[simp] theorem State.setTreeFlags_root (s : State) (t e c : Bool) : (s.setTreeFlags t e c).root = s.root := rfl
@[simp] theorem State.setTreeFlags_nodeCount (s : State) (t e c : Bool) : (s.setTreeFlags t e c).nodeCount = s.nodeCount := rfl
@[simp] theorem State.setTreeFlags_leafCount (s : State) (t e c : Bool) : (s.setTreeFlags t e c).leafCount = s.leafCount := rfl
@[simp] theorem State.setTreeFlags_srcAddr (s : State) (t e c : Bool) : (s.setTreeFlags t e c).srcAddr = s.srcAddr := rfl
@[simp] theorem State.setTreeFlags_srcEnd (s : State) (t e c : Bool) : (s.setTreeFlags t e c).srcEnd = s.srcEnd := rfl
@[simp] theorem State.setTreeFlags_dstAddr (s : State) (t e c : Bool) : (s.setTreeFlags t e c).dstAddr = s.dstAddr := rfl
@[simp] theorem State.setTreeFlags_dstEnd (s : State) (t e c : Bool) : (s.setTreeFlags t e c).dstEnd = s.dstEnd := rfl
@[simp] theorem State.setTreeFlags_outcnt (s : State) (t e c : Bool) : (s.setTreeFlags t e c).outcnt = s.outcnt := rfl
@[simp] theorem State.setTreeFlags_bitcnt (s : State) (t e c : Bool) : (s.setTreeFlags t e c).bitcnt = s.bitcnt := rfl
@[simp] theorem State.setTreeFlags_errInfo (s : State) (t e c : Bool) : (s.setTreeFlags t e c).errInfo = s.errInfo := rfl
@[simp] theorem State.setTreeFlags_freq (s : State) (t e c : Bool) : (s.setTreeFlags t e c).freq = s.freq := rfl
@[simp] theorem State.setTreeFlags_node (s : State) (t e c : Bool) : (s.setTreeFlags t e c).node = s.node := rfl
@[simp] theorem State.setTreeFlags_code (s : State) (t e c : Bool) : (s.setTreeFlags t e c).code = s.code := rfl
@[simp] theorem State.setTreeFlags_mem (s : State) (t e c : Bool) : (s.setTreeFlags t e c).mem = s.mem := rfl
@[simp] theorem State.setTreeFlags_admitMap (s : State) (t e c : Bool) : (s.setTreeFlags t e c).admitMap = s.admitMap := rfl
@[simp] theorem State.setTreeFlags_raced (s : State) (t e c : Bool) : (s.setTreeFlags t e c).raced = s.raced := rfl
@[simp] theorem State.setTreeFlags_draws (s : State) (t e c : Bool) : (s.setTreeFlags t e c).draws = s.draws := rfl
@[simp] theorem State.setTreeFlags_schedule (s : State) (t e c : Bool) : (s.setTreeFlags t e c).schedule = s.schedule := rfl
@[simp] theorem State.setTreeFlags_response (s : State) (t e c : Bool) : (s.setTreeFlags t e c).response = s.response := rfl

/-! ### clearCodesValid -/

@[simp] theorem State.clearCodesValid_ctrl (s : State) : s.clearCodesValid.ctrl = s.ctrl := rfl
@[simp] theorem State.clearCodesValid_status_busy (s : State) : s.clearCodesValid.status.busy = s.status.busy := rfl
@[simp] theorem State.clearCodesValid_status_done (s : State) : s.clearCodesValid.status.done = s.status.done := rfl
@[simp] theorem State.clearCodesValid_status_treeValid (s : State) : s.clearCodesValid.status.treeValid = s.status.treeValid := rfl
@[simp] theorem State.clearCodesValid_status_empty (s : State) : s.clearCodesValid.status.empty = s.status.empty := rfl
@[simp] theorem State.clearCodesValid_status_codesValid (s : State) : s.clearCodesValid.status.codesValid = false := rfl
@[simp] theorem State.clearCodesValid_status_accerr (s : State) : s.clearCodesValid.status.accerr = s.status.accerr := rfl
@[simp] theorem State.clearCodesValid_status_err (s : State) : s.clearCodesValid.status.err = s.status.err := rfl
@[simp] theorem State.clearCodesValid_status_lastop (s : State) : s.clearCodesValid.status.lastop = s.status.lastop := rfl
@[simp] theorem State.clearCodesValid_pending (s : State) : s.clearCodesValid.pending = s.pending := rfl
@[simp] theorem State.clearCodesValid_total (s : State) : s.clearCodesValid.total = s.total := rfl
@[simp] theorem State.clearCodesValid_root (s : State) : s.clearCodesValid.root = s.root := rfl
@[simp] theorem State.clearCodesValid_nodeCount (s : State) : s.clearCodesValid.nodeCount = s.nodeCount := rfl
@[simp] theorem State.clearCodesValid_leafCount (s : State) : s.clearCodesValid.leafCount = s.leafCount := rfl
@[simp] theorem State.clearCodesValid_srcAddr (s : State) : s.clearCodesValid.srcAddr = s.srcAddr := rfl
@[simp] theorem State.clearCodesValid_srcEnd (s : State) : s.clearCodesValid.srcEnd = s.srcEnd := rfl
@[simp] theorem State.clearCodesValid_dstAddr (s : State) : s.clearCodesValid.dstAddr = s.dstAddr := rfl
@[simp] theorem State.clearCodesValid_dstEnd (s : State) : s.clearCodesValid.dstEnd = s.dstEnd := rfl
@[simp] theorem State.clearCodesValid_outcnt (s : State) : s.clearCodesValid.outcnt = s.outcnt := rfl
@[simp] theorem State.clearCodesValid_bitcnt (s : State) : s.clearCodesValid.bitcnt = s.bitcnt := rfl
@[simp] theorem State.clearCodesValid_errInfo (s : State) : s.clearCodesValid.errInfo = s.errInfo := rfl
@[simp] theorem State.clearCodesValid_freq (s : State) : s.clearCodesValid.freq = s.freq := rfl
@[simp] theorem State.clearCodesValid_node (s : State) : s.clearCodesValid.node = s.node := rfl
@[simp] theorem State.clearCodesValid_code (s : State) : s.clearCodesValid.code = s.code := rfl
@[simp] theorem State.clearCodesValid_mem (s : State) : s.clearCodesValid.mem = s.mem := rfl
@[simp] theorem State.clearCodesValid_admitMap (s : State) : s.clearCodesValid.admitMap = s.admitMap := rfl
@[simp] theorem State.clearCodesValid_raced (s : State) : s.clearCodesValid.raced = s.raced := rfl
@[simp] theorem State.clearCodesValid_draws (s : State) : s.clearCodesValid.draws = s.draws := rfl
@[simp] theorem State.clearCodesValid_schedule (s : State) : s.clearCodesValid.schedule = s.schedule := rfl
@[simp] theorem State.clearCodesValid_response (s : State) : s.clearCodesValid.response = s.response := rfl

/-! ### trashNodes -/

@[simp] theorem State.trashNodes_ctrl (s : State) : s.trashNodes.ctrl = s.ctrl := rfl
@[simp] theorem State.trashNodes_status (s : State) : s.trashNodes.status = s.status := rfl
@[simp] theorem State.trashNodes_pending (s : State) : s.trashNodes.pending = s.pending := rfl
@[simp] theorem State.trashNodes_total (s : State) : s.trashNodes.total = s.total := rfl
@[simp] theorem State.trashNodes_root (s : State) : s.trashNodes.root = s.root := rfl
@[simp] theorem State.trashNodes_nodeCount (s : State) : s.trashNodes.nodeCount = s.nodeCount := rfl
@[simp] theorem State.trashNodes_leafCount (s : State) : s.trashNodes.leafCount = s.leafCount := rfl
@[simp] theorem State.trashNodes_srcAddr (s : State) : s.trashNodes.srcAddr = s.srcAddr := rfl
@[simp] theorem State.trashNodes_srcEnd (s : State) : s.trashNodes.srcEnd = s.srcEnd := rfl
@[simp] theorem State.trashNodes_dstAddr (s : State) : s.trashNodes.dstAddr = s.dstAddr := rfl
@[simp] theorem State.trashNodes_dstEnd (s : State) : s.trashNodes.dstEnd = s.dstEnd := rfl
@[simp] theorem State.trashNodes_outcnt (s : State) : s.trashNodes.outcnt = s.outcnt := rfl
@[simp] theorem State.trashNodes_bitcnt (s : State) : s.trashNodes.bitcnt = s.bitcnt := rfl
@[simp] theorem State.trashNodes_errInfo (s : State) : s.trashNodes.errInfo = s.errInfo := rfl
@[simp] theorem State.trashNodes_freq (s : State) : s.trashNodes.freq = s.freq := rfl
@[simp] theorem State.trashNodes_node (s : State) : s.trashNodes.node = freeNodes s.draws := rfl
@[simp] theorem State.trashNodes_code (s : State) : s.trashNodes.code = s.code := rfl
@[simp] theorem State.trashNodes_mem (s : State) : s.trashNodes.mem = s.mem := rfl
@[simp] theorem State.trashNodes_admitMap (s : State) : s.trashNodes.admitMap = s.admitMap := rfl
@[simp] theorem State.trashNodes_raced (s : State) : s.trashNodes.raced = s.raced := rfl
@[simp] theorem State.trashNodes_draws (s : State) : s.trashNodes.draws = s.draws + nodeDraws := rfl
@[simp] theorem State.trashNodes_schedule (s : State) : s.trashNodes.schedule = s.schedule := rfl
@[simp] theorem State.trashNodes_response (s : State) : s.trashNodes.response = s.response := rfl

/-! ### dropTree -/

@[simp] theorem State.dropTree_ctrl (s : State) (b : Bool) : (s.dropTree b).ctrl = s.ctrl := by cases b <;> rfl
@[simp] theorem State.dropTree_status (s : State) (b : Bool) : (s.dropTree b).status = s.status := by cases b <;> rfl
@[simp] theorem State.dropTree_pending (s : State) (b : Bool) : (s.dropTree b).pending = s.pending := by cases b <;> rfl
@[simp] theorem State.dropTree_total (s : State) (b : Bool) : (s.dropTree b).total = s.total := by cases b <;> rfl
@[simp] theorem State.dropTree_root (s : State) (b : Bool) : (s.dropTree b).root = s.root := by cases b <;> rfl
@[simp] theorem State.dropTree_nodeCount (s : State) (b : Bool) : (s.dropTree b).nodeCount = s.nodeCount := by cases b <;> rfl
@[simp] theorem State.dropTree_leafCount (s : State) (b : Bool) : (s.dropTree b).leafCount = s.leafCount := by cases b <;> rfl
@[simp] theorem State.dropTree_srcAddr (s : State) (b : Bool) : (s.dropTree b).srcAddr = s.srcAddr := by cases b <;> rfl
@[simp] theorem State.dropTree_srcEnd (s : State) (b : Bool) : (s.dropTree b).srcEnd = s.srcEnd := by cases b <;> rfl
@[simp] theorem State.dropTree_dstAddr (s : State) (b : Bool) : (s.dropTree b).dstAddr = s.dstAddr := by cases b <;> rfl
@[simp] theorem State.dropTree_dstEnd (s : State) (b : Bool) : (s.dropTree b).dstEnd = s.dstEnd := by cases b <;> rfl
@[simp] theorem State.dropTree_outcnt (s : State) (b : Bool) : (s.dropTree b).outcnt = s.outcnt := by cases b <;> rfl
@[simp] theorem State.dropTree_bitcnt (s : State) (b : Bool) : (s.dropTree b).bitcnt = s.bitcnt := by cases b <;> rfl
@[simp] theorem State.dropTree_errInfo (s : State) (b : Bool) : (s.dropTree b).errInfo = s.errInfo := by cases b <;> rfl
@[simp] theorem State.dropTree_freq (s : State) (b : Bool) : (s.dropTree b).freq = s.freq := by cases b <;> rfl
@[simp] theorem State.dropTree_code (s : State) (b : Bool) : (s.dropTree b).code = s.code := by cases b <;> rfl
@[simp] theorem State.dropTree_mem (s : State) (b : Bool) : (s.dropTree b).mem = s.mem := by cases b <;> rfl
@[simp] theorem State.dropTree_admitMap (s : State) (b : Bool) : (s.dropTree b).admitMap = s.admitMap := by cases b <;> rfl
@[simp] theorem State.dropTree_raced (s : State) (b : Bool) : (s.dropTree b).raced = s.raced := by cases b <;> rfl
@[simp] theorem State.dropTree_schedule (s : State) (b : Bool) : (s.dropTree b).schedule = s.schedule := by cases b <;> rfl
@[simp] theorem State.dropTree_response (s : State) (b : Bool) : (s.dropTree b).response = s.response := by cases b <;> rfl
@[simp] theorem State.dropTree_false (s : State) : s.dropTree false = s := rfl
@[simp] theorem State.dropTree_true (s : State) : s.dropTree true = s.trashNodes := rfl

/-! ### setFreq -/

@[simp] theorem State.setFreq_ctrl (s : State) (y : Byte) (v : Word) : (s.setFreq y v).ctrl = s.ctrl := rfl
@[simp] theorem State.setFreq_status (s : State) (y : Byte) (v : Word) : (s.setFreq y v).status = s.status := rfl
@[simp] theorem State.setFreq_pending (s : State) (y : Byte) (v : Word) : (s.setFreq y v).pending = s.pending := rfl
@[simp] theorem State.setFreq_total (s : State) (y : Byte) (v : Word) : (s.setFreq y v).total = s.total := rfl
@[simp] theorem State.setFreq_root (s : State) (y : Byte) (v : Word) : (s.setFreq y v).root = s.root := rfl
@[simp] theorem State.setFreq_nodeCount (s : State) (y : Byte) (v : Word) : (s.setFreq y v).nodeCount = s.nodeCount := rfl
@[simp] theorem State.setFreq_leafCount (s : State) (y : Byte) (v : Word) : (s.setFreq y v).leafCount = s.leafCount := rfl
@[simp] theorem State.setFreq_srcAddr (s : State) (y : Byte) (v : Word) : (s.setFreq y v).srcAddr = s.srcAddr := rfl
@[simp] theorem State.setFreq_srcEnd (s : State) (y : Byte) (v : Word) : (s.setFreq y v).srcEnd = s.srcEnd := rfl
@[simp] theorem State.setFreq_dstAddr (s : State) (y : Byte) (v : Word) : (s.setFreq y v).dstAddr = s.dstAddr := rfl
@[simp] theorem State.setFreq_dstEnd (s : State) (y : Byte) (v : Word) : (s.setFreq y v).dstEnd = s.dstEnd := rfl
@[simp] theorem State.setFreq_outcnt (s : State) (y : Byte) (v : Word) : (s.setFreq y v).outcnt = s.outcnt := rfl
@[simp] theorem State.setFreq_bitcnt (s : State) (y : Byte) (v : Word) : (s.setFreq y v).bitcnt = s.bitcnt := rfl
@[simp] theorem State.setFreq_errInfo (s : State) (y : Byte) (v : Word) : (s.setFreq y v).errInfo = s.errInfo := rfl
@[simp] theorem State.setFreq_freq (s : State) (y : Byte) (v : Word) : (s.setFreq y v).freq = s.freq.set y.toNat (some v) y.isLt := rfl
@[simp] theorem State.setFreq_node (s : State) (y : Byte) (v : Word) : (s.setFreq y v).node = s.node := rfl
@[simp] theorem State.setFreq_code (s : State) (y : Byte) (v : Word) : (s.setFreq y v).code = s.code := rfl
@[simp] theorem State.setFreq_mem (s : State) (y : Byte) (v : Word) : (s.setFreq y v).mem = s.mem := rfl
@[simp] theorem State.setFreq_admitMap (s : State) (y : Byte) (v : Word) : (s.setFreq y v).admitMap = s.admitMap := rfl
@[simp] theorem State.setFreq_raced (s : State) (y : Byte) (v : Word) : (s.setFreq y v).raced = s.raced := rfl
@[simp] theorem State.setFreq_draws (s : State) (y : Byte) (v : Word) : (s.setFreq y v).draws = s.draws := rfl
@[simp] theorem State.setFreq_schedule (s : State) (y : Byte) (v : Word) : (s.setFreq y v).schedule = s.schedule := rfl
@[simp] theorem State.setFreq_response (s : State) (y : Byte) (v : Word) : (s.setFreq y v).response = s.response := rfl

/-! ### clearTreeRegs -/

@[simp] theorem State.clearTreeRegs_ctrl (s : State) : s.clearTreeRegs.ctrl = s.ctrl := rfl
@[simp] theorem State.clearTreeRegs_status (s : State) : s.clearTreeRegs.status = s.status := rfl
@[simp] theorem State.clearTreeRegs_pending (s : State) : s.clearTreeRegs.pending = s.pending := rfl
@[simp] theorem State.clearTreeRegs_total (s : State) : s.clearTreeRegs.total = 0#32 := rfl
@[simp] theorem State.clearTreeRegs_root (s : State) : s.clearTreeRegs.root = 0 := rfl
@[simp] theorem State.clearTreeRegs_nodeCount (s : State) : s.clearTreeRegs.nodeCount = 0 := rfl
@[simp] theorem State.clearTreeRegs_leafCount (s : State) : s.clearTreeRegs.leafCount = 0 := rfl
@[simp] theorem State.clearTreeRegs_srcAddr (s : State) : s.clearTreeRegs.srcAddr = s.srcAddr := rfl
@[simp] theorem State.clearTreeRegs_srcEnd (s : State) : s.clearTreeRegs.srcEnd = s.srcEnd := rfl
@[simp] theorem State.clearTreeRegs_dstAddr (s : State) : s.clearTreeRegs.dstAddr = s.dstAddr := rfl
@[simp] theorem State.clearTreeRegs_dstEnd (s : State) : s.clearTreeRegs.dstEnd = s.dstEnd := rfl
@[simp] theorem State.clearTreeRegs_outcnt (s : State) : s.clearTreeRegs.outcnt = s.outcnt := rfl
@[simp] theorem State.clearTreeRegs_bitcnt (s : State) : s.clearTreeRegs.bitcnt = s.bitcnt := rfl
@[simp] theorem State.clearTreeRegs_errInfo (s : State) : s.clearTreeRegs.errInfo = s.errInfo := rfl
@[simp] theorem State.clearTreeRegs_freq (s : State) : s.clearTreeRegs.freq = s.freq := rfl
@[simp] theorem State.clearTreeRegs_node (s : State) : s.clearTreeRegs.node = s.node := rfl
@[simp] theorem State.clearTreeRegs_code (s : State) : s.clearTreeRegs.code = s.code := rfl
@[simp] theorem State.clearTreeRegs_mem (s : State) : s.clearTreeRegs.mem = s.mem := rfl
@[simp] theorem State.clearTreeRegs_admitMap (s : State) : s.clearTreeRegs.admitMap = s.admitMap := rfl
@[simp] theorem State.clearTreeRegs_raced (s : State) : s.clearTreeRegs.raced = s.raced := rfl
@[simp] theorem State.clearTreeRegs_draws (s : State) : s.clearTreeRegs.draws = s.draws := rfl
@[simp] theorem State.clearTreeRegs_schedule (s : State) : s.clearTreeRegs.schedule = s.schedule := rfl
@[simp] theorem State.clearTreeRegs_response (s : State) : s.clearTreeRegs.response = s.response := rfl

/-! ### setCounts -/

@[simp] theorem State.setCounts_ctrl (s : State) (o : Word) (b : BitCount) : (s.setCounts o b).ctrl = s.ctrl := rfl
@[simp] theorem State.setCounts_status (s : State) (o : Word) (b : BitCount) : (s.setCounts o b).status = s.status := rfl
@[simp] theorem State.setCounts_pending (s : State) (o : Word) (b : BitCount) : (s.setCounts o b).pending = s.pending := rfl
@[simp] theorem State.setCounts_total (s : State) (o : Word) (b : BitCount) : (s.setCounts o b).total = s.total := rfl
@[simp] theorem State.setCounts_root (s : State) (o : Word) (b : BitCount) : (s.setCounts o b).root = s.root := rfl
@[simp] theorem State.setCounts_nodeCount (s : State) (o : Word) (b : BitCount) : (s.setCounts o b).nodeCount = s.nodeCount := rfl
@[simp] theorem State.setCounts_leafCount (s : State) (o : Word) (b : BitCount) : (s.setCounts o b).leafCount = s.leafCount := rfl
@[simp] theorem State.setCounts_srcAddr (s : State) (o : Word) (b : BitCount) : (s.setCounts o b).srcAddr = s.srcAddr := rfl
@[simp] theorem State.setCounts_srcEnd (s : State) (o : Word) (b : BitCount) : (s.setCounts o b).srcEnd = s.srcEnd := rfl
@[simp] theorem State.setCounts_dstAddr (s : State) (o : Word) (b : BitCount) : (s.setCounts o b).dstAddr = s.dstAddr := rfl
@[simp] theorem State.setCounts_dstEnd (s : State) (o : Word) (b : BitCount) : (s.setCounts o b).dstEnd = s.dstEnd := rfl
@[simp] theorem State.setCounts_outcnt (s : State) (o : Word) (b : BitCount) : (s.setCounts o b).outcnt = o := rfl
@[simp] theorem State.setCounts_bitcnt (s : State) (o : Word) (b : BitCount) : (s.setCounts o b).bitcnt = b := rfl
@[simp] theorem State.setCounts_errInfo (s : State) (o : Word) (b : BitCount) : (s.setCounts o b).errInfo = s.errInfo := rfl
@[simp] theorem State.setCounts_freq (s : State) (o : Word) (b : BitCount) : (s.setCounts o b).freq = s.freq := rfl
@[simp] theorem State.setCounts_node (s : State) (o : Word) (b : BitCount) : (s.setCounts o b).node = s.node := rfl
@[simp] theorem State.setCounts_code (s : State) (o : Word) (b : BitCount) : (s.setCounts o b).code = s.code := rfl
@[simp] theorem State.setCounts_mem (s : State) (o : Word) (b : BitCount) : (s.setCounts o b).mem = s.mem := rfl
@[simp] theorem State.setCounts_admitMap (s : State) (o : Word) (b : BitCount) : (s.setCounts o b).admitMap = s.admitMap := rfl
@[simp] theorem State.setCounts_raced (s : State) (o : Word) (b : BitCount) : (s.setCounts o b).raced = s.raced := rfl
@[simp] theorem State.setCounts_draws (s : State) (o : Word) (b : BitCount) : (s.setCounts o b).draws = s.draws := rfl
@[simp] theorem State.setCounts_schedule (s : State) (o : Word) (b : BitCount) : (s.setCounts o b).schedule = s.schedule := rfl
@[simp] theorem State.setCounts_response (s : State) (o : Word) (b : BitCount) : (s.setCounts o b).response = s.response := rfl

/-! ### launch -/

@[simp] theorem State.launch_ctrl (s : State) (w : Word) : (s.launch w).ctrl = s.ctrl := rfl
@[simp] theorem State.launch_status_busy (s : State) (w : Word) : (s.launch w).status.busy = true := rfl
@[simp] theorem State.launch_status_done (s : State) (w : Word) : (s.launch w).status.done = false := rfl
@[simp] theorem State.launch_status_treeValid (s : State) (w : Word) : (s.launch w).status.treeValid = s.status.treeValid := rfl
@[simp] theorem State.launch_status_empty (s : State) (w : Word) : (s.launch w).status.empty = s.status.empty := rfl
@[simp] theorem State.launch_status_codesValid (s : State) (w : Word) : (s.launch w).status.codesValid = s.status.codesValid := rfl
@[simp] theorem State.launch_status_accerr (s : State) (w : Word) : (s.launch w).status.accerr = s.status.accerr := rfl
@[simp] theorem State.launch_status_err (s : State) (w : Word) : (s.launch w).status.err = s.status.err := rfl
@[simp] theorem State.launch_status_lastop (s : State) (w : Word) : (s.launch w).status.lastop = opField w := rfl
@[simp] theorem State.launch_pending (s : State) (w : Word) : (s.launch w).pending = some w := rfl
@[simp] theorem State.launch_total (s : State) (w : Word) : (s.launch w).total = s.total := rfl
@[simp] theorem State.launch_root (s : State) (w : Word) : (s.launch w).root = s.root := rfl
@[simp] theorem State.launch_nodeCount (s : State) (w : Word) : (s.launch w).nodeCount = s.nodeCount := rfl
@[simp] theorem State.launch_leafCount (s : State) (w : Word) : (s.launch w).leafCount = s.leafCount := rfl
@[simp] theorem State.launch_srcAddr (s : State) (w : Word) : (s.launch w).srcAddr = s.srcAddr := rfl
@[simp] theorem State.launch_srcEnd (s : State) (w : Word) : (s.launch w).srcEnd = s.srcEnd := rfl
@[simp] theorem State.launch_dstAddr (s : State) (w : Word) : (s.launch w).dstAddr = s.dstAddr := rfl
@[simp] theorem State.launch_dstEnd (s : State) (w : Word) : (s.launch w).dstEnd = s.dstEnd := rfl
@[simp] theorem State.launch_outcnt (s : State) (w : Word) : (s.launch w).outcnt = s.outcnt := rfl
@[simp] theorem State.launch_bitcnt (s : State) (w : Word) : (s.launch w).bitcnt = s.bitcnt := rfl
@[simp] theorem State.launch_errInfo (s : State) (w : Word) : (s.launch w).errInfo = s.errInfo := rfl
@[simp] theorem State.launch_freq (s : State) (w : Word) : (s.launch w).freq = s.freq := rfl
@[simp] theorem State.launch_node (s : State) (w : Word) : (s.launch w).node = s.node := rfl
@[simp] theorem State.launch_code (s : State) (w : Word) : (s.launch w).code = s.code := rfl
@[simp] theorem State.launch_mem (s : State) (w : Word) : (s.launch w).mem = s.mem := rfl
@[simp] theorem State.launch_admitMap (s : State) (w : Word) : (s.launch w).admitMap = s.admitMap := rfl
@[simp] theorem State.launch_raced (s : State) (w : Word) : (s.launch w).raced = s.raced := rfl
@[simp] theorem State.launch_draws (s : State) (w : Word) : (s.launch w).draws = s.draws := rfl
@[simp] theorem State.launch_schedule (s : State) (w : Word) : (s.launch w).schedule = s.schedule := rfl
@[simp] theorem State.launch_response (s : State) (w : Word) : (s.launch w).response = s.response := rfl

/-! ### trashDst -/

@[simp] theorem State.trashDst_ctrl (s0 s : State) : (State.trashDst s0 s).ctrl = s.ctrl := rfl
@[simp] theorem State.trashDst_status (s0 s : State) : (State.trashDst s0 s).status = s.status := rfl
@[simp] theorem State.trashDst_pending (s0 s : State) : (State.trashDst s0 s).pending = s.pending := rfl
@[simp] theorem State.trashDst_total (s0 s : State) : (State.trashDst s0 s).total = s.total := rfl
@[simp] theorem State.trashDst_root (s0 s : State) : (State.trashDst s0 s).root = s.root := rfl
@[simp] theorem State.trashDst_nodeCount (s0 s : State) : (State.trashDst s0 s).nodeCount = s.nodeCount := rfl
@[simp] theorem State.trashDst_leafCount (s0 s : State) : (State.trashDst s0 s).leafCount = s.leafCount := rfl
@[simp] theorem State.trashDst_srcAddr (s0 s : State) : (State.trashDst s0 s).srcAddr = s.srcAddr := rfl
@[simp] theorem State.trashDst_srcEnd (s0 s : State) : (State.trashDst s0 s).srcEnd = s.srcEnd := rfl
@[simp] theorem State.trashDst_dstAddr (s0 s : State) : (State.trashDst s0 s).dstAddr = s.dstAddr := rfl
@[simp] theorem State.trashDst_dstEnd (s0 s : State) : (State.trashDst s0 s).dstEnd = s.dstEnd := rfl
@[simp] theorem State.trashDst_outcnt (s0 s : State) : (State.trashDst s0 s).outcnt = s.outcnt := rfl
@[simp] theorem State.trashDst_bitcnt (s0 s : State) : (State.trashDst s0 s).bitcnt = s.bitcnt := rfl
@[simp] theorem State.trashDst_errInfo (s0 s : State) : (State.trashDst s0 s).errInfo = s.errInfo := rfl
@[simp] theorem State.trashDst_freq (s0 s : State) : (State.trashDst s0 s).freq = s.freq := rfl
@[simp] theorem State.trashDst_node (s0 s : State) : (State.trashDst s0 s).node = s.node := rfl
@[simp] theorem State.trashDst_code (s0 s : State) : (State.trashDst s0 s).code = s.code := rfl
@[simp] theorem State.trashDst_mem (s0 s : State) : (State.trashDst s0 s).mem = s.mem.havoc s0.dstAddr.toNat (regionBytes s0.dstAddr s0.dstEnd) s.draws := rfl
@[simp] theorem State.trashDst_admitMap (s0 s : State) : (State.trashDst s0 s).admitMap = s.admitMap := rfl
@[simp] theorem State.trashDst_raced (s0 s : State) : (State.trashDst s0 s).raced = s.raced := rfl
@[simp] theorem State.trashDst_draws (s0 s : State) : (State.trashDst s0 s).draws = s.draws + regionBytes s0.dstAddr s0.dstEnd := rfl
@[simp] theorem State.trashDst_schedule (s0 s : State) : (State.trashDst s0 s).schedule = s.schedule := rfl
@[simp] theorem State.trashDst_response (s0 s : State) : (State.trashDst s0 s).response = s.response := rfl

/-! ### finish -/

@[simp] theorem State.finish_ctrl (s : State) (e : Byte) (i : Word) : (s.finish e i).ctrl = s.ctrl := rfl
@[simp] theorem State.finish_status_busy (s : State) (e : Byte) (i : Word) : (s.finish e i).status.busy = false := rfl
@[simp] theorem State.finish_status_done (s : State) (e : Byte) (i : Word) : (s.finish e i).status.done = true := rfl
@[simp] theorem State.finish_status_treeValid (s : State) (e : Byte) (i : Word) : (s.finish e i).status.treeValid = s.status.treeValid := rfl
@[simp] theorem State.finish_status_empty (s : State) (e : Byte) (i : Word) : (s.finish e i).status.empty = s.status.empty := rfl
@[simp] theorem State.finish_status_codesValid (s : State) (e : Byte) (i : Word) : (s.finish e i).status.codesValid = s.status.codesValid := rfl
@[simp] theorem State.finish_status_accerr (s : State) (e : Byte) (i : Word) : (s.finish e i).status.accerr = s.status.accerr := rfl
@[simp] theorem State.finish_status_err (s : State) (e : Byte) (i : Word) : (s.finish e i).status.err = e := rfl
@[simp] theorem State.finish_status_lastop (s : State) (e : Byte) (i : Word) : (s.finish e i).status.lastop = s.status.lastop := rfl
@[simp] theorem State.finish_pending (s : State) (e : Byte) (i : Word) : (s.finish e i).pending = none := rfl
@[simp] theorem State.finish_total (s : State) (e : Byte) (i : Word) : (s.finish e i).total = s.total := rfl
@[simp] theorem State.finish_root (s : State) (e : Byte) (i : Word) : (s.finish e i).root = s.root := rfl
@[simp] theorem State.finish_nodeCount (s : State) (e : Byte) (i : Word) : (s.finish e i).nodeCount = s.nodeCount := rfl
@[simp] theorem State.finish_leafCount (s : State) (e : Byte) (i : Word) : (s.finish e i).leafCount = s.leafCount := rfl
@[simp] theorem State.finish_srcAddr (s : State) (e : Byte) (i : Word) : (s.finish e i).srcAddr = s.srcAddr := rfl
@[simp] theorem State.finish_srcEnd (s : State) (e : Byte) (i : Word) : (s.finish e i).srcEnd = s.srcEnd := rfl
@[simp] theorem State.finish_dstAddr (s : State) (e : Byte) (i : Word) : (s.finish e i).dstAddr = s.dstAddr := rfl
@[simp] theorem State.finish_dstEnd (s : State) (e : Byte) (i : Word) : (s.finish e i).dstEnd = s.dstEnd := rfl
@[simp] theorem State.finish_outcnt (s : State) (e : Byte) (i : Word) : (s.finish e i).outcnt = s.outcnt := rfl
@[simp] theorem State.finish_bitcnt (s : State) (e : Byte) (i : Word) : (s.finish e i).bitcnt = s.bitcnt := rfl
@[simp] theorem State.finish_errInfo (s : State) (e : Byte) (i : Word) : (s.finish e i).errInfo = i := rfl
@[simp] theorem State.finish_freq (s : State) (e : Byte) (i : Word) : (s.finish e i).freq = s.freq := rfl
@[simp] theorem State.finish_node (s : State) (e : Byte) (i : Word) : (s.finish e i).node = s.node := rfl
@[simp] theorem State.finish_code (s : State) (e : Byte) (i : Word) : (s.finish e i).code = s.code := rfl
@[simp] theorem State.finish_mem (s : State) (e : Byte) (i : Word) : (s.finish e i).mem = s.mem := rfl
@[simp] theorem State.finish_admitMap (s : State) (e : Byte) (i : Word) : (s.finish e i).admitMap = s.admitMap := rfl
@[simp] theorem State.finish_raced (s : State) (e : Byte) (i : Word) : (s.finish e i).raced = s.raced := rfl
@[simp] theorem State.finish_draws (s : State) (e : Byte) (i : Word) : (s.finish e i).draws = s.draws := rfl
@[simp] theorem State.finish_schedule (s : State) (e : Byte) (i : Word) : (s.finish e i).schedule = s.schedule := rfl
@[simp] theorem State.finish_response (s : State) (e : Byte) (i : Word) : (s.finish e i).response = s.response := rfl

/-! ### abortRegs -/

@[simp] theorem State.abortRegs_ctrl (s0 s : State) : (State.abortRegs s0 s).ctrl = s.ctrl := rfl
@[simp] theorem State.abortRegs_status (s0 s : State) : (State.abortRegs s0 s).status = s.status := rfl
@[simp] theorem State.abortRegs_pending (s0 s : State) : (State.abortRegs s0 s).pending = s.pending := rfl
@[simp] theorem State.abortRegs_total (s0 s : State) : (State.abortRegs s0 s).total = s.total := rfl
@[simp] theorem State.abortRegs_root (s0 s : State) : (State.abortRegs s0 s).root = s.root := rfl
@[simp] theorem State.abortRegs_nodeCount (s0 s : State) : (State.abortRegs s0 s).nodeCount = s.nodeCount := rfl
@[simp] theorem State.abortRegs_leafCount (s0 s : State) : (State.abortRegs s0 s).leafCount = s.leafCount := rfl
@[simp] theorem State.abortRegs_srcAddr (s0 s : State) : (State.abortRegs s0 s).srcAddr = s0.srcAddr := rfl
@[simp] theorem State.abortRegs_srcEnd (s0 s : State) : (State.abortRegs s0 s).srcEnd = s.srcEnd := rfl
@[simp] theorem State.abortRegs_dstAddr (s0 s : State) : (State.abortRegs s0 s).dstAddr = s0.dstAddr := rfl
@[simp] theorem State.abortRegs_dstEnd (s0 s : State) : (State.abortRegs s0 s).dstEnd = s.dstEnd := rfl
@[simp] theorem State.abortRegs_outcnt (s0 s : State) : (State.abortRegs s0 s).outcnt = 0#32 := rfl
@[simp] theorem State.abortRegs_bitcnt (s0 s : State) : (State.abortRegs s0 s).bitcnt = 0#40 := rfl
@[simp] theorem State.abortRegs_errInfo (s0 s : State) : (State.abortRegs s0 s).errInfo = s.errInfo := rfl
@[simp] theorem State.abortRegs_freq (s0 s : State) : (State.abortRegs s0 s).freq = s.freq := rfl
@[simp] theorem State.abortRegs_node (s0 s : State) : (State.abortRegs s0 s).node = s.node := rfl
@[simp] theorem State.abortRegs_code (s0 s : State) : (State.abortRegs s0 s).code = s.code := rfl
@[simp] theorem State.abortRegs_mem (s0 s : State) : (State.abortRegs s0 s).mem = s.mem := rfl
@[simp] theorem State.abortRegs_admitMap (s0 s : State) : (State.abortRegs s0 s).admitMap = s.admitMap := rfl
@[simp] theorem State.abortRegs_raced (s0 s : State) : (State.abortRegs s0 s).raced = s.raced := rfl
@[simp] theorem State.abortRegs_draws (s0 s : State) : (State.abortRegs s0 s).draws = s.draws := rfl
@[simp] theorem State.abortRegs_schedule (s0 s : State) : (State.abortRegs s0 s).schedule = s.schedule := rfl
@[simp] theorem State.abortRegs_response (s0 s : State) : (State.abortRegs s0 s).response = s.response := rfl

/-! ### settleRaces -/

@[simp] theorem State.settleRaces_ctrl (s : State) : s.settleRaces.ctrl = s.ctrl := rfl
@[simp] theorem State.settleRaces_status (s : State) : s.settleRaces.status = s.status := rfl
@[simp] theorem State.settleRaces_pending (s : State) : s.settleRaces.pending = s.pending := rfl
@[simp] theorem State.settleRaces_total (s : State) : s.settleRaces.total = s.total := rfl
@[simp] theorem State.settleRaces_root (s : State) : s.settleRaces.root = s.root := rfl
@[simp] theorem State.settleRaces_nodeCount (s : State) : s.settleRaces.nodeCount = s.nodeCount := rfl
@[simp] theorem State.settleRaces_leafCount (s : State) : s.settleRaces.leafCount = s.leafCount := rfl
@[simp] theorem State.settleRaces_srcAddr (s : State) : s.settleRaces.srcAddr = s.srcAddr := rfl
@[simp] theorem State.settleRaces_srcEnd (s : State) : s.settleRaces.srcEnd = s.srcEnd := rfl
@[simp] theorem State.settleRaces_dstAddr (s : State) : s.settleRaces.dstAddr = s.dstAddr := rfl
@[simp] theorem State.settleRaces_dstEnd (s : State) : s.settleRaces.dstEnd = s.dstEnd := rfl
@[simp] theorem State.settleRaces_outcnt (s : State) : s.settleRaces.outcnt = s.outcnt := rfl
@[simp] theorem State.settleRaces_bitcnt (s : State) : s.settleRaces.bitcnt = s.bitcnt := rfl
@[simp] theorem State.settleRaces_errInfo (s : State) : s.settleRaces.errInfo = s.errInfo := rfl
@[simp] theorem State.settleRaces_freq (s : State) : s.settleRaces.freq = s.freq := rfl
@[simp] theorem State.settleRaces_node (s : State) : s.settleRaces.node = s.node := rfl
@[simp] theorem State.settleRaces_code (s : State) : s.settleRaces.code = s.code := rfl
@[simp] theorem State.settleRaces_mem (s : State) : s.settleRaces.mem = s.mem.havocAt s.raced s.draws := rfl
@[simp] theorem State.settleRaces_admitMap (s : State) : s.settleRaces.admitMap = s.admitMap := rfl
@[simp] theorem State.settleRaces_raced (s : State) : s.settleRaces.raced = [] := rfl
@[simp] theorem State.settleRaces_draws (s : State) : s.settleRaces.draws = s.draws + s.raced.length := rfl
@[simp] theorem State.settleRaces_schedule (s : State) : s.settleRaces.schedule = s.schedule := rfl
@[simp] theorem State.settleRaces_response (s : State) : s.settleRaces.response = s.response := rfl

/-! ### hardwareReset -/

@[simp] theorem State.hardwareReset_ctrl (s : State) : s.hardwareReset.ctrl = State.reset.ctrl := rfl
@[simp] theorem State.hardwareReset_status (s : State) : s.hardwareReset.status = State.reset.status := rfl
@[simp] theorem State.hardwareReset_pending (s : State) : s.hardwareReset.pending = State.reset.pending := rfl
@[simp] theorem State.hardwareReset_total (s : State) : s.hardwareReset.total = State.reset.total := rfl
@[simp] theorem State.hardwareReset_root (s : State) : s.hardwareReset.root = State.reset.root := rfl
@[simp] theorem State.hardwareReset_nodeCount (s : State) : s.hardwareReset.nodeCount = State.reset.nodeCount := rfl
@[simp] theorem State.hardwareReset_leafCount (s : State) : s.hardwareReset.leafCount = State.reset.leafCount := rfl
@[simp] theorem State.hardwareReset_srcAddr (s : State) : s.hardwareReset.srcAddr = State.reset.srcAddr := rfl
@[simp] theorem State.hardwareReset_srcEnd (s : State) : s.hardwareReset.srcEnd = State.reset.srcEnd := rfl
@[simp] theorem State.hardwareReset_dstAddr (s : State) : s.hardwareReset.dstAddr = State.reset.dstAddr := rfl
@[simp] theorem State.hardwareReset_dstEnd (s : State) : s.hardwareReset.dstEnd = State.reset.dstEnd := rfl
@[simp] theorem State.hardwareReset_outcnt (s : State) : s.hardwareReset.outcnt = State.reset.outcnt := rfl
@[simp] theorem State.hardwareReset_bitcnt (s : State) : s.hardwareReset.bitcnt = State.reset.bitcnt := rfl
@[simp] theorem State.hardwareReset_errInfo (s : State) : s.hardwareReset.errInfo = State.reset.errInfo := rfl
@[simp] theorem State.hardwareReset_freq (s : State) : s.hardwareReset.freq = State.reset.freq := rfl
@[simp] theorem State.hardwareReset_node (s : State) : s.hardwareReset.node = State.reset.node := rfl
@[simp] theorem State.hardwareReset_code (s : State) : s.hardwareReset.code = State.reset.code := rfl
@[simp] theorem State.hardwareReset_mem (s : State) : s.hardwareReset.mem = s.abandon.mem := rfl
@[simp] theorem State.hardwareReset_admitMap (s : State) : s.hardwareReset.admitMap = s.admitMap := rfl
@[simp] theorem State.hardwareReset_raced (s : State) : s.hardwareReset.raced = State.reset.raced := rfl
@[simp] theorem State.hardwareReset_draws (s : State) : s.hardwareReset.draws = s.abandon.draws := rfl
@[simp] theorem State.hardwareReset_schedule (s : State) : s.hardwareReset.schedule = s.schedule := rfl
@[simp] theorem State.hardwareReset_response (s : State) : s.hardwareReset.response = s.response := rfl

/-! ### respondWord -/

@[simp] theorem State.respondWord_ctrl (s : State) (w : Word) : (s.respondWord w).ctrl = s.ctrl := rfl
@[simp] theorem State.respondWord_status (s : State) (w : Word) : (s.respondWord w).status = s.status := rfl
@[simp] theorem State.respondWord_pending (s : State) (w : Word) : (s.respondWord w).pending = s.pending := rfl
@[simp] theorem State.respondWord_total (s : State) (w : Word) : (s.respondWord w).total = s.total := rfl
@[simp] theorem State.respondWord_root (s : State) (w : Word) : (s.respondWord w).root = s.root := rfl
@[simp] theorem State.respondWord_nodeCount (s : State) (w : Word) : (s.respondWord w).nodeCount = s.nodeCount := rfl
@[simp] theorem State.respondWord_leafCount (s : State) (w : Word) : (s.respondWord w).leafCount = s.leafCount := rfl
@[simp] theorem State.respondWord_srcAddr (s : State) (w : Word) : (s.respondWord w).srcAddr = s.srcAddr := rfl
@[simp] theorem State.respondWord_srcEnd (s : State) (w : Word) : (s.respondWord w).srcEnd = s.srcEnd := rfl
@[simp] theorem State.respondWord_dstAddr (s : State) (w : Word) : (s.respondWord w).dstAddr = s.dstAddr := rfl
@[simp] theorem State.respondWord_dstEnd (s : State) (w : Word) : (s.respondWord w).dstEnd = s.dstEnd := rfl
@[simp] theorem State.respondWord_outcnt (s : State) (w : Word) : (s.respondWord w).outcnt = s.outcnt := rfl
@[simp] theorem State.respondWord_bitcnt (s : State) (w : Word) : (s.respondWord w).bitcnt = s.bitcnt := rfl
@[simp] theorem State.respondWord_errInfo (s : State) (w : Word) : (s.respondWord w).errInfo = s.errInfo := rfl
@[simp] theorem State.respondWord_freq (s : State) (w : Word) : (s.respondWord w).freq = s.freq := rfl
@[simp] theorem State.respondWord_node (s : State) (w : Word) : (s.respondWord w).node = s.node := rfl
@[simp] theorem State.respondWord_code (s : State) (w : Word) : (s.respondWord w).code = s.code := rfl
@[simp] theorem State.respondWord_mem (s : State) (w : Word) : (s.respondWord w).mem = s.mem := rfl
@[simp] theorem State.respondWord_admitMap (s : State) (w : Word) : (s.respondWord w).admitMap = s.admitMap := rfl
@[simp] theorem State.respondWord_raced (s : State) (w : Word) : (s.respondWord w).raced = s.raced := rfl
@[simp] theorem State.respondWord_draws (s : State) (w : Word) : (s.respondWord w).draws = s.draws := rfl
@[simp] theorem State.respondWord_schedule (s : State) (w : Word) : (s.respondWord w).schedule = s.schedule := rfl
@[simp] theorem State.respondWord_response (s : State) (w : Word) : (s.respondWord w).response = .word w := rfl

/-! ### respondByte -/

@[simp] theorem State.respondByte_ctrl (s : State) (b : Byte) : (s.respondByte b).ctrl = s.ctrl := rfl
@[simp] theorem State.respondByte_status (s : State) (b : Byte) : (s.respondByte b).status = s.status := rfl
@[simp] theorem State.respondByte_pending (s : State) (b : Byte) : (s.respondByte b).pending = s.pending := rfl
@[simp] theorem State.respondByte_total (s : State) (b : Byte) : (s.respondByte b).total = s.total := rfl
@[simp] theorem State.respondByte_root (s : State) (b : Byte) : (s.respondByte b).root = s.root := rfl
@[simp] theorem State.respondByte_nodeCount (s : State) (b : Byte) : (s.respondByte b).nodeCount = s.nodeCount := rfl
@[simp] theorem State.respondByte_leafCount (s : State) (b : Byte) : (s.respondByte b).leafCount = s.leafCount := rfl
@[simp] theorem State.respondByte_srcAddr (s : State) (b : Byte) : (s.respondByte b).srcAddr = s.srcAddr := rfl
@[simp] theorem State.respondByte_srcEnd (s : State) (b : Byte) : (s.respondByte b).srcEnd = s.srcEnd := rfl
@[simp] theorem State.respondByte_dstAddr (s : State) (b : Byte) : (s.respondByte b).dstAddr = s.dstAddr := rfl
@[simp] theorem State.respondByte_dstEnd (s : State) (b : Byte) : (s.respondByte b).dstEnd = s.dstEnd := rfl
@[simp] theorem State.respondByte_outcnt (s : State) (b : Byte) : (s.respondByte b).outcnt = s.outcnt := rfl
@[simp] theorem State.respondByte_bitcnt (s : State) (b : Byte) : (s.respondByte b).bitcnt = s.bitcnt := rfl
@[simp] theorem State.respondByte_errInfo (s : State) (b : Byte) : (s.respondByte b).errInfo = s.errInfo := rfl
@[simp] theorem State.respondByte_freq (s : State) (b : Byte) : (s.respondByte b).freq = s.freq := rfl
@[simp] theorem State.respondByte_node (s : State) (b : Byte) : (s.respondByte b).node = s.node := rfl
@[simp] theorem State.respondByte_code (s : State) (b : Byte) : (s.respondByte b).code = s.code := rfl
@[simp] theorem State.respondByte_mem (s : State) (b : Byte) : (s.respondByte b).mem = s.mem := rfl
@[simp] theorem State.respondByte_admitMap (s : State) (b : Byte) : (s.respondByte b).admitMap = s.admitMap := rfl
@[simp] theorem State.respondByte_raced (s : State) (b : Byte) : (s.respondByte b).raced = s.raced := rfl
@[simp] theorem State.respondByte_draws (s : State) (b : Byte) : (s.respondByte b).draws = s.draws := rfl
@[simp] theorem State.respondByte_schedule (s : State) (b : Byte) : (s.respondByte b).schedule = s.schedule := rfl
@[simp] theorem State.respondByte_response (s : State) (b : Byte) : (s.respondByte b).response = .byte b := rfl

/-! ### respondFree -/

@[simp] theorem State.respondFree_ctrl (s : State) : s.respondFree.ctrl = s.ctrl := rfl
@[simp] theorem State.respondFree_status (s : State) : s.respondFree.status = s.status := rfl
@[simp] theorem State.respondFree_pending (s : State) : s.respondFree.pending = s.pending := rfl
@[simp] theorem State.respondFree_total (s : State) : s.respondFree.total = s.total := rfl
@[simp] theorem State.respondFree_root (s : State) : s.respondFree.root = s.root := rfl
@[simp] theorem State.respondFree_nodeCount (s : State) : s.respondFree.nodeCount = s.nodeCount := rfl
@[simp] theorem State.respondFree_leafCount (s : State) : s.respondFree.leafCount = s.leafCount := rfl
@[simp] theorem State.respondFree_srcAddr (s : State) : s.respondFree.srcAddr = s.srcAddr := rfl
@[simp] theorem State.respondFree_srcEnd (s : State) : s.respondFree.srcEnd = s.srcEnd := rfl
@[simp] theorem State.respondFree_dstAddr (s : State) : s.respondFree.dstAddr = s.dstAddr := rfl
@[simp] theorem State.respondFree_dstEnd (s : State) : s.respondFree.dstEnd = s.dstEnd := rfl
@[simp] theorem State.respondFree_outcnt (s : State) : s.respondFree.outcnt = s.outcnt := rfl
@[simp] theorem State.respondFree_bitcnt (s : State) : s.respondFree.bitcnt = s.bitcnt := rfl
@[simp] theorem State.respondFree_errInfo (s : State) : s.respondFree.errInfo = s.errInfo := rfl
@[simp] theorem State.respondFree_freq (s : State) : s.respondFree.freq = s.freq := rfl
@[simp] theorem State.respondFree_node (s : State) : s.respondFree.node = s.node := rfl
@[simp] theorem State.respondFree_code (s : State) : s.respondFree.code = s.code := rfl
@[simp] theorem State.respondFree_mem (s : State) : s.respondFree.mem = s.mem := rfl
@[simp] theorem State.respondFree_admitMap (s : State) : s.respondFree.admitMap = s.admitMap := rfl
@[simp] theorem State.respondFree_raced (s : State) : s.respondFree.raced = s.raced := rfl
@[simp] theorem State.respondFree_draws (s : State) : s.respondFree.draws = s.draws + 1 := rfl
@[simp] theorem State.respondFree_schedule (s : State) : s.respondFree.schedule = s.schedule := rfl
@[simp] theorem State.respondFree_response (s : State) : s.respondFree.response = .word (Config.freeWord s.draws) := rfl

/-! ### drawByte -/

@[simp] theorem State.drawByte_ctrl (s : State) : s.drawByte.2.ctrl = s.ctrl := rfl
@[simp] theorem State.drawByte_status (s : State) : s.drawByte.2.status = s.status := rfl
@[simp] theorem State.drawByte_pending (s : State) : s.drawByte.2.pending = s.pending := rfl
@[simp] theorem State.drawByte_total (s : State) : s.drawByte.2.total = s.total := rfl
@[simp] theorem State.drawByte_root (s : State) : s.drawByte.2.root = s.root := rfl
@[simp] theorem State.drawByte_nodeCount (s : State) : s.drawByte.2.nodeCount = s.nodeCount := rfl
@[simp] theorem State.drawByte_leafCount (s : State) : s.drawByte.2.leafCount = s.leafCount := rfl
@[simp] theorem State.drawByte_srcAddr (s : State) : s.drawByte.2.srcAddr = s.srcAddr := rfl
@[simp] theorem State.drawByte_srcEnd (s : State) : s.drawByte.2.srcEnd = s.srcEnd := rfl
@[simp] theorem State.drawByte_dstAddr (s : State) : s.drawByte.2.dstAddr = s.dstAddr := rfl
@[simp] theorem State.drawByte_dstEnd (s : State) : s.drawByte.2.dstEnd = s.dstEnd := rfl
@[simp] theorem State.drawByte_outcnt (s : State) : s.drawByte.2.outcnt = s.outcnt := rfl
@[simp] theorem State.drawByte_bitcnt (s : State) : s.drawByte.2.bitcnt = s.bitcnt := rfl
@[simp] theorem State.drawByte_errInfo (s : State) : s.drawByte.2.errInfo = s.errInfo := rfl
@[simp] theorem State.drawByte_freq (s : State) : s.drawByte.2.freq = s.freq := rfl
@[simp] theorem State.drawByte_node (s : State) : s.drawByte.2.node = s.node := rfl
@[simp] theorem State.drawByte_code (s : State) : s.drawByte.2.code = s.code := rfl
@[simp] theorem State.drawByte_mem (s : State) : s.drawByte.2.mem = s.mem := rfl
@[simp] theorem State.drawByte_admitMap (s : State) : s.drawByte.2.admitMap = s.admitMap := rfl
@[simp] theorem State.drawByte_raced (s : State) : s.drawByte.2.raced = s.raced := rfl
@[simp] theorem State.drawByte_draws (s : State) : s.drawByte.2.draws = s.draws + 1 := rfl
@[simp] theorem State.drawByte_schedule (s : State) : s.drawByte.2.schedule = s.schedule := rfl
@[simp] theorem State.drawByte_response (s : State) : s.drawByte.2.response = s.response := rfl

/-! ### drawWord -/

@[simp] theorem State.drawWord_ctrl (s : State) : s.drawWord.2.ctrl = s.ctrl := rfl
@[simp] theorem State.drawWord_status (s : State) : s.drawWord.2.status = s.status := rfl
@[simp] theorem State.drawWord_pending (s : State) : s.drawWord.2.pending = s.pending := rfl
@[simp] theorem State.drawWord_total (s : State) : s.drawWord.2.total = s.total := rfl
@[simp] theorem State.drawWord_root (s : State) : s.drawWord.2.root = s.root := rfl
@[simp] theorem State.drawWord_nodeCount (s : State) : s.drawWord.2.nodeCount = s.nodeCount := rfl
@[simp] theorem State.drawWord_leafCount (s : State) : s.drawWord.2.leafCount = s.leafCount := rfl
@[simp] theorem State.drawWord_srcAddr (s : State) : s.drawWord.2.srcAddr = s.srcAddr := rfl
@[simp] theorem State.drawWord_srcEnd (s : State) : s.drawWord.2.srcEnd = s.srcEnd := rfl
@[simp] theorem State.drawWord_dstAddr (s : State) : s.drawWord.2.dstAddr = s.dstAddr := rfl
@[simp] theorem State.drawWord_dstEnd (s : State) : s.drawWord.2.dstEnd = s.dstEnd := rfl
@[simp] theorem State.drawWord_outcnt (s : State) : s.drawWord.2.outcnt = s.outcnt := rfl
@[simp] theorem State.drawWord_bitcnt (s : State) : s.drawWord.2.bitcnt = s.bitcnt := rfl
@[simp] theorem State.drawWord_errInfo (s : State) : s.drawWord.2.errInfo = s.errInfo := rfl
@[simp] theorem State.drawWord_freq (s : State) : s.drawWord.2.freq = s.freq := rfl
@[simp] theorem State.drawWord_node (s : State) : s.drawWord.2.node = s.node := rfl
@[simp] theorem State.drawWord_code (s : State) : s.drawWord.2.code = s.code := rfl
@[simp] theorem State.drawWord_mem (s : State) : s.drawWord.2.mem = s.mem := rfl
@[simp] theorem State.drawWord_admitMap (s : State) : s.drawWord.2.admitMap = s.admitMap := rfl
@[simp] theorem State.drawWord_raced (s : State) : s.drawWord.2.raced = s.raced := rfl
@[simp] theorem State.drawWord_draws (s : State) : s.drawWord.2.draws = s.draws + 1 := rfl
@[simp] theorem State.drawWord_schedule (s : State) : s.drawWord.2.schedule = s.schedule := rfl
@[simp] theorem State.drawWord_response (s : State) : s.drawWord.2.response = s.response := rfl

/-! ### takeEvent -/

@[simp] theorem State.takeEvent_ctrl (s : State) (r : List Event) : (s.takeEvent r).ctrl = s.ctrl := rfl
@[simp] theorem State.takeEvent_status (s : State) (r : List Event) : (s.takeEvent r).status = s.status := rfl
@[simp] theorem State.takeEvent_pending (s : State) (r : List Event) : (s.takeEvent r).pending = s.pending := rfl
@[simp] theorem State.takeEvent_total (s : State) (r : List Event) : (s.takeEvent r).total = s.total := rfl
@[simp] theorem State.takeEvent_root (s : State) (r : List Event) : (s.takeEvent r).root = s.root := rfl
@[simp] theorem State.takeEvent_nodeCount (s : State) (r : List Event) : (s.takeEvent r).nodeCount = s.nodeCount := rfl
@[simp] theorem State.takeEvent_leafCount (s : State) (r : List Event) : (s.takeEvent r).leafCount = s.leafCount := rfl
@[simp] theorem State.takeEvent_srcAddr (s : State) (r : List Event) : (s.takeEvent r).srcAddr = s.srcAddr := rfl
@[simp] theorem State.takeEvent_srcEnd (s : State) (r : List Event) : (s.takeEvent r).srcEnd = s.srcEnd := rfl
@[simp] theorem State.takeEvent_dstAddr (s : State) (r : List Event) : (s.takeEvent r).dstAddr = s.dstAddr := rfl
@[simp] theorem State.takeEvent_dstEnd (s : State) (r : List Event) : (s.takeEvent r).dstEnd = s.dstEnd := rfl
@[simp] theorem State.takeEvent_outcnt (s : State) (r : List Event) : (s.takeEvent r).outcnt = s.outcnt := rfl
@[simp] theorem State.takeEvent_bitcnt (s : State) (r : List Event) : (s.takeEvent r).bitcnt = s.bitcnt := rfl
@[simp] theorem State.takeEvent_errInfo (s : State) (r : List Event) : (s.takeEvent r).errInfo = s.errInfo := rfl
@[simp] theorem State.takeEvent_freq (s : State) (r : List Event) : (s.takeEvent r).freq = s.freq := rfl
@[simp] theorem State.takeEvent_node (s : State) (r : List Event) : (s.takeEvent r).node = s.node := rfl
@[simp] theorem State.takeEvent_code (s : State) (r : List Event) : (s.takeEvent r).code = s.code := rfl
@[simp] theorem State.takeEvent_mem (s : State) (r : List Event) : (s.takeEvent r).mem = s.mem := rfl
@[simp] theorem State.takeEvent_admitMap (s : State) (r : List Event) : (s.takeEvent r).admitMap = s.admitMap := rfl
@[simp] theorem State.takeEvent_raced (s : State) (r : List Event) : (s.takeEvent r).raced = s.raced := rfl
@[simp] theorem State.takeEvent_draws (s : State) (r : List Event) : (s.takeEvent r).draws = s.draws := rfl
@[simp] theorem State.takeEvent_schedule (s : State) (r : List Event) : (s.takeEvent r).schedule = r := rfl
@[simp] theorem State.takeEvent_response (s : State) (r : List Event) : (s.takeEvent r).response = s.response := rfl

/-! ### Status.complete -/

@[simp] theorem Status.complete_busy (st : Status) (e : Byte) : (st.complete e).busy = false := rfl
@[simp] theorem Status.complete_done (st : Status) (e : Byte) : (st.complete e).done = true := rfl
@[simp] theorem Status.complete_treeValid (st : Status) (e : Byte) : (st.complete e).treeValid = st.treeValid := rfl
@[simp] theorem Status.complete_empty (st : Status) (e : Byte) : (st.complete e).empty = st.empty := rfl
@[simp] theorem Status.complete_codesValid (st : Status) (e : Byte) : (st.complete e).codesValid = st.codesValid := rfl
@[simp] theorem Status.complete_accerr (st : Status) (e : Byte) : (st.complete e).accerr = st.accerr := rfl
@[simp] theorem Status.complete_err (st : Status) (e : Byte) : (st.complete e).err = e := rfl
@[simp] theorem Status.complete_lastop (st : Status) (e : Byte) : (st.complete e).lastop = st.lastop := rfl

/-! ### Status.launch -/

@[simp] theorem Status.launch_busy (st : Status) (w : Word) : (st.launch w).busy = true := rfl
@[simp] theorem Status.launch_done (st : Status) (w : Word) : (st.launch w).done = false := rfl
@[simp] theorem Status.launch_treeValid (st : Status) (w : Word) : (st.launch w).treeValid = st.treeValid := rfl
@[simp] theorem Status.launch_empty (st : Status) (w : Word) : (st.launch w).empty = st.empty := rfl
@[simp] theorem Status.launch_codesValid (st : Status) (w : Word) : (st.launch w).codesValid = st.codesValid := rfl
@[simp] theorem Status.launch_accerr (st : Status) (w : Word) : (st.launch w).accerr = st.accerr := rfl
@[simp] theorem Status.launch_err (st : Status) (w : Word) : (st.launch w).err = st.err := rfl
@[simp] theorem Status.launch_lastop (st : Status) (w : Word) : (st.launch w).lastop = opField w := rfl

/-! ### Status.writeOneToClear -/

@[simp] theorem Status.writeOneToClear_busy (st : Status) (v : Word) : (st.writeOneToClear v).busy = st.busy := rfl
@[simp] theorem Status.writeOneToClear_done (st : Status) (v : Word) : (st.writeOneToClear v).done = (st.done && !v.getLsbD 1) := rfl
@[simp] theorem Status.writeOneToClear_treeValid (st : Status) (v : Word) : (st.writeOneToClear v).treeValid = st.treeValid := rfl
@[simp] theorem Status.writeOneToClear_empty (st : Status) (v : Word) : (st.writeOneToClear v).empty = st.empty := rfl
@[simp] theorem Status.writeOneToClear_codesValid (st : Status) (v : Word) : (st.writeOneToClear v).codesValid = st.codesValid := rfl
@[simp] theorem Status.writeOneToClear_accerr (st : Status) (v : Word) : (st.writeOneToClear v).accerr = (st.accerr && !v.getLsbD 5) := rfl
@[simp] theorem Status.writeOneToClear_err (st : Status) (v : Word) : (st.writeOneToClear v).err = st.err := rfl
@[simp] theorem Status.writeOneToClear_lastop (st : Status) (v : Word) : (st.writeOneToClear v).lastop = st.lastop := rfl

end Sys2Proof.Machine
end

