-- ==== Sys2Proof/Laws/Memory.lean ====
section
/-! SUPPORT. The laws of shared memory: what a read after a write gives, that every memory operation keeps the canonical
form, and that a memory map can be any ADMIT. -/

namespace Sys2Proof.Machine

/-! ### Reads after writes -/

@[simp] theorem Memory.lookup_nil (a : Nat) : Memory.lookup [] a = none := rfl

theorem Memory.lookup_write (m : Memory) (a : Nat) (v : Byte) (x : Nat) :
    Memory.lookup (Memory.write m a v) x = if x = a then some v else Memory.lookup m x := by
  induction m with
  | nil => simp [Memory.write, Memory.lookup]
  | cons c m ih =>
    obtain ⟨b, w⟩ := c
    simp only [Memory.write]
    split
    · simp [Memory.lookup]
    · split
      · subst_vars
        simp only [Memory.lookup]
        split <;> simp_all
      · simp only [Memory.lookup, ih]
        split
        · split <;> [omega; rfl]
        · rfl

@[simp] theorem Memory.lookup_write_same (m : Memory) (a : Nat) (v : Byte) :
    Memory.lookup (Memory.write m a v) a = some v := by
  simp [Memory.lookup_write]

theorem Memory.lookup_write_other (m : Memory) (a : Nat) (v : Byte) (x : Nat) (h : x ≠ a) :
    Memory.lookup (Memory.write m a v) x = Memory.lookup m x := by
  simp [Memory.lookup_write, h]

@[simp] theorem Memory.read_write_same (m : Memory) (a : Nat) (v : Byte) :
    Memory.read (Memory.write m a v) a = v := by
  simp [Memory.read]

theorem Memory.read_write_other (m : Memory) (a : Nat) (v : Byte) (x : Nat) (h : x ≠ a) :
    Memory.read (Memory.write m a v) x = Memory.read m x := by
  simp [Memory.read, Memory.lookup_write_other m a v x h]

theorem Memory.lookup_havoc_outside (n : Nat) : ∀ (m : Memory) (a k x : Nat), ¬ (a ≤ x ∧ x < a + n) →
    Memory.lookup (Memory.havoc m a n k) x = Memory.lookup m x := by
  induction n with
  | zero => intros; rfl
  | succ n ih =>
    intro m a k x hx
    rw [Memory.havoc, ih _ _ _ _ (by omega), Memory.lookup_write_other _ _ _ _ (by omega)]

theorem Memory.lookup_havoc_inside (n : Nat) : ∀ (m : Memory) (a k x : Nat), a ≤ x → x < a + n →
    Memory.lookup (Memory.havoc m a n k) x = some (Config.freeByte (k + (x - a))) := by
  induction n with
  | zero => intros; omega
  | succ n ih =>
    intro m a k x h1 h2
    rw [Memory.havoc]
    by_cases h : x = a
    · subst h
      rw [Memory.lookup_havoc_outside _ _ _ _ _ (by omega)]
      simp
    · rw [ih _ _ _ _ (by omega) (by omega)]
      congr 2
      omega

theorem Memory.read_havoc_outside (m : Memory) (a n k x : Nat) (hx : ¬ (a ≤ x ∧ x < a + n)) :
    Memory.read (Memory.havoc m a n k) x = Memory.read m x := by
  simp [Memory.read, Memory.lookup_havoc_outside n m a k x hx]

theorem Memory.lookup_havocAt_outside (as : List Nat) : ∀ (m : Memory) (k x : Nat), x ∉ as →
    Memory.lookup (Memory.havocAt m as k) x = Memory.lookup m x := by
  induction as with
  | nil => intros; rfl
  | cons a as ih =>
    intro m k x hx
    simp only [List.mem_cons, not_or] at hx
    rw [Memory.havocAt, ih _ _ _ hx.2, Memory.lookup_write_other _ _ _ _ hx.1]

theorem Memory.read_havocAt_outside (m : Memory) (as : List Nat) (k x : Nat) (hx : x ∉ as) :
    Memory.read (Memory.havocAt m as k) x = Memory.read m x := by
  simp [Memory.read, Memory.lookup_havocAt_outside as m k x hx]

/-! ### The canonical form -/

theorem Memory.keys_write_mem (m : Memory) (a : Nat) (v : Byte) :
    ∀ c ∈ Memory.write m a v, c.1 = a ∨ c ∈ m := by
  induction m with
  | nil => simp [Memory.write]
  | cons c m ih =>
    obtain ⟨b, w⟩ := c
    intro d hd
    simp only [Memory.write] at hd
    split at hd
    · simp only [List.mem_cons] at hd ⊢
      rcases hd with rfl | hd <;> simp_all
    · split at hd
      · simp only [List.mem_cons] at hd ⊢
        rcases hd with rfl | hd <;> simp_all
      · simp only [List.mem_cons] at hd ⊢
        rcases hd with hd | hd
        · exact .inr (.inl hd)
        · rcases ih d hd with h | h
          · exact .inl h
          · exact .inr (.inr h)

theorem Memory.rising_write (m : Memory) (a : Nat) (v : Byte)
    (h : (m.map Prod.fst).Pairwise (fun x y => x < y)) :
    ((Memory.write m a v).map Prod.fst).Pairwise (fun x y => x < y) := by
  induction m with
  | nil => simp [Memory.write]
  | cons c m ih =>
    obtain ⟨b, w⟩ := c
    simp only [List.map_cons, List.pairwise_cons, List.mem_map] at h
    obtain ⟨hb, hm⟩ := h
    simp only [Memory.write]
    split
    · rename_i hab
      simp only [List.map_cons, List.pairwise_cons, List.mem_cons, List.mem_map]
      refine ⟨?_, fun y hy => hb y hy, hm⟩
      rintro y (rfl | hy)
      · exact hab
      · exact Nat.lt_trans hab (hb y hy)
    · split
      · subst_vars
        simp only [List.map_cons, List.pairwise_cons, List.mem_map]
        exact ⟨hb, hm⟩
      · rename_i h1 h2
        simp only [List.map_cons, List.pairwise_cons, List.mem_map]
        refine ⟨?_, ih hm⟩
        rintro y ⟨d, hd, rfl⟩
        rcases Memory.keys_write_mem m a v d hd with h | h
        · omega
        · exact hb d.1 ⟨d, h, rfl⟩

theorem Memory.wf_nil : Memory.wf [] := ⟨List.Pairwise.nil, fun _ h => nomatch h⟩

theorem Memory.wf_write {m : Memory} (h : Memory.wf m) {a : Nat} (ha : a < 4294967296) (v : Byte) :
    Memory.wf (Memory.write m a v) := by
  refine ⟨Memory.rising_write m a v h.1, fun c hc => ?_⟩
  rcases Memory.keys_write_mem m a v c hc with h' | h'
  · omega
  · exact h.2 c h'

theorem Memory.wf_havoc (n : Nat) : ∀ {m : Memory}, Memory.wf m → ∀ (a k : Nat), a + n ≤ 4294967296 →
    Memory.wf (Memory.havoc m a n k) := by
  induction n with
  | zero => intro m h _ _ _; exact h
  | succ n ih =>
    intro m h a k ha
    exact ih (Memory.wf_write h (by omega) _) _ _ (by omega)

theorem Memory.wf_havocAt (as : List Nat) : ∀ {m : Memory}, Memory.wf m → ∀ (k : Nat),
    (∀ a ∈ as, a < 4294967296) → Memory.wf (Memory.havocAt m as k) := by
  induction as with
  | nil => intro m h _ _; exact h
  | cons a as ih =>
    intro m h k ha
    exact ih (Memory.wf_write h (ha a (by simp)) _) _ (fun x hx => ha x (by simp [hx]))

theorem Memory.wf_load (bs : List Byte) : ∀ {m : Memory}, Memory.wf m → ∀ (a : Nat),
    a + bs.length ≤ 4294967296 → Memory.wf (Memory.load m a bs) := by
  induction bs with
  | nil => intro m h _ _; exact h
  | cons b bs ih =>
    intro m h a ha
    simp only [List.length_cons] at ha
    exact ih (Memory.wf_write h (by omega) _) _ (by omega)

/-- The reset memory has the canonical form. -/
theorem reset_memory_wf : Memory.wf State.reset.mem := Memory.wf_nil

/-! ### Regions -/

theorem regionBytes_le (a e : Word) (h : a.toNat ≤ e.toNat) : a.toNat + regionBytes a e = e.toNat := by
  unfold regionBytes
  omega

theorem regionBytes_end_lt (a e : Word) : a.toNat + regionBytes a e < 4294967296 := by
  have := a.isLt
  have := e.isLt
  unfold regionBytes
  omega

theorem inRegion_iff (a e : Word) (x : Nat) : inRegion a e x = true ↔ a.toNat ≤ x ∧ x < e.toNat := by
  simp [inRegion]

theorem regionMalformed_iff (a e : Word) : regionMalformed a e = true ↔ e.toNat < a.toNat := by
  simp [regionMalformed]

/-- Regions that do not overlap are apart, or one of them is empty (R82). -/
theorem overlap_false {s : State} (h : s.overlap = false) (hs : s.srcAddr ≠ s.srcEnd) (hd : s.dstAddr ≠ s.dstEnd) :
    s.dstEnd.toNat ≤ s.srcAddr.toNat ∨ s.srcEnd.toNat ≤ s.dstAddr.toNat := by
  by_contra hc
  have h1 : s.srcAddr.toNat < s.dstEnd.toNat ∧ s.dstAddr.toNat < s.srcEnd.toNat := by omega
  simp [State.overlap, hs, hd, h1] at h

/-! ### ADMIT -/

/-- The memory map with one record for each address: it answers as `f` does. -/
def exactMap (f : Word → AccessKind → Bool) (l : List Word) : List AdmitRegion :=
  l.map (fun a => { first := a, last := a, read := f a .read, write := f a .write })

theorem admitOf_exactMap (f : Word → AccessKind → Bool) (l : List Word) (a : Word) (k : AccessKind) (h : a ∈ l) :
    admitOf (exactMap f l) a k = f a k := by
  induction l with
  | nil => simp at h
  | cons b l ih =>
    by_cases hab : a = b
    · subst hab
      cases k <;> simp [exactMap, admitOf, AdmitRegion.holds, AdmitRegion.allows]
    · have hne : ({ first := b, last := b, read := f b .read, write := f b .write } : AdmitRegion).holds a = false := by
        have hn : a.toNat ≠ b.toNat := fun hh => hab (BitVec.eq_of_toNat_eq hh)
        simp only [AdmitRegion.holds, Bool.and_eq_false_iff, decide_eq_false_iff_not]
        omega
      have hl : a ∈ l := by simpa [hab] using h
      have := ih hl
      simp only [exactMap, admitOf, List.map_cons, List.find?_cons, hne] at this ⊢
      exact this

/-- Every function of an address and an access kind is the ADMIT of some memory map: a claim over every memory map
quantifies over ADMIT as R7 asks. -/
theorem admit_map_complete (f : Word → AccessKind → Bool) :
    ∃ regions : List AdmitRegion, ∀ a k, admitOf regions a k = f a k := by
  refine ⟨exactMap f ((List.finRange (2 ^ 32)).map BitVec.ofFin), fun a k => admitOf_exactMap f _ a k ?_⟩
  exact List.mem_map.mpr ⟨a.toFin, List.mem_finRange _, rfl⟩

end Sys2Proof.Machine
end

