-- ==== Sys2Proof/Laws/Ops.lean ====
section
/-! SUPPORT. One law for each shared operation: what a part of a command's body gives, what a shared-memory access can do,
and what completing a command or raising an error leaves. -/

namespace Sys2Proof.Machine

/-! ### Parts of a body -/

@[simp] theorem Part.bind_ok {α β : Type} (x : α) (f : α → Part β) : (Part.ok x).bind f = f x := rfl
@[simp] theorem Part.bind_raise {α β : Type} (e : Err) (i : Word) (s : State) (f : α → Part β) :
    (Part.raise e i s : Part α).bind f = .raise e i s := rfl
@[simp] theorem Part.bind_stuck {α β : Type} (r : Fault) (f : α → Part β) :
    (Part.stuck r : Part α).bind f = .stuck r := rfl

theorem Part.bind_eq_ok {α β : Type} {p : Part α} {f : α → Part β} {y : β} :
    p.bind f = .ok y ↔ ∃ x, p = .ok x ∧ f x = .ok y := by
  cases p <;> simp [Part.bind]

theorem Part.bind_eq_raise {α β : Type} {p : Part α} {f : α → Part β} {e : Err} {i : Word} {s : State} :
    p.bind f = .raise e i s ↔ p = .raise e i s ∨ ∃ x, p = .ok x ∧ f x = .raise e i s := by
  cases p <;> simp [Part.bind]

theorem Part.bind_eq_stuck {α β : Type} {p : Part α} {f : α → Part β} {r : Fault} :
    p.bind f = .stuck r ↔ p = .stuck r ∨ ∃ x, p = .ok x ∧ f x = .stuck r := by
  cases p <;> simp [Part.bind]

/-- What holds of a part on each of its outcomes: a result, a raised error, a state without a result. -/
def Part.Spec {α : Type} (p : Part α) (onOk : α → Prop) (onRaise : Err → Word → State → Prop)
    (onStuck : Fault → Prop) : Prop :=
  match p with
  | .ok x => onOk x
  | .raise e i s => onRaise e i s
  | .stuck f => onStuck f

theorem Part.Spec.bind {α β : Type} {p : Part α} {f : α → Part β} {P : α → Prop} {Q : β → Prop}
    {R : Err → Word → State → Prop} {S : Fault → Prop} (h : p.Spec P R S) (hf : ∀ x, P x → (f x).Spec Q R S) :
    (p.bind f).Spec Q R S := by
  cases p with
  | ok x => exact hf x h
  | raise e i s => exact h
  | stuck r => exact h

theorem Part.Spec.mono {α : Type} {p : Part α} {P P' : α → Prop} {R R' : Err → Word → State → Prop}
    {S S' : Fault → Prop} (h : p.Spec P R S) (hP : ∀ x, P x → P' x) (hR : ∀ e i s, R e i s → R' e i s)
    (hS : ∀ f, S f → S' f) : p.Spec P' R' S' := by
  cases p with
  | ok x => exact hP x h
  | raise e i s => exact hR e i s h
  | stuck r => exact hS r h

theorem Part.Spec.ok {α : Type} {p : Part α} {P : α → Prop} {R : Err → Word → State → Prop} {S : Fault → Prop}
    (h : p.Spec P R S) {x : α} (hp : p = .ok x) : P x := by subst hp; exact h

theorem Part.Spec.raise {α : Type} {p : Part α} {P : α → Prop} {R : Err → Word → State → Prop} {S : Fault → Prop}
    (h : p.Spec P R S) {e : Err} {i : Word} {s : State} (hp : p = .raise e i s) : R e i s := by subst hp; exact h

theorem Part.Spec.stuck {α : Type} {p : Part α} {P : α → Prop} {R : Err → Word → State → Prop} {S : Fault → Prop}
    (h : p.Spec P R S) {f : Fault} (hp : p = .stuck f) : S f := by subst hp; exact h

/-! ### Stores only -/

/-- `t` is `s` but for shared-memory bytes in [lo, hi) and the draw counter: what a stream command's loops do. -/
structure OnlyStores (lo hi : Nat) (s t : State) : Prop where
  rest  : t = { s with mem := t.mem, draws := t.draws }
  bytes : ∀ a : Nat, ¬ (lo ≤ a ∧ a < hi) → Memory.lookup t.mem a = Memory.lookup s.mem a

theorem OnlyStores.refl (lo hi : Nat) (s : State) : OnlyStores lo hi s s := ⟨rfl, fun _ _ => rfl⟩

theorem OnlyStores.trans {lo hi : Nat} {s t u : State} (h : OnlyStores lo hi s t) (h' : OnlyStores lo hi t u) :
    OnlyStores lo hi s u := by
  refine ⟨?_, fun a ha => (h'.bytes a ha).trans (h.bytes a ha)⟩
  rw [h'.rest, h.rest]

theorem OnlyStores.mono {lo hi lo' hi' : Nat} {s t : State} (h : OnlyStores lo hi s t) (hl : lo' ≤ lo)
    (hh : hi ≤ hi') : OnlyStores lo' hi' s t :=
  ⟨h.rest, fun a ha => h.bytes a (by omega)⟩

theorem OnlyStores.keeps {lo hi : Nat} {s t : State} (h : OnlyStores lo hi s t) : KeepsBytesOutside lo hi s t := by
  intro a ha
  simp only [Memory.read, h.bytes a ha]

/-- Every field but the memory and the draw counter is the same. -/
theorem OnlyStores.field {lo hi : Nat} {s t : State} (h : OnlyStores lo hi s t) {α : Type} (f : State → α)
    (hf : ∀ m d, f { s with mem := m, draws := d } = f s) : f t = f s := by
  rw [h.rest]
  exact hf _ _

/-! ### Shared-memory accesses -/

/-- A read that is admitted gives a byte and changes at most the draw counter; without a race it is the byte of shared
memory and changes nothing. -/
theorem memRead_ok {s : State} {a : Word} {r : Byte × State} (h : memRead s a = .ok r) :
    s.admits a .read = true ∧
      ((a.toNat ∈ s.raced ∧ r = (Config.freeByte s.draws, { s with draws := s.draws + 1 })) ∨
        (a.toNat ∉ s.raced ∧ r = (Memory.read s.mem a.toNat, s))) := by
  unfold memRead at h
  split at h
  · rename_i hadm
    refine ⟨hadm, ?_⟩
    split at h
    · rename_i hr
      injection h with h
      exact .inl ⟨by simpa using hr, h.symm⟩
    · rename_i hr
      injection h with h
      exact .inr ⟨by simpa using hr, h.symm⟩
  · cases h

theorem memRead_raise {s t : State} {a info : Word} {e : Err} (h : memRead s a = .raise e info t) :
    s.admits a .read = false ∧ e = .bus ∧ info = a ∧ t = s := by
  unfold memRead at h
  split at h
  · split at h <;> cases h
  · rename_i hadm
    injection h with h1 h2 h3
    exact ⟨by simpa using hadm, h1.symm, h2.symm, h3.symm⟩

theorem memRead_not_stuck {s : State} {a : Word} {f : Fault} : memRead s a ≠ .stuck f := by
  unfold memRead
  split <;> [split; skip] <;> simp

theorem memRead_admitted {s : State} {a : Word} (h : s.admits a .read = true) (hr : a.toNat ∉ s.raced) :
    memRead s a = .ok (Memory.read s.mem a.toNat, s) := by
  simp [memRead, h, hr]

theorem memRead_refused {s : State} {a : Word} (h : s.admits a .read = false) :
    memRead s a = .raise .bus a s := by
  simp [memRead, h]

theorem memRead_onlyStores {s : State} {a : Word} {r : Byte × State} (h : memRead s a = .ok r) (lo hi : Nat) :
    OnlyStores lo hi s r.2 := by
  rcases (memRead_ok h).2 with ⟨_, rfl⟩ | ⟨_, rfl⟩
  · exact ⟨rfl, fun _ _ => rfl⟩
  · exact OnlyStores.refl _ _ _

/-- A write that is admitted stores one byte and changes nothing else. -/
theorem memWrite_ok {s t : State} {a : Word} {v : Byte} (h : memWrite s a v = .ok t) :
    s.admits a .write = true ∧ t = { s with mem := Memory.write s.mem a.toNat v } := by
  unfold memWrite at h
  split at h
  · rename_i hadm
    injection h with h
    exact ⟨hadm, h.symm⟩
  · cases h

theorem memWrite_raise {s t : State} {a info : Word} {v : Byte} {e : Err} (h : memWrite s a v = .raise e info t) :
    s.admits a .write = false ∧ e = .bus ∧ info = a ∧ t = s := by
  unfold memWrite at h
  split at h
  · cases h
  · rename_i hadm
    injection h with h1 h2 h3
    exact ⟨by simpa using hadm, h1.symm, h2.symm, h3.symm⟩

theorem memWrite_not_stuck {s : State} {a : Word} {v : Byte} {f : Fault} : memWrite s a v ≠ .stuck f := by
  unfold memWrite
  split <;> simp

theorem memWrite_admitted {s : State} {a : Word} (v : Byte) (h : s.admits a .write = true) :
    memWrite s a v = .ok { s with mem := Memory.write s.mem a.toNat v } := by
  simp [memWrite, h]

theorem memWrite_refused {s : State} {a : Word} (v : Byte) (h : s.admits a .write = false) :
    memWrite s a v = .raise .bus a s := by
  simp [memWrite, h]

theorem memWrite_onlyStores {s t : State} {a : Word} {v : Byte} (h : memWrite s a v = .ok t) {lo hi : Nat}
    (hl : lo ≤ a.toNat) (hh : a.toNat < hi) : OnlyStores lo hi s t := by
  obtain ⟨_, rfl⟩ := memWrite_ok h
  refine ⟨rfl, fun x hx => ?_⟩
  exact Memory.lookup_write_other _ _ _ _ (by omega)

/-! ### Lists that fill a memory -/

theorem fill_toList {α : Type} (n : Nat) (d : α) (l : List α) :
    (fill n d l).toList = l.take n ++ List.replicate (n - l.length) d := by
  simp [fill]

theorem fill_getElem {α : Type} (n : Nat) (d : α) (l : List α) (i : Nat) (hi : i < n) :
    (fill n d l)[i] = l.getD i d := by
  have h : (fill n d l)[i] = (fill n d l).toList[i]'(by simp; exact hi) := by simp
  rw [h]
  simp only [fill_toList, List.getElem_append, List.length_take, List.getElem_take, List.getElem_replicate]
  split
  · rename_i h1
    rw [List.getD_eq_getElem?_getD, List.getElem?_eq_getElem (by omega)]
    rfl
  · rename_i h1
    rw [List.getD_eq_getElem?_getD, List.getElem?_eq_none (by omega)]
    rfl

/-! ### The FREQ memory -/

theorem freqAt_setFreq (s : State) (sym : Byte) (v : Word) (x : Byte) :
    (s.setFreq sym v).freqAt x = if x = sym then some v else s.freqAt x := by
  simp only [State.freqAt, State.setFreq]
  rw [Vector.getElem_set]
  by_cases h : x = sym
  · subst h; simp
  · have : sym.toNat ≠ x.toNat := fun hh => h (BitVec.eq_of_toNat_eq hh.symm)
    simp [h, this]

/-! ### Completion -/

/-- What a completed command leaves: a success keeps what its rule wrote, an error goes through `raiseError`. -/
theorem complete_next {s0 u : State} {r : RunResult} (h : complete s0 r = .next u) :
    (∃ s, r = .done s ∧ u = s.finish 0#8 0#32) ∨
      (∃ e info trash s, r = .raised e info trash s ∧ u = raiseError s0 e info trash s) := by
  cases r with
  | done s => exact .inl ⟨s, rfl, by simpa [complete] using h.symm⟩
  | raised e info trash s => exact .inr ⟨e, info, trash, s, rfl, by simpa [complete] using h.symm⟩
  | stuck f => simp [complete] at h

theorem complete_fault {s0 : State} {r : RunResult} {f : Fault} (h : complete s0 r = .fault f) : r = .stuck f := by
  cases r <;> simp_all [complete]

theorem complete_not_refused {s0 : State} {r : RunResult} {x : Refusal} : complete s0 r ≠ .refused x := by
  cases r <;> simp [complete]

theorem finish_completed (s : State) (e : Byte) (i : Word) : Completed (s.finish e i) := ⟨rfl, rfl, rfl⟩

theorem raiseError_completed (s0 : State) (e : Err) (i : Word) (b : Bool) (s : State) :
    Completed (raiseError s0 e i b s) := ⟨rfl, rfl, rfl⟩

theorem raiseError_aborted (s0 : State) (e : Err) (i : Word) (b : Bool) (s : State) :
    Aborted s0 (raiseError s0 e i b s) e i := ⟨rfl, rfl, rfl, rfl, rfl, rfl⟩

/-- An error raised once accesses have begun, from a state in which only the destination region was stored to. -/
theorem raiseError_abortedInBody {s t : State} (e : Err) (i : Word)
    (h : OnlyStores s.dstAddr.toNat s.dstEnd.toNat s t) (hd : s.draws ≤ t.draws) :
    AbortedInBody s (raiseError s e i true t) e i := by
  have hr := h.rest
  refine ⟨raiseError_completed _ _ _ _ _, raiseError_aborted _ _ _ _ _, ?_, ?_, ?_, fun x hx => ?_, fun x h1 h2 => ?_⟩
  · rw [hr]; exact ⟨rfl, rfl, rfl, rfl, rfl, rfl, rfl⟩
  · rw [hr]; exact ⟨rfl, rfl⟩
  · rw [hr]; rfl
  · show Memory.read (State.trashDst s t).mem x = _
    rw [State.trashDst_mem, Memory.read_havoc_outside _ _ _ _ _ (by unfold regionBytes; omega)]
    exact h.keeps x hx
  · refine ⟨t.draws + (x - s.dstAddr.toNat), by omega, ?_⟩
    show Memory.lookup (State.trashDst s t).mem x = _
    rw [State.trashDst_mem, Memory.lookup_havoc_inside _ _ _ _ _ h1 (by unfold regionBytes; omega)]

/-- Every completed command leaves BUSY = 0, DONE = 1 and no pending word. -/
theorem complete_completed {s0 u : State} {r : RunResult} (h : complete s0 r = .next u) : Completed u := by
  rcases complete_next h with ⟨s, _, rfl⟩ | ⟨e, i, b, s, _, rfl⟩
  · exact finish_completed _ _ _
  · exact raiseError_completed _ _ _ _ _

theorem Err.code_pos (e : Err) : e.code ≠ 0#8 := by cases e <;> decide

theorem Err.code_le (e : Err) : e.code.toNat ≤ 0x12 := by cases e <;> decide

theorem Err.code_inj {e e' : Err} (h : e.code = e'.code) : e = e' := by
  cases e <;> cases e' <;> first | rfl | exact absurd h (by decide)

/-! ### The engine -/

theorem afterCompletion_unraced (t : State) (h : t.raced = []) : afterCompletion (.next t) = .next t := by
  obtain ⟨⟩ := t
  simp only at h
  subst h
  rfl

/-- What abandoning a command does: its destination region becomes free values, and no other byte and no register
changes (R280, R61). -/
theorem State.abandon_spec (s : State) :
    s.abandon = { s with mem := s.abandon.mem, draws := s.abandon.draws } ∧ s.draws ≤ s.abandon.draws ∧
      (∀ a : Nat, s.inRunningDst a = false → Memory.lookup s.abandon.mem a = Memory.lookup s.mem a) ∧
      (∀ a : Nat, s.inRunningDst a = true →
        ∃ k : Nat, s.draws ≤ k ∧ Memory.lookup s.abandon.mem a = some (Config.freeByte k)) ∧
      (Memory.wf s.mem → Memory.wf s.abandon.mem) := by
  have hE : s.dstEnd.toNat < 4294967296 := s.dstEnd.isLt
  unfold State.abandon State.inRunningDst
  cases s.running with
  | none => exact ⟨rfl, Nat.le_refl _, fun _ _ => rfl, fun _ h => (by cases h), id⟩
  | some i =>
    cases hu : Instr.usesDst i with
    | false =>
      simp only [hu, Bool.false_and, Bool.false_eq_true, if_false]
      exact ⟨trivial, Nat.le_refl _, fun _ _ => trivial, fun _ h => h.elim, id⟩
    | true =>
      simp only [hu, Bool.true_and, if_true]
      refine ⟨rfl, Nat.le_add_right .., fun a h => ?_, fun a h => ?_, fun h => ?_⟩
      · exact Memory.lookup_havoc_outside _ _ _ _ _ (by
          simp only [inRegion, Bool.and_eq_false_iff, decide_eq_false_iff_not] at h
          unfold regionBytes
          omega)
      · have hr := (inRegion_iff _ _ _).mp h
        exact ⟨s.draws + (a - s.dstAddr.toNat), by omega,
          Memory.lookup_havoc_inside _ _ _ _ _ hr.1 (by unfold regionBytes; omega)⟩
      · by_cases hd : s.dstAddr.toNat ≤ s.dstEnd.toNat
        · exact Memory.wf_havoc _ h _ _ (by unfold regionBytes; omega)
        · rw [State.trashDst_mem, show regionBytes s.dstAddr s.dstEnd = 0 by unfold regionBytes; omega]
          exact h

theorem engineStep_idle (s : State) (h : s.status.busy = false) : engineStep s = .next s := by
  simp [engineStep, h]

theorem engineStep_busy (s : State) (w : Word) (h : s.status.busy = true) (hp : s.pending = some w) :
    engineStep s = afterCompletion (runWord w s) := by
  simp [engineStep, h, hp]

theorem runWord_ok {w : Word} {i : Instr} (h : decode w = .ok i) (s : State) : runWord w s = exec i s := by
  simp [runWord, h]

theorem runWord_error {w : Word} {r : Reject} (h : decode w = .error r) (s : State) :
    runWord w s = execIllegal w s := by
  simp [runWord, h]

/-- What one step can be: an idle stutter, an ENGINE completion, a HOST transaction, a poll, or a reset. -/
theorem step_cases {s u : State} (h : step s = .next u) :
    (∃ s0, (s0 = s ∨ ∃ rest, s.schedule = .engine :: rest ∧ s0 = s.takeEvent rest) ∧ engineStep s0 = .next u) ∨
      (∃ op rest, s.schedule = .host op :: rest ∧ u = hostStep op (s.takeEvent rest)) ∨
      (∃ rest, s.schedule = .wait :: rest ∧ u = waitStep rest (s.takeEvent rest)) ∨
      (∃ rest, s.schedule = .reset :: rest ∧ u = (s.takeEvent rest).hardwareReset) := by
  unfold step at h
  split at h
  · exact .inl ⟨s, .inl rfl, h⟩
  · rename_i rest hs
    exact .inl ⟨_, .inr ⟨rest, hs, rfl⟩, h⟩
  · rename_i op rest hs
    injection h with h
    exact .inr (.inl ⟨op, rest, hs, h.symm⟩)
  · rename_i rest hs
    injection h with h
    exact .inr (.inr (.inl ⟨rest, hs, h.symm⟩))
  · rename_i rest hs
    injection h with h
    exact .inr (.inr (.inr ⟨rest, hs, h.symm⟩))

/-- What an ENGINE step can be: nothing, or the completion of the pending word followed by the settling of races. -/
theorem engineStep_next {s u : State} (h : engineStep s = .next u) :
    (s.status.busy = false ∧ u = s) ∨
      (s.status.busy = true ∧ ∃ w t, s.pending = some w ∧ runWord w s = .next t ∧ u = t.settleRaces) := by
  unfold engineStep at h
  split at h
  · rename_i hb
    split at h
    · rename_i w hw
      refine .inr ⟨hb, w, ?_⟩
      cases hr : runWord w s with
      | next t =>
        rw [hr] at h
        injection h with h
        exact ⟨t, hw, rfl, h.symm⟩
      | fault f => rw [hr] at h; cases h
      | refused f => rw [hr] at h; cases h
    · cases h
  · rename_i hb
    injection h with h
    exact .inl ⟨by simpa using hb, h.symm⟩

/-- A NODE memory of free values holds a free entry at every index. -/
theorem nodeIn_freeNodes (k : Nat) (i : NodeIdx) : nodeIn (freeNodes k) i = some (freeNode (k + 2 * i.val)) := by
  unfold freeNodes nodeIn fill
  simp

/-- Every NODE entry is a fresh free entry once NODE is unspecified (R143, R144, R199). -/
theorem State.trashNodes_nodeAt (s : State) (i : NodeIdx) :
    s.trashNodes.nodeAt i = some (freeNode (s.draws + 2 * i.val)) := nodeIn_freeNodes s.draws i

end Sys2Proof.Machine
end

