-- ==== Sys2Proof/Laws/Tree.lean ====
section
/-! SUPPORT. The laws of a tree held in the node memory: its size and depth, and what GENCODE's walk and SERIALIZE's
recursion give on it. -/

namespace Sys2Proof.Machine

/-! ### What a tree depends on -/

/-- A tree depends on ROOT, NODE, NODE_COUNT and LEAF_COUNT only. -/
theorem TreeAt.congr {s u : State} {t : NodeTree} (h : TreeAt s t) (hr : u.root = s.root) (hn : u.node = s.node)
    (hc : u.nodeCount = s.nodeCount) (hl : u.leafCount = s.leafCount) : TreeAt u t :=
  ⟨h.root.trans hr.symm, hn ▸ h.held, h.once, fun i => hc ▸ h.all i,
    fun i hi => by simpa [State.nodeAt, hn] using h.others i (hc ▸ hi), hl ▸ h.leaves⟩

/-- A code table depends on CODE only. -/
theorem CodesOf.congr {s u : State} {sh : Shape} (h : CodesOf s sh) (hc : u.code = s.code) : CodesOf u sh :=
  ⟨h.distinct, fun sym => by simpa [State.codeAt, hc] using h.entry sym⟩

/-! ### Held trees -/

@[simp] theorem NodeTree.idx_leaf (i : NodeIdx) (sym : Byte) : (NodeTree.leaf i sym).idx = i := rfl
@[simp] theorem NodeTree.idx_node (i : NodeIdx) (l r : NodeTree) : (NodeTree.node i l r).idx = i := rfl

theorem NodeTree.heldIn_leaf {m : Vector (Option Node) 511} {i : NodeIdx} {sym : Byte}
    (h : (NodeTree.leaf i sym).heldIn m = true) : ∃ f, nodeIn m i = some (Node.mkLeaf sym f) := by
  simp only [NodeTree.heldIn] at h
  cases hn : nodeIn m i with
  | none => simp [hn] at h
  | some nd => exact ⟨nd.freq, by simpa [hn] using h⟩

theorem NodeTree.heldIn_node {m : Vector (Option Node) 511} {i : NodeIdx} {l r : NodeTree}
    (h : (NodeTree.node i l r).heldIn m = true) :
    (∃ f, nodeIn m i = some (Node.mkNode f l.idx r.idx)) ∧ l.heldIn m = true ∧ r.heldIn m = true := by
  simp only [NodeTree.heldIn, Bool.and_eq_true] at h
  refine ⟨?_, h.1.2, h.2⟩
  cases hn : nodeIn m i with
  | none => simp [hn] at h
  | some nd => exact ⟨nd.freq, by simpa [hn] using h.1.1⟩

/-! ### Size and depth -/

/-- The number of levels of a tree: 1 for a leaf. -/
def NodeTree.levels : NodeTree → Nat
  | .leaf _ _ => 1
  | .node _ l r => max l.levels r.levels + 1

theorem NodeTree.indices_length (t : NodeTree) : t.indices.length = t.shape.nodes := by
  induction t with
  | leaf => rfl
  | node i l r hl hr => simp [NodeTree.indices, NodeTree.shape, Shape.nodes, hl, hr]

theorem Shape.nodes_eq (sh : Shape) : sh.nodes + 1 = 2 * sh.symbols.length := by
  induction sh with
  | leaf => rfl
  | node l r hl hr => simp [Shape.nodes, Shape.symbols]; omega

theorem Shape.symbols_pos (sh : Shape) : 0 < sh.symbols.length := by
  have := sh.nodes_eq
  cases sh <;> simp [Shape.nodes] at this <;> omega

theorem NodeTree.levels_le (t : NodeTree) : t.levels ≤ t.shape.symbols.length := by
  induction t with
  | leaf => simp [NodeTree.levels, NodeTree.shape, Shape.symbols]
  | node i l r hl hr =>
    have := l.shape.symbols_pos
    have := r.shape.symbols_pos
    simp only [NodeTree.levels, NodeTree.shape, Shape.symbols, List.length_append]
    omega

theorem Shape.codes_symbols (sh : Shape) : sh.codes.map Prod.fst = sh.symbols := by
  induction sh with
  | leaf => rfl
  | node l r hl hr => simp [Shape.codes, Shape.symbols, ← hl, ← hr, Function.comp_def]

theorem TreeAt.indices_le {s : State} {t : NodeTree} (h : TreeAt s t) : t.indices.length ≤ 511 := by
  simpa using h.once.length_le_card

theorem TreeAt.leaves_le {s : State} {t : NodeTree} (h : TreeAt s t) : t.shape.symbols.length ≤ 256 := by
  have h1 := h.indices_le
  have h2 := t.shape.nodes_eq
  rw [t.indices_length] at h1
  omega

theorem TreeAt.levels_le {s : State} {t : NodeTree} (h : TreeAt s t) : t.levels ≤ Config.treeLevels :=
  t.levels_le.trans h.leaves_le

theorem TreeAt.count {s : State} {t : NodeTree} (h : TreeAt s t) : s.nodeCount.val = t.shape.nodes := by
  rw [← t.indices_length]
  have hc : s.nodeCount.val ≤ 511 := Nat.lt_succ_iff.mp s.nodeCount.isLt
  have hp : t.indices.toFinset = (Finset.univ.filter (fun i : NodeIdx => i.val < s.nodeCount.val)) := by
    ext i
    simp [h.all i]
  have := List.toFinset_card_of_nodup h.once
  rw [← this, hp]
  simp only [Fin.card_filter_val_lt]
  omega

/-! ### GENCODE's walk -/

/-- The walk's effect on the code table, leaf by leaf. -/
def assignList : List (Byte × List Bool) → Vector (Option Code) 256 → WalkResult
  | [], tab => .ok tab
  | (sym, p) :: rest, tab => if codePresent tab sym then .dup sym else assignList rest (assignCode tab sym p)

theorem assignList_append (a b : List (Byte × List Bool)) (tab : Vector (Option Code) 256) :
    assignList (a ++ b) tab =
      match assignList a tab with
      | .ok tab' => assignList b tab'
      | .dup sym => .dup sym
      | .stuck => .stuck := by
  induction a generalizing tab with
  | nil => rfl
  | cons x a ih =>
    simp only [List.cons_append, assignList]
    split
    · rfl
    · exact ih _

/-- On a held tree the walk assigns the leaves' paths in pre-order (R161). -/
theorem walk_held {m : Vector (Option Node) 511} {t : NodeTree} (h : t.heldIn m = true) {n : Nat} (hn : t.levels ≤ n)
    (p : List Bool) (tab : Vector (Option Code) 256) :
    walk m n t.idx p tab = assignList (t.shape.codes.map (fun c => (c.1, p ++ c.2))) tab := by
  induction t generalizing n p tab with
  | leaf i sym =>
    obtain ⟨f, hf⟩ := NodeTree.heldIn_leaf h
    obtain ⟨n, rfl⟩ : ∃ k, n = k + 1 := ⟨n - 1, by simp [NodeTree.levels] at hn; omega⟩
    simp [walk, hf, Node.mkLeaf, NodeTree.shape, Shape.codes, assignList]
  | node i l r hl hr =>
    obtain ⟨⟨f, hf⟩, h1, h2⟩ := NodeTree.heldIn_node h
    obtain ⟨n, rfl⟩ : ∃ k, n = k + 1 := ⟨n - 1, by simp [NodeTree.levels] at hn; omega⟩
    simp only [NodeTree.levels] at hn
    simp only [walk, NodeTree.idx_node, hf, Node.mkNode, hl h1 (n := n) (by omega), hr h2 (n := n) (by omega), NodeTree.shape,
      Shape.codes, List.map_append, List.map_map, Function.comp_def, assignList_append, Bool.false_eq_true, if_false,
      List.append_assoc, List.cons_append, List.nil_append] <;> rfl

/-- The walk of GENCODE on the tree of the registers. -/
theorem walk_tree {s : State} {t : NodeTree} (h : TreeAt s t) (tab : Vector (Option Code) 256) :
    walk s.node Config.treeLevels s.root [] tab = assignList t.shape.codes tab := by
  have := walk_held h.held h.levels_le [] tab
  rw [h.root] at this
  simpa using this

/-- What one assignment leaves in the code table. -/
theorem codeIn_assignCode (tab : Vector (Option Code) 256) (sym : Byte) (p : List Bool) (x : Byte) :
    codeIn (assignCode tab sym p) x = if x = sym then some { present := true, bits := p } else codeIn tab x := by
  unfold codeIn assignCode
  rw [Vector.getElem_set]
  by_cases hx : x = sym
  · subst hx; simp
  · have : sym.toNat ≠ x.toNat := fun hh => hx (BitVec.eq_of_toNat_eq hh.symm)
    simp [hx, this]

@[simp] theorem codeIn_noCodes (x : Byte) : codeIn noCodes x = some Code.absent := by
  simp [codeIn, noCodes]

/-- Assigning fresh, distinct symbols succeeds, and each entry is its own path. -/
theorem assignList_ok (l : List (Byte × List Bool)) : ∀ (tab : Vector (Option Code) 256), (l.map Prod.fst).Nodup →
    (∀ c ∈ l, codePresent tab c.1 = false) →
    ∃ tab', assignList l tab = .ok tab' ∧ ∀ x : Byte, codeIn tab' x =
      match l.find? (fun c => c.1 == x) with
      | some c => some { present := true, bits := c.2 }
      | none => codeIn tab x := by
  induction l with
  | nil => intro tab _ _; exact ⟨tab, rfl, fun x => rfl⟩
  | cons c l ih =>
    intro tab hnd hp
    obtain ⟨sym, p⟩ := c
    simp only [List.map_cons, List.nodup_cons] at hnd
    have hfresh : ∀ c ∈ l, codePresent (assignCode tab sym p) c.1 = false := by
      intro c hc
      have hne : c.1 ≠ sym := fun hh => hnd.1 (hh ▸ List.mem_map_of_mem hc)
      have := hp c (List.mem_cons_of_mem _ hc)
      simpa [codePresent, codeIn_assignCode, hne] using this
    obtain ⟨tab', h1, h2⟩ := ih (assignCode tab sym p) hnd.2 hfresh
    refine ⟨tab', by simp [assignList, hp (sym, p) (List.mem_cons_self ..), h1], fun x => ?_⟩
    rw [h2 x, List.find?_cons]
    by_cases hx : x = sym
    · subst hx
      have hnone : l.find? (fun c => c.1 == x) = none := by
        simp only [List.find?_eq_none, beq_iff_eq]
        intro c hc hh
        exact hnd.1 (hh ▸ List.mem_map_of_mem hc)
      simp [hnone, codeIn_assignCode]
    · have : (sym == x) = false := by simpa using fun hh : sym = x => hx hh.symm
      simp only [this, codeIn_assignCode, hx, if_false]

/-- Assigning symbols of which one is already there ends at the first such symbol. -/
theorem assignList_dup (l : List (Byte × List Bool)) : ∀ (tab : Vector (Option Code) 256) (seen : List Byte),
    (∀ x : Byte, codePresent tab x = seen.contains x) →
    ∀ sym, firstDuplicate seen (l.map Prod.fst) = some sym → assignList l tab = .dup sym := by
  induction l with
  | nil => intro tab seen _ sym h; simp [firstDuplicate] at h
  | cons c l ih =>
    intro tab seen hs sym h
    obtain ⟨x, p⟩ := c
    simp only [List.map_cons, firstDuplicate] at h
    simp only [assignList, hs x]
    split
    · rename_i hc
      rw [if_pos hc] at h
      injection h with h
      rw [h]
    · rename_i hc
      rw [if_neg hc] at h
      refine ih _ (x :: seen) (fun y => ?_) sym h
      by_cases hy : y = x
      · subst hy; simp [codePresent, codeIn_assignCode]
      · have := hs y
        simp only [codePresent] at this
        simp [codePresent, codeIn_assignCode, hy, this]

/-- A list with no first duplicate has distinct symbols. -/
theorem firstDuplicate_none (l : List Byte) : ∀ seen : List Byte, firstDuplicate seen l = none →
    l.Nodup ∧ ∀ x ∈ l, x ∉ seen := by
  induction l with
  | nil => intro seen _; simp
  | cons x l ih =>
    intro seen h
    simp only [firstDuplicate] at h
    split at h
    · cases h
    · rename_i hc
      obtain ⟨h1, h2⟩ := ih _ h
      simp only [List.mem_cons, not_or] at h2
      refine ⟨List.nodup_cons.mpr ⟨fun hx => (h2 x hx).1 rfl, h1⟩, fun y hy => ?_⟩
      rcases List.mem_cons.mp hy with rfl | hy
      · simpa using hc
      · exact (h2 y hy).2

/-! ### SERIALIZE's recursion -/

/-- On a held tree `ser` puts the bytes of R180. -/
theorem serBytes_held {m : Vector (Option Node) 511} {t : NodeTree} (h : t.heldIn m = true) {n : Nat}
    (hn : t.levels ≤ n) (symw : Bool) : serBytes m symw n t.idx = some (t.shape.enc symw) := by
  induction t generalizing n with
  | leaf i sym =>
    obtain ⟨f, hf⟩ := NodeTree.heldIn_leaf h
    obtain ⟨n, rfl⟩ : ∃ k, n = k + 1 := ⟨n - 1, by simp [NodeTree.levels] at hn; omega⟩
    simp [serBytes, hf, Node.mkLeaf, NodeTree.shape, Shape.enc]
  | node i l r hl hr =>
    obtain ⟨⟨f, hf⟩, h1, h2⟩ := NodeTree.heldIn_node h
    obtain ⟨n, rfl⟩ : ∃ k, n = k + 1 := ⟨n - 1, by simp [NodeTree.levels] at hn; omega⟩
    simp only [NodeTree.levels] at hn
    simp [serBytes, hf, Node.mkNode, hl h1 (n := n) (by omega), hr h2 (n := n) (by omega),
      NodeTree.shape, Shape.enc]

theorem symField_length (symw : Bool) (sym : Byte) : (symField symw sym).length = symWidth symw := by
  cases symw <;> rfl

/-- The encoding of a tree has one tag per node and one symbol field per leaf (R185). -/
theorem Shape.enc_length (symw : Bool) (sh : Shape) :
    (sh.enc symw).length = sh.nodes + symWidth symw * sh.symbols.length := by
  induction sh with
  | leaf sym => simp [Shape.enc, symField_length, Shape.nodes, Shape.symbols]; omega
  | node l r hl hr =>
    simp only [Shape.enc, List.length_cons, List.length_append, hl, hr, Shape.nodes, Shape.symbols]
    ring

theorem headerBytes_tree {s : State} {t : NodeTree} (hv : s.status.treeValid = true) (h : TreeAt s t) :
    headerBytes s = some (countField s.total ++ t.shape.enc s.ctrl.symw) := by
  have := serBytes_held h.held h.levels_le s.ctrl.symw
  rw [h.root] at this
  simp [headerBytes, hv, this]

theorem headerSize_tree {s : State} {t : NodeTree} (hv : s.status.treeValid = true) (h : TreeAt s t) :
    headerSize s = (countField s.total ++ t.shape.enc s.ctrl.symw).length := by
  have := h.count
  have := h.leaves
  simp only [headerSize, if_true, List.length_append, Shape.enc_length, countField, List.length_cons,
    List.length_nil, *]

end Sys2Proof.Machine
end

