-- ==== Sys2Proof/Laws/Stream.lean ====
section
/-! SUPPORT. The laws of the loops that store to shared memory: SERIALIZE's puts, PACK's bits and UNPACK's symbols; of each,
what it does on every outcome, and what it writes when ADMIT allows its accesses and nothing was raced for. -/

namespace Sys2Proof.Machine

/-! ### Runs of bytes -/

theorem Memory.lookup_load_outside (bs : List Byte) : ∀ (m : Memory) (a x : Nat), ¬ (a ≤ x ∧ x < a + bs.length) →
    Memory.lookup (Memory.load m a bs) x = Memory.lookup m x := by
  induction bs with
  | nil => intros; rfl
  | cons b bs ih =>
    intro m a x hx
    simp only [List.length_cons] at hx
    rw [Memory.load, ih _ _ _ (by omega), Memory.lookup_write_other _ _ _ _ (by omega)]

theorem Memory.read_load_outside (m : Memory) (a : Nat) (bs : List Byte) (x : Nat) (h : ¬ (a ≤ x ∧ x < a + bs.length)) :
    Memory.read (Memory.load m a bs) x = Memory.read m x := by
  simp [Memory.read, Memory.lookup_load_outside bs m a x h]

theorem Memory.load_append (b1 : List Byte) : ∀ (m : Memory) (a : Nat) (b2 : List Byte),
    Memory.load m a (b1 ++ b2) = Memory.load (Memory.load m a b1) (a + b1.length) b2 := by
  induction b1 with
  | nil => intros; rfl
  | cons b b1 ih =>
    intro m a b2
    simp only [List.cons_append, Memory.load, ih, List.length_cons]
    congr 1
    omega

theorem Memory.load_concat (m : Memory) (a : Nat) (bs : List Byte) (v : Byte) :
    Memory.load m a (bs ++ [v]) = Memory.write (Memory.load m a bs) (a + bs.length) v := by
  simp [Memory.load_append, Memory.load]

theorem Memory.bytesAt_succ (m : Memory) (a n : Nat) :
    Memory.bytesAt m a (n + 1) = Memory.read m a :: Memory.bytesAt m (a + 1) n := by
  simp only [Memory.bytesAt, List.range_succ_eq_map, List.map_cons, List.map_map, Nat.add_zero]
  congr 1
  apply List.map_congr_left
  intro k _
  simp only [Function.comp]
  congr 1
  omega

@[simp] theorem Memory.bytesAt_zero (m : Memory) (a : Nat) : Memory.bytesAt m a 0 = [] := rfl

@[simp] theorem Memory.bytesAt_length (m : Memory) (a n : Nat) : (Memory.bytesAt m a n).length = n := by
  simp [Memory.bytesAt]

theorem Memory.bytesAt_append (m : Memory) (a n k : Nat) :
    Memory.bytesAt m a (n + k) = Memory.bytesAt m a n ++ Memory.bytesAt m (a + n) k := by
  induction n generalizing a with
  | zero => simp
  | succ n ih =>
    rw [show n + 1 + k = (n + k) + 1 by omega, Memory.bytesAt_succ, ih, Memory.bytesAt_succ,
      show a + 1 + n = a + (n + 1) by omega, List.cons_append]

/-- The bytes of a run depend on the reads of its addresses only. -/
theorem Memory.bytesAt_congr {m m' : Memory} {a a' n : Nat}
    (h : ∀ k, k < n → Memory.read m (a + k) = Memory.read m' (a' + k)) :
    Memory.bytesAt m a n = Memory.bytesAt m' a' n := by
  apply List.map_congr_left
  intro k hk
  exact h k (List.mem_range.mp hk)

theorem Memory.bytesAt_load (bs : List Byte) : ∀ (m : Memory) (a : Nat),
    Memory.bytesAt (Memory.load m a bs) a bs.length = bs := by
  induction bs with
  | nil => intros; rfl
  | cons b bs ih =>
    intro m a
    rw [List.length_cons, Memory.bytesAt_succ, Memory.load, ih,
      Memory.read_load_outside _ _ _ _ (by omega), Memory.read_write_same]

/-- A 32-bit pointer one further, when it does not wrap. -/
theorem pointer_succ (q : Word) (h : q.toNat + 1 < 4294967296) : (q + 1#32).toNat = q.toNat + 1 := by
  rw [BitVec.toNat_add]
  simp only [BitVec.toNat_ofNat]
  omega

/-- Of a run of addresses ADMIT allows a first part, then, unless that is all of them, refuses one. -/
theorem State.admits_until (s : State) (k : AccessKind) (lo n : Nat) (h : lo + n ≤ 4294967296) :
    ∃ m : Nat, m ≤ n ∧ s.admitsRange k lo (lo + m) ∧
      (m < n → ∃ a : Word, a.toNat = lo + m ∧ s.admits a k = false) := by
  induction n with
  | zero => exact ⟨0, Nat.le_refl _, fun x h1 h2 => by omega, fun h => by omega⟩
  | succ n ih =>
    obtain ⟨m, h1, h2, h3⟩ := ih (by omega)
    by_cases hm : m < n
    · exact ⟨m, by omega, h2, fun _ => h3 hm⟩
    · obtain rfl : m = n := by omega
      have ha : (BitVec.ofNat 32 (lo + m)).toNat = lo + m := by rw [BitVec.toNat_ofNat]; omega
      cases hk : s.admits (BitVec.ofNat 32 (lo + m)) k with
      | false => exact ⟨m, by omega, h2, fun _ => ⟨_, ha, hk⟩⟩
      | true =>
        refine ⟨m + 1, Nat.le_refl _, fun x hl hh => ?_, fun h => by omega⟩
        by_cases hx : x.toNat = lo + m
        · rw [show x = BitVec.ofNat 32 (lo + m) from BitVec.eq_of_toNat_eq (by omega)]
          exact hk
        · exact h2 x hl (by omega)

/-! ### SERIALIZE's puts -/

/-- When ADMIT allows each byte, the puts store the bytes and the pointer ends after them (R182, R183). -/
theorem putBytes_admitted (bs : List Byte) : ∀ (s : State) (q : Word), q.toNat + bs.length < 4294967296 →
    s.admitsRange .write q.toNat (q.toNat + bs.length) →
    ∃ q' : Word, q'.toNat = q.toNat + bs.length ∧
      putBytes bs s q = .ok ({ s with mem := Memory.load s.mem q.toNat bs }, q') := by
  induction bs with
  | nil => intro s q _ _; exact ⟨q, rfl, rfl⟩
  | cons b bs ih =>
    intro s q hq hadm
    simp only [List.length_cons] at hq hadm
    have h1 : (q + 1#32).toNat = q.toNat + 1 := pointer_succ q (by omega)
    obtain ⟨q', hq', hp⟩ := ih { s with mem := Memory.write s.mem q.toNat b } (q + 1#32) (by omega)
      (fun x hl hh => hadm x (by omega) (by omega))
    refine ⟨q', by simp only [List.length_cons]; omega, ?_⟩
    rw [putBytes, memWrite_admitted b (hadm q (by omega) (by omega)), Part.bind_ok, hp, h1]
    rfl

/-- The first byte ADMIT refuses, the k-th, raises BUS at its address; the bytes before it are stored (R80, R253). -/
theorem putBytes_refused (k : Nat) : ∀ (bs : List Byte) (s : State) (q a : Word), k < bs.length →
    q.toNat + bs.length < 4294967296 → s.admitsRange .write q.toNat (q.toNat + k) → a.toNat = q.toNat + k →
    s.admits a .write = false →
    putBytes bs s q = .raise .bus a { s with mem := Memory.load s.mem q.toNat (bs.take k) } := by
  induction k with
  | zero =>
    intro bs s q a hk _ _ ha hadm
    obtain ⟨b, bs, rfl⟩ := List.exists_cons_of_length_pos hk
    obtain rfl : a = q := BitVec.eq_of_toNat_eq (by simpa using ha)
    rw [putBytes, memWrite_refused b hadm]
    rfl
  | succ k ih =>
    intro bs s q a hk hq hr ha hadm
    obtain ⟨b, bs, rfl⟩ := List.exists_cons_of_length_pos (by omega : 0 < bs.length)
    simp only [List.length_cons] at hk hq
    have h1 : (q + 1#32).toNat = q.toNat + 1 := pointer_succ q (by omega)
    have := ih bs { s with mem := Memory.write s.mem q.toNat b } (q + 1#32) a (by omega) (by omega)
      (fun x hl hh => hr x (by omega) (by omega)) (by omega) hadm
    rw [putBytes, memWrite_admitted b (hr q (by omega) (by omega)), Part.bind_ok, this, h1]
    rfl

/-- Every outcome of the puts: they store between the first byte and the last, and can only raise BUS. -/
theorem putBytes_cases (bs : List Byte) : ∀ (s : State) (q : Word), q.toNat + bs.length < 4294967296 →
    (∃ t q', putBytes bs s q = .ok (t, q') ∧ q'.toNat = q.toNat + bs.length ∧
        t = { s with mem := Memory.load s.mem q.toNat bs } ∧
        s.admitsRange .write q.toNat (q.toNat + bs.length)) ∨
      (∃ a t, putBytes bs s q = .raise .bus a t ∧ OnlyStores q.toNat (q.toNat + bs.length) s t ∧
        t.draws = s.draws) := by
  induction bs with
  | nil =>
    intro s q _
    exact .inl ⟨s, q, rfl, rfl, rfl, fun x h1 h2 => absurd h2 (by simp only [List.length_nil]; omega)⟩
  | cons b bs ih =>
    intro s q hq
    simp only [List.length_cons] at hq ⊢
    have h1 : (q + 1#32).toNat = q.toNat + 1 := pointer_succ q (by omega)
    cases hadm : s.admits q .write with
    | false =>
      refine .inr ⟨q, s, by rw [putBytes, memWrite_refused b hadm]; rfl, OnlyStores.refl _ _ _, rfl⟩
    | true =>
      have hw := memWrite_admitted b hadm
      rw [putBytes, hw, Part.bind_ok]
      rcases ih { s with mem := Memory.write s.mem q.toNat b } (q + 1#32) (by omega) with
        ⟨t, q', hp, hq', ht, hr⟩ | ⟨a, t, hp, ho, hd⟩
      · refine .inl ⟨t, q', hp, by omega, ?_, ?_⟩
        · rw [ht, h1]
          rfl
        · intro x hl hh
          by_cases hx : x = q
          · exact hx ▸ hadm
          · have hne : x.toNat ≠ q.toNat := fun h => hx (BitVec.eq_of_toNat_eq h)
            exact hr x (by omega) (by omega)
      · have h0 : OnlyStores q.toNat (q.toNat + (bs.length + 1)) s { s with mem := Memory.write s.mem q.toNat b } :=
          memWrite_onlyStores hw (by omega) (by omega)
        exact .inr ⟨a, t, hp, h0.trans (ho.mono (by omega) (by omega)), hd⟩

/-! ### PACK's bits -/

/-- The whole bytes of a bit string, first bit in bit 7. -/
def wholeBytes (bits : List Bool) : List Byte :=
  (List.range (bits.length / 8)).map (fun j => byteOfBits (bits.drop (8 * j)))

@[simp] theorem wholeBytes_length (bits : List Bool) : (wholeBytes bits).length = bits.length / 8 := by
  simp [wholeBytes]

/-- A byte depends on its first eight bits only. -/
theorem byteOfBits_append {a b : List Bool} (h : 8 ≤ a.length) : byteOfBits (a ++ b) = byteOfBits a := by
  have : ∀ k, k < 8 → (a ++ b).getD k false = a.getD k false := by
    intro k hk
    simp [List.getElem?_append_left (by omega : k < a.length)]
  simp only [byteOfBits, show List.range 8 = [0, 1, 2, 3, 4, 5, 6, 7] from rfl, List.foldl_cons, List.foldl_nil,
    this 0 (by omega), this 1 (by omega), this 2 (by omega), this 3 (by omega), this 4 (by omega), this 5 (by omega),
    this 6 (by omega), this 7 (by omega)]

/-- The accumulator after a list of pending bits. -/
def accOf (pend : List Bool) : Byte := pend.foldl shiftIn 0x00#8

theorem accOf_concat (pend : List Bool) (b : Bool) : accOf (pend ++ [b]) = shiftIn (accOf pend) b := by
  simp [accOf]

/-- Eight bits in the accumulator are the byte of R211. -/
theorem accOf_eight (pend : List Bool) (h : pend.length = 8) : accOf pend = byteOfBits pend := by
  obtain ⟨a, b, c, d, e, f, g, i, rfl⟩ : ∃ a b c d e f g i, pend = [a, b, c, d, e, f, g, i] := by
    match pend, h with
    | [a, b, c, d, e, f, g, i], _ => exact ⟨a, b, c, d, e, f, g, i, rfl⟩
  revert a b c d e f g i
  decide

/-- Fewer than eight bits, left-aligned, are the byte of R211 with zero padding. -/
theorem accOf_flush (pend : List Bool) (h : pend.length < 8) :
    accOf pend <<< (8 - pend.length) = byteOfBits pend := by
  match pend, h with
  | [], _ => decide
  | [a], _ => revert a; decide
  | [a, b], _ => revert a b; decide
  | [a, b, c], _ => revert a b c; decide
  | [a, b, c, d], _ => revert a b c d; decide
  | [a, b, c, d, e], _ => revert a b c d e; decide
  | [a, b, c, d, e, f], _ => revert a b c d e f; decide
  | [a, b, c, d, e, f, g], _ => revert a b c d e f g; decide

/-- PACK after the bits `bits`, started from `s0` at `q0`, with no free value read. -/
structure PackRel (s0 : State) (q0 : Word) (bits : List Bool) (st : PackState) : Prop where
  count : st.bits = bits.length
  n     : st.n = bits.length % 8
  acc   : st.acc = accOf (bits.drop (8 * (bits.length / 8)))
  q     : st.q.toNat = q0.toNat + bits.length / 8
  s     : st.s = { s0 with mem := Memory.load s0.mem q0.toNat (wholeBytes bits) }

theorem wholeBytes_concat_same {bits : List Bool} {b : Bool} (h : (bits.length + 1) % 8 ≠ 0) :
    wholeBytes (bits ++ [b]) = wholeBytes bits := by
  simp only [wholeBytes, List.length_append, List.length_singleton]
  rw [show (bits.length + 1) / 8 = bits.length / 8 by omega]
  apply List.map_congr_left
  intro j hj
  have := List.mem_range.mp hj
  rw [List.drop_append_of_le_length (by omega), byteOfBits_append (by simp; omega)]

theorem wholeBytes_concat_full {bits : List Bool} {b : Bool} (h : (bits.length + 1) % 8 = 0) :
    wholeBytes (bits ++ [b]) =
      wholeBytes bits ++ [byteOfBits (bits.drop (8 * (bits.length / 8)) ++ [b])] := by
  simp only [wholeBytes, List.length_append, List.length_singleton]
  rw [show (bits.length + 1) / 8 = bits.length / 8 + 1 by omega, List.range_succ, List.map_append, List.map_singleton]
  congr 1
  · apply List.map_congr_left
    intro j hj
    have := List.mem_range.mp hj
    rw [List.drop_append_of_le_length (by omega), byteOfBits_append (by simp; omega)]
  · rw [List.drop_append_of_le_length (by omega)]

/-- `t` is `s` but for shared memory. -/
abbrev MemOnly (s t : State) : Prop := t = { s with mem := t.mem }

theorem MemOnly.trans {s t u : State} (h : MemOnly s t) (h' : MemOnly t u) : MemOnly s u := by
  unfold MemOnly at *
  rw [h', h]

/-- PACK may write from `q0` up to the wall at address `lim`, where the next byte raises `e` with `info`. -/
structure Wall (s0 : State) (q0 : Word) (lim : Nat) (e : Err) (info : Word) : Prop where
  inside : lim ≤ s0.dstEnd.toNat
  adm    : s0.admitsRange .write q0.toNat lim
  stop   : ∀ (st : PackState) (v : Byte), MemOnly s0 st.s → st.q.toNat = lim → st.emit v = .raise e info st.s

/-- The wall at the end of a destination region whose bytes may be written (R218). -/
theorem Wall.dstFull {s0 : State} {q0 : Word} (hadm : s0.admitsRange .write q0.toNat s0.dstEnd.toNat) :
    Wall s0 q0 s0.dstEnd.toNat .dstFull s0.dstEnd := by
  refine ⟨Nat.le_refl _, hadm, fun st v hm hq => ?_⟩
  have hE : st.s.dstEnd = s0.dstEnd := by rw [hm]
  have hqE : st.q = st.s.dstEnd := by rw [hE]; exact BitVec.eq_of_toNat_eq hq
  rw [PackState.emit, if_pos hqE, hE]

/-- The wall at the first byte of the destination region that may not be written (R80, R253). -/
theorem Wall.bus {s0 : State} {q0 a : Word} (ha : a.toNat < s0.dstEnd.toNat)
    (hadm : s0.admitsRange .write q0.toNat a.toNat) (hr : s0.admits a .write = false) :
    Wall s0 q0 a.toNat .bus a := by
  refine ⟨Nat.le_of_lt ha, hadm, fun st v hm hq => ?_⟩
  obtain rfl : st.q = a := BitVec.eq_of_toNat_eq hq
  have hE : st.s.dstEnd = s0.dstEnd := by rw [hm]
  have hne : st.q ≠ st.s.dstEnd := by rw [hE]; rintro hh; rw [hh] at ha; exact Nat.lt_irrefl _ ha
  have hr' : st.s.admits st.q .write = false := by rw [hm]; exact hr
  rw [PackState.emit, if_neg hne, memWrite_refused v hr']
  rfl

/-- A byte emitted before the wall is stored. -/
theorem Wall.emit {s0 : State} {q0 : Word} {lim : Nat} {e : Err} {info : Word} (hw : Wall s0 q0 lim e info)
    {st : PackState} (v : Byte) (hm : MemOnly s0 st.s) (h1 : q0.toNat ≤ st.q.toNat) (h2 : st.q.toNat < lim) :
    st.emit v = .ok { st with s := { st.s with mem := Memory.write st.s.mem st.q.toNat v }, q := st.q + 1#32 } := by
  have hi := hw.inside
  have hne : st.q ≠ st.s.dstEnd := by rw [hm]; rintro hh; rw [hh] at h2; simp only at h2; omega
  have hadm : st.s.admits st.q .write = true := by rw [hm]; exact hw.adm st.q h1 h2
  rw [PackState.emit, if_neg hne, memWrite_admitted _ hadm, Part.bind_ok]

/-- One bit pushed: the wall when its byte is complete and stands there, else the relation is kept. -/
theorem PackRel.pushBit {s0 : State} {q0 : Word} {lim : Nat} {e : Err} {info : Word} {bits : List Bool} {st : PackState}
    (h : PackRel s0 q0 bits st) (b : Bool) (hw : Wall s0 q0 lim e info) (hroom : q0.toNat + bits.length / 8 ≤ lim) :
    (q0.toNat + (bits.length + 1) / 8 ≤ lim ∧
        ∃ st', st.pushBit b = .ok st' ∧ PackRel s0 q0 (bits ++ [b]) st') ∨
      (lim < q0.toNat + (bits.length + 1) / 8 ∧ st.pushBit b = .raise e info st.s) := by
  have hE : s0.dstEnd.toNat < 4294967296 := s0.dstEnd.isLt
  have hL := hw.inside
  have hs := h.s
  have hq := h.q
  have hm : MemOnly s0 st.s := by rw [hs]
  have hacc : shiftIn st.acc b = accOf ((bits ++ [b]).drop (8 * (bits.length / 8))) := by
    rw [h.acc, List.drop_append_of_le_length (by omega), accOf_concat]
  by_cases h8 : (bits.length + 1) % 8 = 0
  · have hn8 : st.n + 1 = 8 := by rw [h.n]; omega
    have hdiv : (bits.length + 1) / 8 = bits.length / 8 + 1 := by omega
    by_cases hfull : st.q.toNat = lim
    · refine .inr ⟨by omega, ?_⟩
      simp only [PackState.pushBit, hn8, if_true]
      rw [hw.stop { st with acc := shiftIn st.acc b, n := 8, bits := st.bits + 1 } _ hm hfull]
      rfl
    · refine .inl ⟨by omega,
        { s := { st.s with mem := Memory.write st.s.mem st.q.toNat (shiftIn st.acc b) }
          q := st.q + 1#32, acc := 0x00#8, n := 0, bits := st.bits + 1 }, ?_, ?_⟩
      · simp only [PackState.pushBit, hn8, if_true]
        rw [hw.emit (st := { st with acc := shiftIn st.acc b, n := 8, bits := st.bits + 1 }) _ hm (by simp only; omega)
          (by simp only; omega)]
        rfl
      · have hpend : (bits.drop (8 * (bits.length / 8)) ++ [b]).length = 8 := by
          simp only [List.length_append, List.length_drop, List.length_singleton]; omega
        refine ⟨by simp [h.count], by simp [h8], ?_, ?_, ?_⟩
        · have : (bits ++ [b]).drop (8 * ((bits ++ [b]).length / 8)) = [] := by
            apply List.drop_eq_nil_of_le
            simp only [List.length_append, List.length_singleton]
            omega
          simp only [this]
          rfl
        · simp only [List.length_append, List.length_singleton]
          rw [pointer_succ _ (by omega), hdiv]
          omega
        · have hv : shiftIn st.acc b = byteOfBits (bits.drop (8 * (bits.length / 8)) ++ [b]) := by
            rw [hacc, List.drop_append_of_le_length (by omega), accOf_eight _ hpend]
          rw [hv, hs, wholeBytes_concat_full h8, Memory.load_concat, wholeBytes_length, h.q]
  · have hn8 : st.n + 1 ≠ 8 := by rw [h.n]; omega
    have hdiv : (bits.length + 1) / 8 = bits.length / 8 := by omega
    refine .inl ⟨by omega, { st with acc := shiftIn st.acc b, n := st.n + 1, bits := st.bits + 1 }, ?_, ?_⟩
    · simp [PackState.pushBit, hn8]
    · refine ⟨by simp [h.count], ?_, ?_, ?_, ?_⟩
      · simp only [List.length_append, List.length_singleton, h.n]; omega
      · simp only [List.length_append, List.length_singleton, hdiv]; exact hacc
      · simp only [List.length_append, List.length_singleton, hdiv]; exact h.q
      · rw [wholeBytes_concat_same h8]; exact hs

/-- One code pushed. -/
theorem PackRel.packCode {s0 : State} {q0 : Word} {lim : Nat} {e : Err} {info : Word} (code : List Bool)
    (hw : Wall s0 q0 lim e info) :
    ∀ {bits : List Bool} {st : PackState}, PackRel s0 q0 bits st → q0.toNat + bits.length / 8 ≤ lim →
    (q0.toNat + (bits.length + code.length) / 8 ≤ lim ∧
        ∃ st', packCode code st = .ok st' ∧ PackRel s0 q0 (bits ++ code) st') ∨
      (lim < q0.toNat + (bits.length + code.length) / 8 ∧
        ∃ t, packCode code st = .raise e info t ∧ OnlyStores q0.toNat s0.dstEnd.toNat s0 t ∧
          t.draws = s0.draws) := by
  induction code with
  | nil =>
    intro bits st h hroom
    exact .inl ⟨by simpa using hroom, st, rfl, by simpa using h⟩
  | cons b code ih =>
    intro bits st h hroom
    have hL := hw.inside
    simp only [List.length_cons, Sys2Proof.Machine.packCode]
    rcases h.pushBit b hw hroom with ⟨h1, st1, h2, h3⟩ | ⟨h1, h2⟩
    · rw [h2, Part.bind_ok]
      have hl : (bits ++ [b]).length = bits.length + 1 := by simp
      rcases ih h3 (by rw [hl]; exact h1) with ⟨h4, st', h5, h6⟩ | ⟨h4, t, h5, h6⟩
      · exact .inl ⟨by rw [hl] at h4; rwa [Nat.add_right_comm] at h4, st', h5, by simpa using h6⟩
      · exact .inr ⟨by rw [hl] at h4; rwa [Nat.add_right_comm] at h4, t, h5, h6⟩
    · refine .inr ⟨by omega, st.s, by rw [h2]; rfl, ⟨by rw [h.s], fun a ha => ?_⟩, by rw [h.s]⟩
      rw [h.s]
      exact Memory.lookup_load_outside _ _ _ _ (by rw [wholeBytes_length]; omega)

end Sys2Proof.Machine
end

