-- ==== Sys2Proof/Laws/Parse.lean ====
section
/-! SUPPORT. The laws of DESERIALIZE's `parse()`: its frame on every outcome, the tree it leaves, and what it reads back from
the encoding of a tree. -/

namespace Sys2Proof.Machine

/-! ### The node memory -/

theorem nodeIn_set (m : Vector (Option Node) 511) (i : NodeIdx) (n : Option Node) (x : NodeIdx) :
    nodeIn (m.set i.val n i.isLt) x = if x = i then n else nodeIn m x := by
  unfold nodeIn
  rw [Vector.getElem_set]
  by_cases h : x = i
  · subst h; simp
  · have : i.val ≠ x.val := fun hh => h (Fin.ext hh.symm)
    simp [h, this]

theorem putNode_nodeIn (st : ParseState) (i : NodeIdx) (n : Node) (x : NodeIdx) :
    nodeIn (st.putNode i n).s.node x = if x = i then some n else nodeIn st.s.node x :=
  nodeIn_set st.s.node i (some n) x

/-- A tree stays held when only entries outside it change. -/
theorem NodeTree.heldIn_congr {m m' : Vector (Option Node) 511} {t : NodeTree} (h : t.heldIn m = true)
    (hm : ∀ i ∈ t.indices, nodeIn m' i = nodeIn m i) : t.heldIn m' = true := by
  induction t with
  | leaf i sym =>
    simp only [NodeTree.heldIn] at h ⊢
    rw [hm i (by simp [NodeTree.indices])]
    exact h
  | node i l r hl hr =>
    simp only [NodeTree.heldIn, Bool.and_eq_true] at h ⊢
    refine ⟨⟨?_, hl h.1.2 (fun x hx => hm x (by simp [NodeTree.indices, hx]))⟩,
      hr h.2 (fun x hx => hm x (by simp [NodeTree.indices, hx]))⟩
    rw [hm i (by simp [NodeTree.indices])]
    exact h.1.1

/-! ### The frame -/

/-- What `parse()` keeps: everything but the node memory and the draw counter. -/
abbrev NodesOnly (s t : State) : Prop := t = { s with node := t.node, draws := t.draws }

theorem NodesOnly.refl (s : State) : NodesOnly s s := rfl

theorem NodesOnly.trans {s t u : State} (h : NodesOnly s t) (h' : NodesOnly t u) : NodesOnly s u := by
  unfold NodesOnly at *
  rw [h', h]

theorem memRead_nodesOnly {s : State} {a : Word} {r : Byte × State} (h : memRead s a = .ok r) :
    NodesOnly s r.2 ∧ r.2.node = s.node := by
  rcases (memRead_ok h).2 with ⟨_, rfl⟩ | ⟨_, rfl⟩ <;> exact ⟨rfl, rfl⟩

/-- The read pointer stays in the source region. -/
structure ParseFrame (s0 : State) (st : ParseState) : Prop where
  keeps : NodesOnly s0 st.s
  p     : st.p.toNat ≤ s0.srcEnd.toNat
  k     : st.k ≤ 511

theorem readByte_spec {s0 s : State} {p : Word} (h : NodesOnly s0 s) (hp : p.toNat ≤ s0.srcEnd.toNat) :
    (readByte s p).Spec
      (fun r => NodesOnly s0 r.2 ∧ r.2.node = s.node ∧ (p + 1#32).toNat = p.toNat + 1 ∧ p.toNat + 1 ≤ s0.srcEnd.toNat)
      (fun _ _ t => NodesOnly s0 t) (fun _ => False) := by
  have hE : s0.srcEnd.toNat < 4294967296 := s0.srcEnd.isLt
  have hsE : s.srcEnd = s0.srcEnd := by rw [h]
  unfold readByte
  split
  · exact h
  · rename_i hne
    have hlt : p.toNat ≠ s0.srcEnd.toNat := fun hh => hne (by rw [hsE]; exact BitVec.eq_of_toNat_eq hh)
    cases hr : memRead s p with
    | ok r =>
      obtain ⟨h1, h2⟩ := memRead_nodesOnly hr
      exact ⟨h.trans h1, h2, pointer_succ p (by omega), by omega⟩
    | raise e i t =>
      obtain ⟨_, _, _, rfl⟩ := memRead_raise hr
      exact h
    | stuck f => exact absurd hr memRead_not_stuck

theorem ParseFrame.next {s0 : State} {st : ParseState} (h : ParseFrame s0 st) :
    st.next.Spec
      (fun r => ParseFrame s0 r.2 ∧ r.2.k = st.k ∧ r.2.leaves = st.leaves ∧ r.2.s.node = st.s.node ∧
        r.2.p.toNat = st.p.toNat + 1)
      (fun _ _ t => NodesOnly s0 t) (fun _ => False) := by
  unfold ParseState.next
  refine (readByte_spec h.keeps h.p).bind (fun r hr => ?_)
  exact ⟨⟨hr.1, by simp only [hr.2.2.1]; exact hr.2.2.2, h.k⟩, rfl, rfl, hr.2.1, hr.2.2.1⟩

theorem ParseFrame.parseSym {s0 : State} {st : ParseState} (h : ParseFrame s0 st) :
    (parseSym st).Spec
      (fun r => ParseFrame s0 r.2 ∧ r.2.k = st.k ∧ r.2.leaves = st.leaves ∧ r.2.s.node = st.s.node ∧
        st.p.toNat ≤ r.2.p.toNat)
      (fun _ _ t => NodesOnly s0 t) (fun _ => False) := by
  unfold Sys2Proof.Machine.parseSym
  split
  · refine h.next.bind (fun hi hhi => hhi.1.next.bind (fun lo hlo => ?_))
    obtain ⟨h1, h2, h3, h4, h5⟩ := hhi
    obtain ⟨g1, g2, g3, g4, g5⟩ := hlo
    split
    · exact ⟨g1, g2.trans h2, g3.trans h3, g4.trans h4, by omega⟩
    · exact g1.keeps
  · exact h.next.mono (fun r hr => ⟨hr.1, hr.2.1, hr.2.2.1, hr.2.2.2.1, by omega⟩) (fun _ _ _ h => h) (fun _ h => h)

/-- What a successful `parse()` leaves: a tree held at consecutive indices in pre-order, the earlier entries as before. -/
structure Parsed (st : ParseState) (idx : NodeIdx) (st' : ParseState) (t : NodeTree) : Prop where
  idx     : t.idx = idx
  held    : t.heldIn st'.s.node = true
  indices : t.indices.map Fin.val = List.range' st.k t.shape.nodes
  k       : st'.k = st.k + t.shape.nodes
  leaves  : st'.leaves = st.leaves + t.shape.symbols.length
  earlier : ∀ i : NodeIdx, i.val < st.k → nodeIn st'.s.node i = nodeIn st.s.node i
  freq    : ∀ i ∈ t.indices, ∀ n, nodeIn st'.s.node i = some n → n.freq = 0#32

theorem Parsed.range {st : ParseState} {idx : NodeIdx} {st' : ParseState} {t : NodeTree} (h : Parsed st idx st' t)
    {i : NodeIdx} (hi : i ∈ t.indices) : st.k ≤ i.val ∧ i.val < st'.k := by
  have h1 : i.val ∈ t.indices.map Fin.val := List.mem_map_of_mem hi
  rw [h.indices, List.mem_range'_1] at h1
  exact ⟨h1.1, by rw [h.k]; exact h1.2⟩

/-- The leaf case of `parse()`. -/
theorem Parsed.leaf {st st2 : ParseState} (h : st.k < 511) (hk : st2.k = st.k + 1) (hl : st2.leaves = st.leaves)
    (hn : st2.s.node = st.s.node) (sym : Byte) :
    Parsed st ⟨st.k, h⟩ { st2.putNode ⟨st.k, h⟩ (Node.mkLeaf sym 0#32) with leaves := st2.leaves + 1 }
      (.leaf ⟨st.k, h⟩ sym) := by
  refine ⟨rfl, ?_, rfl, hk, by simp [hl, NodeTree.shape, Shape.symbols], fun i hi => ?_, fun i hi n hn' => ?_⟩
  · simp [NodeTree.heldIn, putNode_nodeIn, Node.mkLeaf]
  · have : i ≠ ⟨st.k, h⟩ := fun hh => by rw [hh] at hi; exact Nat.lt_irrefl _ hi
    simp [putNode_nodeIn, this, hn]
  · obtain rfl : i = ⟨st.k, h⟩ := by simpa [NodeTree.indices] using hi
    simp only [putNode_nodeIn, if_true] at hn'
    rw [← Option.some.inj hn']
    rfl

/-- The internal case of `parse()`: both subtrees, then the node itself. -/
theorem Parsed.node {st tg : ParseState} (h : st.k < 511) (hk : tg.k = st.k + 1) (hl : tg.leaves = st.leaves)
    (hn : tg.s.node = st.s.node) {l r : NodeIdx × ParseState} {tl tr : NodeTree} (h1 : Parsed tg l.1 l.2 tl)
    (h2 : Parsed l.2 r.1 r.2 tr) :
    Parsed st ⟨st.k, h⟩ (r.2.putNode ⟨st.k, h⟩ (Node.mkNode 0#32 l.1 r.1)) (.node ⟨st.k, h⟩ tl tr) := by
  have hkl := h1.k
  have hkr := h2.k
  have hout : ∀ i : NodeIdx, st.k < i.val → nodeIn (r.2.putNode ⟨st.k, h⟩ (Node.mkNode 0#32 l.1 r.1)).s.node i =
      nodeIn r.2.s.node i := by
    intro i hi
    have : i ≠ ⟨st.k, h⟩ := fun hh => by rw [hh] at hi; exact Nat.lt_irrefl _ hi
    simp [putNode_nodeIn, this]
  have hlin : ∀ i ∈ tl.indices, nodeIn r.2.s.node i = nodeIn l.2.s.node i := fun i hi =>
    h2.earlier i (h1.range hi).2
  refine ⟨rfl, ?_, ?_, ?_, ?_, fun i hi => ?_, fun i hi n hn' => ?_⟩
  · simp only [NodeTree.heldIn, Bool.and_eq_true]
    refine ⟨⟨?_, ?_⟩, ?_⟩
    · simp [putNode_nodeIn, Node.mkNode, h1.idx, h2.idx]
    · refine NodeTree.heldIn_congr h1.held (fun i hi => ?_)
      rw [hout i (by have := (h1.range hi).1; omega), hlin i hi]
    · refine NodeTree.heldIn_congr h2.held (fun i hi => ?_)
      rw [hout i (by have := (h2.range hi).1; omega)]
  · simp only [NodeTree.indices, List.map_cons, List.map_append, h1.indices, h2.indices, NodeTree.shape, Shape.nodes]
    rw [hkl, hk, List.range'_append_1, List.range'_succ]
  · simp only [ParseState.putNode, NodeTree.shape, Shape.nodes]
    omega
  · simp only [ParseState.putNode, NodeTree.shape, Shape.symbols, List.length_append, h2.leaves, h1.leaves, hl]
    omega
  · have : i ≠ ⟨st.k, h⟩ := fun hh => by rw [hh] at hi; exact Nat.lt_irrefl _ hi
    simp only [putNode_nodeIn, this, if_false]
    rw [h2.earlier i (by omega), h1.earlier i (by omega), hn]
  · simp only [NodeTree.indices, List.mem_cons, List.mem_append] at hi
    rcases hi with rfl | hi | hi
    · simp only [putNode_nodeIn, if_true] at hn'
      rw [← Option.some.inj hn']
      rfl
    · rw [hout i (by have := (h1.range hi).1; omega), hlin i hi] at hn'
      exact h1.freq i hi n hn'
    · rw [hout i (by have := (h2.range hi).1; omega)] at hn'
      exact h2.freq i hi n hn'

/-- Every outcome of `parse()`: a tree, or an error with nothing but the node memory changed; it never gets stuck while
`calls` covers the nodes that are left. -/
theorem ParseFrame.parse {s0 : State} (calls : Nat) : ∀ {st : ParseState}, ParseFrame s0 st → 512 ≤ calls + st.k →
    (parse calls st).Spec
      (fun r => ParseFrame s0 r.2 ∧ st.p.toNat ≤ r.2.p.toNat ∧ ∃ t, Parsed st r.1 r.2 t)
      (fun _ _ t => NodesOnly s0 t) (fun _ => False) := by
  induction calls with
  | zero => intro st h hc; have := h.k; omega
  | succ calls ih =>
    intro st h hc
    unfold Sys2Proof.Machine.parse
    split
    · rename_i hk
      have h1 : ParseFrame s0 { st with k := st.k + 1 } := ⟨h.keeps, h.p, hk⟩
      refine h1.next.bind (fun tag htag => ?_)
      obtain ⟨g1, g2, g3, g4, g5⟩ := htag
      split
      · refine g1.parseSym.bind (fun sym hsym => ?_)
        obtain ⟨f1, f2, f3, f4, f5⟩ := hsym
        refine ⟨⟨?_, f1.p, f1.k⟩, ?_, _, Parsed.leaf hk (f2.trans g2) (f3.trans g3) (f4.trans g4) sym.1⟩
        · have := f1.keeps
          unfold NodesOnly at this ⊢
          simp only [ParseState.putNode]
          rw [this]
        · simp only [ParseState.putNode] at g5 ⊢
          omega
      · split
        · refine (ih g1 (by simp only at g2; omega)).bind (fun l hl => ?_)
          obtain ⟨f1, f2, tl, f3⟩ := hl
          have := f3.k
          refine (ih f1 (by simp only at g2; omega)).bind (fun r hr => ?_)
          obtain ⟨e1, e2, tr, e3⟩ := hr
          refine ⟨⟨?_, e1.p, e1.k⟩, ?_, _, Parsed.node hk g2 g3 g4 f3 e3⟩
          · have := e1.keeps
            unfold NodesOnly at this ⊢
            simp only [ParseState.putNode]
            rw [this]
          · simp only [ParseState.putNode] at g5 ⊢
            omega
        · exact g1.keeps
    · exact h.keeps

/-! ### Reading an encoding back -/

/-- The bytes of `bs` stand at the read pointer, inside the source region, admitted and not raced for. -/
structure Ahead (s : State) (p : Word) (bs : List Byte) : Prop where
  fits  : p.toNat + bs.length ≤ s.srcEnd.toNat
  bytes : Memory.bytesAt s.mem p.toNat bs.length = bs
  adm   : s.admitsRange .read p.toNat (p.toNat + bs.length)
  free  : ∀ j, j < bs.length → p.toNat + j ∉ s.raced

theorem Ahead.tail {s : State} {p : Word} {b : Byte} {bs : List Byte} (h : Ahead s p (b :: bs)) :
    Memory.read s.mem p.toNat = b ∧ (p + 1#32).toNat = p.toNat + 1 ∧ Ahead s (p + 1#32) bs := by
  have hE : s.srcEnd.toNat < 4294967296 := s.srcEnd.isLt
  obtain ⟨h1, h2, h3, h4⟩ := h
  simp only [List.length_cons] at h1 h2 h3 h4
  have hs := pointer_succ p (by omega)
  rw [Memory.bytesAt_succ] at h2
  injection h2 with h2 h2'
  refine ⟨h2, hs, by rw [hs]; omega, by rw [hs]; exact h2', fun x hl hh => h3 x (by omega) (by omega), fun j hj => ?_⟩
  rw [hs, show p.toNat + 1 + j = p.toNat + (j + 1) by omega]
  exact h4 (j + 1) (by omega)

theorem Ahead.append {s : State} {p p' : Word} {a b : List Byte} (h : Ahead s p (a ++ b))
    (hp : p'.toNat = p.toNat + a.length) : Ahead s p a ∧ Ahead s p' b := by
  obtain ⟨h1, h2, h3, h4⟩ := h
  simp only [List.length_append] at h1 h2 h3 h4
  rw [Memory.bytesAt_append] at h2
  obtain ⟨h5, h6⟩ := List.append_inj h2 (by simp)
  refine ⟨⟨by omega, h5, fun x hl hh => h3 x hl (by omega), fun j hj => h4 j (by omega)⟩,
    ⟨by omega, by rw [hp]; exact h6, fun x hl hh => h3 x (by omega) (by omega), fun j hj => ?_⟩⟩
  rw [hp, Nat.add_assoc]
  exact h4 (a.length + j) (by omega)

/-- What is ahead depends on shared memory, ADMIT, races and SRC_END only. -/
theorem Ahead.congr {s t : State} {p : Word} {bs : List Byte} (h : Ahead s p bs) (hk : NodesOnly s t) : Ahead t p bs := by
  obtain ⟨h1, h2, h3, h4⟩ := h
  unfold NodesOnly at hk
  refine ⟨?_, ?_, ?_, ?_⟩
  · rw [hk]; exact h1
  · rw [hk]; exact h2
  · intro x hl hh
    rw [hk]
    exact h3 x hl hh
  · rw [hk]; exact h4

theorem readByte_ahead {s : State} {p : Word} {b : Byte} {bs : List Byte} (h : Ahead s p (b :: bs)) :
    readByte s p = .ok (b, s) := by
  have h1 := h.fits
  simp only [List.length_cons] at h1
  have hne : p ≠ s.srcEnd := fun hh => by rw [hh] at h1; omega
  rw [readByte, if_neg hne, ← h.tail.1]
  refine memRead_admitted (h.adm p (Nat.le_refl _) (by simp)) ?_
  have := h.free 0 (by simp)
  simpa using this

theorem next_ahead {st : ParseState} {b : Byte} {bs : List Byte} (h : Ahead st.s st.p (b :: bs)) :
    st.next = .ok (b, { st with p := st.p + 1#32 }) := by
  rw [ParseState.next, readByte_ahead h]
  rfl

/-- `parse()` reads the encoding of a tree back: the same shape, its bytes consumed (R190, R198). -/
theorem parse_enc (sh : Shape) : ∀ (calls : Nat) (st : ParseState), Ahead st.s st.p (sh.enc st.s.ctrl.symw) →
    st.k + sh.nodes ≤ 511 → 512 ≤ calls + st.k →
    ∃ r : NodeIdx × ParseState, parse calls st = .ok r ∧ NodesOnly st.s r.2.s ∧ r.2.s.draws = st.s.draws ∧
      r.2.p.toNat = st.p.toNat + (sh.enc st.s.ctrl.symw).length ∧
      ∃ t : NodeTree, Parsed st r.1 r.2 t ∧ t.shape = sh := by
  induction sh with
  | leaf sym =>
    intro calls st ha hk hc
    obtain ⟨calls, rfl⟩ : ∃ c, calls = c + 1 := ⟨calls - 1, by simp [Shape.nodes] at hk; omega⟩
    have hk' : st.k < 511 := by simp [Shape.nodes] at hk; omega
    simp only [Shape.enc] at ha ⊢
    have ht := ha.tail
    have hsym : ∃ st2 : ParseState, parseSym { st with k := st.k + 1, p := st.p + 1#32 } = .ok (sym, st2) ∧
        st2.s = st.s ∧ st2.k = st.k + 1 ∧ st2.leaves = st.leaves ∧
        st2.p.toNat = st.p.toNat + 1 + (symField st.s.ctrl.symw sym).length := by
      unfold parseSym
      cases hw : st.s.ctrl.symw with
      | true =>
        rw [hw] at ht
        simp only [symField, if_true] at ht ⊢
        have hn1 := next_ahead (st := { st with k := st.k + 1, p := st.p + 1#32 }) ht.2.2
        have ht2 := ht.2.2.tail
        have hn2 := next_ahead (st := { st with k := st.k + 1, p := st.p + 1#32 + 1#32 }) ht2.2.2
        rw [hn1, Part.bind_ok, hn2, Part.bind_ok]
        refine ⟨_, rfl, rfl, rfl, rfl, ?_⟩
        have := ht2.2.2.tail.2.1
        simp only [List.length_cons, List.length_nil]
        omega
      | false =>
        rw [hw] at ht
        simp only [symField, Bool.false_eq_true, if_false] at ht ⊢
        have hn1 := next_ahead (st := { st with k := st.k + 1, p := st.p + 1#32 }) ht.2.2
        rw [hn1]
        refine ⟨_, rfl, rfl, rfl, rfl, ?_⟩
        have := ht.2.2.tail.2.1
        simp only [List.length_cons, List.length_nil]
        omega
    obtain ⟨st2, h1, h2, h3, h4, h5⟩ := hsym
    have hn := next_ahead (st := { st with k := st.k + 1 }) ha
    refine ⟨(⟨st.k, hk'⟩, { st2.putNode ⟨st.k, hk'⟩ (Node.mkLeaf sym 0#32) with leaves := st2.leaves + 1 }), ?_, ?_, ?_, ?_,
      _, Parsed.leaf hk' h3 h4 (by rw [h2]) sym, rfl⟩
    · rw [parse, dif_pos hk']
      simp only
      rw [hn, Part.bind_ok]
      simp only [if_true, h1, Part.bind_ok]
      rfl
    · unfold NodesOnly
      simp only [ParseState.putNode, h2]
    · simp only [ParseState.putNode, h2]
    · simp only [ParseState.putNode, List.length_cons]
      omega
  | node l r ihl ihr =>
    intro calls st ha hk hc
    obtain ⟨calls, rfl⟩ : ∃ c, calls = c + 1 := ⟨calls - 1, by simp [Shape.nodes] at hk; omega⟩
    have hk' : st.k < 511 := by simp [Shape.nodes] at hk; omega
    simp only [Shape.nodes] at hk
    simp only [Shape.enc] at ha ⊢
    have ht := ha.tail
    have hn := next_ahead (st := { st with k := st.k + 1 }) ha
    have hE : st.s.srcEnd.toNat < 4294967296 := st.s.srcEnd.isLt
    have hfit := ha.fits
    simp only [List.length_cons, List.length_append] at hfit
    have hmid := ht.2.2.append (p' := st.p + 1#32 + BitVec.ofNat 32 (l.enc st.s.ctrl.symw).length)
      (by rw [BitVec.toNat_add, BitVec.toNat_ofNat]; omega)
    obtain ⟨rl, l1, l2, l3, l4, tl, l5, l6⟩ := ihl calls { st with k := st.k + 1, p := st.p + 1#32 } hmid.1
      (by simp only; omega) (by simp only; omega)
    have hkl := l5.k
    have hctrl : rl.2.s.ctrl = st.s.ctrl := by rw [l2]
    have hpl : st.p + 1#32 + BitVec.ofNat 32 (l.enc st.s.ctrl.symw).length = rl.2.p := by
      apply BitVec.eq_of_toNat_eq
      rw [l4, BitVec.toNat_add, BitVec.toNat_ofNat]
      simp only
      omega
    have har := hmid.2.congr l2
    rw [hpl, ← hctrl] at har
    obtain ⟨rr, r1, r2, r3, r4, tr, r5, r6⟩ := ihr calls rl.2 har (by rw [hkl, l6]; simp only; omega)
      (by rw [hkl]; simp only; omega)
    refine ⟨(⟨st.k, hk'⟩, rr.2.putNode ⟨st.k, hk'⟩ (Node.mkNode 0#32 rl.1 rr.1)), ?_, ?_, ?_, ?_,
      _, Parsed.node hk' (tg := { st with k := st.k + 1, p := st.p + 1#32 }) rfl rfl rfl l5 r5, by
        simp [NodeTree.shape, l6, r6]⟩
    · rw [parse, dif_pos hk']
      simp only
      rw [hn, Part.bind_ok]
      simp only
      rw [if_neg (by decide), if_pos trivial, l1, Part.bind_ok, r1, Part.bind_ok]
    · have := NodesOnly.trans l2 r2
      unfold NodesOnly at this ⊢
      simp only [ParseState.putNode]
      rw [this]
    · simp only [ParseState.putNode, r3, l3]
    · simp only [ParseState.putNode, List.length_cons, List.length_append, r4, l4, hctrl]
      omega

/-- The four bytes of the count read back (R181, R190). -/
theorem readCount_ahead {s : State} {p : Word} {count : Word} {bs : List Byte}
    (h : Ahead s p (countField count ++ bs)) :
    readCount s p = .ok (count, s, p + 4#32) ∧ (p + 4#32).toNat = p.toNat + 4 ∧ Ahead s (p + 4#32) bs := by
  simp only [countField, List.cons_append, List.nil_append] at h
  have h1 := h.tail
  have h2 := h1.2.2.tail
  have h3 := h2.2.2.tail
  have h4 := h3.2.2.tail
  have e2 : p + 1#32 + 1#32 = p + 2#32 := by rw [BitVec.add_assoc]; rfl
  have e3 : p + 1#32 + 1#32 + 1#32 = p + 3#32 := by rw [e2, BitVec.add_assoc]; rfl
  have e4 : p + 1#32 + 1#32 + 1#32 + 1#32 = p + 4#32 := by rw [e3, BitVec.add_assoc]; rfl
  refine ⟨?_, ?_, by rw [← e4]; exact h4.2.2⟩
  · rw [readCount, readByte_ahead h, Part.bind_ok]
    simp only
    rw [readByte_ahead h1.2.2, Part.bind_ok]
    simp only
    rw [← e2, readByte_ahead h2.2.2, Part.bind_ok]
    simp only
    rw [← e3, readByte_ahead h3.2.2, Part.bind_ok]
    simp only
    congr 2
    unfold countOfBytes
    ext i hi
    simp only [BitVec.getElem_append, BitVec.getElem_extractLsb']
    split
    · simp [BitVec.getElem_eq_testBit_toNat, BitVec.getLsbD]
    · split
      · rw [BitVec.getElem_eq_testBit_toNat, BitVec.getLsbD]; congr 1; omega
      · split
        · rw [BitVec.getElem_eq_testBit_toNat, BitVec.getLsbD]; congr 1; omega
        · rw [BitVec.getElem_eq_testBit_toNat, BitVec.getLsbD]; congr 1; omega
  · rw [← e4]
    have a1 := h1.2.1
    have a2 := h2.2.1
    have a3 := h3.2.1
    have a4 := h4.2.1
    omega

/-! ### A header that ends early or badly -/

/-- The byte after those ahead cannot be read: the read raises `e` with `info`. -/
def EndsWith (s : State) (n : Nat) (e : Err) (info : Word) : Prop :=
  ∀ (t : State) (q : Word), NodesOnly s t → q.toNat = n → readByte t q = .raise e info t

theorem EndsWith.congr {s t : State} {n : Nat} {e : Err} {info : Word} (h : EndsWith s n e info) (hk : NodesOnly s t) :
    EndsWith t n e info := fun u q hu hq => h u q (hk.trans hu) hq

/-- One byte read where the bytes ahead are known: the next of them, or the end. -/
theorem next_scan {st : ParseState} {bs : List Byte} {e : Err} {info : Word} (ha : Ahead st.s st.p bs)
    (he : bs = [] → EndsWith st.s st.p.toNat e info) :
    (∃ b bs', bs = b :: bs' ∧ st.next = .ok (b, { st with p := st.p + 1#32 }) ∧ Ahead st.s (st.p + 1#32) bs' ∧
        (st.p + 1#32).toNat = st.p.toNat + 1) ∨
      (bs = [] ∧ st.next = .raise e info st.s) := by
  cases bs with
  | nil => exact .inr ⟨rfl, by rw [ParseState.next, he rfl st.s st.p (NodesOnly.refl _) rfl]; rfl⟩
  | cons b bs => exact .inl ⟨b, bs, rfl, next_ahead ha, ha.tail.2.2, ha.tail.2.1⟩

/-- One tag of `scanTrees`. -/
theorem scanTrees_cons (symw : Bool) (tag : Byte) (rest : List Byte) (need nodes off : Nat) :
    scanTrees symw (tag :: rest) (need + 1) nodes off =
      if nodes = 511 then .bad .treeOvf off
      else if tag = 0x00#8 then scanTrees symw rest (need + 2) (nodes + 1) (off + 1)
      else if tag = 0x01#8 then
        match symw, rest with
        | false, _ :: rest' => scanTrees symw rest' need (nodes + 1) (off + 2)
        | true, hi :: _ :: rest' =>
          if hi = 0x00#8 then scanTrees symw rest' need (nodes + 1) (off + 3) else .bad .badSym (off + 1)
        | _, _ => .more
      else .bad .badTag off := by
  cases symw <;> rcases rest with _ | ⟨_, _ | _⟩ <;> rfl

theorem scanTrees_nil (symw : Bool) (need nodes off : Nat) :
    scanTrees symw [] (need + 1) nodes off = if nodes = 511 then .bad .treeOvf off else .more := by
  cases symw <;> rfl

/-- `parse()` on known bytes takes the step that `scanTrees` takes for one tree (R190, R192, R194, R195, R200). -/
theorem parse_scan {e : Err} {info : Word} (base calls : Nat) : ∀ {st : ParseState} {bs : List Byte} (need : Nat),
    Ahead st.s st.p bs →
    (scanTrees st.s.ctrl.symw bs (need + 1) st.k (st.p.toNat - base) = .more →
      EndsWith st.s (st.p.toNat + bs.length) e info) → st.k ≤ 511 → 512 ≤ calls + st.k →
    base ≤ st.p.toNat →
    (parse calls st).Spec
      (fun r => NodesOnly st.s r.2.s ∧ st.k ≤ r.2.k ∧ r.2.k ≤ 511 ∧ base ≤ r.2.p.toNat ∧
        ∃ bs', Ahead r.2.s r.2.p bs' ∧ r.2.p.toNat + bs'.length = st.p.toNat + bs.length ∧
          scanTrees st.s.ctrl.symw bs (need + 1) st.k (st.p.toNat - base) =
            scanTrees st.s.ctrl.symw bs' need r.2.k (r.2.p.toNat - base))
      (fun e' i t => NodesOnly st.s t ∧
        ((∃ o, scanTrees st.s.ctrl.symw bs (need + 1) st.k (st.p.toNat - base) = .bad e' o ∧ i.toNat = base + o) ∨
          (scanTrees st.s.ctrl.symw bs (need + 1) st.k (st.p.toNat - base) = .more ∧ e' = e ∧ i = info)))
      (fun _ => False) := by
  induction calls with
  | zero => intro st bs need _ _ hk hc; omega
  | succ calls ih =>
    intro st bs need ha he hk hc hb
    unfold parse
    by_cases h : st.k < 511
    · rw [dif_pos h]
      have hne : st.k ≠ 511 := by omega
      simp only
      rcases next_scan (st := { st with k := st.k + 1 }) (e := e) (info := info) ha
        (fun h0 => by subst h0; exact he (by rw [scanTrees_nil, if_neg hne])) with ⟨tag, bs1, rfl, hn, ha1, hp1⟩ | ⟨rfl, hn⟩
      · rw [hn, Part.bind_ok]
        simp only at ha1 hp1 hn ⊢
        rw [show st.p.toNat + (tag :: bs1).length = (st.p + 1#32).toNat + bs1.length by simp; omega] at he ⊢
        have hoff : (st.p + 1#32).toNat - base = st.p.toNat - base + 1 := by omega
        by_cases h1 : tag = 0x01#8
        · subst h1
          rw [if_pos rfl]
          rw [scanTrees_cons, if_neg hne, if_neg (by decide), if_pos rfl] at he ⊢
          unfold parseSym
          simp only
          cases hw : st.s.ctrl.symw with
          | false =>
            rw [hw] at he
            simp only [Bool.false_eq_true, if_false]
            rcases next_scan (st := { st with k := st.k + 1, p := st.p + 1#32 }) (e := e) (info := info) ha1
                (fun h0 => by subst h0; exact he rfl) with
              ⟨sym, bs2, rfl, hn2, ha2, hp2⟩ | ⟨rfl, hn2⟩
            · rw [hn2, Part.bind_ok]
              simp only at ha2 hp2
              refine ⟨rfl, by simp [ParseState.putNode], by simp [ParseState.putNode]; omega,
                by simp [ParseState.putNode]; omega, bs2, ?_, ?_, ?_⟩
              · exact ha2.congr rfl
              · simp only [ParseState.putNode, hp2, hp1, List.length_cons]; omega
              · simp only [ParseState.putNode, hp2, hp1]
                congr 1
                omega
            · rw [hn2]
              exact ⟨rfl, .inr ⟨rfl, rfl, rfl⟩⟩
          | true =>
            rw [hw] at he
            simp only [if_true]
            rcases next_scan (st := { st with k := st.k + 1, p := st.p + 1#32 }) (e := e) (info := info) ha1
                (fun h0 => by subst h0; exact he rfl) with
              ⟨hi, bs2, rfl, hn2, ha2, hp2⟩ | ⟨rfl, hn2⟩
            · rw [hn2, Part.bind_ok]
              simp only at ha2 hp2 ⊢
              rw [show (st.p + 1#32).toNat + (hi :: bs2).length = (st.p + 1#32 + 1#32).toNat + bs2.length by
                simp; omega] at he ⊢
              rcases next_scan (st := { st with k := st.k + 1, p := st.p + 1#32 + 1#32 }) (e := e) (info := info) ha2
                  (fun h0 => by subst h0; exact he rfl) with
                ⟨lo, bs3, rfl, hn3, ha3, hp3⟩ | ⟨rfl, hn3⟩
              · rw [hn3, Part.bind_ok]
                simp only at ha3 hp3 ⊢
                by_cases hh : hi = 0x00#8
                · simp only [if_pos hh, Part.bind_ok]
                  refine ⟨rfl, by simp [ParseState.putNode], by simp [ParseState.putNode]; omega,
                    by simp [ParseState.putNode]; omega, bs3, ha3.congr rfl, ?_, ?_⟩
                  · simp only [ParseState.putNode, hp3, hp2, hp1, List.length_cons]; omega
                  · simp only [ParseState.putNode, hp3, hp2, hp1]
                    congr 1
                    omega
                · simp only [if_neg hh]
                  exact ⟨rfl, .inl ⟨_, rfl, by rw [hp1]; omega⟩⟩
              · rw [hn3]
                exact ⟨rfl, .inr ⟨rfl, rfl, rfl⟩⟩
            · rw [hn2]
              exact ⟨rfl, .inr ⟨rfl, rfl, rfl⟩⟩
        · rw [if_neg h1]
          by_cases h0 : tag = 0x00#8
          · subst h0
            rw [if_pos rfl]
            have hscan : scanTrees st.s.ctrl.symw (0x00#8 :: bs1) (need + 1) st.k (st.p.toNat - base) =
                scanTrees st.s.ctrl.symw bs1 (need + 1 + 1) (st.k + 1) ((st.p + 1#32).toNat - base) := by
              rw [hoff, scanTrees_cons, if_neg hne, if_pos rfl]
            rw [hscan] at he ⊢
            have hl := ih (st := { st with k := st.k + 1, p := st.p + 1#32 }) (need + 1) ha1 he (by simp only; omega)
              (by simp only; omega) (by simp only; omega)
            cases hpl : parse calls { st with k := st.k + 1, p := st.p + 1#32 } with
            | stuck f => rw [hpl] at hl; exact hl.elim
            | raise e' i t => rw [hpl] at hl; exact hl
            | ok l =>
              rw [hpl] at hl
              obtain ⟨hl1, hl2, hl3, hl4, bs2, hl5, hl6, hl7⟩ := hl
              simp only at hl1 hl2 hl6 hl7
              rw [Part.bind_ok, hl7]
              have hsymw : l.2.s.ctrl.symw = st.s.ctrl.symw := by rw [hl1]
              have hr := ih (st := l.2) need hl5
                (by rw [hl6, hsymw, ← hl7]; exact fun h0 => (he h0).congr hl1) hl3 (by omega) hl4
              rw [hsymw] at hr
              cases hpr : parse calls l.2 with
              | stuck f => rw [hpr] at hr; exact hr.elim
              | raise e' i t => rw [hpr] at hr; exact ⟨hl1.trans hr.1, hr.2⟩
              | ok r =>
                rw [hpr] at hr
                obtain ⟨hr1, hr2, hr3, hr4, bs3, hr5, hr6, hr7⟩ := hr
                rw [Part.bind_ok]
                refine ⟨?_, by simp only [ParseState.putNode]; omega, hr3, hr4, bs3, hr5.congr rfl, ?_, hr7⟩
                · have := hl1.trans hr1
                  unfold NodesOnly at this ⊢
                  simp only [ParseState.putNode]
                  rw [this]
                · simp only [ParseState.putNode]
                  omega
          · rw [if_neg h0]
            refine ⟨rfl, .inl ⟨st.p.toNat - base, by rw [scanTrees_cons, if_neg hne, if_neg h0, if_neg h1], by omega⟩⟩
      · rw [hn]
        exact ⟨rfl, .inr ⟨by rw [scanTrees_nil, if_neg hne], rfl, rfl⟩⟩
    · rw [dif_neg h]
      have h511 : st.k = 511 := by omega
      exact ⟨rfl, .inl ⟨st.p.toNat - base, by cases bs <;> simp [scanTrees_cons, scanTrees_nil, h511], by omega⟩⟩

theorem scanTrees_zero (symw : Bool) (bs : List Byte) (nodes off : Nat) : scanTrees symw bs 0 nodes off = .whole := by
  cases symw <;> rcases bs with _ | ⟨_, _ | ⟨_, _ | _⟩⟩ <;> rfl

/-- The count read from known bytes: four of them, or the end before the fourth (R190, R200). -/
theorem readCount_scan {s : State} {p : Word} {bs : List Byte} {e : Err} {info : Word} (ha : Ahead s p bs)
    (he : bs.length < 4 → EndsWith s (p.toNat + bs.length) e info) :
    (∃ c3 c2 c1 c0 rest, bs = c3 :: c2 :: c1 :: c0 :: rest ∧
        readCount s p = .ok (countOfBytes c3 c2 c1 c0, s, p + 4#32) ∧ (p + 4#32).toNat = p.toNat + 4 ∧
        Ahead s (p + 4#32) rest) ∨
      (bs.length < 4 ∧ readCount s p = .raise e info s) := by
  have e2 : p + 1#32 + 1#32 = p + 2#32 := by rw [BitVec.add_assoc]; rfl
  have e3 : p + 2#32 + 1#32 = p + 3#32 := by rw [BitVec.add_assoc]; rfl
  have e4 : p + 3#32 + 1#32 = p + 4#32 := by rw [BitVec.add_assoc]; rfl
  unfold readCount
  match bs, ha with
  | [], _ => exact .inr ⟨by simp, by rw [he (by simp) s p (NodesOnly.refl _) rfl]; rfl⟩
  | c3 :: bs, ha =>
    obtain ⟨-, p1, ha1⟩ := ha.tail
    rw [readByte_ahead ha, Part.bind_ok]
    match bs, ha1 with
    | [], _ => exact .inr ⟨by simp, by rw [he (by simp) s _ (NodesOnly.refl _) p1]; rfl⟩
    | c2 :: bs, ha1 =>
      obtain ⟨-, p2, ha2⟩ := ha1.tail
      rw [readByte_ahead ha1, Part.bind_ok]
      rw [e2] at p2 ha2
      match bs, ha2 with
      | [], _ => exact .inr ⟨by simp, by rw [he (by simp) s _ (NodesOnly.refl _) (by simp; omega)]; rfl⟩
      | c1 :: bs, ha2 =>
        obtain ⟨-, p3, ha3⟩ := ha2.tail
        rw [readByte_ahead ha2, Part.bind_ok]
        rw [e3] at p3 ha3
        match bs, ha3 with
        | [], _ => exact .inr ⟨by simp, by rw [he (by simp) s _ (NodesOnly.refl _) (by simp; omega)]; rfl⟩
        | c0 :: bs, ha3 =>
          obtain ⟨-, p4, ha4⟩ := ha3.tail
          rw [readByte_ahead ha3, Part.bind_ok]
          rw [e4] at p4 ha4
          exact .inl ⟨c3, c2, c1, c0, bs, rfl, rfl, by omega, ha4⟩

/-- The body of DESERIALIZE on known bytes ends as `scanHeader` says (R190 to R195, R200). -/
theorem deserializeBody_scan {s : State} {bs : List Byte} {e : Err} {info : Word} (hadTree : Bool)
    (ha : Ahead s s.srcAddr bs)
    (he : scanHeader s.ctrl.symw bs = .more → EndsWith s (s.srcAddr.toNat + bs.length) e info) :
    (deserializeBody hadTree s).Spec (fun _ => scanHeader s.ctrl.symw bs = .whole)
      (fun e' i t => NodesOnly s t ∧
        ((∃ o, scanHeader s.ctrl.symw bs = .bad e' o ∧ i.toNat = s.srcAddr.toNat + o) ∨
          (scanHeader s.ctrl.symw bs = .more ∧ e' = e ∧ i = info)))
      (fun _ => False) := by
  have hshort : bs.length < 4 → scanHeader s.ctrl.symw bs = .more := by
    intro h
    match bs, h with
    | [], _ | [_], _ | [_, _], _ | [_, _, _], _ => rfl
  unfold deserializeBody
  rcases readCount_scan ha (fun h => he (hshort h)) with ⟨c3, c2, c1, c0, rest, rfl, hr, hp, ha4⟩ | ⟨hl, hr⟩
  · rw [hr, Part.bind_ok]
    simp only [scanHeader] at he ⊢
    split
    · exact rfl
    · rename_i hc
      rw [if_neg hc] at he
      have hoff : (s.srcAddr + 4#32).toNat - s.srcAddr.toNat = 4 := by omega
      have h := parse_scan (e := e) (info := info) s.srcAddr.toNat 512
        (st := { s := s, p := s.srcAddr + 4#32, k := 0, leaves := 0 }) 0 ha4
        (by
          simp only [hp, Nat.add_sub_cancel_left]
          intro h0
          have := he h0
          rwa [show s.srcAddr.toNat + (c3 :: c2 :: c1 :: c0 :: rest).length = s.srcAddr.toNat + 4 + rest.length by
            simp; omega] at this)
        (by simp) (by simp) (by simp only; omega)
      simp only [hoff] at h
      refine h.bind (fun r hr => ?_)
      obtain ⟨-, -, -, -, bs', -, -, h7⟩ := hr
      rw [scanTrees_zero] at h7
      exact h7
  · rw [hr]
    exact ⟨rfl, .inr ⟨hshort hl, rfl, rfl⟩⟩

end Sys2Proof.Machine
end

