-- ==== Sys2Proof/Laws/Build.lean ====
section
/-! SUPPORT. The laws of BUILD: the frequency table as lists, the priority queue, and the tree the merges leave. -/

namespace Sys2Proof.Machine

/-! ### The frequency table -/

theorem allSymbols_mem (sym : Byte) : sym ∈ allSymbols :=
  List.mem_map.mpr ⟨sym.toNat, List.mem_range.mpr sym.isLt, by simp⟩

theorem allSymbols_nodup : allSymbols.Nodup := by decide +kernel

theorem presentList_nodup (s : State) : s.presentList.Nodup := allSymbols_nodup.filter _

theorem presentList_length (s : State) : s.presentList.length ≤ 256 := by
  have h1 : s.presentList.length ≤ allSymbols.length := List.length_filter_le _ _
  have h2 : allSymbols.length = 256 := by decide +kernel
  omega

/-- FREQ as a list, in symbol order. -/
theorem freq_toList (s : State) : s.freq.toList = allSymbols.map s.freqAt := by
  apply List.ext_getElem
  · rw [Vector.length_toList, List.length_map]; decide +kernel
  · intro i h1 h2
    rw [Vector.length_toList] at h1
    have h3 : (BitVec.ofNat 8 i).toNat = i := by
      rw [BitVec.toNat_ofNat, Nat.mod_eq_of_lt (by omega)]
    simp only [allSymbols, List.getElem_map, List.getElem_range, State.freqAt, Vector.getElem_toList, h3]

theorem mapM_id_eq_some {α : Type} (l : List (Option α)) (r : List α) :
    l.mapM id = some r ↔ l = r.map some := by
  induction l generalizing r with
  | nil => cases r <;> simp
  | cons a l ih =>
    rw [List.mapM_cons]
    cases a with
    | none => cases r <;> simp
    | some a =>
      cases hl : l.mapM id with
      | none =>
        have : ∀ r : List α, l ≠ r.map some := fun r h => by rw [(ih r).mpr h] at hl; cases hl
        cases r <;> simp [this]
      | some r' =>
        have := (ih r').mp hl
        subst this
        cases r with
        | nil => simp
        | cons b r =>
          simp only [id, Option.bind_eq_bind, Option.bind_some, Option.pure_def, Option.some.injEq, List.cons.injEq,
            List.map_cons]
          refine and_congr Iff.rfl ⟨fun h => by rw [h], fun h => ?_⟩
          exact List.map_injective_iff.mpr (Option.some_injective _) h

/-- BUILD reads the whole table, or meets an unwritten entry (R153). -/
theorem freqValues_cases (s : State) :
    (s.freqWritten ∧ freqValues s = some (allSymbols.map (fun sym => (s.freqAt sym).getD 0#32))) ∨
      ((∃ sym, s.freqAt sym = none) ∧ freqValues s = none) := by
  by_cases h : s.freqWritten
  · refine .inl ⟨h, ?_⟩
    rw [freqValues, mapM_id_eq_some, freq_toList, List.map_map]
    apply List.map_congr_left
    intro sym _
    obtain ⟨v, hv⟩ := Option.isSome_iff_exists.mp (h sym)
    simp [hv]
  · have h' : ∃ sym, s.freqAt sym = none := by
      simpa [State.freqWritten, Option.isSome_iff_ne_none] using h
    refine .inr ⟨h', ?_⟩
    obtain ⟨sym, hsym⟩ := h'
    cases hf : freqValues s with
    | none => rfl
    | some r =>
      rw [freqValues, mapM_id_eq_some, freq_toList] at hf
      have : none ∈ r.map some := by
        rw [← hf]
        exact List.mem_map.mpr ⟨sym, allSymbols_mem sym, hsym⟩
      simp at this

theorem freqSum_eq (s : State) :
    freqSum (allSymbols.map (fun sym => (s.freqAt sym).getD 0#32)) = s.freqTotal := by
  simp only [freqSum, State.freqTotal, List.map_map]
  rfl

theorem bne_zero_eq (v : Word) : (v != 0#32) = decide (v.toNat ≠ 0) := by
  by_cases h : v = 0#32
  · subst h; rfl
  · have : v.toNat ≠ 0 := fun hh => h (BitVec.eq_of_toNat_eq hh)
    simp [h, this]

theorem flatMap_singletons {α β : Type} (f : α → β) (l : List α) : l.flatMap (fun a => [f a]) = l.map f := by
  induction l with
  | nil => rfl
  | cons a l ih => simp [ih]

/-- The present symbols with their frequencies. -/
theorem presentSymbols_eq (s : State) :
    presentSymbols (allSymbols.map (fun sym => (s.freqAt sym).getD 0#32)) =
      s.presentList.map (fun sym => (sym, (s.freqAt sym).getD 0#32)) := by
  have h1 : ∀ (g : Nat → Word) (n k : Nat),
      (((List.range' k n).map g).zipIdx k) = (List.range' k n).map (fun i => (g i, i)) := by
    intro g n
    induction n with
    | zero => intro k; rfl
    | succ n ih => intro k; simp [List.range'_succ, ih (k + 1)]
  have h2 := h1 (fun i => (s.freqAt (BitVec.ofNat 8 i)).getD 0#32) 256 0
  simp only [presentSymbols, State.presentList, allSymbols, List.map_map, List.range_eq_range', Function.comp_def] at h2 ⊢
  rw [h2, List.filter_map, List.filter_map, List.map_map, List.map_map]
  have hf : ∀ i, ((fun p : Word × Nat => p.1 != 0#32) ∘ fun i => ((s.freqAt (BitVec.ofNat 8 i)).getD 0#32, i)) i =
      ((fun sym => decide (s.freqNat sym ≠ 0)) ∘ fun i => BitVec.ofNat 8 i) i := by
    intro i
    simp only [Function.comp, State.freqNat, bne_zero_eq]
    rfl
  rw [List.filter_congr (fun i _ => hf i)]
  rfl

/-! ### The priority queue -/

theorem minEntry_mem (e : QEntry) (q : List QEntry) : minEntry e q ∈ e :: q := by
  unfold minEntry
  induction q generalizing e with
  | nil => simp
  | cons x q ih =>
    simp only [List.foldl_cons]
    split
    · exact List.mem_cons_of_mem _ (ih x)
    · rcases List.mem_cons.mp (ih e) with h | h
      · rw [h]; exact List.mem_cons_self ..
      · exact List.mem_cons_of_mem _ (List.mem_cons_of_mem _ h)

theorem extractMin_perm {q q' : List QEntry} {x : QEntry} (h : extractMin q = some (x, q')) :
    q.Perm (x :: q') := by
  cases q with
  | nil => cases h
  | cons e q =>
    simp only [extractMin, Option.some.injEq, Prod.mk.injEq] at h
    obtain ⟨rfl, rfl⟩ := h
    exact List.perm_cons_erase (minEntry_mem e q)

theorem extractMin_none {q : List QEntry} (h : extractMin q = none) : q = [] := by
  cases q with
  | nil => rfl
  | cons e q => cases h

/-! ### The forest of the merge loop -/

/-- The NODE memory whose first entries are `nodes` (R145). -/
abbrev nodeMemory (nodes : List Node) : Vector (Option Node) 511 := fill 511 (some Node.zero) (nodes.map some)

theorem nodeIn_nodeMemory (nodes : List Node) (i : NodeIdx) :
    nodeIn (nodeMemory nodes) i = some (nodes.getD i.val Node.zero) := by
  rw [nodeIn, fill_getElem]
  simp only [List.getD_eq_getElem?_getD, List.getElem?_map]
  cases nodes[i.val]? <;> rfl

/-- The queue entry of a tree in `nodes`. -/
def entryOf (nodes : List Node) (t : NodeTree) : QEntry := ⟨(nodes.getD t.idx.val Node.zero).freq, t.idx.val⟩

/-- The queue `q` over `nodes` holds the trees `ts`: all nodes in them once. -/
structure Forest (nodes : List Node) (q : List QEntry) (ts : List NodeTree) : Prop where
  entries : q.Perm (ts.map (entryOf nodes))
  held    : ∀ t ∈ ts, t.heldIn (nodeMemory nodes) = true
  indices : ((ts.flatMap NodeTree.indices).map Fin.val).Perm (List.range nodes.length)

theorem Forest.lt {nodes : List Node} {q : List QEntry} {ts : List NodeTree} (h : Forest nodes q ts) {t : NodeTree}
    (ht : t ∈ ts) {i : NodeIdx} (hi : i ∈ t.indices) : i.val < nodes.length := by
  have : i.val ∈ (ts.flatMap NodeTree.indices).map Fin.val :=
    List.mem_map_of_mem (List.mem_flatMap.mpr ⟨t, ht, hi⟩)
  exact List.mem_range.mp (h.indices.mem_iff.mp this)

theorem NodeTree.idx_mem (t : NodeTree) : t.idx ∈ t.indices := by
  cases t <;> simp [NodeTree.indices]

theorem getD_append_left {α : Type} (a b : List α) (d : α) {i : Nat} (h : i < a.length) :
    (a ++ b).getD i d = a.getD i d := by
  simp [List.getD_eq_getElem?_getD, List.getElem?_append_left h]

/-- Extracting an entry takes its tree out of the forest. -/
theorem Forest.extract {nodes : List Node} {q q' : List QEntry} {ts : List NodeTree} {x : QEntry}
    (h : q.Perm (ts.map (entryOf nodes))) (he : q.Perm (x :: q')) :
    ∃ (t : NodeTree) (ts' : List NodeTree), ts.Perm (t :: ts') ∧ entryOf nodes t = x ∧
      q'.Perm (ts'.map (entryOf nodes)) := by
  have hx : x ∈ ts.map (entryOf nodes) := (he.symm.trans h).mem_iff.mp (List.mem_cons_self ..)
  obtain ⟨t, ht, rfl⟩ := List.mem_map.mp hx
  have hp := List.perm_cons_erase ht
  refine ⟨t, ts.erase t, hp, rfl, ?_⟩
  have := (he.symm.trans h).trans (hp.map (entryOf nodes))
  rw [List.map_cons] at this
  exact this.cons_inv

/-- One merge. -/
theorem Forest.merge {nodes : List Node} {q q1 q2 : List QEntry} {ts : List NodeTree} {x y : QEntry}
    (h : Forest nodes q ts) (hn : nodes.length < 511) (hx : extractMin q = some (x, q1))
    (hy : extractMin q1 = some (y, q2)) :
    ∃ (tx ty : NodeTree) (ts' : List NodeTree), ts.Perm (tx :: ty :: ts') ∧ entryOf nodes tx = x ∧
      entryOf nodes ty = y ∧
      Forest (nodes ++ [mergedNode x y]) (⟨(mergedNode x y).freq, nodes.length⟩ :: q2)
        (.node ⟨nodes.length, hn⟩ ty tx :: ts') := by
  obtain ⟨tx, ts1, hp1, rfl, he1⟩ := Forest.extract h.entries (extractMin_perm hx)
  obtain ⟨ty, ts2, hp2, rfl, he2⟩ := Forest.extract he1 (extractMin_perm hy)
  have hp : ts.Perm (tx :: ty :: ts2) := hp1.trans (hp2.cons tx)
  have hmem : ∀ t, t = tx ∨ t = ty ∨ t ∈ ts2 → t ∈ ts := fun t ht => hp.mem_iff.mpr (by simpa using ht)
  have hlt : ∀ t, t = tx ∨ t = ty ∨ t ∈ ts2 → t.idx.val < nodes.length := fun t ht => h.lt (hmem t ht) t.idx_mem
  have hkeep : ∀ t, t = tx ∨ t = ty ∨ t ∈ ts2 → ∀ n, t.heldIn (nodeMemory (nodes ++ [n])) = true := by
    intro t ht n
    refine NodeTree.heldIn_congr (h.held t (hmem t ht)) (fun i hi => ?_)
    rw [nodeIn_nodeMemory, nodeIn_nodeMemory, getD_append_left _ _ _ (h.lt (hmem t ht) hi)]
  have hentry : ∀ t, t = tx ∨ t = ty ∨ t ∈ ts2 → ∀ n, entryOf (nodes ++ [n]) t = entryOf nodes t := by
    intro t ht n
    simp only [entryOf, getD_append_left _ _ _ (hlt t ht)]
  refine ⟨tx, ty, ts2, hp, rfl, rfl, ?_, ?_, ?_⟩
  · rw [List.map_cons]
    have h1 : entryOf (nodes ++ [mergedNode (entryOf nodes tx) (entryOf nodes ty)]) (.node ⟨nodes.length, hn⟩ ty tx) =
        ⟨(mergedNode (entryOf nodes tx) (entryOf nodes ty)).freq, nodes.length⟩ := by
      simp [entryOf]
    rw [h1]
    refine List.Perm.cons _ (he2.trans ?_)
    rw [List.map_congr_left (fun t ht => (hentry t (.inr (.inr ht)) _).symm)]
  · intro t ht
    rcases List.mem_cons.mp ht with rfl | ht
    · simp only [NodeTree.heldIn, Bool.and_eq_true]
      refine ⟨⟨?_, hkeep ty (.inr (.inl rfl)) _⟩, hkeep tx (.inl rfl) _⟩
      rw [nodeIn_nodeMemory]
      have e1 : Fin.ofNat 511 ty.idx.val = ty.idx := Fin.ext (Nat.mod_eq_of_lt ty.idx.isLt)
      have e2 : Fin.ofNat 511 tx.idx.val = tx.idx := Fin.ext (Nat.mod_eq_of_lt tx.idx.isLt)
      simp only [List.getD_eq_getElem?_getD, List.getElem?_concat_length, Option.getD_some, Option.any_some, mergedNode,
        entryOf, e1, e2]
      simp [Node.mkNode]
    · exact hkeep t (.inr (.inr ht)) _
  · have h1 := (hp.flatMap_right NodeTree.indices).map Fin.val
    have h2 : (tx.indices ++ (ty.indices ++ ts2.flatMap NodeTree.indices)).Perm
        ((ty.indices ++ tx.indices) ++ ts2.flatMap NodeTree.indices) := by
      rw [← List.append_assoc]
      exact List.perm_append_comm.append_right _
    have h3 : ((tx.indices ++ (ty.indices ++ ts2.flatMap NodeTree.indices)).map Fin.val).Perm
        (List.range nodes.length) := by
      simpa using h1.symm.trans h.indices
    simp only [List.flatMap_cons, NodeTree.indices, List.cons_append, List.map_cons, List.length_append,
      List.length_singleton, List.range_succ]
    refine ((h2.map Fin.val).symm.trans h3).cons nodes.length |>.trans ?_
    exact (List.perm_append_singleton nodes.length (List.range nodes.length)).symm

/-- The merge loop leaves one tree: L leaves make L - 1 merges (R140, R149, R151). -/
theorem Forest.mergeLoop (fuel : Nat) : ∀ {nodes : List Node} {q : List QEntry} {ts : List NodeTree},
    Forest nodes q ts → 0 < q.length → q.length ≤ fuel + 1 → nodes.length + q.length ≤ 512 →
    ∃ t : NodeTree, Forest (mergeLoop fuel nodes q).1 (mergeLoop fuel nodes q).2 [t] ∧
      (mergeLoop fuel nodes q).1.length + 1 = nodes.length + q.length ∧
      (2 ≤ q.length → t.idx.val + 1 = (mergeLoop fuel nodes q).1.length) ∧
      (q.length = 1 → ts = [t]) ∧
      t.shape.symbols.Perm (ts.flatMap (fun t => t.shape.symbols)) ∧
      (∀ i, i < nodes.length → (mergeLoop fuel nodes q).1.getD i Node.zero = nodes.getD i Node.zero) := by
  induction fuel with
  | zero =>
    intro nodes q ts h h0 h1 _
    have hlen : q.length = 1 := by omega
    have htl : ts.length = 1 := by rw [← List.length_map (as := ts) (f := entryOf nodes), ← h.entries.length_eq, hlen]
    obtain ⟨t, rfl⟩ := List.length_eq_one_iff.mp htl
    exact ⟨t, h, by simp only [Sys2Proof.Machine.mergeLoop]; omega, fun h2 => by omega, fun _ => rfl, by simp, fun i _ => rfl⟩
  | succ fuel ih =>
    intro nodes q ts h h0 h1 h2
    cases hx : extractMin q with
    | none => rw [extractMin_none hx] at h0; simp at h0
    | some xq =>
      obtain ⟨x, q1⟩ := xq
      have hq1 := (extractMin_perm hx).length_eq
      simp only [List.length_cons] at hq1
      cases hy : extractMin q1 with
      | none =>
        have hlen : q.length = 1 := by rw [hq1, extractMin_none hy]; rfl
        have htl : ts.length = 1 := by
          rw [← List.length_map (as := ts) (f := entryOf nodes), ← h.entries.length_eq, hlen]
        obtain ⟨t, rfl⟩ := List.length_eq_one_iff.mp htl
        simp only [Sys2Proof.Machine.mergeLoop, hx, hy]
        exact ⟨t, h, by omega, fun h2 => by omega, fun _ => by simp, by simp, fun i _ => by simp⟩
      | some yq =>
        obtain ⟨y, q2⟩ := yq
        have hq2 := (extractMin_perm hy).length_eq
        simp only [List.length_cons] at hq2
        obtain ⟨tx, ty, ts', hp, _, _, hf⟩ := h.merge (by omega) hx hy
        obtain ⟨t, g1, g2, g3, g4, g5, g6⟩ := ih hf (by simp) (by simp only [List.length_cons]; omega)
          (by simp only [List.length_cons, List.length_append, List.length_nil]; omega)
        simp only [Sys2Proof.Machine.mergeLoop, hx, hy]
        simp only [List.length_cons, List.length_append, List.length_nil] at g2 g3 g4 g6
        refine ⟨t, g1, by omega, fun _ => ?_, fun hh => by omega, ?_, fun i hi => ?_⟩
        · by_cases hc : q2.length = 0
          · have := g4 (by omega)
            obtain ⟨rfl, _⟩ : NodeTree.node ⟨nodes.length, by omega⟩ ty tx = t ∧ _ := List.cons.inj this
            simp only [NodeTree.idx_node]
            omega
          · exact g3 (by omega)
        · refine g5.trans ?_
          have hsw := (hp.flatMap_right (fun t => t.shape.symbols)).symm
          simp only [List.flatMap_cons, NodeTree.shape, Shape.symbols] at hsw ⊢
          refine List.Perm.trans ?_ hsw
          rw [← List.append_assoc]
          exact List.perm_append_comm.append_right _
        · rw [g6 i (by omega), getD_append_left _ _ _ hi]

/-- The leaves as a forest of single leaves (R142). -/
theorem Forest.leaves (present : List (Byte × Word)) (hl : present.length ≤ 256) :
    ∃ ts : List NodeTree, Forest (leafNodes present) (initialQueue (leafNodes present)) ts ∧
      ts.flatMap (fun t => t.shape.symbols) = present.map Prod.fst ∧ ts.length = present.length ∧
      ∀ t ∈ ts, present.length = 1 → t.idx = 0 := by
  refine ⟨present.zipIdx.map (fun p => .leaf (Fin.ofNat 511 p.2) p.1.1), ⟨?_, ?_, ?_⟩, ?_, by simp, ?_⟩
  · apply List.Perm.of_eq
    apply List.ext_getElem
    · simp [initialQueue, leafNodes]
    · intro i h1 h2
      simp only [initialQueue, leafNodes, List.length_map, List.length_zipIdx] at h1
      have hm : i % 511 = i := Nat.mod_eq_of_lt (by omega)
      simp [initialQueue, leafNodes, entryOf, List.getD_eq_getElem?_getD, h1, hm]
  · intro t ht
    obtain ⟨⟨p, i⟩, hp, rfl⟩ := List.mem_map.mp ht
    obtain ⟨h1, h2⟩ := List.mem_zipIdx hp |>.2
    simp only [Nat.zero_add, Nat.sub_zero] at h1 h2
    have hm : i % 511 = i := Nat.mod_eq_of_lt (by omega)
    simp only [NodeTree.heldIn, nodeIn_nodeMemory, Option.any_some, Fin.val_ofNat, hm, leafNodes,
      List.getD_eq_getElem?_getD, List.getElem?_map]
    rw [List.getElem?_eq_getElem h1]
    simp [Node.mkLeaf, h2]
  · apply List.Perm.of_eq
    rw [List.flatMap_map]
    simp only [NodeTree.indices]
    rw [flatMap_singletons (fun p : (Byte × Word) × Nat => Fin.ofNat 511 p.2)]
    apply List.ext_getElem
    · simp [leafNodes]
    · intro i h1 h2
      simp only [List.length_map, leafNodes, List.length_range] at h2
      have hm : i % 511 = i := Nat.mod_eq_of_lt (by omega)
      simp [hm]
  · rw [List.flatMap_map]
    simp only [NodeTree.shape, Shape.symbols]
    rw [flatMap_singletons (fun p : (Byte × Word) × Nat => p.1.1)]
    apply List.ext_getElem <;> simp
  · intro t ht h1
    obtain ⟨⟨p, i⟩, hp, rfl⟩ := List.mem_map.mp ht
    obtain ⟨h3, h2⟩ := List.mem_zipIdx hp |>.2
    have : i = 0 := by omega
    subst this
    rfl

/-- What BUILD answers: a fault on an unwritten table, EMPTY, TOTAL_OVF, or the tree (R140, R143, R144, R153). -/
theorem runBuild_cases (s : State) :
    ((∃ sym, s.freqAt sym = none) ∧ runBuild s = .stuck .unwrittenFreq) ∨
    (s.freqWritten ∧ s.presentList = [] ∧
      runBuild s = .raised .empty 0#32 false ((s.clearTreeRegs.setTreeFlags false true false).trashNodes)) ∨
    (s.freqWritten ∧ s.presentList ≠ [] ∧ Config.maxTotal < s.freqTotal ∧
      runBuild s = .raised .totalOvf 0#32 false ((s.clearTreeRegs.setTreeFlags false false false).trashNodes)) ∨
    (s.freqWritten ∧ s.presentList ≠ [] ∧ s.freqTotal ≤ Config.maxTotal ∧
      runBuild s = .done (buildSuccess s (allSymbols.map (fun sym => (s.freqAt sym).getD 0#32)))) := by
  rcases freqValues_cases s with ⟨h1, h2⟩ | ⟨h1, h2⟩
  · have h3 : presentSymbols (allSymbols.map (fun sym => (s.freqAt sym).getD 0#32)) = [] ↔ s.presentList = [] := by
      rw [presentSymbols_eq, List.map_eq_nil_iff]
    by_cases h4 : s.presentList = []
    · exact .inr (.inl ⟨h1, h4, by simp only [runBuild, h2, if_pos (h3.mpr h4)]⟩)
    · have h5 := fun h => h4 (h3.mp h)
      by_cases h6 : Config.maxTotal < s.freqTotal
      · exact .inr (.inr (.inl ⟨h1, h4, h6, by simp only [runBuild, h2, if_neg h5, freqSum_eq, if_pos h6]⟩))
      · exact .inr (.inr (.inr ⟨h1, h4, by omega, by simp only [runBuild, h2, if_neg h5, freqSum_eq, if_neg h6]⟩))
  · exact .inl ⟨h1, by simp only [runBuild, h2]⟩

/-- What a successful BUILD installs is a tree of the present symbols, its leaves first (R142, R145, R149, R151). -/
theorem buildNodes_tree (present : List (Byte × Word)) (h0 : present ≠ []) (hl : present.length ≤ 256) (u : State)
    (hn : u.node = nodeMemory (buildNodes (leafNodes present)).1)
    (hr : u.root = queueRoot (buildNodes (leafNodes present)).2)
    (hc : u.nodeCount = Fin.ofNat 512 (2 * (leafNodes present).length - 1))
    (hlc : u.leafCount = Fin.ofNat 257 (leafNodes present).length) :
    ∃ t : NodeTree, TreeAt u t ∧ t.shape.symbols.Perm (present.map Prod.fst) ∧
      u.root.val = 2 * present.length - 2 ∧ (buildNodes (leafNodes present)).1.length = 2 * present.length - 1 ∧
      ∀ i, i < present.length → (buildNodes (leafNodes present)).1.getD i Node.zero = (leafNodes present).getD i Node.zero := by
  obtain ⟨ts, hf, hsym, htl, hidx⟩ := Forest.leaves present hl
  have hL : 0 < present.length := List.length_pos_iff.mpr h0
  have hlen : (leafNodes present).length = present.length := by simp [leafNodes]
  have hq : (initialQueue (leafNodes present)).length = present.length := by simp [initialQueue, leafNodes]
  obtain ⟨t, g1, g2, g3, g4, g5, g6⟩ := Forest.mergeLoop (leafNodes present).length hf (by omega) (by omega) (by omega)
  change Forest (buildNodes (leafNodes present)).1 (buildNodes (leafNodes present)).2 [t] at g1
  change (buildNodes (leafNodes present)).1.length + 1 = _ at g2
  change _ → _ = (buildNodes (leafNodes present)).1.length at g3
  have hcount : (buildNodes (leafNodes present)).1.length = 2 * present.length - 1 := by omega
  have hroot : u.root = t.idx := by
    rw [hr]
    have := g1.entries
    simp only [List.map_cons, List.map_nil] at this
    rw [List.perm_singleton.mp this]
    simp only [queueRoot, entryOf]
    exact Fin.ext (Nat.mod_eq_of_lt t.idx.isLt)
  have hsyms : t.shape.symbols.Perm (present.map Prod.fst) := by rw [← hsym]; exact g5
  have hnc : u.nodeCount.val = 2 * present.length - 1 := by
    rw [hc, Fin.val_ofNat, hlen, Nat.mod_eq_of_lt (by omega)]
  have hind := g1.indices
  simp only [List.flatMap_cons, List.flatMap_nil, List.append_nil] at hind
  refine ⟨t, ⟨hroot.symm, ?_, ?_, ?_, ?_, ?_⟩, hsyms, ?_, hcount, ?_⟩
  · rw [hn]; exact g1.held t (List.mem_singleton.mpr rfl)
  · exact (hind.nodup_iff.mpr List.nodup_range).of_map _
  · intro i
    rw [hnc, ← hcount, ← List.mem_range, ← hind.mem_iff]
    constructor
    · intro h; exact List.mem_map_of_mem h
    · intro h; obtain ⟨j, hj, he⟩ := List.mem_map.mp h; rwa [← Fin.ext he]
  · intro i hi
    rw [State.nodeAt, hn, nodeIn_nodeMemory, List.getD_eq_getElem?_getD, List.getElem?_eq_none (by omega)]; rfl
  · rw [hlc, Fin.val_ofNat, hlen, Nat.mod_eq_of_lt (by omega), hsyms.length_eq]; simp
  · rw [hroot]
    by_cases h1 : present.length = 1
    · have := hidx t (by rw [g4 (by omega)]; exact List.mem_singleton.mpr rfl) h1
      rw [this, h1]; rfl
    · have := g3 (by omega); omega
  · intro i hi; exact g6 i (by omega)

end Sys2Proof.Machine
end

