-- ==== Sys2Proof/Machine/HostProgram.lean ====
section
/-! DEFINITION. Host programs (spec/30_encoding.md R110 to R114): the lines a host program is written in, the host
transactions each expands to, and the command sequences of spec/70_reset_and_hazards.md R286 and R287. -/

namespace Sys2Proof.Machine

/-- One line of a host program. A target may be named (R111), or given as an offset by the `At` forms. -/
inductive HostLine where
  /-- A bare mnemonic, or `CMD mnemonic` (R110). -/
  | cmd (i : Instr)
  /-- `CMD 0x...`: a raw command word, legal or not (R110). -/
  | cmdRaw (w : Word)
  /-- `WR target, value` (R111). -/
  | wr (t : Target) (v : Word)
  /-- `WR offset, value` (R111). -/
  | wrAt (off : Word) (v : Word)
  /-- `RD target` (R111). -/
  | rd (t : Target)
  /-- `RD offset` (R111). -/
  | rdAt (off : Word)
  /-- `WRB offset, value`: a one-byte write, which the port refuses (R111, R43). -/
  | wrb (off : Word) (v : Word)
  /-- `WRH offset, value`: a two-byte write, which the port refuses (R111, R43). -/
  | wrh (off : Word) (v : Word)
  /-- `WAIT` (R112). -/
  | wait
  /-- `SETFREQ s, v` (R113). -/
  | setfreq (s : Byte) (v : Word)
  /-- `SRC a, e` (R113). -/
  | src (a e : Word)
  /-- `DST a, e` (R113). -/
  | dst (a e : Word)
deriving DecidableEq, Repr

/-- The host write of a named register (R111). -/
def writeEvent (t : Target) (v : Word) : Event := .host (.writeReg t.offset .word v)

/-- The events a line expands to (R110 to R113). -/
def HostLine.expand : HostLine → List Event
  | .cmd i => [writeEvent .cmd (encode i)]
  | .cmdRaw w => [writeEvent .cmd w]
  | .wr t v => [writeEvent t v]
  | .wrAt off v => [.host (.writeReg off .word v)]
  | .rd t => [.host (.readReg t.offset .word)]
  | .rdAt off => [.host (.readReg off .word)]
  | .wrb off v => [.host (.writeReg off .byte v)]
  | .wrh off v => [.host (.writeReg off .half v)]
  | .wait => [.wait]
  | .setfreq s v => [writeEvent (.freq s) v]
  | .src a e => [writeEvent .srcAddr a, writeEvent .srcEnd e]
  | .dst a e => [writeEvent .dstAddr a, writeEvent .dstEnd e]

/-- The events of a whole program, in order. -/
def expandProgram (lines : List HostLine) : List Event := lines.flatMap HostLine.expand

/-- The machine with a host program as the coming events, followed by whatever was scheduled. -/
def State.withProgram (s : State) (lines : List HostLine) : State :=
  { s with schedule := expandProgram lines ++ s.schedule }

/-- The machine with bytes in shared memory: `MEM a: b0 b1 ...` as a start state (R114). -/
def State.withBytes (s : State) (a : Word) (bs : List Byte) : State :=
  { s with mem := Memory.load s.mem a.toNat bs }

/-- What `EXPECT offset = value` states of a state (R114): the value that `RD offset` returns there, whatever BUSY and the
offset are, so a free value while a command is pending (R44) and 0 at a misaligned offset (R43). The state does not move:
EXPECT is no hardware operation. -/
def expectsAt (s : State) (off v : Word) : Bool := (hostReadReg s off .word).response == .word v

/-- What `EXPECT target = value` states of a state (R114), the target by its name (R111). -/
def expects (s : State) (t : Target) (v : Word) : Bool := expectsAt s t.offset v

/-- The host's command sequence to compress the input [inA, inE) whose frequency table is `freqs` into the artifact
region [outA, outE) (R286). -/
def compressLines (freqs : List (Byte × Word)) (inA inE outA outE : Word) : List HostLine :=
  [.cmd .clear, .wait] ++ freqs.map (fun p => .setfreq p.1 p.2) ++
    [.cmd .build, .wait, .cmd .gencode, .wait, .dst outA outE, .cmd .serialize, .wait,
     .src inA inE, .cmd .pack, .wait]

/-- The host's command sequence to decompress the artifact in [inA, inE) into [outA, outE) (R287). -/
def decompressLines (inA inE outA outE : Word) : List HostLine :=
  [.src inA inE, .cmd .deserialize, .wait, .dst outA outE, .cmd .unpack, .wait]

end Sys2Proof.Machine
end

