-- ==== Sys2Proof/Laws/HostPort.lean ====
section
/-! SUPPORT. The laws of the HOST's steps: what each transaction can change, and that no transaction changes what only a
command changes. -/

namespace Sys2Proof.Machine

/-! ### Register accesses -/

/-- A host read changes what it returns, the draw counter, and ACCERR when it is refused (R43, R45). -/
theorem hostReadReg_cases (s : State) (off : Word) (size : AccessSize) :
    (accessDefined off size = false ∧
        hostReadReg s off size = { s with response := .word 0#32, status := { s.status with accerr := true } }) ∨
      (accessDefined off size = true ∧ ∃ w, hostReadReg s off size = { s with response := .word w }) ∨
      (accessDefined off size = true ∧
        hostReadReg s off size = { s with response := .word (Config.freeWord s.draws), draws := s.draws + 1 }) := by
  unfold hostReadReg
  cases ha : accessDefined off size with
  | false => exact .inl ⟨rfl, rfl⟩
  | true =>
    simp only [if_true]
    split
    · exact .inr (.inr ⟨trivial, rfl⟩)
    · split
      · rename_i w _
        exact .inr (.inl ⟨trivial, w, rfl⟩)
      · exact .inr (.inr ⟨trivial, rfl⟩)

/-- While BUSY = 1 a host write only sets ACCERR (R44). -/
theorem hostWriteReg_busy {s : State} (h : s.status.busy = true) (off : Word) (size : AccessSize) (v : Word) :
    hostWriteReg s off size v = { s with status := { s.status with accerr := true } } := by
  simp [hostWriteReg, h, State.setAccerr]

/-- A host write is refused, or writes its target while BUSY = 0 (R43, R44, R45). -/
theorem hostWriteReg_cases (s : State) (off : Word) (size : AccessSize) (v : Word) :
    hostWriteReg s off size v = { s with status := { s.status with accerr := true } } ∨
      (s.status.busy = false ∧ accessDefined off size = true ∧
        hostWriteReg s off size v = writeTarget s (decodeOffset off) v) := by
  unfold hostWriteReg
  split
  · rename_i h
    simp only [Bool.and_eq_true, Bool.not_eq_true'] at h
    exact .inr ⟨h.2, h.1, rfl⟩
  · exact .inl rfl

/-! ### What EXPECT states -/

/-- EXPECT compares what RD returns: 0 where the access is refused, a free value where the read is unspecified, else the
register's value (R43, R44, R61, R114). -/
theorem expectsAt_eq (s : State) (off v : Word) :
    expectsAt s off v =
      ((if accessDefined off .word then
          if s.status.busy && !(decodeOffset off).readableWhileBusy then Config.freeWord s.draws
          else (registerValue s (decodeOffset off)).getD (Config.freeWord s.draws)
        else 0#32) == v) := by
  have hw : ∀ x : Word, (Response.word x == Response.word v) = (x == v) := by
    intro x
    rw [Bool.eq_iff_iff]
    simp
  unfold expectsAt hostReadReg
  split
  · split
    · exact hw _
    · split <;> rename_i h <;> rw [h] <;> exact hw _
  · exact hw _

/-! ### What no host transaction changes -/

/-- What only a command or a reset changes: the tree, the codes, the result registers, the flags of a command, and the
platform's memory map (R30, R45, R53). -/
structure KeepsResults (s t : State) : Prop where
  total      : t.total = s.total
  root       : t.root = s.root
  nodeCount  : t.nodeCount = s.nodeCount
  leafCount  : t.leafCount = s.leafCount
  node       : t.node = s.node
  code       : t.code = s.code
  outcnt     : t.outcnt = s.outcnt
  bitcnt     : t.bitcnt = s.bitcnt
  errInfo    : t.errInfo = s.errInfo
  treeValid  : t.status.treeValid = s.status.treeValid
  empty      : t.status.empty = s.status.empty
  codesValid : t.status.codesValid = s.status.codesValid
  err        : t.status.err = s.status.err
  admitMap      : t.admitMap = s.admitMap

theorem KeepsResults.refl (s : State) : KeepsResults s s :=
  ⟨rfl, rfl, rfl, rfl, rfl, rfl, rfl, rfl, rfl, rfl, rfl, rfl, rfl, rfl⟩

theorem writeTarget_keeps (s : State) (t : Target) (v : Word) : KeepsResults s (writeTarget s t v) := by
  cases t <;> exact ⟨rfl, rfl, rfl, rfl, rfl, rfl, rfl, rfl, rfl, rfl, rfl, rfl, rfl, rfl⟩

theorem hostReadReg_keeps (s : State) (off : Word) (size : AccessSize) : KeepsResults s (hostReadReg s off size) := by
  rcases hostReadReg_cases s off size with ⟨_, h⟩ | ⟨_, w, h⟩ | ⟨_, h⟩ <;> rw [h] <;>
    exact ⟨rfl, rfl, rfl, rfl, rfl, rfl, rfl, rfl, rfl, rfl, rfl, rfl, rfl, rfl⟩

theorem hostStep_keeps (op : HostOp) (s : State) : KeepsResults s (hostStep op s) := by
  cases op with
  | readReg off size => exact hostReadReg_keeps s off size
  | writeReg off size v =>
    rcases hostWriteReg_cases s off size v with h | ⟨_, _, h⟩ <;> simp only [hostStep, h]
    · exact ⟨rfl, rfl, rfl, rfl, rfl, rfl, rfl, rfl, rfl, rfl, rfl, rfl, rfl, rfl⟩
    · exact writeTarget_keeps _ _ _
  | readMem a =>
    simp only [hostStep, hostReadMem]
    split <;> exact ⟨rfl, rfl, rfl, rfl, rfl, rfl, rfl, rfl, rfl, rfl, rfl, rfl, rfl, rfl⟩
  | writeMem a v =>
    simp only [hostStep, hostWriteMem]
    split <;> exact ⟨rfl, rfl, rfl, rfl, rfl, rfl, rfl, rfl, rfl, rfl, rfl, rfl, rfl, rfl⟩

/-- A poll is a host read of STATUS and a change of the schedule (R112). -/
theorem waitStep_cases (rest : List Event) (s : State) :
    ∃ sched, waitStep rest s = { hostReadReg s 0x0010#32 .word with schedule := sched } := by
  unfold waitStep
  simp only
  split
  · exact ⟨_, rfl⟩
  · split <;> exact ⟨_, rfl⟩

/-! ### Races -/

theorem insertAddr_mem (a x : Nat) (l : List Nat) : x ∈ insertAddr a l ↔ x = a ∨ x ∈ l := by
  induction l with
  | nil => simp [insertAddr]
  | cons b l ih =>
    simp only [insertAddr]
    split
    · simp
    · split
      · subst_vars
        simp only [List.mem_cons]
        tauto
      · simp only [List.mem_cons, ih]
        tauto

/-- A host write of shared memory stores the byte; the raced bytes grow only by it (R86). -/
theorem hostWriteMem_cases (s : State) (a : Word) (v : Byte) :
    (hostWriteMem s a v).mem = Memory.write s.mem a.toNat v ∧
      ∀ x ∈ (hostWriteMem s a v).raced, x = a.toNat ∨ x ∈ s.raced := by
  unfold hostWriteMem
  simp only
  split
  · exact ⟨rfl, fun x hx => (insertAddr_mem _ _ _).mp hx⟩
  · exact ⟨rfl, fun x hx => .inr hx⟩

end Sys2Proof.Machine
end

