-- ==== Sys2Proof/Laws/Pack.lean ====
section
/-! SUPPORT. The laws of PACK's body: its frame on every outcome, and its result when its reads are admitted and not raced
for. -/

namespace Sys2Proof.Machine

/-! ### The frame -/

/-- What the body of PACK keeps: stores between DST_ADDR and the output pointer, which stays within the region. -/
structure PackFrame (s0 : State) (st : PackState) : Prop where
  low    : s0.dstAddr.toNat ≤ st.q.toNat
  high   : st.q.toNat ≤ s0.dstEnd.toNat
  stores : OnlyStores s0.dstAddr.toNat st.q.toNat s0 st.s

/-- What an aborted body leaves: stores in the destination region only. -/
abbrev InDst (s0 : State) (_ : Err) (_ : Word) (t : State) : Prop :=
  OnlyStores s0.dstAddr.toNat s0.dstEnd.toNat s0 t

theorem PackFrame.inDst {s0 : State} {st : PackState} (h : PackFrame s0 st) :
    OnlyStores s0.dstAddr.toNat s0.dstEnd.toNat s0 st.s := h.stores.mono (Nat.le_refl _) h.high

theorem PackFrame.emit {s0 : State} {st : PackState} (h : PackFrame s0 st) (v : Byte) :
    (st.emit v).Spec (PackFrame s0) (InDst s0) (fun _ => False) := by
  have hE : s0.dstEnd.toNat < 4294967296 := s0.dstEnd.isLt
  have hsE : st.s.dstEnd = s0.dstEnd := h.stores.field State.dstEnd (fun _ _ => rfl)
  unfold PackState.emit
  split
  · exact h.inDst
  · rename_i hq
    have hlt : st.q.toNat < s0.dstEnd.toNat := by
      have : st.q.toNat ≠ s0.dstEnd.toNat := fun hh => hq (by rw [hsE]; exact BitVec.eq_of_toNat_eq hh)
      have := h.high
      omega
    cases hw : memWrite st.s st.q v with
    | ok t =>
      have h1 := pointer_succ st.q (by omega)
      refine ⟨by have := h.low; simp only; omega, by simp only; omega, ?_⟩
      simp only [h1]
      exact (h.stores.mono (Nat.le_refl _) (by omega)).trans (memWrite_onlyStores hw h.low (by omega))
    | raise e i t =>
      obtain ⟨_, _, _, rfl⟩ := memWrite_raise hw
      exact h.inDst
    | stuck f => exact absurd hw memWrite_not_stuck

theorem PackFrame.pushBit {s0 : State} {st : PackState} (h : PackFrame s0 st) (b : Bool) :
    (st.pushBit b).Spec (PackFrame s0) (InDst s0) (fun _ => False) := by
  unfold PackState.pushBit
  have h1 : PackFrame s0 { st with acc := shiftIn st.acc b, n := st.n + 1, bits := st.bits + 1 } :=
    ⟨h.low, h.high, h.stores⟩
  simp only
  split
  · exact (h1.emit _).bind (fun x hx => ⟨hx.low, hx.high, hx.stores⟩)
  · exact h1

theorem PackFrame.packCode {s0 : State} (code : List Bool) : ∀ {st : PackState}, PackFrame s0 st →
    (packCode code st).Spec (PackFrame s0) (InDst s0) (fun _ => False) := by
  induction code with
  | nil => intro st h; exact h
  | cons b code ih => intro st h; exact (h.pushBit b).bind (fun x hx => ih hx)

theorem PackFrame.packBytes {s0 : State} (k : Nat) : ∀ {a : Word} {st : PackState}, PackFrame s0 st →
    (packBytes k a st).Spec (PackFrame s0) (InDst s0) (fun f => f = .unwrittenCode) := by
  induction k with
  | zero => intro a st h; exact h
  | succ k ih =>
    intro a st h
    unfold Sys2Proof.Machine.packBytes
    cases hr : memRead st.s a with
    | stuck f => exact absurd hr memRead_not_stuck
    | raise e i t =>
      obtain ⟨_, _, _, rfl⟩ := memRead_raise hr
      exact h.inDst
    | ok r =>
      have hst : PackFrame s0 { st with s := r.2 } :=
        ⟨h.low, h.high, h.stores.trans (memRead_onlyStores hr _ _)⟩
      rw [Part.bind_ok]
      split
      · rfl
      · split
        · exact ((hst.packCode _).mono (fun _ h => h) (fun _ _ _ h => h) (fun _ h => h.elim)).bind (fun x hx => ih hx)
        · exact hst.inDst

/-- The frame of PACK's body (R81). -/
theorem packBody_frame (s : State) (h : s.dstAddr.toNat ≤ s.dstEnd.toNat) :
    (packBody s).Spec (PackFrame s) (InDst s) (fun f => f = .unwrittenCode) := by
  have h0 : PackFrame s { s := s, q := s.dstAddr, acc := 0x00#8, n := 0, bits := 0 } :=
    ⟨Nat.le_refl _, h, OnlyStores.refl _ _ _⟩
  refine (h0.packBytes _).bind (fun x hx => ?_)
  unfold PackState.flush
  split
  · exact hx
  · exact (hx.emit _).mono (fun _ h => h) (fun _ _ _ h => h) (fun _ h => h.elim)

theorem emit_memOnly (st : PackState) (v : Byte) :
    (st.emit v).Spec (fun x => MemOnly st.s x.s) (fun _ _ _ => True) (fun _ => False) := by
  unfold PackState.emit
  split
  · trivial
  · cases hw : memWrite st.s st.q v with
    | ok t => exact (memWrite_ok hw).2 ▸ rfl
    | raise e i t => trivial
    | stuck f => exact absurd hw memWrite_not_stuck

theorem packCode_memOnly (code : List Bool) : ∀ st : PackState,
    (packCode code st).Spec (fun x => MemOnly st.s x.s) (fun _ _ _ => True) (fun _ => False) := by
  induction code with
  | nil => intro st; exact rfl
  | cons b code ih =>
    intro st
    have h1 : (st.pushBit b).Spec (fun x => MemOnly st.s x.s) (fun _ _ _ => True) (fun _ => False) := by
      unfold PackState.pushBit
      simp only
      split
      · exact (emit_memOnly { st with acc := shiftIn st.acc b, n := st.n + 1, bits := st.bits + 1 } _).bind
          (fun x hx => hx)
      · exact rfl
    exact h1.bind (fun x hx => (ih x).mono (fun y hy => hx.trans hy) (fun _ _ _ h => h) (fun _ h => h))

/-- PACK meets an unwritten code only where CODE holds one. -/
theorem packBytes_written (k : Nat) : ∀ {a : Word} {st : PackState}, (∀ sym : Byte, (st.s.codeAt sym).isSome = true) →
    (packBytes k a st).Spec (fun _ => True) (fun _ _ _ => True) (fun _ => False) := by
  induction k with
  | zero => intros; trivial
  | succ k ih =>
    intro a st hc
    unfold Sys2Proof.Machine.packBytes
    cases hr : memRead st.s a with
    | stuck f => exact absurd hr memRead_not_stuck
    | raise e i t => trivial
    | ok r =>
      have hcode : ∀ sym, r.2.codeAt sym = st.s.codeAt sym := fun sym =>
        (memRead_onlyStores hr 0 0).field (fun s => s.codeAt sym) (fun _ _ => rfl)
      rw [Part.bind_ok]
      split
      · rename_i hn
        have := hc r.1
        rw [← hcode, hn] at this
        cases this
      · split
        · refine ((packCode_memOnly _ { st with s := r.2 }).mono (fun x hx => hx) (fun _ _ _ h => h)
            (fun _ h => h)).bind (fun x hx => ih (fun sym => ?_))
          rw [hx]
          simp only [State.codeAt] at hcode ⊢
          rw [hcode]
          exact hc sym
        · trivial

/-! ### The result -/

theorem State.payloadOf_append (s : State) (a b : List Byte) :
    s.payloadOf (a ++ b) = s.payloadOf a ++ s.payloadOf b := by simp [State.payloadOf]

/-- The pending bits flushed: the payload's last byte, zero padded (R210, R220). -/
theorem packBits_eq (bits : List Bool) : packBits bits =
    wholeBytes bits ++ (if bits.length % 8 = 0 then [] else [byteOfBits (bits.drop (8 * (bits.length / 8)))]) := by
  unfold packBits wholeBytes bytesFor
  split
  · rw [show (bits.length + 7) / 8 = bits.length / 8 by omega, List.append_nil]
  · rw [show (bits.length + 7) / 8 = bits.length / 8 + 1 by omega, List.range_succ, List.map_append, List.map_singleton]

/-- The flush: the whole payload is stored, or the wall (R210, R218). -/
theorem PackRel.flush {s0 : State} {q0 : Word} {lim : Nat} {e : Err} {info : Word} {bits : List Bool} {st : PackState}
    (h : PackRel s0 q0 bits st) (hw : Wall s0 q0 lim e info) (hroom : q0.toNat + bits.length / 8 ≤ lim) :
    (q0.toNat + bytesFor bits.length ≤ lim ∧
        ∃ st', st.flush = .ok st' ∧ st'.bits = bits.length ∧ st'.q.toNat = q0.toNat + bytesFor bits.length ∧
          st'.s = { s0 with mem := Memory.load s0.mem q0.toNat (packBits bits) }) ∨
      (lim < q0.toNat + bytesFor bits.length ∧ st.flush = .raise e info st.s) := by
  have hE : s0.dstEnd.toNat < 4294967296 := s0.dstEnd.isLt
  have hL := hw.inside
  have hs := h.s
  have hq := h.q
  have hm : MemOnly s0 st.s := by rw [hs]
  by_cases h0 : bits.length % 8 = 0
  · have hb : bytesFor bits.length = bits.length / 8 := by unfold bytesFor; omega
    refine .inl ⟨by omega, st, by simp [PackState.flush, h.n, h0], h.count, by omega, ?_⟩
    rw [hs, packBits_eq, if_pos h0, List.append_nil]
  · have hb : bytesFor bits.length = bits.length / 8 + 1 := by unfold bytesFor; omega
    have hn : st.n ≠ 0 := by rw [h.n]; exact h0
    by_cases hfull : st.q.toNat = lim
    · exact .inr ⟨by omega, by rw [PackState.flush, if_neg hn, hw.stop st _ hm hfull]⟩
    · refine .inl ⟨by omega,
        { st with
          s := { st.s with mem := Memory.write st.s.mem st.q.toNat (st.acc <<< (8 - st.n)) }
          q := st.q + 1#32 }, ?_, h.count, ?_, ?_⟩
      · rw [PackState.flush, if_neg hn, hw.emit _ hm (by omega) (by omega)]
      · simp only
        rw [pointer_succ _ (by omega)]
        omega
      · have hv : st.acc <<< (8 - st.n) = byteOfBits (bits.drop (8 * (bits.length / 8))) := by
          have hl : (bits.drop (8 * (bits.length / 8))).length = bits.length % 8 := by
            rw [List.length_drop]; omega
          rw [h.acc, h.n, ← hl, accOf_flush _ (by omega)]
        simp only [hv]
        rw [packBits_eq, if_neg h0, Memory.load_concat, wholeBytes_length, hs, hq]

/-- A loop over `k + m` bytes is one over `k` and then one over `m`. -/
theorem packBytes_add (k m : Nat) : ∀ (a : Word) (st : PackState),
    packBytes (k + m) a st = (packBytes k a st).bind (packBytes m (a + BitVec.ofNat 32 k)) := by
  induction k with
  | zero => intro a st; simp [packBytes]
  | succ k ih =>
    intro a st
    have hadd : a + 1#32 + BitVec.ofNat 32 k = a + BitVec.ofNat 32 (k + 1) := by
      apply BitVec.eq_of_toNat_eq
      simp only [BitVec.toNat_add, BitVec.toNat_ofNat]
      omega
    rw [show k + 1 + m = (k + m) + 1 by omega]
    unfold packBytes
    cases hr : memRead st.s a with
    | stuck f => rfl
    | raise e i t => rfl
    | ok r =>
      simp only [Part.bind_ok]
      split
      · rfl
      · split
        · cases packCode _ _ with
          | stuck f => rfl
          | raise e i t => rfl
          | ok x => simp only [Part.bind_ok]; rw [ih, hadd]
        · rfl

/-- What PACK's loop does when its reads are admitted and not raced for and every byte read has a CODE entry: it ends with
the whole input packed, or at the first byte without a code, or at the
wall. -/
theorem PackRel.packBytes {s0 : State} {q0 : Word} {lim : Nat} {e : Err} {info : Word}
    (hw : Wall s0 q0 lim e info) (k : Nat) :
    ∀ {a : Word} {bits : List Bool} {st : PackState}, PackRel s0 q0 bits st →
    q0.toNat + bits.length / 8 ≤ lim → a.toNat + k < 4294967296 →
    (∀ j : Nat, j < k → ¬ (q0.toNat ≤ a.toNat + j ∧ a.toNat + j < lim)) →
    s0.admitsRange .read a.toNat (a.toNat + k) → (∀ j : Nat, j < k → a.toNat + j ∉ s0.raced) →
    (∀ j : Nat, j < k → (s0.codeAt (Memory.read s0.mem (a.toNat + j))).isSome = true) →
    ((∀ b ∈ Memory.bytesAt s0.mem a.toNat k, ∃ c, s0.codeAt b = some c ∧ c.present = true) ∧
      q0.toNat + (bits.length + (s0.payloadOf (Memory.bytesAt s0.mem a.toNat k)).length) / 8 ≤ lim ∧
      ∃ st', packBytes k a st = .ok st' ∧
        PackRel s0 q0 (bits ++ s0.payloadOf (Memory.bytesAt s0.mem a.toNat k)) st') ∨
    (∃ (j : Nat) (c : Code) (x : Word), j < k ∧ x.toNat = a.toNat + j ∧
      (∀ b ∈ Memory.bytesAt s0.mem a.toNat j, ∃ c, s0.codeAt b = some c ∧ c.present = true) ∧
      s0.codeAt (Memory.read s0.mem (a.toNat + j)) = some c ∧ c.present = false ∧
      q0.toNat + (bits.length + (s0.payloadOf (Memory.bytesAt s0.mem a.toNat j)).length) / 8 ≤ lim ∧
      ∃ t, packBytes k a st = .raise .nocode x t ∧ OnlyStores q0.toNat s0.dstEnd.toNat s0 t ∧ t.draws = s0.draws) ∨
    (∃ j : Nat, j ≤ k ∧
      (∀ b ∈ Memory.bytesAt s0.mem a.toNat j, ∃ c, s0.codeAt b = some c ∧ c.present = true) ∧
      lim < q0.toNat + (bits.length + (s0.payloadOf (Memory.bytesAt s0.mem a.toNat j)).length) / 8 ∧
      ∃ t, packBytes k a st = .raise e info t ∧ OnlyStores q0.toNat s0.dstEnd.toNat s0 t ∧
        t.draws = s0.draws) := by
  induction k with
  | zero =>
    intro a bits st h hroom _ _ _ _ _
    exact .inl ⟨by simp, by simpa [State.payloadOf] using hroom, st, rfl, by simpa [State.payloadOf] using h⟩
  | succ k ih =>
    intro a bits st h hroom ha hdis hread hrace hcode
    have hL := hw.inside
    have hs := h.s
    have hq := h.q
    have h1 : (a + 1#32).toNat = a.toNat + 1 := pointer_succ a (by omega)
    have hmem : Memory.read st.s.mem a.toNat = Memory.read s0.mem a.toNat := by
      rw [hs]
      refine Memory.read_load_outside _ _ _ _ ?_
      have := hdis 0 (by omega)
      rw [wholeBytes_length]
      omega
    have hr : memRead st.s a = .ok (Memory.read s0.mem a.toNat, st.s) := by
      rw [← hmem]
      apply memRead_admitted
      · rw [hs]; exact hread a (by omega) (by omega)
      · rw [hs]; simpa using hrace 0 (by omega)
    obtain ⟨c, hc⟩ := Option.isSome_iff_exists.mp (by simpa using hcode 0 (by omega))
    have hcs : st.s.codeAt (Memory.read s0.mem a.toNat) = some c := by
      rw [hs]; exact hc
    have hpay : ∀ n, s0.payloadOf (Memory.bytesAt s0.mem a.toNat (n + 1)) =
        c.bits ++ s0.payloadOf (Memory.bytesAt s0.mem (a.toNat + 1) n) := by
      intro n
      rw [Memory.bytesAt_succ]
      simp [State.payloadOf, hc]
    have hall : c.present = true → ∀ n,
        (∀ b ∈ Memory.bytesAt s0.mem (a.toNat + 1) n, ∃ c, s0.codeAt b = some c ∧ c.present = true) →
        ∀ b ∈ Memory.bytesAt s0.mem a.toNat (n + 1), ∃ c, s0.codeAt b = some c ∧ c.present = true := by
      intro hp n hn b hb
      rw [Memory.bytesAt_succ] at hb
      rcases List.mem_cons.mp hb with rfl | hb
      · exact ⟨c, hc, hp⟩
      · exact hn b hb
    unfold Sys2Proof.Machine.packBytes
    rw [hr, Part.bind_ok]
    simp only [hcs]
    by_cases hp : c.present = true
    · rw [if_pos hp]
      rcases h.packCode c.bits hw hroom with ⟨h2, st1, h3, h4⟩ | ⟨h2, t, h3, h4, h5⟩
      · have hst : { st with s := st.s } = st := rfl
        rw [hst, h3, Part.bind_ok]
        have hlen : (bits ++ c.bits).length = bits.length + c.bits.length := by simp
        have := ih (a := a + 1#32) h4 (by rw [hlen]; exact h2) (by omega)
          (fun j hj => by rw [h1]; have := hdis (j + 1) (by omega); omega)
          (fun x hl hh => hread x (by omega) (by omega))
          (fun j hj => by rw [h1]; have := hrace (j + 1) (by omega); rwa [show a.toNat + (j + 1) = a.toNat + 1 + j by omega] at this)
          (fun j hj => by rw [h1]; have := hcode (j + 1) (by omega); rwa [show a.toNat + (j + 1) = a.toNat + 1 + j by omega] at this)
        rw [h1] at this
        rcases this with ⟨h5, h6, st', h7, h8⟩ | ⟨j, c', x, h5, h6, h7, h8, h9, h10, h11⟩ | ⟨j, h5, h6, h7, h8⟩
        · refine .inl ⟨hall hp k h5, ?_, st', h7, ?_⟩
          · rw [hpay, List.length_append, ← Nat.add_assoc, ← hlen]; exact h6
          · rw [hpay, ← List.append_assoc]; exact h8
        · refine .inr (.inl ⟨j + 1, c', x, by omega, by omega, hall hp j h7, ?_, h9, ?_, h11⟩)
          · rw [show a.toNat + (j + 1) = a.toNat + 1 + j by omega]; exact h8
          · rw [hpay, List.length_append, ← Nat.add_assoc, ← hlen]; exact h10
        · refine .inr (.inr ⟨j + 1, by omega, hall hp j h6, ?_, h8⟩)
          rw [hpay, List.length_append, ← Nat.add_assoc, ← hlen]; exact h7
      · refine .inr (.inr ⟨1, by omega, ?_, ?_, t, by rw [h3]; rfl, h4, h5⟩)
        · exact hall hp 0 (by simp)
        · rw [hpay 0]; simpa [State.payloadOf] using h2
    · have hp' : c.present = false := by simpa using hp
      rw [if_neg hp]
      refine .inr (.inl ⟨0, c, a, by omega, rfl, by simp, by simpa using hc, hp', by simpa [State.payloadOf] using hroom,
        st.s, rfl, ⟨by rw [hs], fun x hx => ?_⟩, by rw [hs]⟩)
      rw [hs]
      exact Memory.lookup_load_outside _ _ _ _ (by rw [wholeBytes_length]; omega)

/-! ### Refused accesses -/

/-- PACK before its first byte. -/
theorem PackRel.start (s : State) :
    PackRel s s.dstAddr [] { s := s, q := s.dstAddr, acc := 0x00#8, n := 0, bits := 0 } :=
  ⟨rfl, rfl, rfl, rfl, rfl⟩

/-- The source bytes of PACK lie apart from the bytes it writes (R82). -/
theorem PackReady.apart_at {s : State} (h : PackReady s) {lim : Nat} (hl : lim ≤ s.dstEnd.toNat) {j : Nat}
    (hj : s.srcAddr.toNat + j < s.srcEnd.toNat) :
    ¬ (s.dstAddr.toNat ≤ s.srcAddr.toNat + j ∧ s.srcAddr.toNat + j < lim) := by
  have ho := h.apart
  intro ⟨h1, h2⟩
  have := overlap_false ho (fun hh => by rw [hh] at hj; omega) (fun hh => by rw [hh] at h1; omega)
  omega

/-- The first `m` source bytes of PACK, admitted and each with a code: packed, or the wall (R210). -/
theorem PackReady.prefix {s : State} {lim m : Nat} {e : Err} {info : Word} (h : PackReady s)
    (hw : Wall s s.dstAddr lim e info) (hl : s.dstAddr.toNat ≤ lim) (hm : m ≤ s.total.toNat)
    (hc : s.coded (s.srcPrefix m)) (hrd : s.admitsRange .read s.srcAddr.toNat (s.srcAddr.toNat + m)) :
    (s.dstAddr.toNat + (s.payloadOf (s.srcPrefix m)).length / 8 ≤ lim ∧
      ∃ st', packBytes m s.srcAddr { s := s, q := s.dstAddr, acc := 0x00#8, n := 0, bits := 0 } = .ok st' ∧
        PackRel s s.dstAddr (s.payloadOf (s.srcPrefix m)) st') ∨
    (lim < s.dstAddr.toNat + (s.payloadOf (s.srcPrefix m)).length / 8 ∧
      ∃ t, packBytes m s.srcAddr { s := s, q := s.dstAddr, acc := 0x00#8, n := 0, bits := 0 } = .raise e info t ∧
        OnlyStores s.dstAddr.toNat s.dstEnd.toNat s t ∧ t.draws = s.draws) := by
  have hE : s.srcEnd.toNat < 4294967296 := s.srcEnd.isLt
  have hlen := h.length
  unfold regionBytes at hlen
  have hcb : ∀ j, j < m → Memory.read s.mem (s.srcAddr.toNat + j) ∈ s.srcPrefix m := fun j hj =>
    List.mem_map.mpr ⟨j, List.mem_range.mpr hj, rfl⟩
  rcases PackRel.packBytes hw m (a := s.srcAddr) (PackRel.start s) (by simpa using hl) (by omega)
    (fun j hj => h.apart_at hw.inside (by omega)) hrd (fun j hj => h.unraced _ (by simp [inRegion]; omega))
    (fun j hj => by obtain ⟨c, hc, -⟩ := hc _ (hcb j hj); rw [hc]; rfl) with
    ⟨_, h1, st, h2, h3⟩ | ⟨j, c, x, hj, _, _, hcj, hp, _⟩ | ⟨j, hj, _, h1, t, h2, h3, h4⟩
  · exact .inl ⟨by simpa [State.srcPrefix] using h1, st, h2, by simpa [State.srcPrefix] using h3⟩
  · obtain ⟨c', hc', hp'⟩ := hc _ (hcb j hj)
    rw [hc'] at hcj
    cases hcj
    rw [hp] at hp'; cases hp'
  · refine .inr ⟨?_, t, h2, h3, h4⟩
    simp only [List.length_nil, Nat.zero_add] at h1
    have : (s.payloadOf (Memory.bytesAt s.mem s.srcAddr.toNat j)).length ≤ (s.payloadOf (s.srcPrefix m)).length := by
      rw [State.srcPrefix, show m = j + (m - j) by omega, Memory.bytesAt_append, State.payloadOf_append,
        List.length_append]
      omega
    omega

/-- There is a wall at or after every limit up to which PACK may write. -/
theorem Wall.exists {s : State} {q : Word} {lim : Nat} (hq : q.toNat ≤ lim) (hl : lim ≤ s.dstEnd.toNat)
    (hadm : s.admitsRange .write q.toNat lim) :
    ∃ (lim' : Nat) (e : Err) (info : Word), lim ≤ lim' ∧ Wall s q lim' e info := by
  have hE : s.dstEnd.toNat < 4294967296 := s.dstEnd.isLt
  obtain ⟨m, h1, h2, h3⟩ := s.admits_until .write q.toNat (s.dstEnd.toNat - q.toNat) (by omega)
  by_cases hm : m < s.dstEnd.toNat - q.toNat
  · obtain ⟨a, ha, hr⟩ := h3 hm
    have had : a.toNat < s.dstEnd.toNat := by omega
    refine ⟨a.toNat, .bus, a, ?_, Wall.bus had (by rw [ha]; exact h2) hr⟩
    by_contra hc
    rw [hadm a (by omega) (by omega)] at hr
    cases hr
  · have hme : q.toNat + m = s.dstEnd.toNat := by clear h3; omega
    rw [hme] at h2
    exact ⟨_, _, _, hl, Wall.dstFull h2⟩

/-- PACK's read of a source byte that ADMIT refuses (R80, R253). -/
theorem packBody_readRefused {s : State} {k : Nat} {a : Word} (h : PackReady s) (hk : k < s.total.toNat)
    (hc : s.coded (s.srcPrefix k)) (hfit : s.dstAddr.toNat + (s.payloadOf (s.srcPrefix k)).length / 8 ≤ s.dstEnd.toNat)
    (hrd : s.admitsRange .read s.srcAddr.toNat (s.srcAddr.toNat + k))
    (hwr : s.admitsRange .write s.dstAddr.toNat (s.dstAddr.toNat + (s.payloadOf (s.srcPrefix k)).length / 8))
    (ha : a.toNat = s.srcAddr.toNat + k) (hr : s.admits a .read = false) :
    ∃ t, packBody s = .raise .bus a t ∧ OnlyStores s.dstAddr.toNat s.dstEnd.toNat s t ∧ t.draws = s.draws := by
  have hE : s.srcEnd.toNat < 4294967296 := s.srcEnd.isLt
  have hlen := h.length
  have hlen' := hlen
  unfold regionBytes at hlen'
  obtain ⟨lim, e, info, hle, hw⟩ := Wall.exists (Nat.le_add_right ..) hfit hwr
  rcases h.prefix hw (by omega) (by omega) hc hrd with ⟨-, st, h1, h2⟩ | ⟨h1, -⟩
  · have hs := h2.s
    have hak : s.srcAddr + BitVec.ofNat 32 k = a := by
      apply BitVec.eq_of_toNat_eq
      rw [BitVec.toNat_add, BitVec.toNat_ofNat]
      omega
    have hr' : st.s.admits a .read = false := by rw [hs]; exact hr
    refine ⟨st.s, ?_, ⟨by rw [hs], fun x hx => ?_⟩, by rw [hs]⟩
    · unfold packBody
      rw [hlen, show s.total.toNat = k + ((s.total.toNat - k - 1) + 1) by omega, packBytes_add, h1, Part.bind_ok, hak,
        packBytes, memRead_refused hr']
      rfl
    · rw [hs]
      exact Memory.lookup_load_outside _ _ _ _ (by rw [wholeBytes_length]; omega)
  · omega

/-- PACK's write of payload byte `k` that ADMIT refuses, once `m` source bytes give its bits (R80, R253). -/
theorem packBody_writeRefused {s : State} {k m : Nat} {a : Word} (h : PackReady s) (hm : m ≤ s.total.toNat)
    (hc : s.coded (s.srcPrefix m))
    (hk : 8 * (k + 1) ≤ (s.payloadOf (s.srcPrefix m)).length ∨
      (m = s.total.toNat ∧ k < bytesFor (s.payloadOf (s.srcPrefix m)).length))
    (hfit : s.dstAddr.toNat + k < s.dstEnd.toNat)
    (hrd : s.admitsRange .read s.srcAddr.toNat (s.srcAddr.toNat + m))
    (hwr : s.admitsRange .write s.dstAddr.toNat (s.dstAddr.toNat + k))
    (ha : a.toNat = s.dstAddr.toNat + k) (hr : s.admits a .write = false) :
    ∃ t, packBody s = .raise .bus a t ∧ OnlyStores s.dstAddr.toNat s.dstEnd.toNat s t ∧ t.draws = s.draws := by
  have hlen := h.length
  have hw : Wall s s.dstAddr a.toNat .bus a := Wall.bus (by omega) (by rw [ha]; exact hwr) hr
  unfold packBody
  rw [hlen, show s.total.toNat = m + (s.total.toNat - m) by omega, packBytes_add]
  rcases h.prefix hw (by omega) hm hc hrd with ⟨hroom, st, h1, h2⟩ | ⟨-, t, h1, h2, h3⟩
  · have hs := h2.s
    obtain ⟨rfl, hk⟩ : m = s.total.toNat ∧ k < bytesFor (s.payloadOf (s.srcPrefix m)).length := by
      rcases hk with hk | hk
      · omega
      · exact hk
    rcases h2.flush hw hroom with ⟨h3, -⟩ | ⟨-, h4⟩
    · omega
    · rw [Nat.sub_self, h1]
      refine ⟨st.s, h4, ⟨by rw [hs], fun x hx => ?_⟩, by rw [hs]⟩
      rw [hs]
      exact Memory.lookup_load_outside _ _ _ _ (by rw [wholeBytes_length]; omega)
  · rw [h1]
    exact ⟨t, rfl, h2, h3⟩

end Sys2Proof.Machine
end

