-- ==== Sys2Proof/Laws/PerInstr.lean ====
section
/-! SUPPORT. Laws stated one instruction at a time. Family CommandWord: the command's own word is well-formed, with RSV = 0
and OP the opcode of the table (spec/30_encoding.md R100, R102). -/

namespace Sys2Proof.Laws.CommandWord

/-- The word of a command is well-formed and carries its opcode. -/
def Statement (i : Instr) : Prop :=
  i.wellFormed = true ∧ wordWellFormed (encode i) = true ∧ rsvField (encode i) = 0#24 ∧
    opField (encode i) = opcodeOf i ∧ Instr.ofMnemonic i.mnemonic = some i

theorem nop : Statement .nop := by unfold Statement; decide
theorem clear : Statement .clear := by unfold Statement; decide
theorem build : Statement .build := by unfold Statement; decide
theorem gencode : Statement .gencode := by unfold Statement; decide
theorem serialize : Statement .serialize := by unfold Statement; decide
theorem deserialize : Statement .deserialize := by unfold Statement; decide
theorem pack : Statement .pack := by unfold Statement; decide
theorem unpack : Statement .unpack := by unfold Statement; decide

end Sys2Proof.Laws.CommandWord
end

