-- ==== Sys2Proof/Laws/Unpack.lean ====
section
/-! SUPPORT. The laws of UNPACK's body: its frame on every outcome, and its result on a payload that is a run of codes. -/

namespace Sys2Proof.Machine

/-! ### The frame -/

/-- What the body of UNPACK keeps: one byte stored for each symbol written, and a read pointer that does not go back. -/
structure UnpackFrame (s0 : State) (st : UnpackState) : Prop where
  q      : st.q.toNat = s0.dstAddr.toNat + st.cnt
  cnt    : st.cnt ≤ s0.total.toNat
  stores : OnlyStores s0.dstAddr.toNat st.q.toNat s0 st.s

/-- The destination region holds TOTAL bytes: the precondition of R234. -/
abbrev HoldsTotal (s : State) : Prop := s.dstAddr.toNat + s.total.toNat ≤ s.dstEnd.toNat

theorem UnpackFrame.inDst {s0 : State} {st : UnpackState} (hr : HoldsTotal s0) (h : UnpackFrame s0 st) :
    OnlyStores s0.dstAddr.toNat s0.dstEnd.toNat s0 st.s :=
  h.stores.mono (Nat.le_refl _) (by have := h.q; have := h.cnt; unfold HoldsTotal at hr; omega)

theorem UnpackFrame.putSym {s0 : State} {st : UnpackState} (hr : HoldsTotal s0) (h : UnpackFrame s0 st)
    (hc : st.cnt < s0.total.toNat) (sym : Byte) :
    (st.putSym sym).Spec (fun x => UnpackFrame s0 x ∧ x.p = st.p ∧ x.cnt = st.cnt + 1) (InDst s0) (fun _ => False) := by
  have hE : s0.dstEnd.toNat < 4294967296 := s0.dstEnd.isLt
  have hq := h.q
  unfold HoldsTotal at hr
  unfold UnpackState.putSym
  cases hw : memWrite st.s st.q sym with
  | ok t =>
    have h1 := pointer_succ st.q (by omega)
    refine ⟨⟨by simp only; omega, by simp only; omega, ?_⟩, rfl, rfl⟩
    simp only [h1]
    exact (h.stores.mono (Nat.le_refl _) (by omega)).trans (memWrite_onlyStores hw (by omega) (by omega))
  | raise e i t =>
    obtain ⟨_, _, _, rfl⟩ := memWrite_raise hw
    exact h.inDst hr
  | stuck f => exact absurd hw memWrite_not_stuck

theorem UnpackFrame.putRun {s0 : State} (hr : HoldsTotal s0) (sym : Byte) (k : Nat) : ∀ {st : UnpackState},
    UnpackFrame s0 st → st.cnt + k ≤ s0.total.toNat →
    (putRun sym k st).Spec (fun x => UnpackFrame s0 x ∧ x.p = st.p) (InDst s0) (fun _ => False) := by
  induction k with
  | zero => intro st h _; exact ⟨h, rfl⟩
  | succ k ih =>
    intro st h hc
    exact (h.putSym hr (by omega) sym).bind (fun x hx => (ih hx.1 (by omega)).mono
      (fun y hy => ⟨hy.1, hy.2.trans hx.2.1⟩) (fun _ _ _ h => h) (fun _ h => h))

theorem UnpackFrame.takeBit {s0 : State} (hr : HoldsTotal s0) {st : UnpackState} (h : UnpackFrame s0 st)
    (hc : st.cnt < s0.total.toNat) :
    st.takeBit.Spec (fun x => UnpackFrame s0 x ∧ x.p = st.p) (InDst s0) (fun f => f = .malformedTree) := by
  unfold UnpackState.takeBit
  simp only
  split
  · rfl
  · split
    · rfl
    · rename_i nd _ _ cd _
      split
      · refine Part.Spec.bind (P := fun x => UnpackFrame s0 x ∧ x.p = st.p ∧ x.cnt = st.cnt + 1) ?_
          (fun x hx => ⟨⟨hx.1.q, hx.1.cnt, hx.1.stores⟩, hx.2.1⟩)
        have h1 : UnpackFrame s0
            { st with
              rem := st.rem - 1, bits := st.bits + 1
              n := if st.cur.getLsbD (st.rem - 1) then nd.right else nd.left } :=
          ⟨h.q, h.cnt, h.stores⟩
        exact (h1.putSym hr hc cd.sym).mono (fun _ h => h) (fun _ _ _ h => h) (fun _ h => h.elim)
      · exact ⟨⟨h.q, h.cnt, h.stores⟩, rfl⟩

theorem UnpackFrame.takeBits {s0 : State} (hr : HoldsTotal s0) (k : Nat) : ∀ {st : UnpackState}, UnpackFrame s0 st →
    (takeBits s0.total.toNat k st).Spec (fun x => UnpackFrame s0 x ∧ x.p = st.p) (InDst s0)
      (fun f => f = .malformedTree) := by
  induction k with
  | zero => intro st h; exact ⟨h, rfl⟩
  | succ k ih =>
    intro st h
    unfold Sys2Proof.Machine.takeBits
    split
    · exact ⟨h, rfl⟩
    · rename_i hne
      exact (h.takeBit hr (by have := h.cnt; omega)).bind (fun x hx => (ih hx.1).mono
        (fun y hy => ⟨hy.1, hy.2.trans hx.2⟩) (fun _ _ _ h => h) (fun _ h => h))

theorem UnpackFrame.unpackBytes {s0 : State} (hr : HoldsTotal s0) (left : Nat) : ∀ {st : UnpackState},
    UnpackFrame s0 st → st.p.toNat + left < 4294967296 →
    (unpackBytes s0.total.toNat left st).Spec
      (fun x => UnpackFrame s0 x ∧ st.p.toNat ≤ x.p.toNat ∧ x.p.toNat ≤ st.p.toNat + left) (InDst s0)
      (fun f => f = .malformedTree) := by
  induction left with
  | zero =>
    intro st h _
    unfold Sys2Proof.Machine.unpackBytes
    split
    · exact ⟨h, Nat.le_refl _, Nat.le_refl _⟩
    · exact h.inDst hr
  | succ left ih =>
    intro st h hp
    unfold Sys2Proof.Machine.unpackBytes
    split
    · exact ⟨h, Nat.le_refl _, by omega⟩
    · cases hrd : memRead st.s st.p with
      | stuck f => exact absurd hrd memRead_not_stuck
      | raise e i t =>
        obtain ⟨_, _, _, rfl⟩ := memRead_raise hrd
        exact h.inDst hr
      | ok r =>
        rw [Part.bind_ok]
        have h1 := pointer_succ st.p (by omega)
        have hst : UnpackFrame s0 { st with s := r.2, p := st.p + 1#32, cur := r.1, rem := 8 } :=
          ⟨h.q, h.cnt, h.stores.trans (memRead_onlyStores hrd _ _)⟩
        refine (hst.takeBits hr 8).bind (fun x hx => ?_)
        have hxp : x.p.toNat = st.p.toNat + 1 := by rw [hx.2]; exact h1
        refine (ih hx.1 (by omega)).mono (fun y hy => ⟨hy.1, by omega, by omega⟩) (fun _ _ _ h => h) (fun _ h => h)

/-- The frame of UNPACK's symbols and strict checks, with TOTAL bytes of room (R81). -/
theorem unpackSymbols_frame (s : State) (hr : HoldsTotal s) (hsrc : s.srcAddr.toNat ≤ s.srcEnd.toNat) :
    ((unpackSymbols s (unpackStart s)).bind strictChecks).Spec
      (fun x => UnpackFrame s x ∧ s.srcAddr.toNat ≤ x.p.toNat ∧ x.p.toNat ≤ s.srcEnd.toNat) (InDst s)
      (fun f => f = .malformedTree) := by
  have hE : s.srcEnd.toNat < 4294967296 := s.srcEnd.isLt
  have h0 : UnpackFrame s (unpackStart s) := ⟨rfl, Nat.zero_le _, OnlyStores.refl _ _ _⟩
  have hreg := regionBytes_le s.srcAddr s.srcEnd hsrc
  refine Part.Spec.bind
    (P := fun x => UnpackFrame s x ∧ s.srcAddr.toNat ≤ x.p.toNat ∧ x.p.toNat ≤ s.srcEnd.toNat) ?_ (fun x hx => ?_)
  · unfold unpackSymbols
    split
    · rfl
    · split
      · refine (h0.putRun hr _ _ (by simp [unpackStart])).mono (fun y hy => ⟨hy.1, ?_, ?_⟩) (fun _ _ _ h => h)
          (fun _ h => h.elim)
        · rw [hy.2]; exact Nat.le_refl _
        · rw [hy.2]; exact hsrc
      · refine (h0.unpackBytes hr _ (by simp only [unpackStart]; omega)).mono
          (fun y hy => ⟨hy.1, hy.2.1, ?_⟩) (fun _ _ _ h => h) (fun _ h => h)
        have := hy.2.2
        simp only [unpackStart] at this
        omega
  · unfold strictChecks
    split
    · split
      · exact hx.1.inDst hr
      · split
        · exact hx.1.inDst hr
        · exact hx
    · exact hx

/-! ### The result on a run of codes -/

/-- A tree with two children. -/
def NodeTree.internal : NodeTree → Bool
  | .leaf _ _ => false
  | .node _ _ _ => true

/-- How far a run of codes has been read: `out` symbols are complete and the walk stands at `cur`, `k` bits in. -/
inductive Reading (root : NodeTree) (picks : List (Byte × List Bool)) : Nat → NodeTree → List Byte → Prop where
  | done : Reading root picks (runBits picks).length root (picks.map Prod.fst)
  | within (before after : List (Byte × List Bool)) (sym : Byte) (taken rest : List Bool) (cur : NodeTree)
      (hp : picks = before ++ (sym, taken ++ rest) :: after) (hc : (sym, rest) ∈ cur.shape.codes)
      (hi : cur.internal = true) :
      Reading root picks ((runBits before).length + taken.length) cur (before.map Prod.fst)

/-- At the end of a symbol the walk stands at the root, before the next code. -/
theorem Reading.next {root : NodeTree} (before after : List (Byte × List Bool))
    (hr : root.internal = true) (hall : ∀ p ∈ after, p ∈ root.shape.codes) :
    Reading root (before ++ after) (runBits before).length root (before.map Prod.fst) := by
  cases after with
  | nil => simpa using Reading.done (root := root) (picks := before)
  | cons c after =>
    obtain ⟨sym, path⟩ := c
    simpa using Reading.within (root := root) (picks := before ++ (sym, path) :: after) before after sym [] path root
      (by simp) (hall _ (List.mem_cons_self ..)) hr

/-- The first bit of a code in a tree with two children selects the child that holds the rest of the code. -/
theorem Shape.codes_node {l r : Shape} {sym : Byte} {path : List Bool} (h : (sym, path) ∈ (Shape.node l r).codes) :
    ∃ b rest, path = b :: rest ∧ (sym, rest) ∈ (if b then r else l).codes := by
  simp only [Shape.codes, List.mem_append, List.mem_map] at h
  rcases h with ⟨⟨s', p'⟩, hp, hh⟩ | ⟨⟨s', p'⟩, hp, hh⟩
  · simp only [Prod.mk.injEq] at hh
    obtain ⟨rfl, rfl⟩ := hh
    exact ⟨false, p', rfl, by simpa using hp⟩
  · simp only [Prod.mk.injEq] at hh
    obtain ⟨rfl, rfl⟩ := hh
    exact ⟨true, p', rfl, by simpa using hp⟩

/-- UNPACK after `k` bits of its payload and `loaded` bytes, started from `s0`, with no free value read. -/
structure UnpackRel (s0 : State) (root : NodeTree) (picks : List (Byte × List Bool)) (loaded k : Nat)
    (st : UnpackState) : Prop where
  bits : st.bits = k
  rem  : st.rem + k = 8 * loaded
  byte : st.rem ≤ 8
  p    : st.p.toNat = s0.srcAddr.toNat + loaded
  cur  : 0 < st.rem → st.cur = Memory.read s0.mem (s0.srcAddr.toNat + k / 8)
  read : ∃ (at_ : NodeTree) (out : List Byte), Reading root picks k at_ out ∧ at_.heldIn s0.node = true ∧
    st.n = at_.idx ∧ st.cnt = out.length ∧ st.q.toNat = s0.dstAddr.toNat + out.length ∧
    st.s = { s0 with mem := Memory.load s0.mem s0.dstAddr.toNat out }

/-- The facts a run of codes is decoded under: a tree with an internal root, the first `lim` payload bits those of the
run and in bytes that may be read, and the first `wlim` symbols in bytes that may be written. When a symbol is left after
those, its write raises `e` with `info`. -/
structure UnpackSetup (s0 : State) (root : NodeTree) (picks : List (Byte × List Bool)) (lim wlim : Nat) (e : Err)
    (info : Word) : Prop where
  held     : root.heldIn s0.node = true
  idx      : root.idx = s0.root
  internal : root.internal = true
  codes    : ∀ p ∈ picks, p ∈ root.shape.codes
  count    : picks.length = s0.total.toNat
  room     : HoldsTotal s0
  unraced  : s0.srcUnraced
  apart    : s0.overlap = false
  fits     : s0.srcAddr.toNat + bytesFor lim ≤ s0.srcEnd.toNat
  rd       : s0.admitsRange .read s0.srcAddr.toNat (s0.srcAddr.toNat + bytesFor lim)
  bit      : ∀ j, j < (runBits picks).length → j < lim →
    Memory.bitAt s0.mem s0.srcAddr.toNat j = (runBits picks).getD j false
  some     : wlim ≤ s0.total.toNat
  wr       : s0.admitsRange .write s0.dstAddr.toNat (s0.dstAddr.toNat + wlim)
  wall     : wlim < s0.total.toNat → ∀ (st : UnpackState) (sym : Byte), MemOnly s0 st.s →
    st.q.toNat = s0.dstAddr.toNat + wlim → st.putSym sym = .raise e info st.s

/-- The bits after which the wall of a setup is met. -/
abbrev wallBits (picks : List (Byte × List Bool)) (wlim : Nat) : Nat := (runBits (picks.take (wlim + 1))).length

theorem wallBits_le (picks : List (Byte × List Bool)) (wlim : Nat) : wallBits picks wlim ≤ (runBits picks).length := by
  have := congrArg (fun l => (runBits l).length) (List.take_append_drop (wlim + 1) picks)
  simp only [runBits, List.flatMap_append, List.length_append] at this
  simp only [wallBits, runBits]
  omega

theorem runBits_append (a b : List (Byte × List Bool)) : runBits (a ++ b) = runBits a ++ runBits b := by
  simp [runBits]

theorem runBits_singleton (p : Byte × List Bool) : runBits [p] = p.2 := by simp [runBits]

/-- The wall of a write that ADMIT refuses (R80, R253). -/
theorem putSym_refused {s0 : State} {a : Word} (hr : s0.admits a .write = false) (st : UnpackState) (sym : Byte)
    (hm : MemOnly s0 st.s) (hq : st.q.toNat = a.toNat) : st.putSym sym = .raise .bus a st.s := by
  obtain rfl : st.q = a := BitVec.eq_of_toNat_eq hq
  have hr' : st.s.admits st.q .write = false := by rw [hm]; exact hr
  rw [UnpackState.putSym, memWrite_refused sym hr']
  rfl

/-- Before the wall, fewer than its bits are read. -/
theorem UnpackRel.lt_wall {s0 : State} {root : NodeTree} {picks : List (Byte × List Bool)} {lim wlim loaded k : Nat}
    {e : Err} {info : Word} {st : UnpackState} (hs : UnpackSetup s0 root picks lim wlim e info)
    (h : UnpackRel s0 root picks loaded k st) (hc : st.cnt ≤ wlim) (hw : wlim < s0.total.toNat) :
    k < wallBits picks wlim := by
  obtain ⟨at_, out, hread, _, _, hcnt, _, _⟩ := h.read
  have hl := hs.count
  cases hread with
  | done => simp only [List.length_map] at hcnt; omega
  | within before after sym taken rest cur hp hc' hi =>
    simp only [List.length_map] at hcnt
    have h2 : 0 < rest.length := by
      cases at_ with
      | leaf i s => simp [NodeTree.internal] at hi
      | node i l r =>
        obtain ⟨b, rest', rfl, _⟩ := Shape.codes_node (by simpa [NodeTree.shape] using hc')
        simp
    have htake : picks.take (wlim + 1) = before ++ (sym, taken ++ rest) :: after.take (wlim - before.length) := by
      rw [hp, List.take_append, List.take_of_length_le (by omega),
        show wlim + 1 - before.length = (wlim - before.length) + 1 by omega, List.take_succ_cons]
    simp only [wallBits, htake, runBits, List.flatMap_append, List.flatMap_cons, List.length_append]
    omega

/-- One bit of a code read: the relation a bit further, or the wall. -/
theorem UnpackRel.takeBit {s0 : State} {root : NodeTree} {picks : List (Byte × List Bool)} {lim wlim loaded k : Nat}
    {e : Err} {info : Word} {st : UnpackState} (hs : UnpackSetup s0 root picks lim wlim e info)
    (h : UnpackRel s0 root picks loaded k st) (hk : k < (runBits picks).length) (hrem : 0 < st.rem) (hin : k < lim)
    (hw : st.cnt ≤ wlim) :
    (∃ st', st.takeBit = .ok st' ∧ UnpackRel s0 root picks loaded (k + 1) st' ∧ st'.cnt ≤ wlim) ∨
      (wlim < s0.total.toNat ∧ k + 1 = wallBits picks wlim ∧
        ∃ t, st.takeBit = .raise e info t ∧ OnlyStores s0.dstAddr.toNat s0.dstEnd.toNat s0 t ∧ t.draws = s0.draws) := by
  have hE : s0.dstEnd.toNat < 4294967296 := s0.dstEnd.isLt
  obtain ⟨at_, out, hread, hheld, hn, hcnt, hq, hst⟩ := h.read
  have hremk := h.rem
  have hbyte := h.byte
  cases hread with
  | done => exact absurd hk (by simp)
  | within before after sym taken rest cur hp hc hi =>
    cases at_ with
    | leaf i s => simp [NodeTree.internal] at hi
    | node i l r =>
      obtain ⟨b, rest', rfl, hchild⟩ := Shape.codes_node (by simpa [NodeTree.shape] using hc)
      obtain ⟨⟨f, hf⟩, hl, hr⟩ := NodeTree.heldIn_node hheld
      have hbit : st.cur.getLsbD (st.rem - 1) = b := by
        have h1 := hs.bit _ hk hin
        have h2 : (runBits picks).getD ((runBits before).length + taken.length) false = b := by
          rw [hp]
          simp [runBits]
        rw [h2] at h1
        rw [← h1, h.cur hrem, Memory.bitAt]
        congr 1
        omega
      have hnode : st.s.nodeAt st.n = some (Node.mkNode f l.idx r.idx) := by
        rw [hst, hn]; exact hf
      obtain ⟨c, hcidx, hcheld, hcsh⟩ : ∃ c : NodeTree, c.idx = (if b then r.idx else l.idx) ∧
          c.heldIn s0.node = true ∧ (sym, rest') ∈ c.shape.codes := by
        cases b with
        | true => exact ⟨r, by simp, hr, by simpa using hchild⟩
        | false => exact ⟨l, by simp, hl, by simpa using hchild⟩
      have hcnt_lt : before.length < s0.total.toNat := by
        rw [← hs.count, hp]
        simp
      have hkeep : ∀ k', 0 < st.rem - 1 →
          k' = (runBits before).length + taken.length + 1 →
          st.cur = Memory.read s0.mem (s0.srcAddr.toNat + k' / 8) := by
        intro k' hp0 hk'
        rw [h.cur hrem]
        congr 2
        omega
      have hmemnode : ∀ x : NodeIdx, st.s.nodeAt x = nodeIn s0.node x := by
        intro x; rw [hst]; rfl
      cases c with
      | leaf ci csym =>
        obtain ⟨g, hg⟩ := NodeTree.heldIn_leaf hcheld
        simp only [NodeTree.shape, Shape.codes, List.mem_singleton, Prod.mk.injEq] at hcsh
        obtain ⟨rfl, rfl⟩ := hcsh
        have hroom := hs.room
        unfold HoldsTotal at hroom
        simp only [List.length_map] at hq hcnt
        have hroot : st.s.root = s0.root := by rw [hst]
        have htake : st.takeBit = (({ st with
            rem := st.rem - 1, bits := st.bits + 1, n := ci } : UnpackState).putSym sym).bind
              (fun st2 => .ok { st2 with n := st2.s.root }) := by
          simp only [UnpackState.takeBit, hnode, hbit, Node.mkNode]
          rw [← hcidx, hmemnode]
          simp only [NodeTree.idx_leaf, hg, Node.mkLeaf, if_true]
        have hlen : (runBits (before ++ [(sym, taken ++ [b])])).length = (runBits before).length + taken.length + 1 := by
          simp [runBits, Nat.add_assoc]
        by_cases hwl : before.length = wlim
        · refine .inr ⟨by omega, ?_, st.s, ?_, ⟨by rw [hst], fun x hx => ?_⟩, by rw [hst]⟩
          · have : picks.take (wlim + 1) = before ++ [(sym, taken ++ [b])] := by
              rw [hp, List.take_append, List.take_of_length_le (by omega), hwl,
                show wlim + 1 - wlim = 1 by omega]
              rfl
            rw [wallBits, this, hlen]
          · rw [htake, hs.wall (by omega) _ _ (by rw [hst]) (by simp only; omega)]
            rfl
          · rw [hst]
            exact Memory.lookup_load_outside _ _ _ _ (by rw [List.length_map]; omega)
        have hwr : st.s.admits st.q .write = true := by
          rw [hst]
          exact hs.wr st.q (by omega) (by omega)
        refine .inl ⟨{ st with
            s := { st.s with mem := Memory.write st.s.mem st.q.toNat sym }
            q := st.q + 1#32, cnt := st.cnt + 1, rem := st.rem - 1, bits := st.bits + 1, n := s0.root }, ?_, ?_,
            by simp only; omega⟩
        · simp only [htake, UnpackState.putSym, memWrite_admitted _ hwr, Part.bind_ok, hroot]
        · refine ⟨by simp [h.bits], ?_, ?_, h.p, fun h0 => hkeep _ h0 rfl, ?_⟩
          · simp only; omega
          · simp only; omega
          · refine ⟨root, (before ++ [(sym, taken ++ [b])]).map Prod.fst, ?_, hs.held, hs.idx.symm, ?_, ?_, ?_⟩
            · have := Reading.next (root := root) (before ++ [(sym, taken ++ [b])]) after hs.internal
                (fun p hpm => hs.codes p (by rw [hp]; simp [hpm]))
              rw [List.append_assoc, List.singleton_append, ← hp] at this
              rw [hlen] at this
              exact this
            · simp [hcnt]
            · simp only [pointer_succ st.q (by omega)]
              simp; omega
            · simp only [List.map_append, List.map_cons, List.map_nil]
              rw [Memory.load_concat, hst, hq]
              simp
      | node ci cl cr =>
        obtain ⟨⟨g, hg⟩, _, _⟩ := NodeTree.heldIn_node hcheld
        refine .inl ⟨{ st with rem := st.rem - 1, bits := st.bits + 1, n := ci }, ?_, ?_, hw⟩
        · simp only [UnpackState.takeBit, hnode, hbit, Node.mkNode]
          rw [← hcidx, hmemnode]
          simp only [NodeTree.idx_node, hg, Node.mkNode, Bool.false_eq_true, if_false]
        · refine ⟨by simp [h.bits], ?_, ?_, h.p, fun h0 => hkeep _ h0 rfl, ?_⟩
          · simp only; omega
          · simp only; omega
          · refine ⟨.node ci cl cr, before.map Prod.fst, ?_, hcheld, rfl, hcnt, hq, hst⟩
            have := Reading.within (root := root) (picks := picks) before after sym (taken ++ [b]) rest' (.node ci cl cr)
              (by rw [hp]; simp) hcsh rfl
            simpa [Nat.add_assoc] using this

/-- The count of symbols is complete exactly at the end of the run. -/
theorem UnpackRel.complete {s0 : State} {root : NodeTree} {picks : List (Byte × List Bool)} {lim wlim loaded k : Nat}
    {e : Err} {info : Word} {st : UnpackState} (hs : UnpackSetup s0 root picks lim wlim e info)
    (h : UnpackRel s0 root picks loaded k st) :
    st.cnt = s0.total.toNat ↔ k = (runBits picks).length := by
  obtain ⟨at_, out, hread, _, _, hcnt, _, _⟩ := h.read
  cases hread with
  | done => simp [hcnt, hs.count]
  | within before after sym taken rest cur hp hc hi =>
    have h1 : before.length < s0.total.toNat := by rw [← hs.count, hp]; simp
    have h2 : 0 < rest.length := by
      cases at_ with
      | leaf i s => simp [NodeTree.internal] at hi
      | node i l r =>
        obtain ⟨b, rest', rfl, _⟩ := Shape.codes_node (by simpa [NodeTree.shape] using hc)
        simp
    simp only [List.length_map] at hcnt
    constructor
    · omega
    · intro hk
      rw [hp] at hk
      simp only [runBits, List.flatMap_append, List.flatMap_cons, List.length_append] at hk
      omega

theorem UnpackRel.le {s0 : State} {root : NodeTree} {picks : List (Byte × List Bool)} {loaded k : Nat}
    {st : UnpackState} (h : UnpackRel s0 root picks loaded k st) : k ≤ (runBits picks).length := by
  obtain ⟨at_, out, hread, _⟩ := h.read
  cases hread with
  | done => exact Nat.le_refl _
  | within before after sym taken rest cur hp hc hi =>
    rw [hp]
    simp only [runBits, List.flatMap_append, List.flatMap_cons, List.length_append]
    omega

/-- The bits of the loaded byte, up to the end of the run or the wall. -/
theorem UnpackRel.takeBits {s0 : State} {root : NodeTree} {picks : List (Byte × List Bool)} {lim wlim : Nat} {e : Err}
    {info : Word} (hs : UnpackSetup s0 root picks lim wlim e info) (n : Nat) : ∀ {loaded k : Nat} {st : UnpackState},
    UnpackRel s0 root picks loaded k st → n = st.rem → st.cnt ≤ wlim →
    (k + n ≤ lim ∨ (runBits picks).length ≤ lim ∨ (wlim < s0.total.toNat ∧ wallBits picks wlim ≤ lim)) →
    (∃ st', takeBits s0.total.toNat n st = .ok st' ∧
        UnpackRel s0 root picks loaded (min (k + n) (runBits picks).length) st' ∧ st'.cnt ≤ wlim) ∨
      (wlim < s0.total.toNat ∧ wallBits picks wlim ≤ k + n ∧
        ∃ t, takeBits s0.total.toNat n st = .raise e info t ∧ OnlyStores s0.dstAddr.toNat s0.dstEnd.toNat s0 t ∧
          t.draws = s0.draws) := by
  induction n with
  | zero =>
    intro loaded k st h _ hw _
    exact .inl ⟨st, rfl, by rw [Nat.add_zero, Nat.min_eq_left h.le]; exact h, hw⟩
  | succ n ih =>
    intro loaded k st h hn hw hin
    have hc := h.complete hs
    have hle := h.le
    unfold Sys2Proof.Machine.takeBits
    split
    · rename_i heq
      have := hc.mp heq
      exact .inl ⟨st, rfl, by rw [Nat.min_eq_right (by omega), ← this]; exact h, hw⟩
    · rename_i hne
      have hlt : k < (runBits picks).length := by
        have : k ≠ (runBits picks).length := fun hh => hne (hc.mpr hh)
        omega
      have hlw := h.lt_wall hs hw
      rcases h.takeBit hs hlt (by omega) (by omega) hw with ⟨st1, h1, h2, hw1⟩ | ⟨h1, h2, t, h3, h4⟩
      · rw [h1, Part.bind_ok]
        have hr1 : st1.rem = n := by
          have h3 := h2.rem
          have h4 := h.rem
          omega
        have := ih h2 hr1.symm hw1 (by omega)
        rwa [show k + 1 + n = k + (n + 1) by omega] at this
      · exact .inr ⟨h1, by omega, t, by rw [h3]; rfl, h4⟩

/-- How UNPACK's loop ends when it needs the byte after the first `n` payload bytes: `e` with `info`. -/
def LoadStops (s0 : State) (n : Nat) (e : Err) (info : Word) : Prop :=
  ∀ (left : Nat) (st : UnpackState), MemOnly s0 st.s → st.p.toNat = s0.srcAddr.toNat + n →
    st.p.toNat + left = s0.srcEnd.toNat → st.cnt ≠ s0.total.toNat →
    unpackBytes s0.total.toNat left st = .raise e info st.s

/-- The loop ends so at SRC_END (R237). -/
theorem LoadStops.exhausted {s0 : State} {n : Nat} (hn : s0.srcAddr.toNat + n = s0.srcEnd.toNat) :
    LoadStops s0 n .srcExhausted s0.srcEnd := by
  intro left st hm hp hl hc
  obtain rfl : left = 0 := by omega
  rw [unpackBytes, if_neg hc, hm]

/-- The loop ends so at a payload byte that ADMIT refuses (R80, R253). -/
theorem LoadStops.bus {s0 : State} {n : Nat} {a : Word} (ha : a.toNat = s0.srcAddr.toNat + n)
    (hlt : s0.srcAddr.toNat + n < s0.srcEnd.toNat) (hr : s0.admits a .read = false) : LoadStops s0 n .bus a := by
  intro left st hm hp hl hc
  obtain ⟨left, rfl⟩ : ∃ l, left = l + 1 := ⟨left - 1, by omega⟩
  obtain rfl : st.p = a := BitVec.eq_of_toNat_eq (by omega)
  have hr' : st.s.admits st.p .read = false := by rw [hm]; exact hr
  rw [unpackBytes, if_neg hc, memRead_refused hr']
  rfl

/-- The decode loop: the whole run is decoded, or the wall is met, or a byte is needed that cannot be loaded. A byte is
loaded only when a bit of it is needed. -/
theorem UnpackRel.unpackBytes {s0 : State} {root : NodeTree} {picks : List (Byte × List Bool)} {lim wlim rn : Nat}
    {e e' : Err} {info info' : Word} (hs : UnpackSetup s0 root picks lim wlim e info)
    (hend : (runBits picks).length ≤ lim ∨ (wlim < s0.total.toNat ∧ wallBits picks wlim ≤ lim) ∨
      (lim = 8 * rn ∧ LoadStops s0 rn e' info'))
    (left : Nat) : ∀ {loaded k : Nat} {st : UnpackState},
    UnpackRel s0 root picks loaded k st → st.cnt ≤ wlim → st.rem < 8 → (st.rem = 0 ∨ k = (runBits picks).length) →
    loaded ≤ bytesFor lim → st.p.toNat + left = s0.srcEnd.toNat →
    (wlim = s0.total.toNat ∧ (runBits picks).length ≤ lim ∧ ∃ st', unpackBytes s0.total.toNat left st = .ok st' ∧ st'.rem < 8 ∧
        UnpackRel s0 root picks (bytesFor (runBits picks).length) (runBits picks).length st') ∨
    (wlim < s0.total.toNat ∧ wallBits picks wlim ≤ lim ∧ ∃ t, unpackBytes s0.total.toNat left st = .raise e info t ∧
        OnlyStores s0.dstAddr.toNat s0.dstEnd.toNat s0 t ∧ t.draws = s0.draws) ∨
    (lim = 8 * rn ∧ lim < (runBits picks).length ∧ (wlim < s0.total.toNat → lim < wallBits picks wlim) ∧
      ∃ t, unpackBytes s0.total.toNat left st = .raise e' info' t ∧
        OnlyStores s0.dstAddr.toNat s0.dstEnd.toNat s0 t ∧ t.draws = s0.draws) := by
  have hfits := hs.fits
  have hE : s0.srcEnd.toNat < 4294967296 := s0.srcEnd.isLt
  have hsome := hs.some
  -- once the loop is to go on past the bits that can be read, the byte it needs cannot be loaded
  have hstop : ∀ {left loaded k : Nat} {st : UnpackState}, UnpackRel s0 root picks loaded k st → st.cnt ≤ wlim →
      st.rem = 0 → loaded ≤ bytesFor lim → st.p.toNat + left = s0.srcEnd.toNat → st.cnt ≠ s0.total.toNat → lim ≤ k →
      lim = 8 * rn ∧ lim < (runBits picks).length ∧ (wlim < s0.total.toNat → lim < wallBits picks wlim) ∧
        ∃ t, Sys2Proof.Machine.unpackBytes s0.total.toNat left st = .raise e' info' t ∧
          OnlyStores s0.dstAddr.toNat s0.dstEnd.toNat s0 t ∧ t.draws = s0.draws := by
    intro left loaded k st h hw h0 hload hp hne hk
    have hlw := h.lt_wall hs hw
    have hle := h.le
    have hlt : k ≠ (runBits picks).length := fun hh => hne ((h.complete hs).mpr hh)
    have hrem := h.rem
    have hpp := h.p
    rcases hend with hend | ⟨hend1, hend2⟩ | ⟨hend1, hend2⟩
    · omega
    · have := hlw hend1; omega
    · have hb : bytesFor lim = rn := by unfold bytesFor; omega
      obtain ⟨at_, out, hread, _, _, hcnt, _, hst⟩ := h.read
      have hroom := hs.room
      unfold HoldsTotal at hroom
      refine ⟨hend1, by omega, fun hh => by have := hlw hh; omega, st.s,
        hend2 left st (by rw [hst]) (by omega) hp hne, ⟨by rw [hst], fun x hx => ?_⟩, by rw [hst]⟩
      rw [hst]
      exact Memory.lookup_load_outside _ _ _ _ (by omega)
  have hdone : ∀ {loaded k : Nat} {st : UnpackState}, UnpackRel s0 root picks loaded k st → st.cnt ≤ wlim → st.rem < 8 →
      loaded ≤ bytesFor lim → st.cnt = s0.total.toNat → wlim = s0.total.toNat ∧ (runBits picks).length ≤ lim ∧
        UnpackRel s0 root picks (bytesFor (runBits picks).length) (runBits picks).length st := by
    intro loaded k st h hw h8 hload heq
    have hkL := (h.complete hs).mp heq
    have hrem := h.rem
    have hb : bytesFor (runBits picks).length = loaded := by unfold bytesFor; omega
    refine ⟨by omega, ?_, by rw [hb, ← hkL]; exact h⟩
    rcases hend with hend | ⟨hend1, -⟩ | ⟨hend1, -⟩
    · exact hend
    · omega
    · have : bytesFor lim = rn := by unfold bytesFor; omega
      omega
  induction left with
  | zero =>
    intro loaded k st h hw h8 hk hload hp
    by_cases heq : st.cnt = s0.total.toNat
    · obtain ⟨h1, h2, h3⟩ := hdone h hw h8 hload heq
      exact .inl ⟨h1, h2, st, by rw [Sys2Proof.Machine.unpackBytes, if_pos heq], h8, h3⟩
    · have hlt : k ≠ (runBits picks).length := fun hh => heq ((h.complete hs).mpr hh)
      have hrem := h.rem
      have hpp := h.p
      exact .inr (.inr (hstop h hw (hk.resolve_right hlt) hload hp heq (by unfold bytesFor at *; omega)))
  | succ left ih =>
    intro loaded k st h hw h8 hk hload hp
    have hpp := h.p
    have hrem := h.rem
    by_cases hne : st.cnt = s0.total.toNat
    · obtain ⟨h1, h2, h3⟩ := hdone h hw h8 hload hne
      exact .inl ⟨h1, h2, st, by rw [Sys2Proof.Machine.unpackBytes, if_pos hne], h8, h3⟩
    · have hlt : k ≠ (runBits picks).length := fun hh => hne ((h.complete hs).mpr hh)
      have hle := h.le
      have h0 := hk.resolve_right hlt
      by_cases hkl : lim ≤ k
      · exact .inr (.inr (hstop h hw h0 hload hp hne hkl))
      unfold Sys2Proof.Machine.unpackBytes
      rw [if_neg hne]
      have hlb : loaded < bytesFor lim := by unfold bytesFor; omega
      obtain ⟨at_, out, hread, hheld, hn, hcnt, hq, hst⟩ := h.read
      have hroom := hs.room
      unfold HoldsTotal at hroom
      have hrd : memRead st.s st.p = .ok (Memory.read s0.mem st.p.toNat, st.s) := by
        have hread : Memory.read st.s.mem st.p.toNat = Memory.read s0.mem st.p.toNat := by
          rw [hst]
          refine Memory.read_load_outside _ _ _ _ ?_
          have hsd : s0.srcAddr ≠ s0.srcEnd := fun hh => by rw [hh] at hpp; omega
          by_cases hde : s0.dstAddr = s0.dstEnd
          · rw [hde] at hroom
            omega
          · have := overlap_false hs.apart hsd hde
            omega
        rw [← hread]
        apply memRead_admitted
        · rw [hst]; exact hs.rd st.p (by omega) (by omega)
        · rw [hst]
          exact hs.unraced _ ((inRegion_iff _ _ _).mpr (by omega))
      rw [hrd, Part.bind_ok]
      have h1 := pointer_succ st.p (by omega)
      have hloaded : UnpackRel s0 root picks (loaded + 1) k
          { st with s := st.s, p := st.p + 1#32, cur := Memory.read s0.mem st.p.toNat, rem := 8 } := by
        refine ⟨h.bits, by simp only; omega, Nat.le_refl _, by simp only; omega, fun _ => ?_, ?_⟩
        · simp only
          congr 1
          omega
        · exact ⟨at_, out, hread, hheld, hn, hcnt, hq, hst⟩
      rcases hloaded.takeBits hs 8 rfl hw (by omega) with ⟨st1, h3, h4, hw4⟩ | ⟨h3, hV, t, h4, h5⟩
      · rw [h3, Part.bind_ok]
        have h5 := h4.rem
        have h6 := h4.p
        exact ih h4 hw4 (by omega) (by omega) (by omega) (by omega)
      · refine .inr (.inl ⟨h3, ?_, t, by rw [h4]; rfl, h5⟩)
        rcases hend with hend | ⟨-, hend2⟩ | ⟨hend1, -⟩
        · exact Nat.le_trans (wallBits_le picks wlim) hend
        · exact hend2
        · omega

/-- UNPACK's start is the relation at bit 0. -/
theorem unpackStart_rel {s0 : State} {root : NodeTree} {picks : List (Byte × List Bool)} {lim wlim : Nat} {e : Err}
    {info : Word} (hs : UnpackSetup s0 root picks lim wlim e info) : UnpackRel s0 root picks 0 0 (unpackStart s0) := by
  refine ⟨rfl, rfl, Nat.zero_le _, rfl, fun h => absurd h (Nat.lt_irrefl 0),
    root, [], ?_, hs.held, hs.idx.symm, rfl, rfl, rfl⟩
  simpa [runBits] using Reading.next (root := root) [] picks hs.internal hs.codes

/-- A run of codes of a tree with an internal root, decoded (R230): all of it, or up to the wall, or up to a byte that
cannot be loaded. -/
theorem unpackSymbols_run {s0 : State} {root : NodeTree} {picks : List (Byte × List Bool)} {lim wlim rn : Nat}
    {e e' : Err} {info info' : Word} (hs : UnpackSetup s0 root picks lim wlim e info)
    (hend : (runBits picks).length ≤ lim ∨ (wlim < s0.total.toNat ∧ wallBits picks wlim ≤ lim) ∨
      (lim = 8 * rn ∧ LoadStops s0 rn e' info')) :
    (wlim = s0.total.toNat ∧ (runBits picks).length ≤ lim ∧ ∃ st', unpackSymbols s0 (unpackStart s0) = .ok st' ∧ st'.rem < 8 ∧
        UnpackRel s0 root picks (bytesFor (runBits picks).length) (runBits picks).length st') ∨
    (wlim < s0.total.toNat ∧ wallBits picks wlim ≤ lim ∧ ∃ t, unpackSymbols s0 (unpackStart s0) = .raise e info t ∧
        OnlyStores s0.dstAddr.toNat s0.dstEnd.toNat s0 t ∧ t.draws = s0.draws) ∨
    (lim = 8 * rn ∧ lim < (runBits picks).length ∧ (wlim < s0.total.toNat → lim < wallBits picks wlim) ∧
      ∃ t, unpackSymbols s0 (unpackStart s0) = .raise e' info' t ∧
        OnlyStores s0.dstAddr.toNat s0.dstEnd.toNat s0 t ∧ t.draws = s0.draws) := by
  have hnode : ∃ nd, s0.nodeAt s0.root = some nd ∧ nd.leaf = false := by
    cases root with
    | leaf i s => exact absurd hs.internal (by simp [NodeTree.internal])
    | node i l r =>
      obtain ⟨⟨f, hf⟩, _⟩ := NodeTree.heldIn_node hs.held
      exact ⟨_, by rw [← hs.idx]; exact hf, rfl⟩
  obtain ⟨nd, h1, h2⟩ := hnode
  have hfits := hs.fits
  have hreg := regionBytes_le s0.srcAddr s0.srcEnd (by omega)
  have := (unpackStart_rel hs).unpackBytes hs hend (regionBytes s0.srcAddr s0.srcEnd) (Nat.zero_le _)
    (by simp [unpackStart]) (.inl rfl) (Nat.zero_le _) hreg
  simpa [unpackSymbols, h1, h2] using this

/-- The symbols of a completed run. -/
theorem UnpackRel.final {s0 : State} {root : NodeTree} {picks : List (Byte × List Bool)} {lim wlim loaded : Nat}
    {e : Err} {info : Word} {st : UnpackState} (hs : UnpackSetup s0 root picks lim wlim e info)
    (h : UnpackRel s0 root picks loaded (runBits picks).length st) :
    st.cnt = s0.total.toNat ∧ st.q.toNat = s0.dstAddr.toNat + s0.total.toNat ∧
      st.s = { s0 with mem := Memory.load s0.mem s0.dstAddr.toNat (picks.map Prod.fst) } := by
  have hc := (h.complete hs).mpr rfl
  obtain ⟨at_, out, hread, _, _, hcnt, hq, hst⟩ := h.read
  have hout : out = picks.map Prod.fst := by
    generalize hk : (runBits picks).length = k at hread
    cases hread with
    | done => rfl
    | within before after sym taken rest cur hp hc' hi =>
      exfalso
      have h1 : before.length < s0.total.toNat := by rw [← hs.count, hp]; simp
      simp only [List.length_map] at hcnt
      omega
  subst hout
  refine ⟨hc, by rw [hq, List.length_map, hs.count], hst⟩

/-- The single-leaf run (R235). -/
theorem putRun_admitted (s0 : State) (sym : Byte) (k : Nat) : ∀ {st : UnpackState} {out : List Byte},
    st.s = { s0 with mem := Memory.load s0.mem s0.dstAddr.toNat out } → st.q.toNat = s0.dstAddr.toNat + out.length →
    st.cnt = out.length → s0.dstAddr.toNat + (out.length + k) < 4294967296 →
    s0.admitsRange .write s0.dstAddr.toNat (s0.dstAddr.toNat + (out.length + k)) →
    ∃ q : Word, q.toNat = s0.dstAddr.toNat + (out.length + k) ∧
      putRun sym k st = .ok { st with
        s := { s0 with mem := Memory.load s0.mem s0.dstAddr.toNat (out ++ List.replicate k sym) }
        q := q, cnt := out.length + k } := by
  induction k with
  | zero =>
    intro st out hs hq hc _ _
    refine ⟨st.q, by omega, ?_⟩
    simp [putRun, ← hs, ← hc]
  | succ k ih =>
    intro st out hs hq hc hlt hadm
    have hwr : st.s.admits st.q .write = true := by
      rw [hs]
      exact hadm st.q (by omega) (by omega)
    have h1 := pointer_succ st.q (by omega)
    obtain ⟨q, h2, h3⟩ := ih (out := out ++ [sym])
      (st := { st with
        s := { st.s with mem := Memory.write st.s.mem st.q.toNat sym }
        q := st.q + 1#32, cnt := st.cnt + 1 })
      (by simp only; rw [Memory.load_concat, hs, hq]) (by simp only [h1, List.length_append, List.length_singleton]; omega)
      (by simp [hc]) (by simp only [List.length_append, List.length_singleton]; omega)
      (fun x hl hh => hadm x hl (by simp only [List.length_append, List.length_singleton] at hh; omega))
    simp only [List.length_append, List.length_singleton] at h2 h3
    refine ⟨q, by omega, ?_⟩
    rw [putRun, UnpackState.putSym, memWrite_admitted _ hwr, Part.bind_ok, Part.bind_ok, h3]
    simp [List.replicate_succ, Nat.add_assoc, Nat.add_comm 1 k]

/-- The single-leaf run up to the byte ADMIT refuses (R80, R253). -/
theorem putRun_refused (s0 : State) (sym : Byte) (a : Word) (hr : s0.admits a .write = false) (k : Nat) :
    ∀ {n : Nat} {st : UnpackState} {out : List Byte},
    st.s = { s0 with mem := Memory.load s0.mem s0.dstAddr.toNat out } → st.q.toNat = s0.dstAddr.toNat + out.length →
    a.toNat = s0.dstAddr.toNat + (out.length + k) → k < n →
    s0.admitsRange .write s0.dstAddr.toNat a.toNat →
    ∃ out' : List Byte, out'.length = out.length + k ∧
      putRun sym n st = .raise .bus a { s0 with mem := Memory.load s0.mem s0.dstAddr.toNat out' } := by
  induction k with
  | zero =>
    intro n st out hs hq ha hn hadm
    obtain ⟨n, rfl⟩ : ∃ m, n = m + 1 := ⟨n - 1, by omega⟩
    refine ⟨out, rfl, ?_⟩
    rw [putRun, putSym_refused hr st sym (by rw [hs]) (by omega), hs]
    rfl
  | succ k ih =>
    intro n st out hs hq ha hn hadm
    have haw : a.toNat < 4294967296 := a.isLt
    obtain ⟨n, rfl⟩ : ∃ m, n = m + 1 := ⟨n - 1, by omega⟩
    have hwr : st.s.admits st.q .write = true := by
      rw [hs]
      exact hadm st.q (by omega) (by omega)
    obtain ⟨out', h2, h3⟩ := ih (n := n) (out := out ++ [sym])
      (st := { st with
        s := { st.s with mem := Memory.write st.s.mem st.q.toNat sym }
        q := st.q + 1#32, cnt := st.cnt + 1 })
      (by simp only; rw [Memory.load_concat, hs, hq])
      (by simp only [pointer_succ st.q (by omega), List.length_append, List.length_singleton]; omega)
      (by simp only [List.length_append, List.length_singleton]; omega) (by omega) hadm
    refine ⟨out', by simp only [h2, List.length_append, List.length_singleton]; omega, ?_⟩
    rw [putRun, UnpackState.putSym, memWrite_admitted _ hwr, Part.bind_ok, Part.bind_ok, h3]

/-- The symbols of a single-leaf tree are a run of its symbol (R235). -/
theorem unpackSymbols_leaf {s : State} {i : NodeIdx} {sym : Byte} (h : TreeAt s (.leaf i sym)) :
    unpackSymbols s (unpackStart s) = putRun sym s.total.toNat (unpackStart s) := by
  obtain ⟨f, hf⟩ := NodeTree.heldIn_leaf h.held
  have hn : s.nodeAt s.root = some (Node.mkLeaf sym f) := by rw [← h.root]; exact hf
  simp [unpackSymbols, hn, Node.mkLeaf]

/-! ### From the terms of Safety -/

/-- The setup of a run that UNPACK is ready for, with the first `wlim` symbols in bytes that may be written. -/
theorem UnpackReady.setup {s : State} {i : NodeIdx} {l r : NodeTree} {picks : List (Byte × List Bool)} {lim wlim : Nat}
    {e : Err} {info : Word} (h : UnpackReady s (.node i l r)) (hr : RunOf s (.node i l r) picks)
    (hf : s.srcAddr.toNat + bytesFor lim ≤ s.srcEnd.toNat)
    (hrd : s.admitsRange .read s.srcAddr.toNat (s.srcAddr.toNat + bytesFor lim)) (hb : PayloadBegins s picks lim)
    (hl : wlim ≤ s.total.toNat) (hwr : s.admitsRange .write s.dstAddr.toNat (s.dstAddr.toNat + wlim))
    (hw : wlim < s.total.toNat → ∀ (st : UnpackState) (sym : Byte), MemOnly s st.s →
      st.q.toNat = s.dstAddr.toNat + wlim → st.putSym sym = .raise e info st.s) :
    UnpackSetup s (.node i l r) picks lim wlim e info where
  held := h.held.held
  idx := h.held.root
  internal := rfl
  codes := hr.codes
  count := hr.count
  room := h.room
  unraced := h.unraced
  apart := h.apart
  fits := hf
  rd := hrd
  bit := fun j _ hj => hb j hj
  some := hl
  wr := hwr
  wall := hw

end Sys2Proof.Machine
end

