-- ==== Sys2Proof/Tests/Slice0.lean ====
section
/-! SUPPORT. The model's own tests. Expected values are the spec's: spec/30_encoding.md R102 for the words,
spec/95_test_vectors.md for the commands. The `witness_` theorems show, for each statement with hypotheses, a state and
operands that meet all of them. -/

namespace Sys2Proof.Tests

-- one theorem at a time: many kernel evaluations at once need more threads than the check's memory limit allows
set_option Elab.async false

open Sys2Proof.Machine

/-! ## Small states -/

/-- Whether an outcome is a next state. -/
def isNext : Host.Outcome State Fault Refusal → Bool
  | .next _ => true
  | .fault _ => false
  | .refused _ => false

/-- The next state of an outcome; the reset state where there is none. -/
def nextOf : Host.Outcome State Fault Refusal → State
  | .next s => s
  | .fault _ => State.reset
  | .refused _ => State.reset

theorem next_of_isNext {o : Host.Outcome State Fault Refusal} (h : isNext o = true) : o = .next (nextOf o) := by
  cases o <;> simp_all [isNext, nextOf]

/-- After reset and CLEAR, with FREQ entries given. -/
def freqState (fs : List (Byte × Word)) : State :=
  fs.foldl (fun s p => s.setFreq p.1 p.2) { State.reset with freq := Vector.replicate 256 (some 0#32) }

/-- A frequency table with 'a' = 2 and 'b' = 1 (vector B1). -/
def aabFreq : State := freqState [(0x61#8, 2#32), (0x62#8, 1#32)]

/-- The state of vector B1 after BUILD. -/
def aabTree : State :=
  { aabFreq with
    node := nodeMemory [Node.mkLeaf 0x61#8 2#32, Node.mkLeaf 0x62#8 1#32, Node.mkNode 3#32 0 1]
    root := 2
    nodeCount := 3
    leafCount := 2
    total := 3#32
    status := { State.reset.status with treeValid := true } }

/-- The tree of vector B1. -/
def aabNodes : NodeTree := .node 2 (.leaf 0 0x61#8) (.leaf 1 0x62#8)

/-- The state of vector G1: the tree of B1 with its codes, and the regions of S3 and P1. -/
def aabCodes : State :=
  { aabTree with
    code := assignCode (assignCode noCodes 0x61#8 [false]) 0x62#8 [true]
    status := { State.reset.status with treeValid := true, codesValid := true } }

/-- Bytes in shared memory, a source region that is exactly those bytes, and a destination region. -/
def withRegions (s : State) (src : Nat) (bs : List Byte) (dst dstEnd : Word) : State :=
  { s with
    mem := Memory.load [] src bs
    srcAddr := BitVec.ofNat 32 src
    srcEnd := BitVec.ofNat 32 (src + bs.length)
    dstAddr := dst
    dstEnd := dstEnd }

/-- The header of the "aab" artifact (vector S1). -/
def aabHeader : List Byte :=
  [0x00#8, 0x00#8, 0x00#8, 0x03#8, 0x00#8, 0x01#8, 0x61#8, 0x01#8, 0x62#8]

/-- A state whose single node is the leaf 'a' (vector V2 with 3 copies), with its code, which is empty. -/
def leafState : State :=
  { State.reset with
    node := nodeMemory [Node.mkLeaf 0x61#8 3#32]
    code := noCodes.set 0x61 (some { present := true, bits := [] })
    nodeCount := 1
    leafCount := 1
    total := 3#32
    status := { State.reset.status with treeValid := true, codesValid := true } }

/-- The state after DESERIALIZE of 00 00 00 02 00 01 61 01 61 (vector G9). -/
def dupTree : State :=
  { State.reset with
    node := nodeMemory [Node.mkNode 0#32 1 2, Node.mkLeaf 0x61#8 0#32, Node.mkLeaf 0x61#8 0#32]
    nodeCount := 3
    leafCount := 2
    total := 2#32
    status := { State.reset.status with treeValid := true } }

/-- BUSY = 1 with a command word pending. -/
def busyState (s : State) (w : Word) : State := s.launch w

/-- A memory map that refuses writes at 0x2004 and nothing else (vector S11). -/
def refuse2004 : List AdmitRegion :=
  { first := 0x2004#32, last := 0x2004#32, read := true, write := false } :: State.reset.admitMap

/-! ## Decoding: words written out from R100 and R102 -/

theorem test_decode_nop : decode 0b00000000000000000000000000000000#32 = .ok .nop := by decide
theorem test_decode_clear : decode 0b00000000000000000000000000000001#32 = .ok .clear := by decide
theorem test_decode_build : decode 0b00000000000000000000000000010000#32 = .ok .build := by decide
theorem test_decode_gencode : decode 0b00000000000000000000000000010001#32 = .ok .gencode := by decide
theorem test_decode_serialize : decode 0b00000000000000000000000000100000#32 = .ok .serialize := by decide
theorem test_decode_deserialize : decode 0b00000000000000000000000000100001#32 = .ok .deserialize := by decide
theorem test_decode_pack : decode 0b00000000000000000000000000110000#32 = .ok .pack := by decide
theorem test_decode_unpack : decode 0b00000000000000000000000000110001#32 = .ok .unpack := by decide

/-- Vector C2: OP = 0x00 with RSV != 0 is no NOP. -/
theorem test_decode_reserved : decode 0x00000100#32 = .error .reservedField := by decide

/-- Vector C1: OP = 0xFF is no command. -/
theorem test_decode_unknown : decode 0x000000FF#32 = .error .unknownOpcode := by decide

theorem test_decode_table_word :
    decodeTableWord 32 0x31 = some .unpack ∧ decodeTableWord 32 0x02 = none ∧ decodeTableWord 40 0x00 = none := by
  decide

/-! ## WellFormed smoke: each check refuses an ill-formed word -/

theorem test_reserved_field_refused : wordWellFormed 0x80000010#32 = false ∧ reservedFieldOk 0x80000010#32 = false := by
  decide
theorem test_opcode_refused : wordWellFormed 0x00000012#32 = false ∧ opcodeOk 0x00000012#32 = false := by decide
theorem test_word_accepted : wordWellFormed 0x00000021#32 = true := by decide

/-! ## One command at a time -/

/-- Vector C3: after the illegal command of C1, NOP leaves STATUS 0x00000002 and ERR_INFO 0. -/
theorem test_nop :
    let u := nextOf (engineStep (busyState { State.reset with errInfo := 0xFF#32 } 0#32))
    u.status.toWord = 0x00000002#32 ∧ u.errInfo = 0#32 := by decide +kernel

/-- Vector C4: CLEAR after G1 leaves STATUS 0x00010002, FREQ, NODE and CODE zero and TOTAL 0. -/
theorem test_clear :
    let u := nextOf (engineStep (busyState aabCodes 1#32))
    u.status.toWord = 0x00010002#32 ∧ u.freqAt 0x61#8 = some 0#32 ∧ u.total = 0#32 ∧
      registerValue u (.nodeW1 0) = some 0#32 ∧ registerValue u (.code 0x61#8 0) = some 0#32 := by decide +kernel

/-- Vectors C1 and C2: an illegal word. -/
theorem test_illegal :
    let u := nextOf (engineStep (busyState State.reset 0xFF#32))
    u.status.toWord = 0x00FF0102#32 ∧ u.errInfo = 0xFF#32 ∧
      (nextOf (engineStep (busyState State.reset 0x100#32))).status.toWord = 0x00000102#32 := by decide +kernel

/-- Vector B1. -/
theorem test_build :
    let u := nextOf (exec .build aabFreq)
    u.root = 2 ∧ u.nodeCount = 3 ∧ u.leafCount = 2 ∧ u.total = 3#32 ∧
      [0, 1, 2, 3, 510].map (fun i => registerValue u (.nodeW1 i)) =
        [some 0xC0000061#32, some 0xC0000062#32, some 0x80000100#32, some 0#32, some 0#32] ∧
      registerValue u (.nodeW0 2) = some 3#32 := by decide +kernel

/-- Vectors B7 and B8: 2^32 overflows, 2^32 - 1 is the largest legal total. -/
theorem test_build_total :
    (nextOf (exec .build (freqState [(0x00#8, 0xFFFFFFFF#32), (0x01#8, 1#32)]))).status.err = 0x03#8 ∧
      (nextOf (exec .build (freqState [(0x07#8, 0xFFFFFFFF#32)]))).total = 0xFFFFFFFF#32 := by decide +kernel

/-- Vector G1. -/
theorem test_gencode :
    let u := nextOf (exec .gencode aabTree)
    u.status.codesValid = true ∧
      [0, 1].map (fun w => registerValue u (.code 0x61#8 w)) = [some 0x80000001#32, some 0#32] ∧
      [0, 1].map (fun w => registerValue u (.code 0x62#8 w)) = [some 0x80000001#32, some 0x80000000#32] ∧
      registerValue u (.code 0x63#8 0) = some 0#32 := by decide +kernel

/-- Vectors G7 and G9. -/
theorem test_gencode_errors :
    (nextOf (exec .gencode State.reset)).status.err = 0x04#8 ∧
      (nextOf (exec .gencode dupTree)).status.err = 0x0F#8 ∧
      (nextOf (exec .gencode dupTree)).errInfo = 0x61#32 := by decide +kernel

/-- Vector S3: the destination exactly fits. -/
theorem test_serialize :
    let u := nextOf (exec .serialize (withRegions aabCodes 0 [] 0x2000#32 0x2009#32))
    Memory.bytesAt u.mem 0x2000 9 = aabHeader ∧ u.outcnt = 9#32 ∧ u.dstAddr = 0x2009#32 ∧
      u.status.err = 0#8 := by decide +kernel

/-- Vectors S4 and S11. -/
theorem test_serialize_errors :
    let full := nextOf (exec .serialize (withRegions aabCodes 0 [] 0x2000#32 0x2008#32))
    let bus := nextOf (exec .serialize { withRegions aabCodes 0 [] 0x2000#32 0x2100#32 with admitMap := refuse2004 })
    full.status.err = 0x08#8 ∧ full.errInfo = 0x2008#32 ∧ full.mem = [] ∧
      bus.status.err = 0x12#8 ∧ bus.errInfo = 0x2004#32 ∧ bus.dstAddr = 0x2000#32 := by decide +kernel

/-- Vector D1, with the payload byte left unread. -/
theorem test_deserialize :
    let u := nextOf (exec .deserialize (withRegions State.reset 0x3000 (aabHeader ++ [0x20#8]) 0#32 0#32))
    [0, 1, 2].map (fun i => registerValue u (.nodeW1 i)) =
        [some 0x80020200#32, some 0xC0000061#32, some 0xC0000062#32] ∧
      u.root = 0 ∧ u.nodeCount = 3 ∧ u.leafCount = 2 ∧ u.total = 3#32 ∧ u.outcnt = 9#32 ∧
      u.srcAddr = 0x3009#32 := by decide +kernel

/-- Vectors D2 and D5. -/
theorem test_deserialize_errors :
    let tag := nextOf (exec .deserialize (withRegions State.reset 0x3000 [0#8, 0#8, 0#8, 3#8, 0#8, 2#8] 0#32 0#32))
    let sym := nextOf (exec .deserialize
      { withRegions State.reset 0x3000 [0#8, 0#8, 0#8, 1#8, 1#8, 1#8, 0x61#8] 0#32 0#32 with
        ctrl := { symw := true, strict := false, irqEn := false } })
    tag.status.err = 0x0C#8 ∧ tag.errInfo = 0x3005#32 ∧ sym.status.err = 0x0D#8 ∧ sym.errInfo = 0x3005#32 := by
  decide +kernel

/-- Vector P1. -/
theorem test_pack :
    let u := nextOf (exec .pack (withRegions aabCodes 0x1000 [0x61#8, 0x61#8, 0x62#8] 0x2009#32 0x2100#32))
    Memory.read u.mem 0x2009 = 0x20#8 ∧ u.bitcnt = 3#40 ∧ u.outcnt = 1#32 ∧ u.srcAddr = 0x1003#32 ∧
      u.dstAddr = 0x200A#32 := by decide +kernel

/-- Vectors P2 and P5. -/
theorem test_pack_errors :
    let nocode := nextOf (exec .pack (withRegions aabCodes 0x1000 [0x61#8, 0x63#8, 0x62#8] 0x2009#32 0x2100#32))
    nocode.status.err = 0x0B#8 ∧ nocode.errInfo = 0x1001#32 ∧
      (nextOf (exec .pack (withRegions aabCodes 0x1000 [0x61#8, 0x61#8, 0x62#8] 0x1002#32 0x1100#32))).status.err
        = 0x07#8 := by decide +kernel

/-- Vector U2 (strict). -/
theorem test_unpack :
    let u := nextOf (exec .unpack { withRegions aabTree 0x3009 [0x20#8] 0x5000#32 0x5100#32 with
      ctrl := { symw := false, strict := true, irqEn := false } })
    Memory.bytesAt u.mem 0x5000 3 = [0x61#8, 0x61#8, 0x62#8] ∧ u.outcnt = 3#32 ∧ u.bitcnt = 3#40 ∧
      u.srcAddr = 0x300A#32 ∧ u.dstAddr = 0x5003#32 := by decide +kernel

/-- Vectors U3, whose error comes before any access (R252 item 2), and U5. -/
theorem test_unpack_errors :
    let short := nextOf (exec .unpack (withRegions aabTree 0x3009 [] 0x5000#32 0x5100#32))
    let pad := nextOf (exec .unpack { withRegions aabTree 0x3009 [0x21#8] 0x5000#32 0x5100#32 with
      ctrl := { symw := false, strict := true, irqEn := false } })
    short.status.err = 0x09#8 ∧ short.errInfo = 0x3009#32 ∧ short.mem = [] ∧
      pad.status.err = 0x10#8 ∧ pad.errInfo = 0x3009#32 := by
  decide +kernel

/-! ## The host port -/

/-- Vectors C5 and C6: a one-byte write is refused; ACCERR is write-one-to-clear. -/
theorem test_host_refused_write :
    let s := hostWriteReg State.reset 0x0008#32 .byte 1#32
    s.ctrl.toWord = 0#32 ∧ s.status.toWord = 0x20#32 ∧
      (hostWriteReg s 0x0010#32 .word 0x20#32).status.accerr = false := by decide +kernel

/-- Vector C7: a second command while BUSY = 1 is lost. -/
theorem test_host_busy_write :
    let s := hostWriteReg (busyState State.reset 0x10#32) 0x000C#32 .word 0x11#32
    s.pending = some 0x10#32 ∧ s.status.accerr = true := by decide +kernel

/-- Program 2's `SETFREQ 0x61, 2` line of Program 1 (R113) goes to 0x0584; its offset is in the host's map. -/
theorem test_setfreq_offset :
    (HostLine.setfreq 0x61#8 2#32).expand = [.host (.writeReg 0x0584#32 .word 2#32)] := by decide +kernel

/-- R114 with R43, R44: EXPECT is what RD returns, a free value of OUTCNT while BUSY = 1, BUSY in STATUS, 0 when misaligned. -/
theorem test_expect :
    expects (busyState State.reset 0x10#32) .outcnt 0#32 = (Config.freeWord 0 == 0#32) ∧
      expects (busyState State.reset 0x10#32) .status 0x00100001#32 = true ∧
      expectsAt State.reset 0x0035#32 0#32 = true ∧ expectsAt State.reset 0x0035#32 1#32 = false :=
  ⟨expectsAt_eq _ _ _, by decide +kernel, by decide +kernel, by decide +kernel⟩

/-! ## Witnesses: states that meet the hypotheses of the statements -/

/-- A memory map of one record, the whole address space, admits every access. -/
theorem admitsRange_reset {s : State} (h : s.admitMap = State.reset.admitMap) (k : AccessKind) (lo hi : Nat) :
    s.admitsRange k lo hi := by
  intro x _ _
  have hx : x.toNat ≤ 4294967295 := by omega
  cases k <;> simp [State.admits, h, State.reset, admitOf, AdmitRegion.holds, AdmitRegion.allows, hx]

/-- A memory map that refuses every access at one address and nothing else. -/
def refuseAt (a : Word) : List AdmitRegion :=
  { first := a, last := a, read := false, write := false } :: State.reset.admitMap

theorem admitsRange_refuseAt {s : State} {a : Word} (h : s.admitMap = refuseAt a) (k : AccessKind) (lo hi : Nat)
    (hh : hi ≤ a.toNat ∨ a.toNat < lo) : s.admitsRange k lo hi := by
  intro x h1 h2
  have hx : x.toNat ≤ 4294967295 := by omega
  have ha : ¬ (a.toNat ≤ x.toNat ∧ x.toNat ≤ a.toNat) := by omega
  simp only [State.admits, h, refuseAt, admitOf, List.find?_cons, AdmitRegion.holds]
  rw [show (decide (a.toNat ≤ x.toNat) && decide (x.toNat ≤ a.toNat)) = false by
    simpa only [Bool.and_eq_false_iff, decide_eq_false_iff_not, Decidable.not_and_iff_or_not] using ha]
  cases k <;> simp [State.reset, AdmitRegion.allows, hx]

theorem srcUnraced_nil {s : State} (h : s.raced = []) : s.srcUnraced := by
  intro x _
  simp [h]

/-- Entries past the tree are zero. -/
theorem others_zero {s : State} (nodes : List Node) (hn : s.node = nodeMemory nodes)
    (hc : s.nodeCount.val = nodes.length) (i : NodeIdx) (hi : s.nodeCount.val ≤ i.val) : s.nodeAt i = some Node.zero := by
  rw [State.nodeAt, hn, nodeIn_nodeMemory, List.getD_eq_getElem?_getD, List.getElem?_eq_none (by omega)]
  rfl

theorem aabTree_at : TreeAt aabTree aabNodes :=
  ⟨by decide +kernel, by decide +kernel, by decide, by decide +kernel, others_zero _ rfl rfl, by decide⟩

theorem leafState_at : TreeAt leafState (.leaf 0 0x61#8) :=
  ⟨by decide +kernel, by decide +kernel, by decide, by decide +kernel, others_zero _ rfl rfl, by decide⟩

theorem dupTree_at : TreeAt dupTree (.node 0 (.leaf 1 0x61#8) (.leaf 2 0x61#8)) :=
  ⟨by decide +kernel, by decide +kernel, by decide, by decide +kernel, others_zero _ rfl rfl, by decide⟩

theorem aabCodes_at : TreeAt aabCodes aabNodes := aabTree_at.congr rfl rfl rfl rfl

theorem aabCodes_codes : CodesOf aabCodes aabNodes.shape := by
  refine ⟨by decide, fun sym => ?_⟩
  change codeIn (assignCode (assignCode noCodes 0x61#8 [false]) 0x62#8 [true]) sym = _
  rw [codeIn_assignCode, codeIn_assignCode, codeIn_noCodes]
  revert sym
  decide +kernel

theorem aabCodes_tables : TablesInv aabCodes :=
  fun _ => ⟨by decide +kernel, aabNodes, aabCodes_at, fun _ => aabCodes_codes⟩

theorem aabCodes_status : StatusInv aabCodes :=
  ⟨by decide +kernel, by decide +kernel, by decide +kernel, by decide +kernel, by decide +kernel, by decide +kernel⟩

/-- TablesInv holds of every state without a tree. -/
theorem tables_without_tree {s : State} (h : s.status.treeValid = false) : TablesInv s := by
  intro hv
  simp [h] at hv

theorem reset_status : StatusInv State.reset :=
  ⟨by decide +kernel, by decide +kernel, by decide +kernel, by decide +kernel, by decide +kernel, by decide +kernel⟩

/-! ### Encoding, step and host port -/

theorem witness_DecodeInvertsEncode : Instr.unpack.wellFormed = true := by decide

theorem witness_DecodeIsTotalAndExact :
    (0x31#32).toNat / 256 = 0 ∧ (0x31#32).toNat % 256 = (opcodeOf .unpack).toNat ∧
      (0x100#32).toNat / 256 ≠ 0 ∧ (0xFFFFFFFF#32).toNat / 256 ≠ 0 ∧
      (0x02#32).toNat % 256 ∉ [0x00, 0x01, 0x10, 0x11, 0x20, 0x21, 0x30, 0x31] := by decide

theorem witness_StepRunsDecodedCommand :
    let s := busyState aabCodes 0x20#32
    s.status.busy = true ∧ s.pending = some 0x20#32 ∧ decode 0x20#32 = .ok .serialize ∧ s.schedule = [] ∧
      { s with schedule := [Event.engine, Event.wait] }.schedule = .engine :: [Event.wait] ∧ s.raced = [] := by
  decide +kernel

theorem witness_IdleEngineKeepsAllState :
    State.reset.status.busy = false ∧ State.reset.schedule = [] ∧
      { State.reset with schedule := [Event.engine] }.schedule = .engine :: [] := by decide +kernel

theorem witness_LaunchLatchesTheWord :
    State.reset.status.busy = false ∧ (busyState State.reset 0x10#32).status.busy = true := by decide +kernel

theorem witness_BusyAccessesAreRefusedOrFree :
    (busyState State.reset 0x10#32).status.busy = true ∧ (0x14#32).toNat % 4 = 0 ∧ 0x0014 ≤ (0x14#32).toNat % 32768 ∧
      (0x7FFC#32).toNat % 4 = 0 ∧ 0x0014 ≤ (0x7FFC#32).toNat % 32768 := by decide +kernel

/-- Each size and misalignment, and a state with BUSY = 1 beside one with BUSY = 0: the statement is of every state. -/
theorem witness_UndefinedAccessIsRefused :
    (AccessSize.byte ≠ .word ∨ (0x08#32).toNat % 4 ≠ 0) ∧ (AccessSize.half ≠ .word ∨ (0x08#32).toNat % 4 ≠ 0) ∧
      (AccessSize.word ≠ .word ∨ (0x09#32).toNat % 4 ≠ 0) ∧ (AccessSize.word ≠ .word ∨ (0x0B#32).toNat % 4 ≠ 0) ∧
      State.reset.status.busy = false ∧ (busyState State.reset 0x10#32).status.busy = true := by
  decide +kernel

/-- The boundary offsets of each reserved range of R30, and of the windows beside them. -/
theorem witness_RegisterMapSelectsTargets :
    [0x0044#32, 0x03FF#32, 0x0800#32, 0x1FFF#32, 0x2FF8#32, 0x3FFF#32].map decodeOffset =
        List.replicate 6 Target.reserved ∧
      [0x0043#32, 0x0400#32, 0x07FF#32, 0x2000#32, 0x2FF7#32, 0x4000#32, 0x7FFF#32].map decodeOffset =
        [.errInfo, .freq 0, .freq 255, .nodeW0 0, .nodeW1 510, .code 0 0, .code 255 15] := by decide +kernel

theorem witness_ConstantRegistersNeverChange : State.reset.status.busy = false := by decide +kernel

/-- Aligned offsets at the edges of what a host write ignores. -/
theorem witness_HostAccessEffects :
    State.reset.status.busy = false ∧
      [0x0000#32, 0x0004#32, 0x0014#32, 0x0034#32, 0x0044#32, 0x03FC#32, 0x0800#32, 0x2000#32, 0x7FFC#32].all
        (fun off => decide (off.toNat % 4 = 0 ∧
          off.toNat % 32768 ∉ [0x0008, 0x000C, 0x0010, 0x0024, 0x0028, 0x002C, 0x0030] ∧
          ¬ (0x0400 ≤ off.toNat % 32768 ∧ off.toNat % 32768 ≤ 0x07FF))) = true := by decide +kernel

theorem witness_StatusWordLayout :
    State.reset.status.busy = false ∧ aabCodes.status.busy = false ∧ aabCodes.status ≠ State.reset.status := by
  decide +kernel

/-- The aligned ends of the reserved ranges, a written and an unwritten entry, and the ends of the ranges of CODE words. -/
theorem witness_WindowReadsReturnEntries :
    aabTree.status.busy = false ∧ State.reset.status.busy = false ∧
      [0x0044#32, 0x03FC#32, 0x0800#32, 0x1FFC#32, 0x2FF8#32, 0x3FFC#32].all (fun off =>
        decide (off.toNat % 4 = 0 ∧ ((0x0044 ≤ off.toNat % 32768 ∧ off.toNat % 32768 ≤ 0x03FF) ∨
          (0x0800 ≤ off.toNat % 32768 ∧ off.toNat % 32768 ≤ 0x1FFF) ∨
          (0x2FF8 ≤ off.toNat % 32768 ∧ off.toNat % 32768 ≤ 0x3FFF)))) = true ∧
      aabTree.nodeAt 2 = some (Node.mkNode 3#32 0 1) ∧ aabTree.nodeAt 510 = some Node.zero ∧
      State.reset.nodeAt 510 = none ∧ (State.reset.codeAt 0xFF#8 = none ∧ 0 ≤ 8 ∧ 8 ≤ 8) ∧
      ((9 ≤ 9 ∧ 9 ≤ 15) ∧ (9 ≤ 15 ∧ 15 ≤ 15)) := by decide +kernel

/-- A code of 255 bits in the last entry: LEN at its largest; words 1 and 8 at the ends of the window. -/
theorem witness_CodeWindowForm :
    let c : Code := { present := true, bits := List.replicate 255 true }
    let s : State := { State.reset with code := noCodes.set 255 (some c) }
    s.status.busy = false ∧ s.codeAt 255 = some c ∧ c.bits.length ≤ 255 ∧ aabCodes.codeAt 0x61#8 =
      some { present := true, bits := [false] } ∧ (1 ≤ 1 ∧ 1 ≤ 8) ∧ (1 ≤ 8 ∧ 8 ≤ 8) := by decide +kernel

theorem witness_IrqIsDoneAndEnabled :
    (∃ u, exec .nop State.reset = .next u) ∧ (∃ u, execIllegal 0x2#32 State.reset = .next u) ∧
      State.reset.status.busy = false ∧ (0x2#32 : Word).getLsbD 1 = true ∧ (0x3#32 : Word).getLsbD 2 = false :=
  ⟨⟨_, rfl⟩, ⟨_, rfl⟩, by decide +kernel, by decide, by decide⟩

theorem witness_ResetValues :
    (State.reset = State.reset ∨ ∃ t : State, State.reset = t.hardwareReset) ∧
      (aabCodes.hardwareReset = State.reset ∨ ∃ t : State, aabCodes.hardwareReset = t.hardwareReset) :=
  ⟨.inl rfl, .inr ⟨_, rfl⟩⟩

/-- PACK running with the destination [0x2009, 0x2100): both ends inside, one before and one after outside. -/
def racingPack : State :=
  busyState (withRegions aabCodes 0x1000 [0x61#8, 0x61#8, 0x62#8] 0x2009#32 0x2100#32) 0x30#32

/-- Both ends of the destination region, a source byte the host raced for, and the addresses beside them. -/
theorem witness_HardwareResetMemory :
    let s := { hostWriteMem racingPack 0x1002#32 0x63#8 with schedule := [Event.reset] }
    s.schedule = .reset :: [] ∧ (0x1002 ∈ s.raced ∧ s.inRunningDst 0x1002 = false) ∧
      s.inRunningDst 0x2008 = false ∧ s.inRunningDst 0x2009 = true ∧ s.inRunningDst 0x20FF = true ∧
      s.inRunningDst 0x2100 = false := by decide +kernel

/-- R61, R280: a source byte the host wrote while the command was pending keeps the host's value over a hardware reset. -/
theorem test_reset_keeps_source :
    Memory.read (hostWriteMem racingPack 0x1002#32 0x63#8).hardwareReset.mem 0x1002 = 0x63#8 ∧
      (hostWriteMem racingPack 0x1002#32 0x63#8).hardwareReset.raced = [] := by decide +kernel

theorem witness_HostRaceMakesByteFree :
    racingPack.inRunningDst (0x2009#32).toNat = true ∧
      (racingPack.inRunningSrc (0x1002#32).toNat = true ∨ racingPack.inRunningDst (0x1002#32).toNat = true) ∧
      (racingPack.inRunningSrc (0x1003#32).toNat = false ∧ racingPack.inRunningDst (0x1003#32).toNat = false) ∧
      { racingPack with draws := 7 }.admits 0x1002#32 .read = true ∧
      (∃ t : State, t.raced = (hostWriteMem racingPack 0x1002#32 0#8).raced ∧ t.admits 0x1002#32 .read = true) ∧
      isNext (engineStep (hostWriteMem racingPack 0x2009#32 0#8)) = true :=
  ⟨by decide +kernel, by decide +kernel, by decide +kernel, by decide +kernel,
    ⟨hostWriteMem racingPack 0x1002#32 0#8, rfl, by decide +kernel⟩, by decide +kernel⟩

theorem witness_IllegalCommandEffect :
    ((0x100#32).toNat / 256 ≠ 0 ∨ (0x100#32).toNat % 256 ∉ [0x00, 0x01, 0x10, 0x11, 0x20, 0x21, 0x30, 0x31]) ∧
      ((0x02#32).toNat / 256 ≠ 0 ∨ (0x02#32).toNat % 256 ∉ [0x00, 0x01, 0x10, 0x11, 0x20, 0x21, 0x30, 0x31]) := by
  decide

/-! ### BUILD and GENCODE -/

theorem witness_BuildStopsOnUnwrittenFrequency : ∃ sym : Byte, State.reset.freqAt sym = none :=
  ⟨0xFF#8, by decide +kernel⟩

/-- The entries of a table built by `freqState`. -/
theorem freqState_cons (p : Byte × Word) (fs : List (Byte × Word)) (x : Byte) :
    (freqState (fs ++ [p])).freqAt x = if x = p.1 then some p.2 else (freqState fs).freqAt x := by
  rw [freqState, List.foldl_append, List.foldl_cons, List.foldl_nil, freqAt_setFreq]
  rfl

theorem freqState_nil (x : Byte) : (freqState []).freqAt x = some 0#32 := by
  simp [freqState, State.freqAt]

theorem freqState_written (fs : List (Byte × Word)) : (freqState fs).freqWritten := by
  induction fs using List.reverseRecOn with
  | nil => intro x; rw [freqState_nil]; rfl
  | append_singleton fs p ih =>
    intro x
    rw [freqState_cons]
    split
    · rfl
    · exact ih x

/-- The table with two entries. -/
theorem freqNat_pair (a b : Byte) (v w : Word) (x : Byte) :
    (freqState [(a, v), (b, w)]).freqNat x = if x = b then w.toNat else if x = a then v.toNat else 0 := by
  unfold State.freqNat
  rw [show [(a, v), (b, w)] = ([] ++ [(a, v)]) ++ [(b, w)] from rfl, freqState_cons, freqState_cons, freqState_nil]
  split
  · rfl
  · split <;> rfl

theorem freqTotal_pair (a b : Byte) (v w : Word) : (freqState [(a, v), (b, w)]).freqTotal =
    (allSymbols.map (fun x => if x = b then w.toNat else if x = a then v.toNat else 0)).sum := by
  unfold State.freqTotal
  rw [List.map_congr_left (fun x _ => freqNat_pair a b v w x)]

theorem presentList_pair (a b : Byte) (v w : Word) : (freqState [(a, v), (b, w)]).presentList =
    allSymbols.filter (fun x => decide ((if x = b then w.toNat else if x = a then v.toNat else 0) ≠ 0)) := by
  unfold State.presentList
  exact List.filter_congr (fun x _ => by rw [freqNat_pair])

theorem witness_BuildEmptyTable : ∀ sym : Byte, (freqState []).freqAt sym = some 0#32 := freqState_nil

/-- Vector B7: the sum is 2^32. -/
theorem witness_BuildTotalOverflow :
    (freqState [(0x00#8, 0xFFFFFFFF#32), (0x01#8, 1#32)]).freqWritten ∧
      0xFFFFFFFF < (freqState [(0x00#8, 0xFFFFFFFF#32), (0x01#8, 1#32)]).freqTotal :=
  ⟨freqState_written _, by rw [freqTotal_pair]; decide +kernel⟩

/-- Vector B1, and the largest legal sum. -/
theorem witness_BuildSuccess :
    (aabFreq.freqWritten ∧ aabFreq.presentList ≠ [] ∧ aabFreq.freqTotal ≤ 0xFFFFFFFF) ∧
      (freqState [(0x00#8, 0xFFFFFFFE#32), (0xFF#8, 1#32)]).freqWritten ∧
      (freqState [(0x00#8, 0xFFFFFFFE#32), (0xFF#8, 1#32)]).presentList ≠ [] ∧
      (freqState [(0x00#8, 0xFFFFFFFE#32), (0xFF#8, 1#32)]).freqTotal ≤ 0xFFFFFFFF :=
  ⟨⟨freqState_written _, by rw [aabFreq, presentList_pair]; decide +kernel,
      by rw [aabFreq, freqTotal_pair]; decide +kernel⟩,
    freqState_written _, by rw [presentList_pair]; decide +kernel, by rw [freqTotal_pair]; decide +kernel⟩

theorem witness_BuildLeavesInSymbolOrder :
    aabFreq.freqWritten ∧ aabFreq.presentList ≠ [] ∧ aabFreq.freqTotal ≤ 0xFFFFFFFF ∧
      aabFreq.presentList[(1 : NodeIdx).val]? = some 0x62#8 ∧ aabFreq.freqAt 0x62#8 = some 1#32 :=
  ⟨witness_BuildSuccess.1.1, witness_BuildSuccess.1.2.1, witness_BuildSuccess.1.2.2,
    by rw [aabFreq, presentList_pair]; decide +kernel, by decide +kernel⟩

theorem witness_BuildTreeHasThePresentLeaves :
    aabFreq.freqWritten ∧ aabFreq.presentList ≠ [] ∧ aabFreq.freqTotal ≤ 0xFFFFFFFF := witness_BuildSuccess.1

/-- The first two extractions of vector B2: keys (1,2) and (1,3). -/
theorem witness_MergeTakesTheTwoSmallestKeys :
    let q : List QEntry := [⟨5#32, 0⟩, ⟨2#32, 1⟩, ⟨1#32, 2⟩, ⟨1#32, 3⟩, ⟨2#32, 4⟩]
    q ≠ [] ∧ extractMin q = some (⟨1#32, 2⟩, [⟨5#32, 0⟩, ⟨2#32, 1⟩, ⟨1#32, 3⟩, ⟨2#32, 4⟩]) ∧
      extractMin [⟨5#32, 0⟩, ⟨2#32, 1⟩, ⟨1#32, 3⟩, ⟨2#32, 4⟩] =
        some (⟨1#32, 3⟩, [⟨5#32, 0⟩, ⟨2#32, 1⟩, ⟨2#32, 4⟩]) := by decide

theorem witness_BuildTreeIsOptimal :
    (aabFreq.freqWritten ∧ aabFreq.presentList ≠ [] ∧ aabFreq.freqTotal ≤ 0xFFFFFFFF) ∧
      (Shape.node (.leaf 0x62#8) (.leaf 0x61#8)).symbols.Perm aabFreq.presentList :=
  ⟨witness_BuildSuccess.1, by rw [aabFreq, presentList_pair]; decide +kernel⟩

theorem witness_GencodeWithoutTree : State.reset.status.treeValid = false := by decide +kernel

theorem witness_GencodeWritesPaths :
    aabTree.status.treeValid = true ∧ TreeAt aabTree aabNodes ∧ aabNodes.shape.symbols.Nodup ∧
      (0x62#8, [true]) ∈ aabNodes.shape.codes ∧ 0x63#8 ∉ aabNodes.shape.symbols :=
  ⟨by decide +kernel, aabTree_at, by decide, by decide, by decide⟩

theorem witness_GencodeDuplicateSymbol :
    ∃ t : NodeTree, dupTree.status.treeValid = true ∧ TreeAt dupTree t ∧
      firstDuplicate [] t.shape.symbols = some 0x61#8 :=
  ⟨_, by decide +kernel, dupTree_at, by decide⟩

theorem witness_CodesArePrefixFree :
    TablesInv aabCodes ∧ aabCodes.status.treeValid = true ∧ aabCodes.status.codesValid = true ∧
      (0x61#8 : Byte) ≠ 0x62#8 ∧ aabCodes.codeAt 0x61#8 = some { present := true, bits := [false] } ∧
      aabCodes.codeAt 0x62#8 = some { present := true, bits := [true] } :=
  ⟨aabCodes_tables, by decide +kernel, by decide +kernel, by decide, by decide +kernel, by decide +kernel⟩

theorem witness_CodesAreComplete :
    TablesInv aabCodes ∧ aabCodes.status.treeValid = true ∧ aabCodes.status.codesValid = true :=
  ⟨aabCodes_tables, by decide +kernel, by decide +kernel⟩

/-! ### SERIALIZE and DESERIALIZE -/

/-- Vector S3: the destination is exactly the nine bytes of the header. -/
def serState : State := withRegions aabCodes 0 [] 0x2000#32 0x2009#32

theorem serState_at : TreeAt serState aabNodes := aabTree_at.congr rfl rfl rfl rfl

theorem witness_SerializeWritesHeader :
    serState.status.treeValid = true ∧ TreeAt serState aabNodes ∧ serState.dstAddr.toNat ≤ serState.dstEnd.toNat ∧
      serState.dstAddr.toNat + (4 + (2 * serState.leafCount.val - 1) +
        (if serState.ctrl.symw then 2 else 1) * serState.leafCount.val) ≤ serState.dstEnd.toNat ∧
      serState.admitsRange .write serState.dstAddr.toNat
        (serState.dstAddr.toNat + (4 + (2 * serState.leafCount.val - 1) +
          (if serState.ctrl.symw then 2 else 1) * serState.leafCount.val)) :=
  ⟨by decide +kernel, serState_at, by decide +kernel, by decide +kernel, admitsRange_reset rfl _ _ _⟩

/-- Vector S5: the EMPTY state. -/
theorem witness_SerializeEmptyArtifact :
    let s : State := { withRegions State.reset 0 [] 0x10#32 0x14#32 with
      status := { State.reset.status with empty := true } }
    s.status.empty = true ∧ s.status.treeValid = false ∧ s.total = 0#32 ∧
      s.dstAddr.toNat + 4 ≤ s.dstEnd.toNat ∧ s.admitsRange .write s.dstAddr.toNat (s.dstAddr.toNat + 4) :=
  ⟨by decide +kernel, by decide +kernel, by decide +kernel, by decide +kernel, admitsRange_reset rfl _ _ _⟩

/-- The nine header bytes of D1 in a region that is exactly they. -/
def deserState : State := withRegions State.reset 0x3000 aabHeader 0x5000#32 0x5100#32

theorem witness_DeserializeRebuildsTree :
    let sh : Shape := .node (.leaf 0x61#8) (.leaf 0x62#8)
    3#32 ≠ 0#32 ∧ sh.nodes ≤ 511 ∧
      deserState.srcAddr.toNat + (4 + (sh.enc deserState.ctrl.symw).length) ≤ deserState.srcEnd.toNat ∧
      Memory.bytesAt deserState.mem deserState.srcAddr.toNat (4 + (sh.enc deserState.ctrl.symw).length) =
        countField 3#32 ++ sh.enc deserState.ctrl.symw ∧
      deserState.admitsRange .read deserState.srcAddr.toNat
        (deserState.srcAddr.toNat + (4 + (sh.enc deserState.ctrl.symw).length)) ∧
      deserState.srcUnraced :=
  ⟨by decide, by decide, by decide +kernel, by decide +kernel, admitsRange_reset rfl _ _ _, srcUnraced_nil rfl⟩

/-- Vector D9 without its last byte. -/
theorem witness_DeserializeCountZero :
    let s := withRegions State.reset 0x3000 [0#8, 0#8, 0#8, 0#8] 0#32 0#32
    s.srcAddr.toNat + 4 ≤ s.srcEnd.toNat ∧ Memory.bytesAt s.mem s.srcAddr.toNat 4 = [0#8, 0#8, 0#8, 0#8] ∧
      s.admitsRange .read s.srcAddr.toNat (s.srcAddr.toNat + 4) ∧ s.srcUnraced :=
  ⟨by decide +kernel, by decide +kernel, admitsRange_reset rfl _ _ _, srcUnraced_nil rfl⟩

/-- Vector D10 for the RANGE clause, vector D2 for the other. -/
theorem witness_DeserializeErrorState :
    { aabCodes with srcAddr := 5#32, srcEnd := 4#32 }.srcEnd.toNat <
        { aabCodes with srcAddr := 5#32, srcEnd := 4#32 }.srcAddr.toNat ∧
      (let s := withRegions aabCodes 0x3000 [0#8, 0#8, 0#8, 3#8, 0#8, 2#8] 0#32 0#32
       s.srcAddr.toNat ≤ s.srcEnd.toNat ∧
         ∃ u, exec .deserialize s = .next u ∧ u.status.err ≠ 0#8) :=
  ⟨by decide +kernel, by decide +kernel, _, next_of_isNext (by decide +kernel), by decide +kernel⟩

/-- A state for each clause: vectors D2, D5 and a chain that needs a 512th node for the errors in known bytes (the last one
as bytes alone), D3 for the end, and a working state for each clause of `parse()`. -/
theorem witness_ParseErrors :
    (let d2 := withRegions State.reset 0x3000 [0#8, 0#8, 0#8, 3#8, 0#8, 2#8] 0#32 0#32
     d2.srcAddr.toNat + 6 ≤ d2.srcEnd.toNat ∧ d2.admitsRange .read d2.srcAddr.toNat (d2.srcAddr.toNat + 6) ∧
       d2.srcUnraced ∧ scanHeader d2.ctrl.symw (d2.srcPrefix 6) = .bad .badTag 5) ∧
    (let d5 := { withRegions State.reset 0x3000 [0#8, 0#8, 0#8, 1#8, 1#8, 1#8, 0x61#8] 0#32 0#32 with
       ctrl := { symw := true, strict := false, irqEn := false } }
     d5.srcAddr.toNat + 7 ≤ d5.srcEnd.toNat ∧ scanHeader d5.ctrl.symw (d5.srcPrefix 7) = .bad .badSym 5) ∧
    (scanHeader false ([0#8, 0#8, 0#8, 1#8] ++ List.replicate 510 0#8) = .more ∧
      scanHeader false ([0#8, 0#8, 0#8, 1#8] ++ List.replicate 511 0#8) = .bad .treeOvf 515) ∧
    (let d3 := withRegions State.reset 0x3000 [0#8, 0#8, 0#8, 3#8, 0#8, 1#8, 0x61#8, 1#8] 0#32 0#32
     d3.srcAddr.toNat + 8 = d3.srcEnd.toNat ∧ d3.admitsRange .read d3.srcAddr.toNat d3.srcEnd.toNat ∧ d3.srcUnraced ∧
       scanHeader d3.ctrl.symw (d3.srcPrefix 8) = .more) ∧
    (let st (k : Nat) (p : Word) : ParseState :=
       { s := { withRegions State.reset 0x3000 [2#8, 0x61#8] 0#32 0#32 with
           ctrl := { symw := true, strict := false, irqEn := false } }
         p := p, k := k, leaves := 0 }
     (st 511 0x3000#32).k = 511 ∧
       ((st 510 0x3002#32).k < 511 ∧ (st 510 0x3002#32).p = (st 510 0x3002#32).s.srcEnd) ∧
       ((st 510 0x3000#32).p ≠ (st 510 0x3000#32).s.srcEnd ∧ (st 510 0x3000#32).s.admits 0x3000#32 .read = true ∧
         0x3000 ∉ (st 510 0x3000#32).s.raced ∧ Memory.read (st 510 0x3000#32).s.mem 0x3000 ≠ 0x00#8 ∧
         Memory.read (st 510 0x3000#32).s.mem 0x3000 ≠ 0x01#8) ∧
       ((st 1 0x3000#32).s.ctrl.symw = true ∧
         (st 1 0x3000#32).p.toNat + 2 ≤ (st 1 0x3000#32).s.srcEnd.toNat ∧
         (st 1 0x3000#32).s.admitsRange .read (st 1 0x3000#32).p.toNat ((st 1 0x3000#32).p.toNat + 2) ∧
         (st 1 0x3000#32).p.toNat + 1 ∉ (st 1 0x3000#32).s.raced ∧
         Memory.bytesAt (st 1 0x3000#32).s.mem (st 1 0x3000#32).p.toNat 2 = [2#8, 0x61#8] ∧ (2#8 : Byte) ≠ 0x00#8)) :=
  ⟨⟨by decide +kernel, admitsRange_reset rfl _ _ _, srcUnraced_nil rfl, by decide +kernel⟩,
    ⟨by decide +kernel, by decide +kernel⟩, ⟨by decide +kernel, by decide +kernel⟩,
    ⟨by decide +kernel, admitsRange_reset rfl _ _ _, srcUnraced_nil rfl, by decide +kernel⟩,
    rfl, ⟨by decide +kernel, by decide +kernel⟩,
    ⟨by decide +kernel, by decide +kernel, by decide +kernel, by decide +kernel, by decide +kernel⟩,
    ⟨rfl, by decide +kernel, admitsRange_reset rfl _ _ _, by decide +kernel, by decide +kernel, by decide⟩⟩

theorem witness_SerializeDeserializeRoundTrip :
    ∃ u v : State, serState.status.treeValid = true ∧ TreeAt serState aabNodes ∧ serState.total ≠ 0#32 ∧
      exec .serialize serState = .next u ∧ u.status.err = 0#8 ∧ v.ctrl.symw = serState.ctrl.symw ∧
      v.srcAddr = serState.dstAddr ∧ u.dstAddr.toNat ≤ v.srcEnd.toNat ∧
      (∀ a : Nat, serState.dstAddr.toNat ≤ a → a < u.dstAddr.toNat → Memory.read v.mem a = Memory.read u.mem a) ∧
      v.admitsRange .read serState.dstAddr.toNat u.dstAddr.toNat ∧ v.srcUnraced :=
  ⟨nextOf (exec .serialize serState),
    { State.reset with
      srcAddr := 0x2000#32, srcEnd := 0x2009#32, mem := (nextOf (exec .serialize serState)).mem },
    by decide +kernel, serState_at, by decide +kernel, next_of_isNext (by decide +kernel), by decide +kernel,
    by decide +kernel, by decide +kernel, by decide +kernel, fun _ _ _ => rfl, admitsRange_reset rfl _ _ _,
    srcUnraced_nil rfl⟩

/-! ### PACK and UNPACK -/

/-- Vector P1 with a destination of exactly one byte. -/
def packState : State := withRegions aabCodes 0x1000 [0x61#8, 0x61#8, 0x62#8] 0x2009#32 0x200A#32

theorem witness_PackWritesPayload :
    packState.srcAddr.toNat ≤ packState.srcEnd.toNat ∧ packState.dstAddr.toNat ≤ packState.dstEnd.toNat ∧
      packState.overlap = false ∧ regionBytes packState.srcAddr packState.srcEnd = packState.total.toNat ∧
      (packState.total ≠ 0#32 → packState.status.codesValid = true) ∧
      (∀ b ∈ packState.srcBytes, ∃ c : Code, packState.codeAt b = some c ∧ c.present = true) ∧
      packState.dstAddr.toNat + bytesFor (packState.payloadOf packState.srcBytes).length ≤ packState.dstEnd.toNat ∧
      packState.admitsRange .read packState.srcAddr.toNat packState.srcEnd.toNat ∧
      packState.admitsRange .write packState.dstAddr.toNat
        (packState.dstAddr.toNat + bytesFor (packState.payloadOf packState.srcBytes).length) ∧ packState.srcUnraced := by
  have hb : packState.srcBytes = [0x61#8, 0x61#8, 0x62#8] := by decide +kernel
  refine ⟨by decide +kernel, by decide +kernel, by decide +kernel, by decide +kernel, by decide +kernel, ?_,
    by decide +kernel, admitsRange_reset rfl _ _ _, admitsRange_reset rfl _ _ _, srcUnraced_nil rfl⟩
  rw [hb]
  intro b hm
  have hc : b = 0x61#8 ∨ b = 0x62#8 := by simpa using hm
  rcases hc with rfl | rfl
  · exact ⟨{ present := true, bits := [false] }, by decide +kernel, rfl⟩
  · exact ⟨{ present := true, bits := [true] }, by decide +kernel, rfl⟩

/-- One state for each clause; the values are the vectors of sections 2.3 to 2.6. -/
theorem witness_PreconditionErrors :
    let r (a e : Word) : State := { aabCodes with dstAddr := a, dstEnd := e }
    let x (sa se da de : Word) : State := { aabCodes with srcAddr := sa, srcEnd := se, dstAddr := da, dstEnd := de }
    ((r 0x200#32 0x100#32).dstEnd.toNat < (r 0x200#32 0x100#32).dstAddr.toNat) ∧
      (State.reset.dstAddr.toNat ≤ State.reset.dstEnd.toNat ∧ State.reset.status.treeValid = false ∧
        State.reset.status.empty = false) ∧
      ((r 0x2000#32 0x2008#32).status.treeValid = true ∧
        (r 0x2000#32 0x2008#32).dstAddr.toNat ≤ (r 0x2000#32 0x2008#32).dstEnd.toNat ∧
        (r 0x2000#32 0x2008#32).dstEnd.toNat < (r 0x2000#32 0x2008#32).dstAddr.toNat +
          (4 + (r 0x2000#32 0x2008#32).nodeCount.val +
            symWidth (r 0x2000#32 0x2008#32).ctrl.symw * (r 0x2000#32 0x2008#32).leafCount.val)) ∧
      (let e : State := { State.reset with dstEnd := 3#32, status := { State.reset.status with empty := true } }
       e.dstAddr.toNat ≤ e.dstEnd.toNat ∧ e.status.treeValid = false ∧ e.status.empty = true ∧
         e.dstEnd.toNat < e.dstAddr.toNat + 4) ∧
      ((x 5#32 4#32 0#32 0#32).srcEnd.toNat < (x 5#32 4#32 0#32 0#32).srcAddr.toNat) ∧
      ((x 4#32 5#32 1#32 0#32).dstEnd.toNat < (x 4#32 5#32 1#32 0#32).dstAddr.toNat) ∧
      (let o := x 0x1000#32 0x1003#32 0x1002#32 0x1100#32
       o.srcAddr.toNat < o.srcEnd.toNat ∧ o.dstAddr.toNat < o.dstEnd.toNat ∧ o.srcAddr.toNat < o.dstEnd.toNat ∧
         o.dstAddr.toNat < o.srcEnd.toNat) ∧
      (let l := x 0x1000#32 0x1002#32 0x2000#32 0x2100#32
       l.overlap = false ∧ l.srcAddr.toNat ≤ l.srcEnd.toNat ∧ l.dstAddr.toNat ≤ l.dstEnd.toNat ∧
         l.srcEnd.toNat - l.srcAddr.toNat ≠ l.total.toNat) ∧
      (let n : State := { aabTree with srcAddr := 0x1000#32, srcEnd := 0x1003#32 }
       n.overlap = false ∧ n.srcAddr.toNat ≤ n.srcEnd.toNat ∧ n.dstAddr.toNat ≤ n.dstEnd.toNat ∧
         n.srcEnd.toNat - n.srcAddr.toNat = n.total.toNat ∧ n.total ≠ 0#32 ∧ n.status.codesValid = false) ∧
      (let t : State := { State.reset with total := 1#32 }
       t.overlap = false ∧ t.total ≠ 0#32 ∧ t.status.treeValid = false) ∧
      (let d := x 0x1000#32 0x1003#32 0x5000#32 0x5002#32
       d.overlap = false ∧ d.total ≠ 0#32 ∧ d.status.treeValid = true ∧
         d.dstEnd.toNat - d.dstAddr.toNat < d.total.toNat) := by decide +kernel

/-- Vector P2: the second byte, k = 1, has no code. -/
theorem witness_PackRejectsByteWithoutCode :
    let s := withRegions aabCodes 0x1000 [0x61#8, 0x63#8, 0x62#8] 0x2009#32 0x2100#32
    s.srcAddr.toNat ≤ s.srcEnd.toNat ∧ s.dstAddr.toNat ≤ s.dstEnd.toNat ∧ s.overlap = false ∧
      regionBytes s.srcAddr s.srcEnd = s.total.toNat ∧ s.status.codesValid = true ∧ 1 < s.total.toNat ∧
      (∀ b ∈ Memory.bytesAt s.mem s.srcAddr.toNat 1, ∃ d : Code, s.codeAt b = some d ∧ d.present = true) ∧
      (0x1001#32).toNat = s.srcAddr.toNat + 1 ∧
      s.codeAt (Memory.read s.mem (0x1001#32).toNat) = some { present := false, bits := [] } ∧
      s.dstAddr.toNat + (s.payloadOf (Memory.bytesAt s.mem s.srcAddr.toNat 1)).length / 8 ≤ s.dstEnd.toNat ∧
      s.admitsRange .read s.srcAddr.toNat s.srcEnd.toNat ∧
      s.admitsRange .write s.dstAddr.toNat s.dstEnd.toNat ∧ s.srcUnraced := by
  intro s
  have hb : Memory.bytesAt s.mem s.srcAddr.toNat 1 = [0x61#8] := by decide +kernel
  refine ⟨by decide +kernel, by decide +kernel, by decide +kernel, by decide +kernel, by decide +kernel,
    by decide +kernel, ?_, by decide +kernel, by decide +kernel, by decide +kernel, admitsRange_reset rfl _ _ _,
    admitsRange_reset rfl _ _ _, srcUnraced_nil rfl⟩
  rw [hb]
  intro b hm
  obtain rfl : b = 0x61#8 := by simpa using hm
  exact ⟨{ present := true, bits := [false] }, by decide +kernel, rfl⟩

/-- The input of P1 with an empty destination. -/
theorem witness_PackDestinationTooSmall :
    let s := withRegions aabCodes 0x1000 [0x61#8, 0x61#8, 0x61#8] 0x2009#32 0x2009#32
    s.srcAddr.toNat ≤ s.srcEnd.toNat ∧ s.dstAddr.toNat ≤ s.dstEnd.toNat ∧ s.overlap = false ∧
      regionBytes s.srcAddr s.srcEnd = s.total.toNat ∧ s.status.codesValid = true ∧
      (∀ b ∈ s.srcBytes, ∃ c : Code, s.codeAt b = some c ∧ c.present = true) ∧
      s.dstEnd.toNat < s.dstAddr.toNat + bytesFor (s.payloadOf s.srcBytes).length ∧
      s.admitsRange .read s.srcAddr.toNat s.srcEnd.toNat ∧
      s.admitsRange .write s.dstAddr.toNat s.dstEnd.toNat ∧ s.srcUnraced := by
  intro s
  have hb : s.srcBytes = [0x61#8, 0x61#8, 0x61#8] := by decide +kernel
  refine ⟨by decide +kernel, by decide +kernel, by decide +kernel, by decide +kernel, by decide +kernel, ?_,
    by decide +kernel, admitsRange_reset rfl _ _ _, admitsRange_reset rfl _ _ _, srcUnraced_nil rfl⟩
  rw [hb]
  intro b hm
  obtain rfl : b = 0x61#8 := by simpa using hm
  exact ⟨{ present := true, bits := [false] }, by decide +kernel, rfl⟩

/-- Vector U2: the payload 0x20 of "aab", strict. -/
def unpackState : State :=
  { withRegions aabTree 0x3009 [0x20#8] 0x5000#32 0x5003#32 with
    ctrl := { symw := false, strict := true, irqEn := false } }

/-- The leaves that the payload 0x20 selects. -/
def aabPicks : List (Byte × List Bool) := [(0x61#8, [false]), (0x61#8, [false]), (0x62#8, [true])]

theorem witness_UnpackDecodes :
    unpackState.status.treeValid = true ∧ TreeAt unpackState (.node 2 (.leaf 0 0x61#8) (.leaf 1 0x62#8)) ∧
      unpackState.srcAddr.toNat ≤ unpackState.srcEnd.toNat ∧ unpackState.overlap = false ∧
      aabPicks.length = unpackState.total.toNat ∧
      (∀ p ∈ aabPicks, p ∈ (NodeTree.node 2 (.leaf 0 0x61#8) (.leaf 1 0x62#8)).shape.codes) ∧
      unpackState.dstAddr.toNat + unpackState.total.toNat ≤ unpackState.dstEnd.toNat ∧
      unpackState.srcAddr.toNat + bytesFor (aabPicks.flatMap Prod.snd).length ≤ unpackState.srcEnd.toNat ∧
      (∀ j : Nat, j < (aabPicks.flatMap Prod.snd).length →
        Memory.bitAt unpackState.mem unpackState.srcAddr.toNat j = (aabPicks.flatMap Prod.snd).getD j false) ∧
      (unpackState.ctrl.strict = true →
        unpackState.srcAddr.toNat + bytesFor (aabPicks.flatMap Prod.snd).length = unpackState.srcEnd.toNat ∧
        ∀ j : Nat, (aabPicks.flatMap Prod.snd).length ≤ j →
          j < 8 * bytesFor (aabPicks.flatMap Prod.snd).length →
          Memory.bitAt unpackState.mem unpackState.srcAddr.toNat j = false) ∧
      unpackState.admitsRange .read unpackState.srcAddr.toNat unpackState.srcEnd.toNat ∧
      unpackState.admitsRange .write unpackState.dstAddr.toNat
        (unpackState.dstAddr.toNat + unpackState.total.toNat) ∧ unpackState.srcUnraced := by
  refine ⟨by decide +kernel, aabTree_at.congr rfl rfl rfl rfl, by decide +kernel, by decide +kernel,
    by decide +kernel, by decide, by decide +kernel, by decide +kernel, by decide +kernel, fun _ => ⟨by decide +kernel, ?_⟩,
    admitsRange_reset rfl _ _ _, admitsRange_reset rfl _ _ _, srcUnraced_nil rfl⟩
  intro j h1 h2
  have h3 : 3 ≤ j := h1
  have h4 : j < 8 := h2
  have h5 : ∀ k : Fin 8, 3 ≤ k.val → Memory.bitAt unpackState.mem unpackState.srcAddr.toNat k.val = false := by
    decide +kernel
  exact h5 ⟨j, h4⟩ h3

/-- A single leaf, strict, with an empty source region and exactly three bytes of room. -/
theorem witness_UnpackSingleLeaf :
    let s : State := { withRegions leafState 0x3006 [] 0x5000#32 0x5003#32 with
      ctrl := { symw := false, strict := true, irqEn := false } }
    s.status.treeValid = true ∧ TreeAt s (.leaf 0 0x61#8) ∧ s.srcAddr.toNat ≤ s.srcEnd.toNat ∧ s.overlap = false ∧
      (s.ctrl.strict = true → s.srcAddr = s.srcEnd) ∧ s.dstAddr.toNat + s.total.toNat ≤ s.dstEnd.toNat ∧
      s.admitsRange .write s.dstAddr.toNat (s.dstAddr.toNat + s.total.toNat) :=
  ⟨by decide +kernel, leafState_at.congr rfl rfl rfl rfl, by decide +kernel, by decide +kernel, by decide +kernel,
    by decide +kernel, admitsRange_reset rfl _ _ _⟩

/-- Vectors U13 and U12, one for each clause. -/
theorem witness_UnpackCountZero :
    (State.reset.total = 0#32 ∧ State.reset.srcAddr.toNat ≤ State.reset.srcEnd.toNat ∧
      State.reset.dstAddr.toNat ≤ State.reset.dstEnd.toNat ∧ State.reset.overlap = false ∧
      (State.reset.ctrl.strict = false ∨ State.reset.srcAddr = State.reset.srcEnd)) ∧
    (let s : State := { withRegions State.reset 0x3004 [5#8] 0x5000#32 0x5000#32 with
       ctrl := { symw := false, strict := true, irqEn := false } }
     s.total = 0#32 ∧ s.srcAddr.toNat ≤ s.srcEnd.toNat ∧ s.dstAddr.toNat ≤ s.dstEnd.toNat ∧ s.overlap = false ∧
       s.ctrl.strict = true ∧ s.srcAddr ≠ s.srcEnd) := by decide +kernel

/-- Vector U3, whose source region is empty, and nine symbols of one bit each with the first of their two bytes. -/
theorem witness_UnpackTruncatedPayload :
    (let s := withRegions aabTree 0x3009 [] 0x5000#32 0x5100#32
     (s.status.treeValid = true ∧ TreeAt s aabNodes ∧ s.total ≠ 0#32 ∧ s.overlap = false ∧
       aabPicks.length = s.total.toNat ∧ s.dstAddr.toNat + s.total.toNat ≤ s.dstEnd.toNat ∧
       s.srcAddr.toNat + bytesFor (aabPicks.flatMap Prod.snd).length = s.srcEnd.toNat + 1 ∧
       s.admitsRange .read s.srcAddr.toNat s.srcEnd.toNat ∧
       s.admitsRange .write s.dstAddr.toNat s.dstEnd.toNat ∧ s.srcUnraced) ∧
       (∀ p ∈ aabPicks, p ∈ aabNodes.shape.codes) ∧
       (∀ j : Fin (8 * regionBytes s.srcAddr s.srcEnd),
         Memory.bitAt s.mem s.srcAddr.toNat j.val = (aabPicks.flatMap Prod.snd).getD j.val false) ∧
       s.srcAddr = s.srcEnd) ∧
    (let s := { withRegions aabTree 0x3009 [0xFF#8] 0x5000#32 0x5009#32 with total := 9#32 }
     let picks : List (Byte × List Bool) := List.replicate 9 (0x62#8, [true])
     (s.status.treeValid = true ∧ TreeAt s aabNodes ∧ s.total ≠ 0#32 ∧ s.overlap = false ∧
       picks.length = s.total.toNat ∧ s.dstAddr.toNat + s.total.toNat ≤ s.dstEnd.toNat ∧
       s.srcAddr.toNat + bytesFor (picks.flatMap Prod.snd).length = s.srcEnd.toNat + 1 ∧
       s.admitsRange .read s.srcAddr.toNat s.srcEnd.toNat ∧
       s.admitsRange .write s.dstAddr.toNat s.dstEnd.toNat ∧ s.srcUnraced) ∧
       (∀ p ∈ picks, p ∈ aabNodes.shape.codes) ∧
       (∀ j : Fin (8 * regionBytes s.srcAddr s.srcEnd),
         Memory.bitAt s.mem s.srcAddr.toNat j.val = (picks.flatMap Prod.snd).getD j.val false) ∧
       s.srcAddr ≠ s.srcEnd) :=
  ⟨⟨⟨by decide +kernel, aabTree_at.congr rfl rfl rfl rfl, by decide +kernel, by decide +kernel,
      by decide +kernel, by decide +kernel, by decide +kernel, admitsRange_reset rfl _ _ _, admitsRange_reset rfl _ _ _,
      srcUnraced_nil rfl⟩, by decide, by decide +kernel, by decide +kernel⟩,
    ⟨by decide +kernel, aabTree_at.congr rfl rfl rfl rfl, by decide +kernel, by decide +kernel,
      by decide +kernel, by decide +kernel, by decide +kernel, admitsRange_reset rfl _ _ _, admitsRange_reset rfl _ _ _,
      srcUnraced_nil rfl⟩, by decide, by decide +kernel, by decide +kernel⟩

/-- `unpackState` with another source region, room and memory map: UNPACK is ready for it. -/
def unpackFrom (bs : List Byte) (map : List AdmitRegion) : State :=
  { withRegions aabTree 0x3009 bs 0x5000#32 0x5003#32 with
    ctrl := { symw := false, strict := true, irqEn := false }
    admitMap := map }

/-- The checks of `UnpackReady` that can be computed. -/
theorem unpackReady_of {s : State} {t : NodeTree} (ht : TreeAt s t) (hr : s.raced = [])
    (h : s.status.treeValid = true ∧ s.total ≠ 0#32 ∧ s.srcAddr.toNat ≤ s.srcEnd.toNat ∧
      s.dstAddr.toNat + s.total.toNat ≤ s.dstEnd.toNat ∧ s.overlap = false) : UnpackReady s t :=
  ⟨h.1, ht, h.2.1, h.2.2.1, h.2.2.2.1, h.2.2.2.2, srcUnraced_nil hr⟩

theorem unpackFrom_at (bs : List Byte) (map : List AdmitRegion) : TreeAt (unpackFrom bs map) aabNodes :=
  aabTree_at.congr rfl rfl rfl rfl

/-- The bits of `unpackFrom` are those of the run, as many as one byte holds. -/
theorem aabPicks_begin (s : State) (n : Nat) (hn : n ≤ 8)
    (h : ∀ j : Fin 8, j.val < n → Memory.bitAt s.mem s.srcAddr.toNat j.val = (runBits aabPicks).getD j.val false) :
    PayloadBegins s aabPicks n := fun j hj => h ⟨j, by omega⟩ hj

/-- Vectors U5 and U6, a single leaf with a trailing byte, and one working state for each clause of `strictChecks`:
vectors U1, U5, U6 and U2. -/
theorem witness_UnpackStrictChecks :
    (let s := unpackFrom [0x21#8] State.reset.admitMap
     UnpackReady s aabNodes ∧ RunOf s aabNodes aabPicks ∧ s.ctrl.strict = true ∧
       s.srcAddr.toNat + bytesFor (runBits aabPicks).length ≤ s.srcEnd.toNat ∧
       PayloadBegins s aabPicks (runBits aabPicks).length ∧
       s.admitsRange .read s.srcAddr.toNat (s.srcAddr.toNat + bytesFor (runBits aabPicks).length) ∧
       s.admitsRange .write s.dstAddr.toNat (s.dstAddr.toNat + s.total.toNat) ∧
       (0x3009#32).toNat + 1 = s.srcAddr.toNat + bytesFor (runBits aabPicks).length ∧
       (∃ j : Nat, (runBits aabPicks).length ≤ j ∧ j < 8 * bytesFor (runBits aabPicks).length ∧
         Memory.bitAt s.mem s.srcAddr.toNat j = true)) ∧
    (let s := unpackFrom [0x20#8, 0x00#8] State.reset.admitMap
     UnpackReady s aabNodes ∧ RunOf s aabNodes aabPicks ∧ s.ctrl.strict = true ∧
       s.srcAddr.toNat + bytesFor (runBits aabPicks).length ≤ s.srcEnd.toNat ∧
       PayloadBegins s aabPicks (runBits aabPicks).length ∧
       (0x300A#32).toNat = s.srcAddr.toNat + bytesFor (runBits aabPicks).length ∧ (0x300A#32).toNat < s.srcEnd.toNat ∧
       (∀ j : Fin 8, (runBits aabPicks).length ≤ j.val → Memory.bitAt s.mem s.srcAddr.toNat j.val = false)) ∧
    (let s : State := { withRegions leafState 0x3006 [5#8] 0x5000#32 0x5003#32 with
       ctrl := { symw := false, strict := true, irqEn := false } }
     UnpackReady s (.leaf 0 0x61#8) ∧ s.ctrl.strict = true ∧ s.srcAddr ≠ s.srcEnd ∧
       s.admitsRange .write s.dstAddr.toNat (s.dstAddr.toNat + s.total.toNat)) ∧
    (let st (strict : Bool) (p : Word) (cur : Byte) : UnpackState :=
       { s := { unpackState with ctrl := { symw := false, strict := strict, irqEn := false } }
         p := p, q := 0x5003#32, cnt := 3, bits := 3, n := 2, cur := cur, rem := 5 }
     (st false 0x300A#32 0x21#8).s.ctrl.strict = false ∧
       ((st true 0x300A#32 0x21#8).s.ctrl.strict = true ∧
         ∃ j : Nat, j < (st true 0x300A#32 0x21#8).rem ∧ (st true 0x300A#32 0x21#8).cur.getLsbD j = true) ∧
       ((∀ j : Nat, j < (st true 0x3009#32 0x20#8).rem → (st true 0x3009#32 0x20#8).cur.getLsbD j = false) ∧
         (st true 0x3009#32 0x20#8).p ≠ (st true 0x3009#32 0x20#8).s.srcEnd) ∧
       ((∀ j : Nat, j < (st true 0x300A#32 0x20#8).rem → (st true 0x300A#32 0x20#8).cur.getLsbD j = false) ∧
         (st true 0x300A#32 0x20#8).p = (st true 0x300A#32 0x20#8).s.srcEnd)) :=
  ⟨⟨unpackReady_of (unpackFrom_at _ _) rfl (by decide +kernel), ⟨by decide +kernel, by decide⟩, rfl, by decide +kernel,
      aabPicks_begin _ _ (by decide) (by decide +kernel), admitsRange_reset rfl _ _ _, admitsRange_reset rfl _ _ _,
      by decide +kernel, 7, by decide, by decide, by decide +kernel⟩,
    ⟨unpackReady_of (unpackFrom_at _ _) rfl (by decide +kernel), ⟨by decide +kernel, by decide⟩, rfl, by decide +kernel,
      aabPicks_begin _ _ (by decide) (by decide +kernel), by decide +kernel, by decide +kernel, by decide +kernel⟩,
    ⟨unpackReady_of (leafState_at.congr rfl rfl rfl rfl) rfl (by decide +kernel), rfl, by decide +kernel, admitsRange_reset rfl _ _ _⟩,
    rfl, ⟨rfl, 0, by decide, by decide⟩, ⟨by decide, by decide +kernel⟩, ⟨by decide, by decide +kernel⟩⟩

/-- `packState` with other input bytes and another memory map: PACK is ready for them. -/
def packFrom (bs : List Byte) (map : List AdmitRegion) : State :=
  { withRegions aabCodes 0x1000 bs 0x2009#32 0x200A#32 with total := BitVec.ofNat 32 bs.length, admitMap := map }

/-- The checks of `PackReady` that can be computed. -/
theorem packReady_of {s : State} (hr : s.raced = [])
    (h : s.srcAddr.toNat ≤ s.srcEnd.toNat ∧ s.dstAddr.toNat ≤ s.dstEnd.toNat ∧ s.overlap = false ∧
      regionBytes s.srcAddr s.srcEnd = s.total.toNat ∧ s.status.codesValid = true) : PackReady s :=
  ⟨h.1, h.2.1, h.2.2.1, h.2.2.2.1, fun _ => h.2.2.2.2, srcUnraced_nil hr⟩

/-- Every byte 'a' has a code. -/
theorem coded_of {s : State} {m : Nat} (h : s.srcPrefix m = List.replicate m 0x61#8)
    (hc : s.codeAt 0x61#8 = some { present := true, bits := [false] }) : s.coded (s.srcPrefix m) := by
  rw [h]
  intro b hb
  obtain rfl := List.eq_of_mem_replicate hb
  exact ⟨_, hc, rfl⟩

/-- One state for each clause. SERIALIZE: vector S11, k = 4, and the last byte of an empty artifact. DESERIALIZE: the first
byte and the byte after the count of D1. PACK: the reads of the first and of the last input byte; the write of a whole byte
and of the padded one. UNPACK: the read of the one payload byte; the writes of the last symbol, of two codes and of a single
leaf. -/
theorem witness_SerializeStopsAtRefusedWrite :
    (let s : State := { withRegions aabCodes 0 [] 0x2000#32 0x2100#32 with admitMap := refuseAt 0x2004#32 }
     (s.status.treeValid = true ∨ s.status.empty = true) ∧ TreeAt s aabNodes ∧
       s.dstAddr.toNat + headerSize s ≤ s.dstEnd.toNat ∧ 4 < headerSize s ∧
       s.admitsRange .write s.dstAddr.toNat (s.dstAddr.toNat + 4) ∧
       (0x2004#32).toNat = s.dstAddr.toNat + 4 ∧ s.admits 0x2004#32 .write = false) ∧
    (let s : State := { withRegions State.reset 0 [] 0x10#32 0x14#32 with
       status := { State.reset.status with empty := true }, admitMap := refuseAt 0x13#32 }
     (s.status.treeValid = true ∨ s.status.empty = true) ∧ s.status.treeValid = false ∧
       s.dstAddr.toNat + headerSize s ≤ s.dstEnd.toNat ∧ 3 < headerSize s ∧
       s.admitsRange .write s.dstAddr.toNat (s.dstAddr.toNat + 3) ∧
       (0x13#32).toNat = s.dstAddr.toNat + 3 ∧ s.admits 0x13#32 .write = false) ∧
    (let s (a : Word) : State := { deserState with admitMap := refuseAt a }
     ((s 0x3000#32).srcAddr.toNat + 0 < (s 0x3000#32).srcEnd.toNat ∧
       scanHeader (s 0x3000#32).ctrl.symw ((s 0x3000#32).srcPrefix 0) = .more ∧
       (s 0x3000#32).admits 0x3000#32 .read = false) ∧
     ((s 0x3004#32).srcAddr.toNat + 4 < (s 0x3004#32).srcEnd.toNat ∧
       (s 0x3004#32).admitsRange .read (s 0x3004#32).srcAddr.toNat ((s 0x3004#32).srcAddr.toNat + 4) ∧
       (s 0x3004#32).srcUnraced ∧ scanHeader (s 0x3004#32).ctrl.symw ((s 0x3004#32).srcPrefix 4) = .more ∧
       (s 0x3004#32).admits 0x3004#32 .read = false)) ∧
    (let s (a : Word) : State := packFrom (List.replicate 3 0x61#8) (refuseAt a)
     (PackReady (s 0x1000#32) ∧ 0 < (s 0x1000#32).total.toNat ∧ (s 0x1000#32).coded ((s 0x1000#32).srcPrefix 0) ∧
       (s 0x1000#32).admits 0x1000#32 .read = false) ∧
     (PackReady (s 0x1002#32) ∧ 2 < (s 0x1002#32).total.toNat ∧ (s 0x1002#32).coded ((s 0x1002#32).srcPrefix 2) ∧
       (s 0x1002#32).dstAddr.toNat + ((s 0x1002#32).payloadOf ((s 0x1002#32).srcPrefix 2)).length / 8 ≤
         (s 0x1002#32).dstEnd.toNat ∧
       (s 0x1002#32).admitsRange .read 0x1000 (0x1000 + 2) ∧
       (s 0x1002#32).admitsRange .write (s 0x1002#32).dstAddr.toNat ((s 0x1002#32).dstAddr.toNat +
         ((s 0x1002#32).payloadOf ((s 0x1002#32).srcPrefix 2)).length / 8) ∧
       (s 0x1002#32).admits 0x1002#32 .read = false)) ∧
    (let s (n : Nat) : State := packFrom (List.replicate n 0x61#8) (refuseAt 0x2009#32)
     (PackReady (s 8) ∧ (s 8).coded ((s 8).srcPrefix 8) ∧ 8 * (0 + 1) ≤ ((s 8).payloadOf ((s 8).srcPrefix 8)).length) ∧
     (PackReady (s 3) ∧ 3 ≤ (s 3).total.toNat ∧ (s 3).coded ((s 3).srcPrefix 3) ∧
       (3 = (s 3).total.toNat ∧ 0 < bytesFor ((s 3).payloadOf ((s 3).srcPrefix 3)).length) ∧
       (s 3).dstAddr.toNat + 0 < (s 3).dstEnd.toNat ∧ (s 3).admitsRange .read 0x1000 (0x1000 + 3) ∧
       (s 3).admitsRange .write (s 3).dstAddr.toNat ((s 3).dstAddr.toNat + 0) ∧
       (s 3).admits 0x2009#32 .write = false)) ∧
    (let s := unpackFrom [0x20#8] (refuseAt 0x3009#32)
     UnpackReady s aabNodes ∧ RunOf s aabNodes aabPicks ∧ 8 * 0 < (runBits aabPicks).length ∧
       s.srcAddr.toNat + 0 < s.srcEnd.toNat ∧ PayloadBegins s aabPicks (8 * 0) ∧
       (∀ m : Fin 3, ¬ (runBits (aabPicks.take (m.val + 1))).length ≤ 8 * 0) ∧
       (0x3009#32).toNat = s.srcAddr.toNat + 0 ∧ s.admits 0x3009#32 .read = false) ∧
    (let s := unpackFrom [0x20#8] (refuseAt 0x5002#32)
     UnpackReady s aabNodes ∧ RunOf s aabNodes aabPicks ∧ 2 < s.total.toNat ∧
       s.srcAddr.toNat + bytesFor (runBits (aabPicks.take (2 + 1))).length ≤ s.srcEnd.toNat ∧
       PayloadBegins s aabPicks (runBits (aabPicks.take (2 + 1))).length ∧
       s.admitsRange .read s.srcAddr.toNat (s.srcAddr.toNat + bytesFor (runBits (aabPicks.take (2 + 1))).length) ∧
       s.admitsRange .write s.dstAddr.toNat (s.dstAddr.toNat + 2) ∧
       (0x5002#32).toNat = s.dstAddr.toNat + 2 ∧ s.admits 0x5002#32 .write = false) ∧
    (let s : State := { withRegions leafState 0x3006 [] 0x5000#32 0x5003#32 with admitMap := refuseAt 0x5002#32 }
     UnpackReady s (.leaf 0 0x61#8) ∧ 2 < s.total.toNat ∧
       s.admitsRange .write s.dstAddr.toNat (s.dstAddr.toNat + 2) ∧
       (0x5002#32).toNat = s.dstAddr.toNat + 2 ∧ s.admits 0x5002#32 .write = false) :=
  ⟨⟨by decide +kernel, aabTree_at.congr rfl rfl rfl rfl, by decide +kernel, by decide +kernel,
      admitsRange_refuseAt rfl _ _ _ (by decide +kernel), by decide +kernel, by decide +kernel⟩,
    ⟨by decide +kernel, by decide +kernel, by decide +kernel, by decide +kernel,
      admitsRange_refuseAt rfl _ _ _ (by decide +kernel), by decide +kernel, by decide +kernel⟩,
    ⟨⟨by decide +kernel, by decide +kernel, by decide +kernel⟩, by decide +kernel,
      admitsRange_refuseAt rfl _ _ _ (by decide +kernel), srcUnraced_nil rfl, by decide +kernel, by decide +kernel⟩,
    ⟨⟨packReady_of rfl (by decide +kernel), by decide +kernel, coded_of (by decide +kernel) (by decide +kernel), by decide +kernel⟩,
      packReady_of rfl (by decide +kernel), by decide +kernel, coded_of (by decide +kernel) (by decide +kernel), by decide +kernel,
      admitsRange_refuseAt rfl _ _ _ (by decide +kernel), admitsRange_refuseAt rfl _ _ _ (by decide +kernel),
      by decide +kernel⟩,
    ⟨⟨packReady_of rfl (by decide +kernel), coded_of (by decide +kernel) (by decide +kernel), by decide +kernel⟩,
      packReady_of rfl (by decide +kernel), by decide +kernel, coded_of (by decide +kernel) (by decide +kernel), by decide +kernel,
      by decide +kernel, admitsRange_refuseAt rfl _ _ _ (by decide +kernel),
      admitsRange_refuseAt rfl _ _ _ (by decide +kernel), by decide +kernel⟩,
    ⟨unpackReady_of (unpackFrom_at _ _) rfl (by decide +kernel), ⟨by decide +kernel, by decide⟩, by decide, by decide +kernel,
      aabPicks_begin _ _ (by decide) (by decide +kernel), by decide, by decide +kernel, by decide +kernel⟩,
    ⟨unpackReady_of (unpackFrom_at _ _) rfl (by decide +kernel), ⟨by decide +kernel, by decide⟩, by decide +kernel, by decide +kernel,
      aabPicks_begin _ _ (by decide) (by decide +kernel), admitsRange_refuseAt rfl _ _ _ (by decide +kernel),
      admitsRange_refuseAt rfl _ _ _ (by decide +kernel), by decide +kernel, by decide +kernel⟩,
    ⟨unpackReady_of (leafState_at.congr rfl rfl rfl rfl) rfl (by decide +kernel), by decide +kernel, admitsRange_refuseAt rfl _ _ _ (by decide +kernel), by decide +kernel,
      by decide +kernel⟩⟩

/-- PACK of "aab", then UNPACK of its one payload byte with the same tree. -/
theorem witness_PackUnpackRoundTrip :
    ∃ u v : State, packState.status.codesValid = true ∧ TreeAt packState aabNodes ∧
      CodesOf packState aabNodes.shape ∧ packState.srcUnraced ∧ exec .pack packState = .next u ∧
      u.status.err = 0#8 ∧ v.status.treeValid = true ∧ TreeAt v aabNodes ∧ v.total = packState.total ∧
      v.srcAddr.toNat + (u.dstAddr.toNat - packState.dstAddr.toNat) = v.srcEnd.toNat ∧
      (∀ k : Nat, k < u.dstAddr.toNat - packState.dstAddr.toNat →
        Memory.read v.mem (v.srcAddr.toNat + k) = Memory.read u.mem (packState.dstAddr.toNat + k)) ∧
      v.overlap = false ∧ v.dstAddr.toNat + v.total.toNat ≤ v.dstEnd.toNat ∧
      v.admitsRange .read v.srcAddr.toNat v.srcEnd.toNat ∧
      v.admitsRange .write v.dstAddr.toNat v.dstEnd.toNat ∧ v.srcUnraced := by
  refine ⟨nextOf (exec .pack packState), unpackState, by decide +kernel, aabTree_at.congr rfl rfl rfl rfl,
    aabCodes_codes.congr rfl, srcUnraced_nil rfl, next_of_isNext (by decide +kernel), by decide +kernel,
    by decide +kernel, aabTree_at.congr rfl rfl rfl rfl, by decide +kernel, by decide +kernel, ?_, by decide +kernel,
    by decide +kernel, admitsRange_reset rfl _ _ _, admitsRange_reset rfl _ _ _, srcUnraced_nil rfl⟩
  intro k hk
  have h1 : (nextOf (exec .pack packState)).dstAddr.toNat - packState.dstAddr.toNat = 1 := by decide +kernel
  obtain rfl : k = 0 := by omega
  decide +kernel

/-! ### Frames and whole-machine rules -/

theorem witness_RegisterCommandFrame :
    (Instr.gencode ∈ [Instr.nop, .clear, .build, .gencode, .deserialize] ∧ ∃ u, exec .gencode aabTree = .next u) ∧
      (∃ u, exec .build aabFreq = .next u) ∧ (∃ u, exec .deserialize deserState = .next u) :=
  ⟨⟨by decide, _, next_of_isNext (by decide +kernel)⟩, ⟨_, next_of_isNext (by decide +kernel)⟩,
    ⟨_, next_of_isNext (by decide +kernel)⟩⟩

theorem packState_tables : TablesInv packState :=
  fun _ => ⟨by decide +kernel, aabNodes, aabTree_at.congr rfl rfl rfl rfl, fun _ => aabCodes_codes.congr rfl⟩

/-- A success, and an error after a write: the payload of vector P8's kind. -/
theorem witness_StreamCommandFrame :
    (Instr.pack ∈ [Instr.serialize, .pack, .unpack] ∧ TablesInv packState ∧
      ∃ u, exec .pack packState = .next u ∧ u.status.err = 0#8) ∧
    (TablesInv State.reset ∧ ∃ u, exec .serialize State.reset = .next u ∧ u.status.err ≠ 0#8) :=
  ⟨⟨by decide, packState_tables, _, next_of_isNext (by decide +kernel), by decide +kernel⟩,
    tables_without_tree rfl, _, next_of_isNext (by decide +kernel), by decide +kernel⟩

/-- Memories that differ at 0x1003, just outside the source region [0x1000, 0x1003), and only there. -/
theorem witness_CommandTouchesOnlyItsRegions :
    TablesInv packState ∧ (∃ u, exec .pack packState = .next u) ∧
      inRegion packState.dstAddr packState.dstEnd 0x2008 = false ∧
      inRegion packState.dstAddr packState.dstEnd 0x200A = false ∧
      (Instr.gencode ∈ [Instr.nop, .clear, .build, .gencode] ∧ ∃ u, exec .gencode packState = .next u) ∧
      (∀ a : Nat, inRegion packState.srcAddr packState.srcEnd a = true →
        Memory.read (Memory.write packState.mem 0x1003 0xFF#8) a = Memory.read packState.mem a) := by
  refine ⟨packState_tables, ⟨_, next_of_isNext (by decide +kernel)⟩, by decide +kernel, by decide +kernel,
    ⟨by decide, _, next_of_isNext (by decide +kernel)⟩, fun a ha => Memory.read_write_other _ _ _ _ ?_⟩
  have h1 := (inRegion_iff _ _ _).mp ha
  have h2 : packState.srcEnd.toNat = 0x1003 := by decide +kernel
  omega

/-- A pending GENCODE, and a pending BUILD on an unwritten table. -/
theorem witness_EveryCommandCompletes :
    (StatusInv (busyState aabCodes 0x11#32) ∧ TablesInv (busyState aabCodes 0x11#32) ∧
      (busyState aabCodes 0x11#32).status.busy = true ∧ (busyState aabCodes 0x11#32).pending = some 0x11#32) ∧
    (StatusInv (busyState State.reset 0x10#32) ∧ TablesInv (busyState State.reset 0x10#32) ∧
      (busyState State.reset 0x10#32).status.busy = true ∧
      (busyState State.reset 0x10#32).pending = some 0x10#32) :=
  ⟨⟨⟨by decide +kernel, by decide +kernel, by decide +kernel, by decide +kernel, by decide +kernel, by decide +kernel⟩,
      fun _ => ⟨by decide +kernel, aabNodes, aabTree_at.congr rfl rfl rfl rfl, fun _ => aabCodes_codes.congr rfl⟩,
      by decide +kernel, by decide +kernel⟩,
    ⟨⟨by decide +kernel, by decide +kernel, by decide +kernel, by decide +kernel, by decide +kernel, by decide +kernel⟩,
      tables_without_tree rfl, by decide +kernel, by decide +kernel⟩⟩

/-- An ENGINE step of a pending GENCODE. -/
theorem witness_StatusInvariantKept :
    StatusInv (busyState aabTree 0x11#32) ∧ ∃ u, step (busyState aabTree 0x11#32) = .next u :=
  ⟨⟨by decide +kernel, by decide +kernel, by decide +kernel, by decide +kernel, by decide +kernel, by decide +kernel⟩,
    _, next_of_isNext (by decide +kernel)⟩

theorem witness_TablesInvariantKept :
    TablesInv (busyState aabTree 0x11#32) ∧ ∃ u, step (busyState aabTree 0x11#32) = .next u :=
  ⟨fun _ => ⟨by decide +kernel, aabNodes, aabTree_at.congr rfl rfl rfl rfl, fun h => by cases h⟩,
    _, next_of_isNext (by decide +kernel)⟩

/-- A HOST write of a byte of the running command's destination region, and the ENGINE step after it. -/
theorem witness_MemoryInvariantKept :
    MemInv { racingPack with schedule := [Event.host (.writeMem 0x20FF#32 0x62#8)] } ∧
      (∃ u, step { racingPack with schedule := [Event.host (.writeMem 0x20FF#32 0x62#8)] } = .next u) ∧
      MemInv (hostWriteMem racingPack 0x20FF#32 0x62#8) ∧
      ∃ u, step (hostWriteMem racingPack 0x20FF#32 0x62#8) = .next u :=
  ⟨⟨by decide +kernel, by decide +kernel⟩, ⟨_, rfl⟩, ⟨by decide +kernel, by decide +kernel⟩,
    _, next_of_isNext (by decide +kernel)⟩

end Sys2Proof.Tests
end

section
/-! Proof of the statement on refused accesses (R12, R80, R252, R253): for each stream command, how its rule ends when its
body raises an error, then the clause of each access from the laws of that body. -/

namespace Sys2Proof.Machine

/-! ### The rule that a stream command completes -/

theorem exec_serialize (s : State) : exec .serialize s = complete s (runSerialize s) := rfl
theorem exec_deserialize (s : State) : exec .deserialize s = complete s (runDeserialize s) := rfl
theorem exec_pack (s : State) : exec .pack s = complete s (runPack s) := rfl
theorem exec_unpack (s : State) : exec .unpack s = complete s (runUnpack s) := rfl

/-! ### A rule that ends in an error of its body -/

/-- A rule that raises an error once accesses have begun, after stores to the destination region only, completes with it
(R252 item 3). -/
theorem complete_abortedInBody {s t : State} {e : Err} {info : Word}
    (h : OnlyStores s.dstAddr.toNat s.dstEnd.toNat s t) (hd : t.draws = s.draws) :
    ∃ u : State, complete s (.raised e info true t) = .next u ∧ AbortedInBody s u e info :=
  ⟨_, rfl, raiseError_abortedInBody e info h hd.ge⟩

/-- With a tree or EMPTY and room for the header, SERIALIZE's rule raises what its puts raise (R182, R186). -/
theorem runSerialize_raised {s t : State} {bs : List Byte} {e : Err} {info : Word}
    (hv : s.status.treeValid = true ∨ s.status.empty = true) (hfit : s.dstAddr.toNat + headerSize s ≤ s.dstEnd.toNat)
    (hb : headerBytes s = some bs) (hp : putBytes bs s s.dstAddr = .raise e info t) :
    runSerialize s = .raised e info true t := by
  have hmal : ¬ regionMalformed s.dstAddr s.dstEnd = true := by rw [regionMalformed_iff]; omega
  have htree : ¬ (!s.status.treeValid && !s.status.empty) = true := by rcases hv with h | h <;> simp [h]
  have hroom : ¬ regionBytes s.dstAddr s.dstEnd < headerSize s := by unfold regionBytes; omega
  simp only [runSerialize, if_neg hmal, if_neg htree, if_neg hroom, hb, hp]

/-- On a well-formed source region DESERIALIZE's rule raises what its body raises, with NODE made free (R190, R199). -/
theorem runDeserialize_raised {s t : State} {e : Err} {info : Word} (h : s.srcAddr.toNat ≤ s.srcEnd.toNat)
    (hp : deserializeBody s.status.treeValid (s.setTreeFlags false false false).clearTreeRegs = .raise e info t) :
    runDeserialize s = .raised e info false t.trashNodes := by
  have hmal : ¬ regionMalformed s.srcAddr s.srcEnd = true := by rw [regionMalformed_iff]; omega
  simp only [runDeserialize, if_neg hmal, hp]

/-- Past its precondition checks PACK's rule raises what its body raises (R210). -/
theorem runPack_raised {s t : State} {e : Err} {info : Word} (h : PackReady s) (hp : packBody s = .raise e info t) :
    runPack s = .raised e info true t := by
  have hsrc : ¬ regionMalformed s.srcAddr s.srcEnd = true := by rw [regionMalformed_iff]; have := h.src; omega
  have hdst : ¬ regionMalformed s.dstAddr s.dstEnd = true := by rw [regionMalformed_iff]; have := h.dst; omega
  have hcodes : ¬ (s.total ≠ 0#32 ∧ s.status.codesValid = false) := fun ⟨h0, hc⟩ => by simp [h.codes h0] at hc
  simp only [runPack, if_neg hsrc, if_neg hdst, h.apart, Bool.false_eq_true, if_false, h.length, ne_eq, not_true_eq_false,
    if_neg hcodes, hp]

/-- Past its precondition checks UNPACK's rule raises the BUS of its symbols, counted as an access begun (R230). -/
theorem runUnpack_bus {s t : State} {tree : NodeTree} {a : Word} (h : UnpackReady s tree)
    (hp : unpackSymbols s (unpackStart s) = .raise .bus a t) : runUnpack s = .raised .bus a true t := by
  have hroom := h.room
  have hsrc : ¬ regionMalformed s.srcAddr s.srcEnd = true := by rw [regionMalformed_iff]; have := h.src; omega
  have hdst : ¬ regionMalformed s.dstAddr s.dstEnd = true := by rw [regionMalformed_iff]; omega
  have hfull : ¬ regionBytes s.dstAddr s.dstEnd < s.total.toNat := by unfold regionBytes; omega
  have haccess : unpackAccessed s .bus = true := rfl
  simp only [runUnpack, if_neg hsrc, if_neg hdst, h.apart, Bool.false_eq_true, if_false, if_neg h.total, h.tree,
    Bool.true_eq_false, if_neg hfull, hp, Part.bind_raise, haccess]

/-! ### SERIALIZE -/

/-- SERIALIZE's header bytes exist and fill the size of R182, with a tree or without one. -/
theorem headerBytes_length {s : State} (h : s.status.treeValid = true → ∃ t : NodeTree, TreeAt s t) :
    ∃ bs, headerBytes s = some bs ∧ bs.length = headerSize s := by
  cases hv : s.status.treeValid with
  | true =>
    obtain ⟨t, ht⟩ := h hv
    exact ⟨_, headerBytes_tree hv ht, (headerSize_tree hv ht).symm⟩
  | false => exact ⟨countField s.total, by simp [headerBytes, hv], by simp [headerSize, hv, countField]⟩

/-- SERIALIZE's write of header byte `k` that ADMIT refuses. -/
theorem serialize_writeRefused {s : State} {k : Nat} {a : Word}
    (hv : s.status.treeValid = true ∨ s.status.empty = true)
    (ht : s.status.treeValid = true → ∃ t : NodeTree, TreeAt s t)
    (hfit : s.dstAddr.toNat + headerSize s ≤ s.dstEnd.toNat) (hk : k < headerSize s)
    (hwr : s.admitsRange .write s.dstAddr.toNat (s.dstAddr.toNat + k)) (ha : a.toNat = s.dstAddr.toNat + k)
    (hr : s.admits a .write = false) : ∃ u : State, exec .serialize s = .next u ∧ AbortedInBody s u .bus a := by
  have hE : s.dstEnd.toNat < 4294967296 := s.dstEnd.isLt
  obtain ⟨bs, hb, hlen⟩ := headerBytes_length ht
  have hp := putBytes_refused k bs s s.dstAddr a (by omega) (by omega) hwr ha hr
  rw [exec_serialize, runSerialize_raised hv hfit hb hp]
  refine complete_abortedInBody ⟨rfl, fun x hx => ?_⟩ rfl
  exact Memory.lookup_load_outside _ _ _ _ (by rw [List.length_take]; omega)

/-! ### DESERIALIZE -/

/-- The first `n` source bytes, admitted and not raced for, stand ahead of SRC_ADDR. -/
theorem srcPrefix_ahead {s : State} {n : Nat} (hn : s.srcAddr.toNat + n ≤ s.srcEnd.toNat)
    (hrd : s.admitsRange .read s.srcAddr.toNat (s.srcAddr.toNat + n)) (hu : s.srcUnraced) :
    Ahead s s.srcAddr (s.srcPrefix n) := by
  have hl : (s.srcPrefix n).length = n := Memory.bytesAt_length ..
  refine ⟨by omega, by rw [hl]; rfl, by rw [hl]; exact hrd, fun j hj => hu _ ?_⟩
  rw [inRegion_iff]
  omega

/-- A byte of the source region that ADMIT refuses ends the bytes ahead of it with BUS. -/
theorem EndsWith.bus {s : State} {n : Nat} {a : Word} (ha : a.toNat = n) (hn : n < s.srcEnd.toNat)
    (hr : s.admits a .read = false) : EndsWith s n .bus a := by
  intro t q ht hq
  obtain rfl : q = a := BitVec.eq_of_toNat_eq (by omega)
  have hend : t.srcEnd = s.srcEnd := by rw [ht]
  have hr' : t.admits q .read = false := by rw [ht]; exact hr
  have hne : q ≠ t.srcEnd := fun hh => by rw [← hend, ← hh] at hn; omega
  rw [readByte, if_neg hne, memRead_refused hr']

/-- The body of DESERIALIZE raises BUS at the byte that a header it has read so far still needs, when ADMIT refuses it. -/
theorem deserializeBody_refused {s : State} {n : Nat} {a : Word} (hadTree : Bool)
    (hn : s.srcAddr.toNat + n < s.srcEnd.toNat) (hrd : s.admitsRange .read s.srcAddr.toNat (s.srcAddr.toNat + n))
    (hu : s.srcUnraced) (hm : scanHeader s.ctrl.symw (s.srcPrefix n) = .more) (ha : a.toNat = s.srcAddr.toNat + n)
    (hr : s.admits a .read = false) : ∃ t, deserializeBody hadTree s = .raise .bus a t ∧ NodesOnly s t := by
  have hl : (s.srcPrefix n).length = n := Memory.bytesAt_length ..
  have hspec := deserializeBody_scan hadTree (srcPrefix_ahead (by omega) hrd hu)
    (fun _ => EndsWith.bus (a := a) (by omega) (by omega) hr)
  rw [hm] at hspec
  cases hb : deserializeBody hadTree s with
  | ok t => exact absurd (hspec.ok hb) (by simp)
  | stuck f => exact (hspec.stuck hb).elim
  | raise e i t =>
    obtain ⟨ht, ⟨o, hbad, -⟩ | ⟨-, rfl, rfl⟩⟩ := hspec.raise hb
    · cases hbad
    · exact ⟨t, rfl, ht⟩

/-- DESERIALIZE's read of header byte `n` that ADMIT refuses. -/
theorem deserialize_readRefused {s : State} {n : Nat} {a : Word} (hn : s.srcAddr.toNat + n < s.srcEnd.toNat)
    (hrd : s.admitsRange .read s.srcAddr.toNat (s.srcAddr.toNat + n)) (hu : s.srcUnraced)
    (hm : scanHeader s.ctrl.symw (s.srcPrefix n) = .more) (ha : a.toNat = s.srcAddr.toNat + n)
    (hr : s.admits a .read = false) : ∃ u : State, exec .deserialize s = .next u ∧ AbortedRead s u .bus a := by
  obtain ⟨t, hb, ht⟩ := deserializeBody_refused (s := (s.setTreeFlags false false false).clearTreeRegs)
    s.status.treeValid hn hrd hu hm ha hr
  have hmem : t.mem = s.mem := by rw [ht]; rfl
  rw [exec_deserialize, runDeserialize_raised (by omega) hb]
  exact ⟨_, rfl, raiseError_completed .., raiseError_aborted .., hmem⟩

/-! ### PACK -/

/-- PACK completes with the error its body raises, once its body has stored to the destination region only. -/
theorem pack_abortedInBody {s : State} {e : Err} {info : Word} (h : PackReady s)
    (hb : ∃ t, packBody s = .raise e info t ∧ OnlyStores s.dstAddr.toNat s.dstEnd.toNat s t ∧ t.draws = s.draws) :
    ∃ u : State, exec .pack s = .next u ∧ AbortedInBody s u e info := by
  obtain ⟨t, hp, hst, hd⟩ := hb
  rw [exec_pack, runPack_raised h hp]
  exact complete_abortedInBody hst hd

/-! ### UNPACK -/

/-- UNPACK completes with the BUS its symbols raise, once they have stored to the destination region only. -/
theorem unpack_abortedInBody {s : State} {tree : NodeTree} {a : Word} (h : UnpackReady s tree)
    (hb : ∃ t, unpackSymbols s (unpackStart s) = .raise .bus a t ∧
      OnlyStores s.dstAddr.toNat s.dstEnd.toNat s t ∧ t.draws = s.draws) :
    ∃ u : State, exec .unpack s = .next u ∧ AbortedInBody s u .bus a := by
  obtain ⟨t, hp, hst, hd⟩ := hb
  rw [exec_unpack, runUnpack_bus h hp]
  exact complete_abortedInBody hst hd

/-- UNPACK may write its first `w` symbols; if one is left, ADMIT refuses the write of the next, at `b`. -/
theorem UnpackReady.writes_until {s : State} {tree : NodeTree} (h : UnpackReady s tree) :
    ∃ (w : Nat) (b : Word), w ≤ s.total.toNat ∧ s.admitsRange .write s.dstAddr.toNat (s.dstAddr.toNat + w) ∧
      (w < s.total.toNat → b.toNat = s.dstAddr.toNat + w ∧ s.admits b .write = false) := by
  have hE : s.dstEnd.toNat < 4294967296 := s.dstEnd.isLt
  have hroom := h.room
  obtain ⟨w, hw, hadm, hstop⟩ := s.admits_until .write s.dstAddr.toNat s.total.toNat (by omega)
  rcases hw.lt_or_eq with hlt | heq
  · obtain ⟨b, hb⟩ := hstop hlt
    exact ⟨w, b, hw, hadm, fun _ => hb⟩
  · exact ⟨w, 0#32, hw, hadm, fun hlt => by omega⟩

/-- UNPACK's read of payload byte `k` that ADMIT refuses: the setup's first 8k bits can be read, and the symbols
complete in them lie before the first write that ADMIT refuses. -/
theorem unpackSymbols_readRefused {s : State} {i : NodeIdx} {l r : NodeTree} {picks : List (Byte × List Bool)} {k : Nat}
    {a : Word} (h : UnpackReady s (.node i l r)) (hrun : RunOf s (.node i l r) picks)
    (hk : 8 * k < (runBits picks).length) (hfit : s.srcAddr.toNat + k < s.srcEnd.toNat)
    (hpay : PayloadBegins s picks (8 * k)) (hrd : s.admitsRange .read s.srcAddr.toNat (s.srcAddr.toNat + k))
    (hwr : ∀ (m : Nat) (x : Word), m < s.total.toNat → (runBits (picks.take (m + 1))).length ≤ 8 * k →
      x.toNat = s.dstAddr.toNat + m → s.admits x .write = true)
    (ha : a.toNat = s.srcAddr.toNat + k) (hr : s.admits a .read = false) :
    ∃ t, unpackSymbols s (unpackStart s) = .raise .bus a t ∧
      OnlyStores s.dstAddr.toNat s.dstEnd.toNat s t ∧ t.draws = s.draws := by
  have hbytes : bytesFor (8 * k) = k := by unfold bytesFor; omega
  obtain ⟨w, b, hw, hadm, hstop⟩ := h.writes_until
  have hset : UnpackSetup s (.node i l r) picks (8 * k) w .bus b :=
    h.setup hrun (by omega) (by rw [hbytes]; exact hrd) hpay hw hadm (fun hlt st sym hm hq =>
      putSym_refused (hstop hlt).2 st sym hm (by rw [hq, (hstop hlt).1]))
  rcases unpackSymbols_run hset (.inr (.inr ⟨rfl, LoadStops.bus ha hfit hr⟩)) with
    ⟨-, hle, -⟩ | ⟨hlt, hwall, -⟩ | ⟨-, -, -, hraise⟩
  · omega
  · obtain ⟨hb, hno⟩ := hstop hlt
    rw [hwr w b hlt hwall hb] at hno
    cases hno
  · exact hraise

/-- UNPACK's write of symbol `k` that ADMIT refuses: the wall after the bits of the first k + 1 symbols. -/
theorem unpackSymbols_writeRefused {s : State} {i : NodeIdx} {l r : NodeTree} {picks : List (Byte × List Bool)} {k : Nat}
    {a : Word} (h : UnpackReady s (.node i l r)) (hrun : RunOf s (.node i l r) picks) (hk : k < s.total.toNat)
    (hfit : s.srcAddr.toNat + bytesFor (wallBits picks k) ≤ s.srcEnd.toNat)
    (hpay : PayloadBegins s picks (wallBits picks k))
    (hrd : s.admitsRange .read s.srcAddr.toNat (s.srcAddr.toNat + bytesFor (wallBits picks k)))
    (hwr : s.admitsRange .write s.dstAddr.toNat (s.dstAddr.toNat + k)) (ha : a.toNat = s.dstAddr.toNat + k)
    (hr : s.admits a .write = false) :
    ∃ t, unpackSymbols s (unpackStart s) = .raise .bus a t ∧
      OnlyStores s.dstAddr.toNat s.dstEnd.toNat s t ∧ t.draws = s.draws := by
  have hset : UnpackSetup s (.node i l r) picks (wallBits picks k) k .bus a :=
    h.setup hrun hfit hrd hpay hk.le hwr (fun _ st sym hm hq => putSym_refused hr st sym hm (by rw [hq, ha]))
  rcases unpackSymbols_run (rn := 0) (e' := .bus) (info' := a) hset (.inr (.inl ⟨hk, Nat.le_refl _⟩)) with
    ⟨heq, -⟩ | ⟨-, -, hraise⟩ | ⟨-, -, hlt, -⟩
  · omega
  · exact hraise
  · exact absurd (hlt hk) (Nat.lt_irrefl _)

/-- UNPACK's write of symbol `k` of a single-leaf tree that ADMIT refuses. -/
theorem unpackSymbols_leafRefused {s : State} {i : NodeIdx} {sym : Byte} {k : Nat} {a : Word}
    (h : UnpackReady s (.leaf i sym)) (hk : k < s.total.toNat)
    (hwr : s.admitsRange .write s.dstAddr.toNat (s.dstAddr.toNat + k)) (ha : a.toNat = s.dstAddr.toNat + k)
    (hr : s.admits a .write = false) :
    ∃ t, unpackSymbols s (unpackStart s) = .raise .bus a t ∧
      OnlyStores s.dstAddr.toNat s.dstEnd.toNat s t ∧ t.draws = s.draws := by
  have hroom := h.room
  obtain ⟨out, hlen, hrun⟩ := putRun_refused s sym a hr k (st := unpackStart s) (out := []) rfl rfl (by simpa using ha)
    hk (by rw [ha]; exact hwr)
  rw [List.length_nil, Nat.zero_add] at hlen
  refine ⟨_, (unpackSymbols_leaf h.held).trans hrun, ⟨rfl, fun x hx => ?_⟩, rfl⟩
  exact Memory.lookup_load_outside _ _ _ _ (by omega)

/-! ### The statement -/

/-- Settles O37: each access by the law of its loop at the first refusal, and the completion of the command's rule. -/
theorem serializeStopsAtRefusedWrite : Obligations.SerializeStopsAtRefusedWrite := by
  unfold Obligations.SerializeStopsAtRefusedWrite
  refine ⟨?serializeWrite, ?deserializeRead, ?packRead, ?packWrite, ?unpackRead, ?unpackWrite, ?leafWrite⟩
  case serializeWrite =>
    intro s k a hv ht hfit hk hwr ha hr
    exact serialize_writeRefused hv ht hfit hk hwr ha hr
  case deserializeRead =>
    intro s n a hn hrd hu hm ha hr
    exact deserialize_readRefused hn hrd hu hm ha hr
  case packRead =>
    intro s k a h hk hc hfit hrd hwr ha hr
    exact pack_abortedInBody h (packBody_readRefused h hk hc hfit hrd hwr ha hr)
  case packWrite =>
    intro s k m a h hm hc hk hfit hrd hwr ha hr
    exact pack_abortedInBody h (packBody_writeRefused h hm hc hk hfit hrd hwr ha hr)
  case unpackRead =>
    intro s i l r picks k a h hrun hk hfit hpay hrd hwr ha hr
    exact unpack_abortedInBody h (unpackSymbols_readRefused h hrun hk hfit hpay hrd hwr ha hr)
  case unpackWrite =>
    intro s i l r picks k a h hrun hk hfit hpay hrd hwr ha hr
    exact unpack_abortedInBody h (unpackSymbols_writeRefused h hrun hk hfit hpay hrd hwr ha hr)
  case leafWrite =>
    intro s i sym k a h hk hwr ha hr
    exact unpack_abortedInBody h (unpackSymbols_leafRefused h hk hwr ha hr)

end Sys2Proof.Machine
end

section
/-! What each command's rule leaves, said once for every rule: the outcome of the rule, and what completing it changes. The
frames of the commands and the invariants of the tables and flags follow from it. -/

namespace Sys2Proof.Machine

/-! ### A command's rule and its completion -/

/-- The rule of a command, before its completion. -/
def Instr.rule (i : Instr) (s : State) : RunResult :=
  match i with
  | .nop => runNop s
  | .clear => runClear s
  | .build => runBuild s
  | .gencode => runGencode s
  | .serialize => runSerialize s
  | .deserialize => runDeserialize s
  | .pack => runPack s
  | .unpack => runUnpack s

theorem exec_eq_complete (i : Instr) (s : State) : exec i s = complete s (Instr.rule i s) := by
  cases i <;> rfl

/-- `P` holds of the state a rule leaves, on success and on error. -/
def RunResult.Leaves (r : RunResult) (P : State → Prop) : Prop :=
  match r with
  | .done t => P t
  | .raised _ _ _ t => P t
  | .stuck _ => True

theorem RunResult.Leaves.mono {r : RunResult} {P Q : State → Prop} (h : r.Leaves P) (hPQ : ∀ t, P t → Q t) :
    r.Leaves Q := by
  cases r with
  | done t => exact hPQ t h
  | raised e info trash t => exact hPQ t h
  | stuck f => trivial

/-- What completing a command keeps of the state `t` its rule left, whether it succeeded or not (R121, R122, R252). -/
structure Completion (t u : State) : Prop where
  completed : Completed u
  host      : KeepsHost t u
  tree      : KeepsTree t u
  codes     : KeepsCodes t u
  freq      : u.freq = t.freq
  err       : u.status.err.toNat ≤ 0x12

theorem Completion.finish (t : State) {err : Byte} (info : Word) (h : err.toNat ≤ 0x12) :
    Completion t (t.finish err info) :=
  ⟨finish_completed .., by constructor <;> rfl, by constructor <;> rfl, ⟨rfl, rfl⟩, rfl, h⟩

theorem Completion.raiseError (s0 : State) (e : Err) (info : Word) (trash : Bool) (t : State) :
    Completion t (raiseError s0 e info trash t) := by
  cases trash <;>
    exact ⟨raiseError_completed .., by constructor <;> rfl, by constructor <;> rfl, ⟨rfl, rfl⟩, rfl, e.code_le⟩

/-- What a rule leaves, the completed command keeps. -/
theorem complete_leaves {s0 u : State} {r : RunResult} {P : State → Prop} (hr : r.Leaves P)
    (h : complete s0 r = .next u) : ∃ t, P t ∧ Completion t u := by
  rcases complete_next h with ⟨t, rfl, rfl⟩ | ⟨e, info, trash, t, rfl, rfl⟩
  · exact ⟨t, hr, Completion.finish t _ (by decide)⟩
  · exact ⟨t, hr, Completion.raiseError ..⟩

/-! ### GENCODE's rule -/

/-- The outcomes of GENCODE's rule (R160, R162, R163, R164). -/
theorem runGencode_cases (s : State) :
    (s.status.treeValid = false ∧ runGencode s = .raised .notree 0#32 false s.clearCodesValid) ∨
    (s.status.treeValid = true ∧
      ((∃ tab, walk s.node Config.treeLevels s.root [] noCodes = .ok tab ∧ runGencode s = .done
          (State.setCounts { s with code := tab, status := { s.status with codesValid := true } } 0#32 0#40)) ∨
        (∃ sym : Byte, runGencode s =
          .raised .dupSym (sym.setWidth 32) false { s.clearCodesValid with code := noCodes }) ∨
        runGencode s = .stuck .malformedTree)) := by
  unfold runGencode
  cases hv : s.status.treeValid with
  | false => exact .inl ⟨rfl, rfl⟩
  | true =>
    refine .inr ⟨rfl, ?_⟩
    cases hw : walk s.node Config.treeLevels s.root [] noCodes with
    | ok tab => exact .inl ⟨tab, rfl, rfl⟩
    | dup sym => exact .inr (.inl ⟨sym, rfl⟩)
    | stuck => exact .inr (.inr rfl)

/-- A walk that assigns every leaf of a tree leaves the tree's code table (R51, R163). -/
theorem assignList_codesOf {sh : Shape} {tab : Vector (Option Code) 256} (h : assignList sh.codes noCodes = .ok tab) :
    sh.symbols.Nodup ∧ ∀ sym : Byte, codeIn tab sym = some (sh.codeOf sym) := by
  have hfree : ∀ sym : Byte, codePresent noCodes sym = false := fun sym => by simp [codePresent, Code.absent]
  have hnone : firstDuplicate [] sh.symbols = none := by
    cases hd : firstDuplicate [] sh.symbols with
    | none => rfl
    | some sym =>
      have hdup := assignList_dup sh.codes noCodes [] (fun x => by simp [hfree]) sym (by rwa [sh.codes_symbols])
      rw [hdup] at h
      cases h
  have hnd := (firstDuplicate_none sh.symbols [] hnone).1
  obtain ⟨tab', hok, hentry⟩ := assignList_ok sh.codes noCodes (by rwa [sh.codes_symbols]) (fun c _ => hfree c.1)
  obtain rfl : tab' = tab := by rw [hok] at h; injection h
  refine ⟨hnd, fun sym => ?_⟩
  rw [hentry sym, Shape.codeOf]
  cases sh.codes.find? (fun c => c.1 == sym) <;> simp

/-! ### BUILD's rule -/

/-- A non-empty table has a positive sum (R140, R142). -/
theorem State.freqTotal_pos {s : State} (h : s.presentList ≠ []) : 0 < s.freqTotal := by
  obtain ⟨sym, hsym⟩ := List.exists_mem_of_ne_nil _ h
  obtain ⟨hmem, hne⟩ := List.mem_filter.mp hsym
  have hle : s.freqNat sym ≤ s.freqTotal := List.le_sum_of_mem (List.mem_map_of_mem hmem)
  have hpos : s.freqNat sym ≠ 0 := by simpa using hne
  omega

/-- A success of BUILD leaves a tree and a TOTAL that is not 0 (R140, R145). -/
theorem buildSuccess_tree {s : State} (h : s.presentList ≠ []) (hmax : s.freqTotal ≤ Config.maxTotal) :
    (buildSuccess s (allSymbols.map (fun sym => (s.freqAt sym).getD 0#32))).total ≠ 0#32 ∧
      ∃ t, TreeAt (buildSuccess s (allSymbols.map (fun sym => (s.freqAt sym).getD 0#32))) t := by
  have hpos := s.freqTotal_pos h
  constructor
  · intro h0
    have hval := congrArg BitVec.toNat h0
    simp only [buildSuccess, State.setCounts_total, State.setTreeFlags_total, freqSum_eq, BitVec.toNat_ofNat] at hval
    unfold Config.maxTotal at hmax
    omega
  · have hne : presentSymbols (allSymbols.map (fun sym => (s.freqAt sym).getD 0#32)) ≠ [] := by
      rw [presentSymbols_eq]
      simpa using h
    have hlen : (presentSymbols (allSymbols.map (fun sym => (s.freqAt sym).getD 0#32))).length ≤ 256 := by
      rw [presentSymbols_eq, List.length_map]
      exact presentList_length s
    obtain ⟨t, ht, -⟩ := buildNodes_tree _ hne hlen
      (buildSuccess s (allSymbols.map (fun sym => (s.freqAt sym).getD 0#32))) rfl rfl rfl rfl
    exact ⟨t, ht⟩

/-! ### DESERIALIZE's rule -/

/-- The count is read with nothing but the draw counter changed, and the pointer ends four bytes on (R190). -/
theorem readCount_spec {s : State} {p : Word} (hp : p.toNat ≤ s.srcEnd.toNat) :
    (readCount s p).Spec (fun c => NodesOnly s c.2.1 ∧ c.2.1.node = s.node ∧ c.2.2.toNat ≤ s.srcEnd.toNat)
      (fun _ _ t => NodesOnly s t) (fun _ => False) := by
  have e2 : p + 1#32 + 1#32 = p + 2#32 := by rw [BitVec.add_assoc]; rfl
  have e3 : p + 2#32 + 1#32 = p + 3#32 := by rw [BitVec.add_assoc]; rfl
  have e4 : p + 3#32 + 1#32 = p + 4#32 := by rw [BitVec.add_assoc]; rfl
  unfold readCount
  refine (readByte_spec (NodesOnly.refl s) hp).bind (fun c3 ⟨k3, n3, p3, l3⟩ => ?_)
  refine (readByte_spec k3 (by omega)).bind (fun c2 ⟨k2, n2, p2, l2⟩ => ?_)
  rw [e2] at p2
  refine (readByte_spec k2 (by omega)).bind (fun c1 ⟨k1, n1, p1, l1⟩ => ?_)
  rw [e3] at p1
  refine (readByte_spec k1 (by omega)).bind (fun c0 ⟨k0, n0, p0, l0⟩ => ?_)
  rw [e4] at p0
  exact ⟨k0, by rw [n0, n1, n2, n3], by simp only; omega⟩

/-- What `parse()` builds from index 0 on is the tree that DESERIALIZE installs (R190, R193). -/
theorem Parsed.treeAt {st : ParseState} {idx : NodeIdx} {st' : ParseState} {t : NodeTree} {u : State}
    (h : Parsed st idx st' t) (hk : st.k = 0) (hl : st.leaves = 0) (hmax : st'.k ≤ 511) (hr : u.root = idx)
    (hn : u.node = fill 511 (some Node.zero) (st'.s.node.toList.take st'.k)) (hc : u.nodeCount = Fin.ofNat 512 st'.k)
    (hlc : u.leafCount = Fin.ofNat 257 st'.leaves) : TreeAt u t := by
  have hcount : st'.k = t.shape.nodes := by rw [h.k, hk, Nat.zero_add]
  have hleaves : st'.leaves = t.shape.symbols.length := by rw [h.leaves, hl, Nat.zero_add]
  have hnodes := t.shape.nodes_eq
  have hnc : u.nodeCount.val = st'.k := by rw [hc, Fin.val_ofNat, Nat.mod_eq_of_lt (by omega)]
  have hrange : t.indices.map Fin.val = List.range st'.k := by
    rw [h.indices, hk, hcount, List.range_eq_range']
  have hin : ∀ i : NodeIdx, i.val < st'.k → nodeIn u.node i = nodeIn st'.s.node i := by
    intro i hi
    rw [hn, nodeIn, fill_getElem, List.getD_eq_getElem?_getD, List.getElem?_take_of_lt hi]
    simp [nodeIn]
  have hout : ∀ i : NodeIdx, st'.k ≤ i.val → nodeIn u.node i = some Node.zero := by
    intro i hi
    rw [hn, nodeIn, fill_getElem, List.getD_eq_getElem?_getD, List.getElem?_eq_none (by simp; omega)]
    rfl
  refine ⟨h.idx.trans hr.symm, ?_, ?_, fun i => ?_, fun i hi => hout i (by omega), ?_⟩
  · exact NodeTree.heldIn_congr h.held (fun i hi => hin i (h.range hi).2)
  · exact List.Nodup.of_map Fin.val (hrange ▸ List.nodup_range)
  · rw [hnc, ← List.mem_range, ← hrange]
    exact (List.mem_map_of_injective Fin.val_injective).symm
  · rw [hlc, Fin.val_ofNat, hleaves, Nat.mod_eq_of_lt (by omega)]

/-- `t` is `s` but for what DESERIALIZE writes: the tree state, the codes flag, SRC_ADDR and the counts (R190). -/
abbrev TreeReadOnly (s t : State) : Prop :=
  t = { s with
    node := t.node, root := t.root, nodeCount := t.nodeCount, leafCount := t.leafCount, total := t.total
    srcAddr := t.srcAddr, outcnt := t.outcnt, bitcnt := t.bitcnt, draws := t.draws
    status := { s.status with
      treeValid := t.status.treeValid, empty := t.status.empty, codesValid := t.status.codesValid } }

/-- What a success of DESERIALIZE's body leaves: no tree and the tree registers as they were, or a tree and a TOTAL that
is not 0 (R190, R191, R193). -/
structure TreeRead (s t : State) : Prop where
  frame : TreeReadOnly s t
  codes : t.status.codesValid = false
  tree  : (t.status.treeValid = false ∧ t.total = s.total ∧ t.root = s.root ∧ t.nodeCount = s.nodeCount ∧
      t.leafCount = s.leafCount) ∨
    (t.status.treeValid = true ∧ t.status.empty = false ∧ t.total ≠ 0#32 ∧ ∃ tree, TreeAt t tree)

/-- Every outcome of DESERIALIZE's body. -/
theorem deserializeBody_spec (hadTree : Bool) {s : State} (h : s.srcAddr.toNat ≤ s.srcEnd.toNat) :
    (deserializeBody hadTree s).Spec (TreeRead s) (fun _ _ t => NodesOnly s t) (fun _ => False) := by
  unfold deserializeBody
  refine (readCount_spec h).bind (fun c ⟨hk, hn, hp⟩ => ?_)
  have hframe : ParseFrame s { s := c.2.1, p := c.2.2, k := 0, leaves := 0 } := ⟨hk, hp, Nat.zero_le _⟩
  simp only
  split
  · refine ⟨?_, rfl, .inl ⟨rfl, ?_⟩⟩
    · rw [hk]; cases hadTree <;> rfl
    · rw [hk]; cases hadTree <;> exact ⟨rfl, rfl, rfl, rfl⟩
  · rename_i hc
    refine (hframe.parse 512 (Nat.le_refl _)).bind (fun r ⟨hst, _, t, ht⟩ => ?_)
    refine ⟨?_, rfl, .inr ⟨rfl, rfl, hc, t, ht.treeAt rfl rfl hst.k rfl rfl rfl rfl⟩⟩
    rw [hst.keeps]
    rfl

/-- The state in which DESERIALIZE reads: no tree and no codes (R190). -/
abbrev State.withoutTree (s : State) : State := (s.setTreeFlags false false false).clearTreeRegs

/-- The outcomes of DESERIALIZE's rule (R190, R191, R193, R199). -/
theorem runDeserialize_cases (s : State) :
    (runDeserialize s = .raised .range 0#32 false s) ∨
    (∃ t, TreeRead s.withoutTree t ∧ runDeserialize s = .done t) ∨
    (∃ e info t, NodesOnly s.withoutTree t ∧ runDeserialize s = .raised e info false t.trashNodes) := by
  unfold runDeserialize
  split
  · exact .inl rfl
  · rename_i hmal
    rw [regionMalformed_iff] at hmal
    have hspec := deserializeBody_spec s.status.treeValid (s := s.withoutTree) (by simpa using hmal)
    cases hb : deserializeBody s.status.treeValid s.withoutTree with
    | ok t => exact .inr (.inl ⟨t, hspec.ok hb, rfl⟩)
    | raise e info t => exact .inr (.inr ⟨e, info, t, hspec.raise hb, rfl⟩)
    | stuck f => exact (hspec.stuck hb).elim

/-! ### The rules of SERIALIZE, PACK and UNPACK -/

/-- `t` is `s` but for what a stream command writes: shared memory, the pointers, the counts and the draw counter. -/
abbrev StreamOnly (s t : State) : Prop :=
  t = { s with
    mem := t.mem, draws := t.draws, srcAddr := t.srcAddr, dstAddr := t.dstAddr, outcnt := t.outcnt, bitcnt := t.bitcnt }

theorem OnlyStores.streamOnly {lo hi : Nat} {s t : State} (h : OnlyStores lo hi s t) : StreamOnly s t := by
  rw [h.rest]

/-- What a stream command's rule leaves: on success stores between the old and the new DST_ADDR, on an error stores in the
destination region (R81, R122, R252). -/
structure Streamed (s t : State) : Prop where
  rest  : StreamOnly s t
  low   : s.dstAddr.toNat ≤ t.dstAddr.toNat
  high  : t.dstAddr.toNat ≤ s.dstEnd.toNat
  bytes : KeepsBytesOutside s.dstAddr.toNat t.dstAddr.toNat s t

/-- Every outcome of a stream command's rule run from `s`. -/
def RunResult.Streams (s : State) : RunResult → Prop
  | .done t => Streamed s t
  | .raised _ _ _ t => OnlyStores s.dstAddr.toNat s.dstEnd.toNat s t
  | .stuck _ => True

theorem RunResult.Streams.leaves {s : State} {r : RunResult} (h : r.Streams s) : r.Leaves (StreamOnly s) := by
  cases r with
  | done t => exact Streamed.rest h
  | raised e info trash t => exact OnlyStores.streamOnly h
  | stuck f => trivial

/-- An error before any access changes nothing. -/
theorem RunResult.streams_refused (s : State) (e : Err) (info : Word) (trash : Bool) :
    RunResult.Streams s (.raised e info trash s) := OnlyStores.refl ..

/-- PACK's rule: the precondition checks change nothing, the body keeps its frame (R81, R210). -/
theorem runPack_streams (s : State) : (runPack s).Streams s := by
  unfold runPack
  split; · exact RunResult.streams_refused ..
  split; · exact RunResult.streams_refused ..
  split; · exact RunResult.streams_refused ..
  split; · exact RunResult.streams_refused ..
  split; · exact RunResult.streams_refused ..
  rename_i hdst _ _ _
  rw [regionMalformed_iff] at hdst
  have hspec := packBody_frame s (by omega)
  cases hb : packBody s with
  | ok st =>
    have hf := hspec.ok hb
    refine ⟨?_, hf.low, hf.high, hf.stores.keeps⟩
    rw [hf.stores.rest]
    rfl
  | raise e info t => exact hspec.raise hb
  | stuck f => trivial

/-- UNPACK's last lines keep the frame of its symbols (R230). -/
theorem UnpackFrame.done {s : State} {st : UnpackState} (hr : HoldsTotal s) (h : UnpackFrame s st) :
    (unpackDone st).Streams s := by
  have hq := h.q
  have hcnt := h.cnt
  unfold HoldsTotal at hr
  refine ⟨?_, ?_, ?_, h.stores.keeps⟩
  · rw [h.stores.rest]
    rfl
  · simp only [State.setCounts_dstAddr]; omega
  · simp only [State.setCounts_dstAddr]; omega

/-- The strict checks change nothing (R236). -/
theorem strictChecks_spec (st : UnpackState) :
    (strictChecks st).Spec (fun x => x = st) (fun _ _ t => t = st.s) (fun _ => False) := by
  unfold strictChecks
  split
  · split
    · rfl
    · split <;> rfl
  · rfl

/-- UNPACK's rule: the precondition checks change nothing, the symbols keep their frame (R81, R230). -/
theorem runUnpack_streams (s : State) : (runUnpack s).Streams s := by
  unfold runUnpack
  split; · exact RunResult.streams_refused ..
  split; · exact RunResult.streams_refused ..
  split; · exact RunResult.streams_refused ..
  rename_i hsrc hdst _
  rw [regionMalformed_iff] at hsrc hdst
  split
  · rename_i h0
    have hroom : HoldsTotal s := by simp only [HoldsTotal, h0]; simpa using hdst
    have hspec := strictChecks_spec (unpackStart s)
    cases hb : strictChecks (unpackStart s) with
    | ok st =>
      obtain rfl := hspec.ok hb
      exact UnpackFrame.done hroom ⟨rfl, Nat.zero_le _, OnlyStores.refl ..⟩
    | raise e info t =>
      obtain rfl := hspec.raise hb
      exact RunResult.streams_refused ..
    | stuck f => trivial
  split; · exact RunResult.streams_refused ..
  split; · exact RunResult.streams_refused ..
  rename_i hfull
  have hroom : HoldsTotal s := by unfold HoldsTotal regionBytes at *; omega
  have hspec := unpackSymbols_frame s hroom (by omega)
  cases hb : (unpackSymbols s (unpackStart s)).bind strictChecks with
  | ok st => exact (hspec.ok hb).1.done hroom
  | raise e info t => exact hspec.raise hb
  | stuck f => trivial

/-- SERIALIZE's puts change shared memory only. -/
theorem putBytes_memOnly (bs : List Byte) : ∀ (s : State) (q : Word),
    (putBytes bs s q).Spec (fun r => MemOnly s r.1) (fun _ _ t => MemOnly s t) (fun _ => False) := by
  induction bs with
  | nil => intro s q; rfl
  | cons b bs ih =>
    intro s q
    unfold putBytes
    cases hw : memWrite s q b with
    | ok t =>
      obtain ⟨-, rfl⟩ := memWrite_ok hw
      exact (ih _ _).mono (fun r hr => MemOnly.trans rfl hr) (fun _ _ t ht => MemOnly.trans rfl ht) (fun _ h => h)
    | raise e i t =>
      obtain ⟨-, -, -, rfl⟩ := memWrite_raise hw
      rfl
    | stuck f => exact absurd hw memWrite_not_stuck

/-- SERIALIZE's rule leaves everything but shared memory, DST_ADDR and the counts (R182). -/
theorem runSerialize_leaves (s : State) :
    (runSerialize s).Leaves (fun t => StreamOnly s t ∧ t.srcAddr = s.srcAddr) := by
  unfold runSerialize
  split; · exact ⟨rfl, rfl⟩
  split; · exact ⟨rfl, rfl⟩
  split; · exact ⟨rfl, rfl⟩
  cases headerBytes s with
  | none => trivial
  | some bs =>
    have hspec := putBytes_memOnly bs s s.dstAddr
    cases hp : putBytes bs s s.dstAddr with
    | ok r =>
      have hm := hspec.ok hp
      simp only [hp]
      refine ⟨?_, ?_⟩ <;> rw [hm] <;> rfl
    | raise e info t =>
      have hm := hspec.raise hp
      simp only [hp]
      refine ⟨?_, ?_⟩ <;> rw [hm]
    | stuck f => exact (hspec.stuck hp).elim

/-- With the tree that TREE_VALID promises, SERIALIZE's header fits and its puts stay in the region (R182, R186). -/
theorem runSerialize_streams {s : State} (h : TablesInv s) : (runSerialize s).Streams s := by
  have hE : s.dstEnd.toNat < 4294967296 := s.dstEnd.isLt
  unfold runSerialize
  split; · exact RunResult.streams_refused ..
  split; · exact RunResult.streams_refused ..
  split; · exact RunResult.streams_refused ..
  rename_i hdst _ hfull
  rw [regionMalformed_iff] at hdst
  obtain ⟨bs, hb, hlen⟩ := headerBytes_length (s := s) (fun hv => (h hv).2.imp (fun _ ht => ht.1))
  have hfit : s.dstAddr.toNat + bs.length ≤ s.dstEnd.toNat := by unfold regionBytes at hfull; omega
  rw [hb]
  rcases putBytes_cases bs s s.dstAddr (by omega) with ⟨t, q, hp, hq, rfl, -⟩ | ⟨a, t, hp, ht, -⟩
  · simp only [hp]
    refine ⟨rfl, ?_, ?_, fun x hx => ?_⟩
    · simp only [State.setCounts_dstAddr]; omega
    · simp only [State.setCounts_dstAddr]; omega
    · simp only [State.setCounts_dstAddr, hq] at hx
      exact Memory.read_load_outside _ _ _ _ hx
  · simp only [hp]
    exact ht.mono (Nat.le_refl _) hfit

end Sys2Proof.Machine
end

section
/-! The invariants of the flags and of the tables, kept by every step: what a rule must keep of the tables alone, then the
invariant of the pending command. -/

namespace Sys2Proof.Machine

/-! ### Predicates on the tables -/

/-- `P` depends on the tree state and the code table only. -/
def OnTables (P : State → Prop) : Prop := ∀ s t : State, KeepsTree s t → KeepsCodes s t → P s → P t

theorem KeepsResults.keepsTree {s t : State} (h : KeepsResults s t) : KeepsTree s t :=
  ⟨h.node, h.root, h.nodeCount, h.leafCount, h.total, h.treeValid, h.empty⟩

theorem KeepsResults.keepsCodes {s t : State} (h : KeepsResults s t) : KeepsCodes s t := ⟨h.code, h.codesValid⟩

/-- A poll is a host read. -/
theorem waitStep_keeps (rest : List Event) (s : State) : KeepsResults s (waitStep rest s) := by
  obtain ⟨sched, h⟩ := waitStep_cases rest s
  have hr := hostReadReg_keeps s 0x0010#32 .word
  rw [h]
  exact { hr with }

theorem settleRaces_keeps (s : State) : KeepsResults s s.settleRaces := by
  constructor <;> rfl

theorem takeEvent_keeps (s : State) (rest : List Event) : KeepsResults s (s.takeEvent rest) := by
  constructor <;> rfl

theorem OnTables.of_results {P : State → Prop} (hP : OnTables P) {s t : State} (h : KeepsResults s t) (hs : P s) :
    P t :=
  hP s t h.keepsTree h.keepsCodes hs

/-- The pending word's run completes a rule: its command's, or the error of an illegal command, which changes nothing. -/
theorem runWord_eq_complete (w : Word) (s : State) :
    (∃ i, runWord w s = complete s (Instr.rule i s)) ∨ runWord w s = complete s (.raised .illegal w false s) := by
  cases hd : decode w with
  | ok i => exact .inl ⟨i, by rw [runWord_ok hd, exec_eq_complete]⟩
  | error r => exact .inr (runWord_error hd s)

/-- A predicate on the tables that every rule keeps, and that a reset state has, is kept by every step. -/
theorem OnTables.step {P : State → Prop} (hP : OnTables P) (hreset : ∀ s : State, P s.hardwareReset)
    (hrule : ∀ i s, P s → (Instr.rule i s).Leaves P) {s u : State} (hs : P s) (h : step s = .next u) : P u := by
  rcases step_cases h with ⟨s0, hs0, hu⟩ | ⟨op, rest, -, rfl⟩ | ⟨rest, -, rfl⟩ | ⟨rest, -, rfl⟩
  · have hP0 : P s0 := by
      rcases hs0 with rfl | ⟨rest, -, rfl⟩
      · exact hs
      · exact hP.of_results (takeEvent_keeps s rest) hs
    rcases engineStep_next hu with ⟨-, rfl⟩ | ⟨-, w, t, -, hw, rfl⟩
    · exact hP0
    · have hleaves : ∃ r : RunResult, r.Leaves P ∧ complete s0 r = .next t := by
        rcases runWord_eq_complete w s0 with ⟨i, hi⟩ | hi
        · exact ⟨_, hrule i s0 hP0, hi ▸ hw⟩
        · exact ⟨.raised .illegal w false s0, hP0, hi ▸ hw⟩
      obtain ⟨r, hr, hc⟩ := hleaves
      obtain ⟨t0, ht0, hcomp⟩ := complete_leaves hr hc
      exact hP.of_results (settleRaces_keeps t) (hP t0 t hcomp.tree hcomp.codes ht0)
  · exact hP.of_results (hostStep_keeps op _) (hP.of_results (takeEvent_keeps s rest) hs)
  · exact hP.of_results (waitStep_keeps rest _) (hP.of_results (takeEvent_keeps s rest) hs)
  · exact hreset _

theorem StreamOnly.keepsTree {s t : State} (h : StreamOnly s t) : KeepsTree s t := by
  rw [h]
  constructor <;> rfl

theorem StreamOnly.keepsCodes {s t : State} (h : StreamOnly s t) : KeepsCodes s t := by
  rw [h]
  exact ⟨rfl, rfl⟩

/-- The rules that write neither tree nor codes keep every predicate on the tables. -/
theorem OnTables.leaves {P : State → Prop} (hP : OnTables P) {s : State} {r : RunResult} (hr : r.Leaves (StreamOnly s))
    (hs : P s) : r.Leaves P :=
  hr.mono (fun t ht => hP s t ht.keepsTree ht.keepsCodes hs)

/-- A predicate on the tables is kept by every rule when it is kept by those that write the tables. -/
theorem OnTables.rule {P : State → Prop} (hP : OnTables P) (hclear : ∀ s, P s → (runClear s).Leaves P)
    (hbuild : ∀ s, P s → (runBuild s).Leaves P) (hgencode : ∀ s, P s → (runGencode s).Leaves P)
    (hdeserialize : ∀ s, P s → (runDeserialize s).Leaves P) (i : Instr) (s : State) (hs : P s) :
    (Instr.rule i s).Leaves P := by
  cases i with
  | nop => exact hP.leaves (s := s) rfl hs
  | clear => exact hclear s hs
  | build => exact hbuild s hs
  | gencode => exact hgencode s hs
  | serialize => exact hP.leaves ((runSerialize_leaves s).mono (fun _ ht => ht.1)) hs
  | deserialize => exact hdeserialize s hs
  | pack => exact hP.leaves (runPack_streams s).leaves hs
  | unpack => exact hP.leaves (runUnpack_streams s).leaves hs

/-! ### The tables invariant -/

theorem TablesInv.of_no_tree {s : State} (h : s.status.treeValid = false) : TablesInv s := by
  simp [TablesInv, h]

/-- With a tree and no codes the invariant asks for the tree and TOTAL. -/
theorem TablesInv.of_tree {s : State} (hc : s.status.codesValid = false) (h0 : s.total ≠ 0#32)
    (ht : ∃ t, TreeAt s t) : TablesInv s := by
  intro _
  obtain ⟨t, ht⟩ := ht
  exact ⟨h0, t, ht, by simp [hc]⟩

theorem tablesInv_onTables : OnTables TablesInv := by
  intro s u htree hcodes hs hv
  obtain ⟨h0, t, ht, hc⟩ := hs (htree.treeValid ▸ hv)
  exact ⟨htree.total ▸ h0, t, ht.congr htree.root htree.node htree.nodeCount htree.leafCount,
    fun hcv => (hc (hcodes.codesValid ▸ hcv)).congr hcodes.code⟩

/-- A tree without codes is still a tree. -/
theorem TablesInv.drop_codes {s u : State} (h : TablesInv s) (htree : KeepsTree s u)
    (hc : u.status.codesValid = false) : TablesInv u := by
  intro hv
  obtain ⟨h0, t, ht, -⟩ := h (htree.treeValid ▸ hv)
  exact ⟨htree.total ▸ h0, t, ht.congr htree.root htree.node htree.nodeCount htree.leafCount,
    by simp [hc]⟩

theorem runClear_tablesInv (s : State) : (runClear s).Leaves TablesInv := TablesInv.of_no_tree rfl

/-- BUILD leaves no tree on an error and its own tree on a success (R143, R144, R145). -/
theorem runBuild_tablesInv (s : State) : (runBuild s).Leaves TablesInv := by
  rcases runBuild_cases s with ⟨-, h⟩ | ⟨-, -, h⟩ | ⟨-, -, -, h⟩ | ⟨-, hne, hmax, h⟩ <;> rw [h]
  · trivial
  · exact TablesInv.of_no_tree rfl
  · exact TablesInv.of_no_tree rfl
  · obtain ⟨h0, ht⟩ := buildSuccess_tree hne hmax
    exact TablesInv.of_tree rfl h0 ht

/-- GENCODE keeps the tree, and the codes it leaves are the tree's paths (R51, R163). -/
theorem runGencode_tablesInv {s : State} (hs : TablesInv s) : (runGencode s).Leaves TablesInv := by
  rcases runGencode_cases s with ⟨hv, h⟩ | ⟨hv, ⟨tab, hw, h⟩ | ⟨sym, h⟩ | h⟩ <;> rw [h]
  · exact TablesInv.of_no_tree hv
  · intro _
    obtain ⟨h0, t, ht, -⟩ := hs hv
    rw [walk_tree ht] at hw
    obtain ⟨hnd, hentry⟩ := assignList_codesOf hw
    exact ⟨h0, t, ht.congr rfl rfl rfl rfl, fun _ => ⟨hnd, hentry⟩⟩
  · exact hs.drop_codes (by constructor <;> rfl) rfl
  · trivial

/-- DESERIALIZE leaves no tree, or the one it read (R191, R193, R199). -/
theorem runDeserialize_tablesInv {s : State} (hs : TablesInv s) : (runDeserialize s).Leaves TablesInv := by
  rcases runDeserialize_cases s with h | ⟨t, ht, h⟩ | ⟨e, info, t, ht, h⟩ <;> rw [h]
  · exact hs
  · rcases ht.tree with ⟨hv, -⟩ | ⟨-, -, h0, htree⟩
    · exact TablesInv.of_no_tree hv
    · exact TablesInv.of_tree ht.codes h0 htree
  · exact TablesInv.of_no_tree (by rw [ht]; rfl)

/-- Settles O58: only CLEAR, BUILD, GENCODE and DESERIALIZE write the tables, and each leaves what the invariant says. -/
theorem tablesInvariantKept : Obligations.TablesInvariantKept := by
  unfold Obligations.TablesInvariantKept
  intro s u hs h
  refine tablesInv_onTables.step (fun _ => TablesInv.of_no_tree rfl) ?_ hs h
  exact tablesInv_onTables.rule (fun s _ => runClear_tablesInv s) (fun s _ => runBuild_tablesInv s)
    (fun s => runGencode_tablesInv) (fun s => runDeserialize_tablesInv)

/-! ### The status invariant -/

/-- The part of the status invariant that is about the tables (R49, R50, R51). -/
structure FlagsInv (s : State) : Prop where
  empty_clear : s.status.empty = true → s.status.treeValid = false ∧ s.status.codesValid = false ∧ s.total = 0#32
  codes_tree  : s.status.codesValid = true → s.status.treeValid = true
  no_tree     : s.status.treeValid = false → s.total = 0#32 ∧ s.root = 0 ∧ s.nodeCount = 0 ∧ s.leafCount = 0

/-- The part of the status invariant that is about the command (R22, R120, R121, R251). -/
structure CommandInv (s : State) : Prop where
  busy_pending : s.status.busy = s.pending.isSome
  busy_undone  : s.status.busy = true → s.status.done = false
  err_code     : s.status.err.toNat ≤ 0x12

theorem statusInv_iff (s : State) : StatusInv s ↔ FlagsInv s ∧ CommandInv s := by
  constructor
  · rintro ⟨hbp, hbu, hec, hct, hnt, herr⟩
    exact ⟨⟨hec, hct, hnt⟩, hbp, hbu, herr⟩
  · rintro ⟨⟨hec, hct, hnt⟩, hbp, hbu, herr⟩
    exact ⟨hbp, hbu, hec, hct, hnt, herr⟩

theorem flagsInv_onTables : OnTables FlagsInv := by
  intro s u ht hc hs
  obtain ⟨hec, hct, hnt⟩ := hs
  refine ⟨?_, ?_, ?_⟩
  · rw [ht.empty, ht.treeValid, hc.codesValid, ht.total]; exact hec
  · rw [hc.codesValid, ht.treeValid]; exact hct
  · rw [ht.treeValid, ht.total, ht.root, ht.nodeCount, ht.leafCount]; exact hnt

/-- Without a tree and codes the tree registers are 0. -/
theorem FlagsInv.of_no_tree {s : State} (hv : s.status.treeValid = false) (hc : s.status.codesValid = false)
    (h0 : s.total = 0#32) (hr : s.root = 0) (hn : s.nodeCount = 0) (hl : s.leafCount = 0) : FlagsInv s :=
  ⟨fun _ => ⟨hv, hc, h0⟩, by simp [hc], fun _ => ⟨h0, hr, hn, hl⟩⟩

/-- With a tree EMPTY is 0. -/
theorem FlagsInv.of_tree {s : State} (hv : s.status.treeValid = true) (he : s.status.empty = false) : FlagsInv s :=
  ⟨by simp [he], fun _ => hv, by simp [hv]⟩

/-- With a tree the invariant says that EMPTY is 0 (R50). -/
theorem FlagsInv.empty_of_tree {s : State} (h : FlagsInv s) (hv : s.status.treeValid = true) :
    s.status.empty = false := by
  cases he : s.status.empty with
  | false => rfl
  | true =>
    have hno := (h.empty_clear he).1
    rw [hv] at hno
    cases hno

theorem runClear_flagsInv (s : State) : (runClear s).Leaves FlagsInv := FlagsInv.of_no_tree rfl rfl rfl rfl rfl rfl

theorem runBuild_flagsInv (s : State) : (runBuild s).Leaves FlagsInv := by
  rcases runBuild_cases s with ⟨-, h⟩ | ⟨-, -, h⟩ | ⟨-, -, -, h⟩ | ⟨-, -, -, h⟩ <;> rw [h]
  · trivial
  · exact FlagsInv.of_no_tree rfl rfl rfl rfl rfl rfl
  · exact FlagsInv.of_no_tree rfl rfl rfl rfl rfl rfl
  · exact FlagsInv.of_tree rfl rfl

theorem runGencode_flagsInv {s : State} (hs : FlagsInv s) : (runGencode s).Leaves FlagsInv := by
  rcases runGencode_cases s with ⟨hv, h⟩ | ⟨hv, ⟨tab, -, h⟩ | ⟨sym, h⟩ | h⟩ <;> rw [h]
  · obtain ⟨h0, hr, hn, hl⟩ := hs.no_tree hv
    exact FlagsInv.of_no_tree hv rfl h0 hr hn hl
  · exact FlagsInv.of_tree hv (hs.empty_of_tree hv)
  · exact FlagsInv.of_tree hv (hs.empty_of_tree hv)
  · trivial

theorem runDeserialize_flagsInv {s : State} (hs : FlagsInv s) : (runDeserialize s).Leaves FlagsInv := by
  rcases runDeserialize_cases s with h | ⟨t, ht, h⟩ | ⟨e, info, t, ht, h⟩ <;> rw [h]
  · exact hs
  · rcases ht.tree with ⟨hv, h0, hr, hn, hl⟩ | ⟨hv, he, -⟩
    · exact FlagsInv.of_no_tree hv ht.codes h0 hr hn hl
    · exact FlagsInv.of_tree hv he
  · rw [ht]
    exact FlagsInv.of_no_tree rfl rfl rfl rfl rfl rfl

theorem step_flagsInv {s u : State} (hs : FlagsInv s) (h : step s = .next u) : FlagsInv u := by
  refine flagsInv_onTables.step (fun _ => FlagsInv.of_no_tree rfl rfl rfl rfl rfl rfl) ?_ hs h
  exact flagsInv_onTables.rule (fun s _ => runClear_flagsInv s) (fun s _ => runBuild_flagsInv s)
    (fun s => runGencode_flagsInv) (fun s => runDeserialize_flagsInv)

/-- A completed command with a code of R251 or none. -/
theorem Completed.commandInv {u : State} (h : Completed u) (herr : u.status.err.toNat ≤ 0x12) : CommandInv u :=
  ⟨by simp [h.busy, h.pending], by simp [h.busy], herr⟩

/-- A completion's state satisfies the invariant, whatever the command's rule left. -/
theorem complete_commandInv {s0 u : State} {r : RunResult} (h : complete s0 r = .next u) : CommandInv u := by
  have hr : r.Leaves (fun _ => True) := by cases r <;> trivial
  obtain ⟨t, -, hc⟩ := complete_leaves hr h
  exact hc.completed.commandInv hc.err

theorem runWord_commandInv {w : Word} {s u : State} (h : runWord w s = .next u) : CommandInv u := by
  rcases runWord_eq_complete w s with ⟨i, hi⟩ | hi <;> exact complete_commandInv (hi ▸ h)

theorem hostReadReg_commandInv {s : State} (hs : CommandInv s) (off : Word) (size : AccessSize) :
    CommandInv (hostReadReg s off size) := by
  obtain ⟨hbp, hbu, herr⟩ := hs
  rcases hostReadReg_cases s off size with ⟨-, h⟩ | ⟨-, w, h⟩ | ⟨-, h⟩ <;> rw [h] <;> exact ⟨hbp, hbu, herr⟩

/-- A host write launches a command from CMD, clears DONE from STATUS, and leaves the command alone elsewhere. -/
theorem writeTarget_commandInv {s : State} (hs : CommandInv s) (t : Target) (v : Word) :
    CommandInv (writeTarget s t v) := by
  obtain ⟨hbp, hbu, herr⟩ := hs
  cases t
  case cmd => exact ⟨rfl, fun _ => rfl, herr⟩
  case status => exact ⟨hbp, fun hb => by simp [writeTarget, hbu hb], herr⟩
  all_goals exact ⟨hbp, hbu, herr⟩

theorem hostStep_commandInv {s : State} (hs : CommandInv s) (op : HostOp) : CommandInv (hostStep op s) := by
  have hs' := hs
  obtain ⟨hbp, hbu, herr⟩ := hs
  cases op with
  | readReg off size => exact hostReadReg_commandInv hs' off size
  | writeReg off size v =>
    rcases hostWriteReg_cases s off size v with h | ⟨-, -, h⟩ <;> simp only [hostStep, h]
    · exact ⟨hbp, hbu, herr⟩
    · exact writeTarget_commandInv hs' _ v
  | readMem a =>
    simp only [hostStep, hostReadMem]
    split <;> exact ⟨hbp, hbu, herr⟩
  | writeMem a v =>
    simp only [hostStep, hostWriteMem]
    split <;> exact ⟨hbp, hbu, herr⟩

theorem step_commandInv {s u : State} (hs : CommandInv s) (h : step s = .next u) : CommandInv u := by
  have htake : ∀ rest, CommandInv (s.takeEvent rest) := fun rest => ⟨hs.busy_pending, hs.busy_undone, hs.err_code⟩
  rcases step_cases h with ⟨s0, hs0, hu⟩ | ⟨op, rest, -, rfl⟩ | ⟨rest, -, rfl⟩ | ⟨rest, -, rfl⟩
  · rcases engineStep_next hu with ⟨-, rfl⟩ | ⟨-, w, t, -, hw, rfl⟩
    · rcases hs0 with rfl | ⟨rest, -, rfl⟩
      · exact hs
      · exact htake rest
    · obtain ⟨hbp, hbu, herr⟩ := runWord_commandInv hw
      exact ⟨hbp, hbu, herr⟩
  · exact hostStep_commandInv (htake rest) op
  · obtain ⟨sched, hw⟩ := waitStep_cases rest (s.takeEvent rest)
    obtain ⟨hbp, hbu, herr⟩ := hostReadReg_commandInv (htake rest) 0x0010#32 .word
    rw [hw]
    exact ⟨hbp, hbu, herr⟩
  · exact ⟨rfl, fun _ => rfl, Nat.zero_le _⟩

/-- Settles O57: its clauses on the tables as a predicate on the tables, its clauses on the command by the kind of step. -/
theorem statusInvariantKept : Obligations.StatusInvariantKept := by
  unfold Obligations.StatusInvariantKept
  intro s u hs h
  obtain ⟨hf, hc⟩ := (statusInv_iff s).mp hs
  exact (statusInv_iff u).mpr ⟨step_flagsInv hf h, step_commandInv hc h⟩

end Sys2Proof.Machine
end

section
/-! The statements on the host's register port (R24, R30 to R45): where the map puts each register and word, what a read of
it returns, and what a write to it changes. -/

namespace Sys2Proof.Machine

/-! ### The register map -/

theorem portOffset_toNat (off : Word) : (portOffset off).toNat = off.toNat % 32768 := by
  simp [portOffset, BitVec.toNat_setWidth]

theorem decodeOffset_eq (off : Word) : decodeOffset off = targetOfWord (off.toNat % 32768 / 4) := by
  rw [decodeOffset, portOffset_toNat]

theorem accessDefined_iff (off : Word) (size : AccessSize) :
    accessDefined off size = true ↔ size = .word ∧ off.toNat % 4 = 0 := by
  have hlow : (off.extractLsb' 0 2).toNat = off.toNat % 4 := by simp [BitVec.extractLsb'_toNat]
  simp only [accessDefined, Bool.and_eq_true, beq_iff_eq, ← BitVec.toNat_inj, hlow, BitVec.toNat_ofNat]

/-- Every offset of the map is that of a whole word of the 15-bit window (R24, R30). -/
theorem Target.offset_toNat_lt (t : Target) : t.offset.toNat < 32768 ∧ t.offset.toNat % 4 = 0 := by
  cases t
  case freq sym => have := sym.isLt; simp only [Target.offset, BitVec.toNat_ofNat]; omega
  case nodeW0 i => have := i.isLt; simp only [Target.offset, BitVec.toNat_ofNat]; omega
  case nodeW1 i => have := i.isLt; simp only [Target.offset, BitVec.toNat_ofNat]; omega
  case code sym w => have := sym.isLt; have := w.isLt; simp only [Target.offset, BitVec.toNat_ofNat]; omega
  all_goals decide

theorem targetOfWord_freq {k : Nat} (h : k < 256) : targetOfWord (256 + k) = .freq (BitVec.ofNat 8 k) := by
  unfold targetOfWord
  simp (disch := omega) only [if_neg, if_pos, Nat.add_sub_cancel_left]

theorem targetOfWord_node {k : Nat} (h : k < 511) :
    targetOfWord (2048 + 2 * k) = .nodeW0 (Fin.ofNat 511 k) ∧
      targetOfWord (2048 + 2 * k + 1) = .nodeW1 (Fin.ofNat 511 k) := by
  have hdiv : (2048 + 2 * k + 1 - 2048) / 2 = k := by omega
  constructor
  · unfold targetOfWord
    simp (disch := omega) only [if_neg, if_pos, Nat.add_sub_cancel_left, Nat.mul_div_cancel_left]
  · unfold targetOfWord
    simp (disch := omega) only [if_neg, if_pos, hdiv]

theorem targetOfWord_code {k w : Nat} (hw : w < 16) :
    targetOfWord (4096 + 16 * k + w) = .code (BitVec.ofNat 8 k) (Fin.ofNat 16 w) := by
  have hdiv : (4096 + 16 * k + w - 4096) / 16 = k := by omega
  have hmod : (4096 + 16 * k + w - 4096) % 16 = w := by omega
  unfold targetOfWord
  simp (disch := omega) only [if_neg, hdiv, hmod]

theorem targetOfWord_reserved {k : Nat} (h : (17 ≤ k ∧ k < 256) ∨ (512 ≤ k ∧ k < 2048) ∨ (3070 ≤ k ∧ k < 4096)) :
    targetOfWord k = .reserved := by
  unfold targetOfWord
  rcases h with h | h | h <;> simp (disch := omega) only [if_neg, if_pos]

/-- Past the registers a word is reserved or one of the FREQ, NODE and CODE windows. -/
theorem targetOfWord_window {k : Nat} (h : 17 ≤ k) :
    targetOfWord k = .reserved ∨ (256 ≤ k ∧ k < 512 ∧ ∃ sym, targetOfWord k = .freq sym) ∨
      (∃ i, targetOfWord k = .nodeW0 i) ∨ (∃ i, targetOfWord k = .nodeW1 i) ∨ ∃ sym w, targetOfWord k = .code sym w := by
  by_cases hfreq : 256 ≤ k ∧ k < 512
  · have hk := targetOfWord_freq (k := k - 256) (by omega)
    rw [show 256 + (k - 256) = k by omega] at hk
    exact .inr (.inl ⟨hfreq.1, hfreq.2, _, hk⟩)
  by_cases hres : k < 2048 ∨ (3070 ≤ k ∧ k < 4096)
  · exact .inl (targetOfWord_reserved (by omega))
  by_cases hnode : k < 3070
  · obtain ⟨h0, h1⟩ := targetOfWord_node (k := (k - 2048) / 2) (by omega)
    by_cases hodd : (k - 2048) % 2 = 0
    · rw [show 2048 + 2 * ((k - 2048) / 2) = k by omega] at h0
      exact .inr (.inr (.inl ⟨_, h0⟩))
    · rw [show 2048 + 2 * ((k - 2048) / 2) + 1 = k by omega] at h1
      exact .inr (.inr (.inr (.inl ⟨_, h1⟩)))
  · have hk := targetOfWord_code (k := (k - 4096) / 16) (w := (k - 4096) % 16) (by omega)
    rw [show 4096 + 16 * ((k - 4096) / 16) + (k - 4096) % 16 = k by omega] at hk
    exact .inr (.inr (.inr (.inr ⟨_, _, hk⟩)))

/-- The register map: each register and word is at its offset (R30). -/
theorem decodeOffset_offset (t : Target) : decodeOffset t.offset = t := by
  rw [decodeOffset_eq]
  cases t
  case freq sym =>
    have := sym.isLt
    rw [show (Target.freq sym).offset.toNat % 32768 / 4 = 256 + sym.toNat by
      simp only [Target.offset, BitVec.toNat_ofNat]; omega, targetOfWord_freq sym.isLt, BitVec.ofNat_toNat]
    simp
  case nodeW0 i =>
    have := i.isLt
    rw [show (Target.nodeW0 i).offset.toNat % 32768 / 4 = 2048 + 2 * i.val by
      simp only [Target.offset, BitVec.toNat_ofNat]; omega, (targetOfWord_node i.isLt).1, Fin.ofNat_val_eq_self]
  case nodeW1 i =>
    have := i.isLt
    rw [show (Target.nodeW1 i).offset.toNat % 32768 / 4 = 2048 + 2 * i.val + 1 by
      simp only [Target.offset, BitVec.toNat_ofNat]; omega, (targetOfWord_node i.isLt).2, Fin.ofNat_val_eq_self]
  case code sym w =>
    have := sym.isLt
    have := w.isLt
    rw [show (Target.code sym w).offset.toNat % 32768 / 4 = 4096 + 16 * sym.toNat + w.val by
      simp only [Target.offset, BitVec.toNat_ofNat]; omega, targetOfWord_code w.isLt, BitVec.ofNat_toNat,
      Fin.ofNat_val_eq_self]
    simp
  all_goals decide

/-- The three reserved ranges of the map (R30, R32). -/
theorem decodeOffset_reserved {off : Word}
    (h : (0x0044 ≤ off.toNat % 32768 ∧ off.toNat % 32768 ≤ 0x03FF) ∨
      (0x0800 ≤ off.toNat % 32768 ∧ off.toNat % 32768 ≤ 0x1FFF) ∨
      (0x2FF8 ≤ off.toNat % 32768 ∧ off.toNat % 32768 ≤ 0x3FFF)) : decodeOffset off = .reserved := by
  rw [decodeOffset_eq]
  exact targetOfWord_reserved (by omega)

/-- Settles O9: each offset by the map of its target, its mirrors by the 15 bits the port decodes. -/
theorem registerMapSelectsTargets : Obligations.RegisterMapSelectsTargets := by
  unfold Obligations.RegisterMapSelectsTargets
  refine ⟨?registers, ?freq, ?node, ?code, ?reserved, ?mirrors⟩
  case registers => decide
  case freq => exact fun sym => decodeOffset_offset (.freq sym)
  case node => exact fun i => ⟨decodeOffset_offset (.nodeW0 i), decodeOffset_offset (.nodeW1 i)⟩
  case code => exact fun sym w => decodeOffset_offset (.code sym w)
  case reserved =>
    intro off h
    exact decodeOffset_reserved (by omega)
  case mirrors =>
    intro off
    rw [decodeOffset_eq, decodeOffset_eq (BitVec.ofNat 32 _), BitVec.toNat_ofNat]
    congr 1
    omega

/-! ### What a register read returns -/

/-- From offset 0x0014 on no word can be read while BUSY = 1 (R44). -/
theorem decodeOffset_not_readable {off : Word} (h : 0x0014 ≤ off.toNat % 32768) :
    (decodeOffset off).readableWhileBusy = false := by
  have hregs : ∀ k < 17, 5 ≤ k → (targetOfWord k).readableWhileBusy = false := by decide
  rw [decodeOffset_eq]
  by_cases hlow : off.toNat % 32768 / 4 < 17
  · exact hregs _ hlow (by omega)
  rcases targetOfWord_window (by omega : 17 ≤ off.toNat % 32768 / 4) with
    ht | ⟨-, -, sym, ht⟩ | ⟨i, ht⟩ | ⟨i, ht⟩ | ⟨sym, w, ht⟩ <;> rw [ht] <;> rfl

/-- A read of a target whose read is defined returns its value (R32 to R44). -/
theorem hostReadReg_value {s : State} {off : Word} {t : Target} {v : Word} (ha : off.toNat % 4 = 0)
    (ht : decodeOffset off = t) (hr : s.status.busy = false ∨ t.readableWhileBusy = true)
    (hv : registerValue s t = some v) : hostReadReg s off .word = { s with response := .word v } := by
  subst ht
  have hdef : accessDefined off .word = true := (accessDefined_iff _ _).mpr ⟨rfl, ha⟩
  have hread : ¬ (s.status.busy && !(decodeOffset off).readableWhileBusy) = true := by
    rcases hr with h | h <;> simp [h]
  rw [hostReadReg, if_pos hdef, if_neg hread, hv]
  rfl

/-- A read that is refused while BUSY = 1, or of an unwritten entry, returns a fresh free value (R44, R61). -/
theorem hostReadReg_free {s : State} {off : Word} {t : Target} (ha : off.toNat % 4 = 0) (ht : decodeOffset off = t)
    (h : (s.status.busy = true ∧ t.readableWhileBusy = false) ∨ registerValue s t = none) :
    hostReadReg s off .word = { s with response := .word (Config.freeWord s.draws), draws := s.draws + 1 } := by
  subst ht
  have hdef : accessDefined off .word = true := (accessDefined_iff _ _).mpr ⟨rfl, ha⟩
  rw [hostReadReg, if_pos hdef]
  split
  · rfl
  · rename_i hbusy
    have hnone : registerValue s (decodeOffset off) = none := by
      rcases h with ⟨hb, hr⟩ | h
      · simp [hb, hr] at hbusy
      · exact h
    rw [hnone]
    rfl

/-- The read of a target at its own offset returns its value. -/
theorem hostReadReg_offset {s : State} (t : Target) {v : Word} (hr : s.status.busy = false ∨ t.readableWhileBusy = true)
    (hv : registerValue s t = some v) : hostReadReg s t.offset .word = { s with response := .word v } :=
  hostReadReg_value t.offset_toNat_lt.2 (decodeOffset_offset t) hr hv

/-- While BUSY = 0 a read of an unwritten entry's word returns a fresh free value (R61). -/
theorem hostReadReg_unwritten {s : State} (t : Target) (h : registerValue s t = none) :
    hostReadReg s t.offset .word = { s with response := .word (Config.freeWord s.draws), draws := s.draws + 1 } :=
  hostReadReg_free t.offset_toNat_lt.2 (decodeOffset_offset t) (.inr h)

/-- While BUSY = 0 a read of a target returns its value, or a free one where there is none. -/
theorem hostReadReg_response {s : State} (t : Target) (hb : s.status.busy = false) :
    (hostReadReg s t.offset .word).response = .word ((registerValue s t).getD (Config.freeWord s.draws)) := by
  cases hv : registerValue s t with
  | none => rw [hostReadReg_unwritten t hv]; rfl
  | some v => rw [hostReadReg_offset t (.inl hb) hv]; rfl

/-- A narrow or misaligned read returns 0 and sets ACCERR (R43). -/
theorem hostReadReg_refused (s : State) {off : Word} {size : AccessSize} (h : accessDefined off size = false) :
    hostReadReg s off size = { s with response := .word 0#32, status := { s.status with accerr := true } } := by
  rw [hostReadReg, h]
  rfl

/-- ID and VERSION read their constants in every state (R31). -/
theorem hostReadReg_id (s : State) : hostReadReg s 0x0000#32 .word = { s with response := .word 0x48554646#32 } :=
  hostReadReg_offset .id (.inr rfl) rfl

theorem hostReadReg_version (s : State) : hostReadReg s 0x0004#32 .word = { s with response := .word 0x00000001#32 } :=
  hostReadReg_offset .version (.inr rfl) rfl

/-! ### What a register write changes -/

/-- A defined write while BUSY = 0 writes its target (R45). -/
theorem hostWriteReg_idle {s : State} {off : Word} {t : Target} (hb : s.status.busy = false) (ha : off.toNat % 4 = 0)
    (ht : decodeOffset off = t) (v : Word) : hostWriteReg s off .word v = writeTarget s t v := by
  have hdef : accessDefined off .word = true := (accessDefined_iff _ _).mpr ⟨rfl, ha⟩
  simp [hostWriteReg, hdef, hb, ht]

/-- The write of a target at its own offset. -/
theorem hostWriteReg_offset {s : State} (hb : s.status.busy = false) (t : Target) (v : Word) :
    hostWriteReg s t.offset .word v = writeTarget s t v :=
  hostWriteReg_idle hb t.offset_toNat_lt.2 (decodeOffset_offset t) v

/-- A narrow or misaligned write only sets ACCERR (R43). -/
theorem hostWriteReg_refused (s : State) {off : Word} {size : AccessSize} (v : Word)
    (h : accessDefined off size = false) :
    hostWriteReg s off size v = { s with status := { s.status with accerr := true } } := by
  simp [hostWriteReg, h, State.setAccerr]

/-- A write to a word that is neither RW, nor CMD, nor STATUS, nor FREQ is ignored (R32, R45). -/
theorem writeTarget_ignored (s : State) {k : Nat} (v : Word) (h : k ∉ [2, 3, 4, 9, 10, 11, 12])
    (hf : ¬ (256 ≤ k ∧ k < 512)) : writeTarget s (targetOfWord k) v = s := by
  simp only [List.mem_cons, List.not_mem_nil, or_false, not_or] at h
  by_cases hlow : k < 17
  · have hk : k = 0 ∨ k = 1 ∨ k = 5 ∨ k = 6 ∨ k = 7 ∨ k = 8 ∨ k = 13 ∨ k = 14 ∨ k = 15 ∨ k = 16 := by omega
    rcases hk with rfl | rfl | rfl | rfl | rfl | rfl | rfl | rfl | rfl | rfl <;> rfl
  rcases targetOfWord_window (by omega : 17 ≤ k) with ht | ⟨hlo, hhi, -⟩ | ⟨i, ht⟩ | ⟨i, ht⟩ | ⟨sym, w, ht⟩
  · rw [ht]; rfl
  · exact absurd ⟨hlo, hhi⟩ hf
  · rw [ht]; rfl
  · rw [ht]; rfl
  · rw [ht]; rfl

end Sys2Proof.Machine
end

section
/-! The statements on single accesses and steps (R20 to R45, R60, R123, R280): each from the laws of the port, of the ENGINE's
step and of hardware reset. -/

namespace Sys2Proof.Machine

/-! ### Accesses -/

/-- Settles O7: a write while BUSY only sets ACCERR, a read returns a value for the five registers and a free one
elsewhere. -/
theorem busyAccessesAreRefusedOrFree : Obligations.BusyAccessesAreRefusedOrFree := by
  unfold Obligations.BusyAccessesAreRefusedOrFree
  intro s hb
  refine ⟨hostWriteReg_busy hb, hostReadReg_id s, hostReadReg_version s, hostReadReg_offset .ctrl (.inr rfl) rfl,
    hostReadReg_offset .cmd (.inr rfl) rfl, hostReadReg_offset .status (.inr rfl) rfl, ?_, fun off ha hlow => ?_⟩
  · simp [Status.toWord, BitVec.getElem_append (m := 1), hb]
  · exact hostReadReg_free ha rfl (.inl ⟨hb, decodeOffset_not_readable hlow⟩)

/-- Settles O8: an access that is not a defined one is refused in every state. -/
theorem undefinedAccessIsRefused : Obligations.UndefinedAccessIsRefused := by
  unfold Obligations.UndefinedAccessIsRefused
  intro s off size v h
  have hdef : accessDefined off size = false := by
    rw [Bool.eq_false_iff, ne_eq, accessDefined_iff]
    tauto
  exact ⟨hostWriteReg_refused s v hdef, hostReadReg_refused s hdef⟩

/-- Settles O10: ID and VERSION are constants of the map, and their writes are ignored. -/
theorem constantRegistersNeverChange : Obligations.ConstantRegistersNeverChange := by
  unfold Obligations.ConstantRegistersNeverChange
  intro s
  exact ⟨hostReadReg_id s, hostReadReg_version s, fun v hb =>
    ⟨hostWriteReg_offset hb .id v, hostWriteReg_offset hb .version v⟩⟩

/-- A defined read changes the response and the draw counter only (R45). -/
theorem hostReadReg_frame (s : State) {off : Word} (ha : off.toNat % 4 = 0) :
    { hostReadReg s off .word with response := s.response, draws := s.draws } = s := by
  have hdef : accessDefined off .word = true := (accessDefined_iff _ _).mpr ⟨rfl, ha⟩
  rcases hostReadReg_cases s off .word with ⟨hno, -⟩ | ⟨-, w, h⟩ | ⟨-, h⟩
  · rw [hdef] at hno
    cases hno
  · rw [h]
  · rw [h]

/-- Settles O11: reads by their frame, each write by the target at its offset. -/
theorem hostAccessEffects : Obligations.HostAccessEffects := by
  unfold Obligations.HostAccessEffects
  refine ⟨fun s off => hostReadReg_frame s, fun s v hb =>
    ⟨?ctrl, ?srcAddr, ?srcEnd, ?dstAddr, ?dstEnd, ?freq, ?freqFrame, ?ignored⟩⟩
  case ctrl => exact hostWriteReg_offset hb .ctrl v
  case srcAddr => exact hostWriteReg_offset hb .srcAddr v
  case srcEnd => exact hostWriteReg_offset hb .srcEnd v
  case dstAddr => exact hostWriteReg_offset hb .dstAddr v
  case dstEnd => exact hostWriteReg_offset hb .dstEnd v
  case freq =>
    intro sym x
    exact (congrArg (fun t => State.freqAt t x) (hostWriteReg_offset hb (.freq sym) v)).trans (freqAt_setFreq s sym v x)
  case freqFrame =>
    intro sym
    exact congrArg (fun t : State => { t with freq := s.freq }) (hostWriteReg_offset hb (.freq sym) v)
  case ignored =>
    intro off ha hreg hfreq
    rw [hostWriteReg_idle hb ha (decodeOffset_eq off)]
    simp only [List.mem_cons, List.not_mem_nil, or_false, not_or] at hreg
    refine writeTarget_ignored s v ?_ (by omega)
    simp only [List.mem_cons, List.not_mem_nil, or_false, not_or]
    omega

/-- Settles O12: each bit of the word as it is put together, and the write-one-to-clear rule. -/
theorem statusWordLayout : Obligations.StatusWordLayout := by
  unfold Obligations.StatusWordLayout
  intro st
  refine ⟨?_, fun s v hb hst => ?_⟩
  · simp [Status.toWord, BitVec.getElem_append (m := 1), BitVec.extractLsb'_append_eq_ite (w := 1),
      BitVec.extractLsb'_append_eq_ite (w := 2), BitVec.extractLsb'_append_eq_ite (w := 8)]
  · subst hst
    exact hostWriteReg_offset hb .status v

/-! ### What the windows show -/

/-- The bits of CTRL (R33). -/
theorem Ctrl.toWord_layout (c : Ctrl) : c.toWord.getLsbD 0 = c.symw ∧ c.toWord.getLsbD 1 = c.strict ∧
    c.toWord.getLsbD 2 = c.irqEn ∧ c.toWord.extractLsb' 3 29 = 0#29 := by
  simp [Ctrl.toWord, BitVec.getElem_append (m := 1), BitVec.extractLsb'_append_eq_ite (w := 1)]

/-- The fields of a node's second word (R41). -/
theorem Node.word1_layout (n : Node) : n.word1.getLsbD 31 = n.valid ∧ n.word1.getLsbD 30 = n.leaf ∧
    n.word1.extractLsb' 26 4 = 0#4 ∧ (n.word1.extractLsb' 17 9).toNat = n.left.val ∧
    (n.word1.extractLsb' 8 9).toNat = n.right.val ∧ n.word1.extractLsb' 0 8 = n.sym := by
  have hl := n.left.isLt
  have hr := n.right.isLt
  simp [Node.word1, BitVec.getElem_append (m := 8), BitVec.getElem_append (m := 9), BitVec.getElem_append (m := 4),
    BitVec.getElem_append (m := 1), BitVec.extractLsb'_append_eq_ite (w := 8),
    BitVec.extractLsb'_append_eq_ite (w := 9), BitVec.extractLsb'_append_eq_ite (w := 4)]
  omega

/-- The halves of BITCNT (R39). -/
theorem bitcnt_halves (b : BitCount) : b.extractLsb' 0 32 = BitVec.ofNat 32 (b.toNat % 4294967296) ∧
    (b.extractLsb' 32 8).setWidth 32 = BitVec.ofNat 32 (b.toNat / 4294967296) := by
  have hb := b.isLt
  constructor <;> apply BitVec.eq_of_toNat_eq <;>
    simp only [BitVec.toNat_setWidth, BitVec.extractLsb'_toNat, BitVec.toNat_ofNat, Nat.shiftRight_eq_div_pow] <;> omega

/-- Settles O13: each word by the value of its target, an unwritten entry by the fresh draw. -/
theorem windowReadsReturnEntries : Obligations.WindowReadsReturnEntries := by
  unfold Obligations.WindowReadsReturnEntries
  intro s hb
  refine ⟨?ctrl, ?registers, ?reserved, ?freq, ?node0, ?node1, ?node1Free, ?codeFree, ?codeHigh⟩
  case ctrl => exact ⟨_, hostReadReg_offset .ctrl (.inl hb) rfl, s.ctrl.toWord_layout⟩
  case registers =>
    simp only [List.forall_mem_cons]
    exact ⟨hostReadReg_offset .cmd (.inl hb) rfl, hostReadReg_offset .status (.inl hb) rfl,
      hostReadReg_offset .total (.inl hb) rfl, hostReadReg_offset .root (.inl hb) rfl,
      hostReadReg_offset .nodeCount (.inl hb) rfl, hostReadReg_offset .leafCount (.inl hb) rfl,
      hostReadReg_offset .srcAddr (.inl hb) rfl, hostReadReg_offset .srcEnd (.inl hb) rfl,
      hostReadReg_offset .dstAddr (.inl hb) rfl, hostReadReg_offset .dstEnd (.inl hb) rfl,
      hostReadReg_offset .outcnt (.inl hb) rfl,
      hostReadReg_offset .bitcntLo (.inl hb) (congrArg some (bitcnt_halves s.bitcnt).1),
      hostReadReg_offset .bitcntHi (.inl hb) (congrArg some (bitcnt_halves s.bitcnt).2),
      hostReadReg_offset .errInfo (.inl hb) rfl, by simp⟩
  case reserved =>
    intro off ha hres
    exact hostReadReg_value ha (decodeOffset_reserved hres) (.inl hb) rfl
  case freq => exact fun sym => hostReadReg_response (.freq sym) hb
  case node0 =>
    intro i
    refine (hostReadReg_response (.nodeW0 i) hb).trans ?_
    simp only [registerValue]
    cases s.nodeAt i <;> rfl
  case node1 =>
    intro i n hn
    refine ⟨n.word1, ?_, n.word1_layout⟩
    refine (hostReadReg_response (.nodeW1 i) hb).trans ?_
    simp [registerValue, hn]
  case node1Free =>
    intro i hn
    refine (hostReadReg_response (.nodeW1 i) hb).trans ?_
    simp [registerValue, hn]
  case codeFree =>
    intro sym k hk hn
    exact hostReadReg_unwritten (.code sym ⟨k, by omega⟩) (by simp [registerValue, hn]; omega)
  case codeHigh =>
    intro sym k h9 h15
    exact hostReadReg_offset (.code sym ⟨k, by omega⟩) (.inl hb) (if_pos h9)

/-! ### The step -/

/-- A command's own word decodes to it (R102, R103). -/
theorem decode_encode (i : Instr) : decode (encode i) = .ok i := by
  cases i <;> rfl

/-- A word is its own 32-bit table row. -/
theorem tableWord_toNat (w : Word) : tableWord 32 w.toNat = some w := by
  rw [tableWord, if_pos (Nat.le_refl 32), Nat.mod_eq_of_lt w.isLt, BitVec.ofNat_toNat, BitVec.setWidth_eq]

/-- The ENGINE's step with a command pending runs it (R22, R121, R123). -/
theorem engineStep_exec {s : State} {w : Word} {i : Instr} (hb : s.status.busy = true) (hp : s.pending = some w)
    (hd : decode w = .ok i) : engineStep s = afterCompletion (exec i s) := by
  rw [engineStep_busy s w hb hp, runWord_ok hd]

theorem step_empty {s : State} (h : s.schedule = []) : step s = engineStep s := by
  rw [step, h]

theorem step_engine {s : State} {rest : List Event} (h : s.schedule = .engine :: rest) :
    step s = engineStep (s.takeEvent rest) := by
  rw [step, h]

/-- Settles O4: the step is the ENGINE's, whose word decodes to the command. -/
theorem stepRunsDecodedCommand : Obligations.StepRunsDecodedCommand := by
  unfold Obligations.StepRunsDecodedCommand
  refine ⟨fun s w i hb hp hd => ⟨fun h => ?_, fun rest h => ?_⟩, afterCompletion_unraced, fun s i => ?_⟩
  · rw [step_empty h, engineStep_exec hb hp hd]
  · rw [step_engine h]
    exact engineStep_exec (s := s.takeEvent rest) hb hp hd
  · rw [State.withFetchWord, tableWord_toNat]
    exact (step_engine (s := launchNext s (encode i)) rfl).trans
      (engineStep_exec (s := s.launch (encode i)) rfl rfl (decode_encode i))

/-- Settles O5: an idle ENGINE's step is no change, and the step is the ENGINE's. -/
theorem idleEngineKeepsAllState : Obligations.IdleEngineKeepsAllState := by
  unfold Obligations.IdleEngineKeepsAllState
  intro s hb
  refine ⟨engineStep_idle s hb, fun h => ?_, fun rest h => ?_⟩
  · rw [step_empty h, engineStep_idle s hb]
  · rw [step_engine h]
    exact engineStep_idle (s.takeEvent rest) hb

/-! ### Reset -/

/-- Every register and internal memory has its reset value; the platform's and the model's own fields may be anything. -/
abbrev ResetState (s : State) : Prop :=
  s = { State.reset with
    mem := s.mem, admitMap := s.admitMap, draws := s.draws, schedule := s.schedule, response := s.response }

/-- After reset every internal memory is unwritten (R61). -/
theorem ResetState.unwritten {s : State} (h : ResetState s) :
    (∀ sym : Byte, s.freqAt sym = none ∧ s.codeAt sym = none) ∧ ∀ i : NodeIdx, s.nodeAt i = none := by
  rw [h]
  simp [State.freqAt, State.codeAt, State.nodeAt, codeIn, nodeIn, State.reset]

theorem reset_status_toWord : State.reset.status.toWord = 0#32 := by decide

/-- Settles O16: both states are the reset state but for fields that are not the block's registers. -/
theorem resetValues : Obligations.ResetValues := by
  unfold Obligations.ResetValues
  intro s hs
  have h : ResetState s := by rcases hs with rfl | ⟨t, rfl⟩ <;> rfl
  obtain ⟨htables, hnode⟩ := h.unwritten
  have hstatus : s.status.toWord = 0#32 := by rw [h]; exact reset_status_toWord
  have hid := congrArg State.response (hostReadReg_id s)
  have hversion := congrArg State.response (hostReadReg_version s)
  refine ⟨?_, hstatus, ?_, ?_, ?_, ?_, ?_, ?_, ?_, ?_, ?_, ?_, ?_, ?_, ?_, htables, hnode, hid, hversion⟩ <;>
    rw [h] <;> rfl

/-- Settles O17: a reset is the reset state, with the memory that abandoning the command leaves. -/
theorem hardwareResetMemory : Obligations.HardwareResetMemory := by
  unfold Obligations.HardwareResetMemory
  intro s rest hs
  obtain ⟨-, -, hout, hin, -⟩ := (s.takeEvent rest).abandon_spec
  refine ⟨(s.takeEvent rest).hardwareReset, by rw [step, hs], rfl, rfl, fun a ha => ?_, hin⟩
  rw [State.hardwareReset_mem, Memory.read, hout a ha]
  rfl

/-- Settles O60: no command, no tree, no codes, and an empty memory. -/
theorem invariantsHoldAtReset : Obligations.InvariantsHoldAtReset := by
  unfold Obligations.InvariantsHoldAtReset
  refine ⟨(statusInv_iff _).mpr ⟨FlagsInv.of_no_tree rfl rfl rfl rfl rfl rfl, ?_⟩, TablesInv.of_no_tree rfl,
    reset_memory_wf, fun a ha => by cases ha⟩
  exact ⟨rfl, fun _ => rfl, Nat.zero_le _⟩

end Sys2Proof.Machine
end

section
/-! The frames of the commands (R53, R81, R101, R122, R252), from what each command's rule leaves, and DESERIALIZE of a zero
count (R191). -/

namespace Sys2Proof.Machine

/-! ### Frames one after the other -/

theorem KeepsHost.trans {s t u : State} (h : KeepsHost s t) (h' : KeepsHost t u) : KeepsHost s u :=
  ⟨h'.ctrl.trans h.ctrl, h'.srcEnd.trans h.srcEnd, h'.dstEnd.trans h.dstEnd, h'.accerr.trans h.accerr,
    h'.lastop.trans h.lastop, h'.admitMap.trans h.admitMap, h'.raced.trans h.raced, h'.schedule.trans h.schedule,
    h'.response.trans h.response⟩

theorem KeepsTree.trans {s t u : State} (h : KeepsTree s t) (h' : KeepsTree t u) : KeepsTree s u :=
  ⟨h'.node.trans h.node, h'.root.trans h.root, h'.nodeCount.trans h.nodeCount, h'.leafCount.trans h.leafCount,
    h'.total.trans h.total, h'.treeValid.trans h.treeValid, h'.empty.trans h.empty⟩

theorem KeepsCodes.trans {s t u : State} (h : KeepsCodes s t) (h' : KeepsCodes t u) : KeepsCodes s u :=
  ⟨h'.code.trans h.code, h'.codesValid.trans h.codesValid⟩

/-! ### The commands that write no shared memory -/

/-- The frame of a command that writes no shared memory (R53, R81, R101, R141). -/
structure RegisterFrame (i : Instr) (s t : State) : Prop where
  host       : KeepsHost s t
  mem        : t.mem = s.mem
  dstAddr    : t.dstAddr = s.dstAddr
  srcAddr    : i ≠ .deserialize → t.srcAddr = s.srcAddr
  freq       : i ≠ .clear → t.freq = s.freq
  tree       : i = .nop ∨ i = .gencode → KeepsTree s t
  codes      : i = .nop → KeepsCodes s t
  code       : i = .build ∨ i = .deserialize → t.code = s.code
  codesValid : i = .build → t.status.codesValid = false

/-- Every outcome of such a command's rule: the frame, and no error that frees the destination region. -/
def RunResult.Registers (i : Instr) (s : State) : RunResult → Prop
  | .done t => RegisterFrame i s t
  | .raised _ _ trash t => trash = false ∧ RegisterFrame i s t
  | .stuck _ => True

theorem RunResult.Registers.leaves {i : Instr} {s : State} {r : RunResult} (h : r.Registers i s) :
    r.Leaves (RegisterFrame i s) := by
  cases r with
  | done t => exact h
  | raised e info trash t => exact h.2
  | stuck f => trivial

theorem KeepsHost.refl (s : State) : KeepsHost s s := by constructor <;> rfl

theorem runNop_registers (s : State) : (runNop s).Registers .nop s :=
  ⟨(by constructor <;> rfl), rfl, rfl, fun _ => rfl, fun _ => rfl, fun _ => (by constructor <;> rfl),
    fun _ => ⟨rfl, rfl⟩, by simp, by simp⟩

theorem runClear_registers (s : State) : (runClear s).Registers .clear s :=
  ⟨(by constructor <;> rfl), rfl, rfl, fun _ => rfl, by simp, by simp, by simp, by simp, by simp⟩

/-- BUILD's frame, of a state in which only the tree state, the codes flag, the counts and the draws may differ. -/
theorem RegisterFrame.build {s t : State} (h : KeepsHost s t) (hm : t.mem = s.mem) (hd : t.dstAddr = s.dstAddr)
    (hs : t.srcAddr = s.srcAddr) (hf : t.freq = s.freq) (hc : t.code = s.code) (hv : t.status.codesValid = false) :
    RegisterFrame .build s t :=
  ⟨h, hm, hd, fun _ => hs, fun _ => hf, by simp, by simp, fun _ => hc, fun _ => hv⟩

theorem runBuild_registers (s : State) : (runBuild s).Registers .build s := by
  rcases runBuild_cases s with ⟨-, h⟩ | ⟨-, -, h⟩ | ⟨-, -, -, h⟩ | ⟨-, -, -, h⟩ <;> rw [h]
  · trivial
  · exact ⟨rfl, .build (by constructor <;> rfl) rfl rfl rfl rfl rfl rfl⟩
  · exact ⟨rfl, .build (by constructor <;> rfl) rfl rfl rfl rfl rfl rfl⟩
  · exact .build (by constructor <;> rfl) rfl rfl rfl rfl rfl rfl

/-- GENCODE's frame, of a state in which only the codes, the counts and the draws may differ. -/
theorem RegisterFrame.gencode {s t : State} (h : KeepsHost s t) (hm : t.mem = s.mem) (hd : t.dstAddr = s.dstAddr)
    (hs : t.srcAddr = s.srcAddr) (hf : t.freq = s.freq) (ht : KeepsTree s t) : RegisterFrame .gencode s t :=
  ⟨h, hm, hd, fun _ => hs, fun _ => hf, fun _ => ht, by simp, by simp, by simp⟩

theorem runGencode_registers (s : State) : (runGencode s).Registers .gencode s := by
  rcases runGencode_cases s with ⟨-, h⟩ | ⟨-, ⟨tab, -, h⟩ | ⟨sym, h⟩ | h⟩ <;> rw [h]
  · exact ⟨rfl, .gencode (by constructor <;> rfl) rfl rfl rfl rfl (by constructor <;> rfl)⟩
  · exact .gencode (by constructor <;> rfl) rfl rfl rfl rfl (by constructor <;> rfl)
  · exact ⟨rfl, .gencode (by constructor <;> rfl) rfl rfl rfl rfl (by constructor <;> rfl)⟩
  · trivial

/-- DESERIALIZE's frame, of a state in which only what it writes may differ from the state it reads in. -/
theorem TreeReadOnly.registers {s t : State} (h : TreeReadOnly s.withoutTree t) : RegisterFrame .deserialize s t := by
  rw [h]
  exact ⟨(by constructor <;> rfl), rfl, rfl, by simp, fun _ => rfl, by simp, by simp, fun _ => rfl,
    by simp⟩

theorem runDeserialize_registers (s : State) : (runDeserialize s).Registers .deserialize s := by
  rcases runDeserialize_cases s with h | ⟨t, ht, h⟩ | ⟨e, info, t, ht, h⟩ <;> rw [h]
  · exact ⟨rfl, KeepsHost.refl s, rfl, rfl, fun _ => rfl, fun _ => rfl, by simp, by simp, fun _ => rfl, by simp⟩
  · exact ht.frame.registers
  · refine ⟨rfl, TreeReadOnly.registers ?_⟩
    rw [ht]
    rfl

/-- Completing a rule with this frame keeps it: an error frees no byte and restores the pointers. -/
theorem complete_registers {i : Instr} {s u : State} {r : RunResult} (hr : r.Registers i s)
    (h : complete s r = .next u) : RegisterFrame i s u := by
  obtain ⟨hmem, hdst, hsrc⟩ : u.mem = s.mem ∧ u.dstAddr = s.dstAddr ∧ (i ≠ .deserialize → u.srcAddr = s.srcAddr) := by
    rcases complete_next h with ⟨t, rfl, rfl⟩ | ⟨e, info, trash, t, rfl, rfl⟩
    · exact ⟨hr.mem, hr.dstAddr, hr.srcAddr⟩
    · obtain ⟨rfl, hf⟩ := hr
      exact ⟨hf.mem, rfl, fun _ => rfl⟩
  obtain ⟨t, hf, hc⟩ := complete_leaves hr.leaves h
  exact ⟨hf.host.trans hc.host, hmem, hdst, hsrc, fun hi => hc.freq.trans (hf.freq hi),
    fun hi => (hf.tree hi).trans hc.tree, fun hi => (hf.codes hi).trans hc.codes,
    fun hi => hc.codes.code.trans (hf.code hi), fun hi => hc.codes.codesValid.trans (hf.codesValid hi)⟩

theorem rule_registers {i : Instr} (hi : i ∈ [Instr.nop, .clear, .build, .gencode, .deserialize]) (s : State) :
    (Instr.rule i s).Registers i s := by
  simp only [List.mem_cons, List.not_mem_nil, or_false] at hi
  rcases hi with rfl | rfl | rfl | rfl | rfl
  · exact runNop_registers s
  · exact runClear_registers s
  · exact runBuild_registers s
  · exact runGencode_registers s
  · exact runDeserialize_registers s

/-- Settles O53: the frame of each rule, kept by its completion. -/
theorem registerCommandFrame : Obligations.RegisterCommandFrame := by
  unfold Obligations.RegisterCommandFrame
  intro i s u hi h
  rw [exec_eq_complete] at h
  obtain ⟨hhost, hmem, hdst, hsrc, hfreq, htree, hcodes, hcode, hvalid⟩ := complete_registers (rule_registers hi s) h
  exact ⟨complete_completed h, hhost, fun a => by rw [hmem], hdst, hfreq, htree, hcodes, hcode, hvalid, hsrc⟩

/-! ### The commands that write shared memory -/

theorem StreamOnly.keepsHost {s t : State} (h : StreamOnly s t) : KeepsHost s t := by
  rw [h]
  constructor <;> rfl

theorem StreamOnly.freq {s t : State} (h : StreamOnly s t) : t.freq = s.freq := by
  rw [h]

/-- An error writes no byte outside the destination region (R252). -/
theorem raiseError_keepsBytes {s t : State} (e : Err) (info : Word) (trash : Bool)
    (h : OnlyStores s.dstAddr.toNat s.dstEnd.toNat s t) :
    KeepsBytesOutside s.dstAddr.toNat s.dstEnd.toNat s (raiseError s e info trash t) := by
  intro x hx
  refine Eq.trans ?_ (h.keeps x hx)
  cases trash with
  | false => rfl
  | true => exact Memory.read_havoc_outside _ _ _ _ _ (by unfold regionBytes; omega)

/-- What completing a stream command's rule leaves on success and on an error. -/
theorem complete_streams {s u : State} {r : RunResult} (hr : r.Streams s) (h : complete s r = .next u) :
    (u.status.err = 0#8 → s.dstAddr.toNat ≤ u.dstAddr.toNat ∧ u.dstAddr.toNat ≤ s.dstEnd.toNat ∧
      KeepsBytesOutside s.dstAddr.toNat u.dstAddr.toNat s u) ∧
    (u.status.err ≠ 0#8 → u.srcAddr = s.srcAddr ∧ u.dstAddr = s.dstAddr ∧ u.outcnt = 0#32 ∧ u.bitcnt = 0#40 ∧
      KeepsBytesOutside s.dstAddr.toNat s.dstEnd.toNat s u) := by
  rcases complete_next h with ⟨t, rfl, rfl⟩ | ⟨e, info, trash, t, rfl, rfl⟩
  · exact ⟨fun _ => ⟨hr.low, hr.high, hr.bytes⟩, fun hne => absurd rfl hne⟩
  · exact ⟨fun h0 => absurd h0 e.code_pos, fun _ => ⟨rfl, rfl, rfl, rfl, raiseError_keepsBytes e info trash hr⟩⟩

theorem rule_streams {i : Instr} (hi : i ∈ [Instr.serialize, .pack, .unpack]) {s : State} (hs : TablesInv s) :
    (Instr.rule i s).Streams s := by
  simp only [List.mem_cons, List.not_mem_nil, or_false] at hi
  rcases hi with rfl | rfl | rfl
  · exact runSerialize_streams hs
  · exact runPack_streams s
  · exact runUnpack_streams s

/-- SERIALIZE keeps SRC_ADDR (R122). -/
theorem serialize_srcAddr {s u : State} (h : exec .serialize s = .next u) : u.srcAddr = s.srcAddr := by
  have hl := runSerialize_leaves s
  rcases complete_next h with ⟨t, ht, rfl⟩ | ⟨e, info, trash, t, -, rfl⟩
  · rw [ht] at hl
    exact hl.2
  · rfl

/-- Settles O54: the frame of each rule, kept by its completion; what an error frees lies in the destination region. -/
theorem streamCommandFrame : Obligations.StreamCommandFrame := by
  unfold Obligations.StreamCommandFrame
  intro i s u hi hs h
  have hr := rule_streams hi hs
  have hsrc : i = .serialize → u.srcAddr = s.srcAddr := by
    rintro rfl
    exact serialize_srcAddr h
  rw [exec_eq_complete] at h
  obtain ⟨t, ht, hc⟩ := complete_leaves hr.leaves h
  exact ⟨hc.completed, ht.keepsHost.trans hc.host, ht.keepsTree.trans hc.tree, ht.keepsCodes.trans hc.codes,
    hc.freq.trans ht.freq, hsrc, complete_streams hr h⟩

/-! ### DESERIALIZE of a zero count -/

/-- DESERIALIZE's body on a zero count reads no tree (R191). -/
theorem deserializeBody_countZero (hadTree : Bool) {s : State} (h : Ahead s s.srcAddr (countField 0#32)) :
    deserializeBody hadTree s = .ok (State.setCounts
      { (s.dropTree hadTree).setTreeFlags false true false with srcAddr := s.srcAddr + 4#32 } 4#32 0#40) := by
  obtain ⟨hr, -, -⟩ := readCount_ahead (bs := []) (by simpa using h)
  rw [deserializeBody, hr, Part.bind_ok]
  simp

/-- Settles O39: the four bytes ahead are the count 0. -/
theorem deserializeCountZero : Obligations.DeserializeCountZero := by
  unfold Obligations.DeserializeCountZero
  intro s hfit hbytes hrd hu
  have hahead : Ahead s.withoutTree s.srcAddr (countField 0#32) := by
    have h4 := srcPrefix_ahead (s := s.withoutTree) hfit hrd hu
    rwa [show s.withoutTree.srcPrefix 4 = countField 0#32 from hbytes] at h4
  have hmal : ¬ regionMalformed s.srcAddr s.srcEnd = true := by rw [regionMalformed_iff]; omega
  have hE : s.srcEnd.toNat < 4294967296 := s.srcEnd.isLt
  have hsrc : (s.srcAddr + 4#32).toNat = s.srcAddr.toNat + 4 := by
    rw [BitVec.toNat_add, BitVec.toNat_ofNat]
    omega
  rw [exec_deserialize, runDeserialize, if_neg hmal, deserializeBody_countZero s.status.treeValid hahead]
  refine ⟨_, rfl, finish_completed .., ⟨rfl, rfl, rfl, rfl⟩, rfl, rfl, rfl, ?_⟩
  cases hv : s.status.treeValid with
  | false => exact ⟨rfl, hsrc, rfl, rfl, rfl, rfl, fun _ => rfl⟩
  | true => exact ⟨rfl, hsrc, rfl, rfl, rfl, rfl, fun h => by cases h⟩

end Sys2Proof.Machine
end

section
/-! Two runs of a command side by side (R81): from states that differ in shared memory only, every rule reads and writes
the same addresses, so it ends alike and a relation of the two memories that one store to both keeps is kept. What one
run keeps of its memory is the special case of a run beside itself. -/

namespace Sys2Proof.Machine

/-! ### Related memories and states -/

/-- A relation of two memories that the same store to both keeps, and under which they read alike at the addresses
`src`. -/
structure LockStep (R : Memory → Memory → Prop) (src : Nat → Prop) : Prop where
  write : ∀ {m m' : Memory} {a : Nat} (v : Byte), a < 4294967296 → R m m' →
    R (Memory.write m a v) (Memory.write m' a v)
  read  : ∀ {m m' : Memory} {a : Nat}, R m m' → src a → Memory.read m a = Memory.read m' a

/-- `t` is `s` but for shared memory, and the two memories are related. -/
def State.Twin (R : Memory → Memory → Prop) (s t : State) : Prop := ∃ m, t = { s with mem := m } ∧ R s.mem m

/-- Every field but shared memory is the same in twin states. -/
theorem State.Twin.field {R : Memory → Memory → Prop} {s t : State} (h : s.Twin R t) {α : Type} (f : State → α)
    (hf : ∀ m, f { s with mem := m } = f s) : f t = f s := by
  obtain ⟨m, rfl, -⟩ := h
  exact hf m

/-- `src` holds the source region of `s`. -/
abbrev CoversSource (src : Nat → Prop) (s : State) : Prop := ∀ a, inRegion s.srcAddr s.srcEnd a = true → src a

/-- The same bytes made unspecified by the same draws keep related memories related (R252). -/
theorem LockStep.havoc {R : Memory → Memory → Prop} {src : Nat → Prop} (hR : LockStep R src) (n : Nat) :
    ∀ {m m' : Memory} (a k : Nat), a + n ≤ 4294967296 → R m m' → R (Memory.havoc m a n k) (Memory.havoc m' a n k) := by
  induction n with
  | zero => intro m m' a k _ h; exact h
  | succ n ih => intro m m' a k ha h; exact ih _ _ (by omega) (hR.write _ (by omega) h)

/-! ### Parts that end alike -/

/-- Two parts end alike: both with results that `P` relates, or both in the same error with states that `T` relates, or
both without a result for the same reason. -/
inductive Part.Alike {α : Type} (P : α → α → Prop) (T : State → State → Prop) : Part α → Part α → Prop where
  | ok {x y : α} (h : P x y) : Part.Alike P T (.ok x) (.ok y)
  | raise (e : Err) (info : Word) {s t : State} (h : T s t) : Part.Alike P T (.raise e info s) (.raise e info t)
  | stuck (f : Fault) : Part.Alike P T (.stuck f) (.stuck f)

theorem Part.Alike.bind {α β : Type} {P : α → α → Prop} {Q : β → β → Prop} {T : State → State → Prop} {p q : Part α}
    {f g : α → Part β} (h : p.Alike P T q) (hf : ∀ x y, P x y → (f x).Alike Q T (g y)) :
    (p.bind f).Alike Q T (q.bind g) := by
  cases h with
  | ok h => exact hf _ _ h
  | raise e info h => exact .raise e info h
  | stuck f => exact .stuck f

theorem Part.Alike.mono {α : Type} {P Q : α → α → Prop} {T : State → State → Prop} {p q : Part α} (h : p.Alike P T q)
    (hPQ : ∀ x y, P x y → Q x y) : p.Alike Q T q := by
  cases h with
  | ok h => exact .ok (hPQ _ _ h)
  | raise e info h => exact .raise e info h
  | stuck f => exact .stuck f

/-- What the first part's own law says of its result holds beside the relation of the two results. -/
theorem Part.Alike.and_spec {α : Type} {P : α → α → Prop} {T : State → State → Prop} {p q : Part α} {A : α → Prop}
    {B : Err → Word → State → Prop} {C : Fault → Prop} (h : p.Alike P T q) (hs : p.Spec A B C) :
    p.Alike (fun x y => P x y ∧ A x) T q := by
  cases h with
  | ok h => exact .ok ⟨h, hs⟩
  | raise e info h => exact .raise e info h
  | stuck f => exact .stuck f

/-! ### Shared-memory accesses -/

/-- A read of a byte that was raced for is a free value (R86). -/
theorem memRead_raced {s : State} {a : Word} (h : s.admits a .read = true) (hr : a.toNat ∈ s.raced) :
    memRead s a = .ok (Config.freeByte s.draws, { s with draws := s.draws + 1 }) := by
  simp [memRead, h, hr, State.drawByte]

section
variable {R : Memory → Memory → Prop} {src : Nat → Prop}

/-- Two reads with their machines: the same byte, and twin states. -/
def ReadTwin (R : Memory → Memory → Prop) (r r' : Byte × State) : Prop := r'.1 = r.1 ∧ r.2.Twin R r'.2

theorem State.Twin.memRead_alike (hR : LockStep R src) {s t : State} {a : Word} (h : s.Twin R t) (ha : src a.toNat) :
    (memRead s a).Alike (ReadTwin R) (State.Twin R) (memRead t a) := by
  obtain ⟨m, rfl, hm⟩ := h
  cases hadm : s.admits a .read with
  | false =>
    rw [memRead_refused hadm, memRead_refused (s := { s with mem := m }) hadm]
    exact .raise _ _ ⟨m, rfl, hm⟩
  | true =>
    by_cases hr : a.toNat ∈ s.raced
    · rw [memRead_raced hadm hr, memRead_raced (s := { s with mem := m }) hadm hr]
      exact .ok ⟨rfl, m, rfl, hm⟩
    · rw [memRead_admitted hadm hr, memRead_admitted (s := { s with mem := m }) hadm hr]
      exact .ok ⟨(hR.read hm ha).symm, m, rfl, hm⟩

theorem State.Twin.memWrite_alike (hR : LockStep R src) {s t : State} (h : s.Twin R t) (a : Word) (v : Byte) :
    (memWrite s a v).Alike (State.Twin R) (State.Twin R) (memWrite t a v) := by
  obtain ⟨m, rfl, hm⟩ := h
  cases hadm : s.admits a .write with
  | false =>
    rw [memWrite_refused v hadm, memWrite_refused (s := { s with mem := m }) v hadm]
    exact .raise _ _ ⟨m, rfl, hm⟩
  | true =>
    rw [memWrite_admitted v hadm, memWrite_admitted (s := { s with mem := m }) v hadm]
    exact .ok ⟨_, rfl, hR.write v a.isLt hm⟩

/-! ### SERIALIZE's puts -/

theorem State.Twin.putBytes_alike (hR : LockStep R src) (bs : List Byte) : ∀ {s t : State} (q : Word), s.Twin R t →
    (putBytes bs s q).Alike (fun r r' => r.1.Twin R r'.1 ∧ r'.2 = r.2) (State.Twin R) (putBytes bs t q) := by
  induction bs with
  | nil => intro s t q h; exact .ok ⟨h, rfl⟩
  | cons b bs ih => intro s t q h; exact (h.memWrite_alike hR q b).bind (fun _ _ hw => ih (q + 1#32) hw)

/-! ### PACK's body -/

/-- The same working state of PACK but for related memories. -/
def PackState.Twin (R : Memory → Memory → Prop) (x y : PackState) : Prop :=
  ∃ t, y = { x with s := t } ∧ x.s.Twin R t

theorem PackState.Twin.emit_alike (hR : LockStep R src) {x y : PackState} (h : x.Twin R y) (v : Byte) :
    (x.emit v).Alike (PackState.Twin R) (State.Twin R) (y.emit v) := by
  obtain ⟨t, rfl, h⟩ := h
  have hend : t.dstEnd = x.s.dstEnd := h.field State.dstEnd (fun _ => rfl)
  by_cases hq : x.q = x.s.dstEnd
  · simp only [PackState.emit, hend, if_pos hq]
    exact .raise _ _ h
  · simp only [PackState.emit, hend, if_neg hq]
    exact (h.memWrite_alike hR x.q v).bind (fun _ t' hw => .ok ⟨t', rfl, hw⟩)

theorem PackState.Twin.pushBit_alike (hR : LockStep R src) {x y : PackState} (h : x.Twin R y) (b : Bool) :
    (x.pushBit b).Alike (PackState.Twin R) (State.Twin R) (y.pushBit b) := by
  obtain ⟨t, rfl, h⟩ := h
  have hpushed : PackState.Twin R { x with acc := shiftIn x.acc b, n := x.n + 1, bits := x.bits + 1 }
      { x with s := t, acc := shiftIn x.acc b, n := x.n + 1, bits := x.bits + 1 } := ⟨t, rfl, h⟩
  simp only [PackState.pushBit]
  split
  · refine (hpushed.emit_alike hR _).bind (fun x' y' hxy => ?_)
    obtain ⟨t', rfl, h'⟩ := hxy
    exact .ok ⟨t', rfl, h'⟩
  · exact .ok hpushed

theorem PackState.Twin.packCode_alike (hR : LockStep R src) (code : List Bool) : ∀ {x y : PackState}, x.Twin R y →
    (packCode code x).Alike (PackState.Twin R) (State.Twin R) (packCode code y) := by
  induction code with
  | nil => intro x y h; exact .ok h
  | cons b code ih => intro x y h; exact (h.pushBit_alike hR b).bind (fun _ _ h' => ih h')

/-- PACK's loop over `k` bytes that lie in `src`. -/
theorem PackState.Twin.packBytes_alike (hR : LockStep R src) (k : Nat) : ∀ {a : Word} {x y : PackState}, x.Twin R y →
    a.toNat + k < 4294967296 → (∀ j, j < k → src (a.toNat + j)) →
    (packBytes k a x).Alike (PackState.Twin R) (State.Twin R) (packBytes k a y) := by
  induction k with
  | zero => intro a x y h _ _; exact .ok h
  | succ k ih =>
    intro a x y h hlt hsrc
    obtain ⟨t, rfl, h⟩ := h
    have hnext : (a + 1#32).toNat = a.toNat + 1 := pointer_succ a (by omega)
    have hrest : ∀ j, j < k → src ((a + 1#32).toNat + j) := fun j hj => by
      rw [hnext, Nat.add_assoc, Nat.add_comm 1 j]
      exact hsrc (j + 1) (by omega)
    unfold packBytes
    refine (h.memRead_alike hR (hsrc 0 (by omega))).bind (fun r r' hr => ?_)
    obtain ⟨hb, h1⟩ := hr
    have hcode : r'.2.codeAt r'.1 = r.2.codeAt r.1 := by
      rw [hb]
      exact h1.field (State.codeAt · r.1) (fun _ => rfl)
    rw [hcode]
    cases r.2.codeAt r.1 with
    | none => exact .stuck _
    | some c =>
      have hstart : PackState.Twin R { x with s := r.2 } { x with s := r'.2 } := ⟨r'.2, rfl, h1⟩
      simp only
      split
      · exact (hstart.packCode_alike hR c.bits).bind (fun _ _ h2 => ih h2 (by omega) hrest)
      · exact .raise _ _ h1

theorem State.Twin.packBody_alike (hR : LockStep R src) {s t : State} (h : s.Twin R t)
    (hle : s.srcAddr.toNat ≤ s.srcEnd.toNat) (hsrc : CoversSource src s) :
    (packBody s).Alike (PackState.Twin R) (State.Twin R) (packBody t) := by
  obtain ⟨m, rfl, hm⟩ := h
  have hlen := regionBytes_le s.srcAddr s.srcEnd hle
  have hstart : PackState.Twin R { s := s, q := s.dstAddr, acc := 0x00#8, n := 0, bits := 0 }
      { s := { s with mem := m }, q := s.dstAddr, acc := 0x00#8, n := 0, bits := 0 } := ⟨_, rfl, m, rfl, hm⟩
  refine (hstart.packBytes_alike hR _ (regionBytes_end_lt ..) (fun j hj => hsrc _ ?_)).bind (fun x y hxy => ?_)
  · rw [inRegion_iff]
    omega
  · obtain ⟨t, rfl, h⟩ := hxy
    unfold PackState.flush
    split
    · exact .ok ⟨t, rfl, h⟩
    · exact PackState.Twin.emit_alike hR ⟨t, rfl, h⟩ _

/-! ### UNPACK's body -/

/-- The same working state of UNPACK but for related memories. -/
def UnpackState.Twin (R : Memory → Memory → Prop) (x y : UnpackState) : Prop :=
  ∃ t, y = { x with s := t } ∧ x.s.Twin R t

theorem UnpackState.Twin.putSym_alike (hR : LockStep R src) {x y : UnpackState} (h : x.Twin R y) (sym : Byte) :
    (x.putSym sym).Alike (fun x' y' => x'.Twin R y' ∧ x'.p = x.p) (State.Twin R) (y.putSym sym) := by
  obtain ⟨t, rfl, h⟩ := h
  exact (h.memWrite_alike hR x.q sym).bind (fun _ t' hw => .ok ⟨⟨t', rfl, hw⟩, rfl⟩)

theorem UnpackState.Twin.putRun_alike (hR : LockStep R src) (sym : Byte) (k : Nat) : ∀ {x y : UnpackState}, x.Twin R y →
    (putRun sym k x).Alike (UnpackState.Twin R) (State.Twin R) (putRun sym k y) := by
  induction k with
  | zero => intro x y h; exact .ok h
  | succ k ih => intro x y h; exact (h.putSym_alike hR sym).bind (fun _ _ h' => ih h'.1)

theorem UnpackState.Twin.takeBit_alike (hR : LockStep R src) {x y : UnpackState} (h : x.Twin R y) :
    x.takeBit.Alike (fun x' y' => x'.Twin R y' ∧ x'.p = x.p) (State.Twin R) y.takeBit := by
  obtain ⟨t, rfl, h⟩ := h
  have hnode : ∀ i, t.nodeAt i = x.s.nodeAt i := fun i => h.field (State.nodeAt · i) (fun _ => rfl)
  simp only [UnpackState.takeBit, hnode]
  cases x.s.nodeAt x.n with
  | none => exact .stuck _
  | some nd =>
    simp only
    generalize (if x.cur.getLsbD (x.rem - 1) = true then nd.right else nd.left) = child
    have hmoved : UnpackState.Twin R { x with rem := x.rem - 1, bits := x.bits + 1, n := child }
        { x with s := t, rem := x.rem - 1, bits := x.bits + 1, n := child } := ⟨t, rfl, h⟩
    cases x.s.nodeAt child with
    | none => exact .stuck _
    | some cd =>
      simp only
      split
      · refine (hmoved.putSym_alike hR cd.sym).bind (fun x' y' hxy => ?_)
        obtain ⟨⟨t', rfl, h'⟩, hp⟩ := hxy
        exact .ok ⟨⟨t', by rw [h'.field State.root (fun _ => rfl)], h'⟩, hp⟩
      · exact .ok ⟨hmoved, rfl⟩

theorem UnpackState.Twin.takeBits_alike (hR : LockStep R src) (total k : Nat) : ∀ {x y : UnpackState}, x.Twin R y →
    (takeBits total k x).Alike (fun x' y' => x'.Twin R y' ∧ x'.p = x.p) (State.Twin R) (takeBits total k y) := by
  induction k with
  | zero => intro x y h; exact .ok ⟨h, rfl⟩
  | succ k ih =>
    intro x y h
    have hcnt : y.cnt = x.cnt := by obtain ⟨t, rfl, -⟩ := h; rfl
    simp only [takeBits, hcnt]
    split
    · exact .ok ⟨h, rfl⟩
    · exact (h.takeBit_alike hR).bind
        (fun x' y' h' => (ih h'.1).mono (fun _ _ h2 => ⟨h2.1, h2.2.trans h'.2⟩))

/-- UNPACK's loop with `left` bytes ahead that lie in `src`. -/
theorem UnpackState.Twin.unpackBytes_alike (hR : LockStep R src) (total left : Nat) :
    ∀ {x y : UnpackState}, x.Twin R y → x.p.toNat + left < 4294967296 → (∀ j, j < left → src (x.p.toNat + j)) →
    (unpackBytes total left x).Alike (UnpackState.Twin R) (State.Twin R) (unpackBytes total left y) := by
  induction left with
  | zero =>
    intro x y h _ _
    obtain ⟨t, rfl, h⟩ := h
    have hend : t.srcEnd = x.s.srcEnd := h.field State.srcEnd (fun _ => rfl)
    simp only [unpackBytes, hend]
    split
    · exact .ok ⟨t, rfl, h⟩
    · exact .raise _ _ h
  | succ left ih =>
    intro x y h hlt hsrc
    obtain ⟨t, rfl, h⟩ := h
    have hnext : (x.p + 1#32).toNat = x.p.toNat + 1 := pointer_succ x.p (by omega)
    simp only [unpackBytes]
    split
    · exact .ok ⟨t, rfl, h⟩
    · refine (h.memRead_alike hR (hsrc 0 (by omega))).bind (fun r r' hr => ?_)
      obtain ⟨hb, h1⟩ := hr
      rw [hb]
      refine (UnpackState.Twin.takeBits_alike hR total 8 ⟨r'.2, rfl, h1⟩).bind (fun x2 y2 h2 => ?_)
      obtain ⟨h2, hp⟩ := h2
      refine ih h2 (by rw [hp, hnext]; omega) (fun j hj => ?_)
      rw [hp, hnext, Nat.add_assoc, Nat.add_comm 1 j]
      exact hsrc (j + 1) (by omega)

theorem State.Twin.unpackSymbols_alike (hR : LockStep R src) {s t : State} (h : s.Twin R t)
    (hle : s.srcAddr.toNat ≤ s.srcEnd.toNat) (hsrc : CoversSource src s) :
    (unpackSymbols s (unpackStart s)).Alike (UnpackState.Twin R) (State.Twin R) (unpackSymbols t (unpackStart t)) := by
  obtain ⟨m, rfl, hm⟩ := h
  have hstart : (unpackStart s).Twin R (unpackStart { s with mem := m }) := ⟨_, rfl, m, rfl, hm⟩
  have hlen := regionBytes_le s.srcAddr s.srcEnd hle
  have hnode : State.nodeAt { s with mem := m } s.root = s.nodeAt s.root := rfl
  simp only [unpackSymbols, hnode]
  cases s.nodeAt s.root with
  | none => exact .stuck _
  | some nd =>
    simp only
    split
    · exact hstart.putRun_alike hR nd.sym _
    · refine hstart.unpackBytes_alike hR _ _ (regionBytes_end_lt ..) (fun j hj => hsrc _ ?_)
      rw [inRegion_iff]
      simp only [unpackStart]
      omega

theorem UnpackState.Twin.strictChecks_alike {x y : UnpackState} (h : x.Twin R y) :
    (strictChecks x).Alike (UnpackState.Twin R) (State.Twin R) (strictChecks y) := by
  obtain ⟨_, rfl, m, rfl, hm⟩ := h
  have hs : x.s.Twin R { x.s with mem := m } := ⟨m, rfl, hm⟩
  have hpad : UnpackState.paddingZero { x with s := { x.s with mem := m } } = x.paddingZero := rfl
  simp only [strictChecks, hpad]
  split
  · split
    · exact .raise _ _ hs
    · split
      · exact .raise _ _ hs
      · exact .ok ⟨_, rfl, hs⟩
  · exact .ok ⟨_, rfl, hs⟩

/-! ### DESERIALIZE's body -/

/-- The same working state of `parse()` but for related memories, with the read pointer in the source region of `s0`. -/
structure ParseTwin (R : Memory → Memory → Prop) (s0 : State) (x y : ParseState) : Prop where
  same  : ∃ t, y = { x with s := t } ∧ x.s.Twin R t
  keeps : NodesOnly s0 x.s
  low   : s0.srcAddr.toNat ≤ x.p.toNat
  high  : x.p.toNat ≤ s0.srcEnd.toNat

/-- A read of the header in both runs: the same byte, and the pointer after it still in the source region. -/
theorem State.Twin.readByte_alike (hR : LockStep R src) {s0 s t : State} {p : Word}
    (hsrc : CoversSource src s0) (h : s.Twin R t) (hk : NodesOnly s0 s)
    (hlow : s0.srcAddr.toNat ≤ p.toNat) (hhigh : p.toNat ≤ s0.srcEnd.toNat) :
    (readByte s p).Alike
      (fun r r' => ReadTwin R r r' ∧ NodesOnly s0 r.2 ∧ s0.srcAddr.toNat ≤ (p + 1#32).toNat ∧
        (p + 1#32).toNat ≤ s0.srcEnd.toNat)
      (State.Twin R) (readByte t p) := by
  have hend : s.srcEnd = s0.srcEnd := by rw [hk]
  have htend : t.srcEnd = s0.srcEnd := (h.field State.srcEnd (fun _ => rfl)).trans hend
  have hboth : (readByte s p).Alike (ReadTwin R) (State.Twin R) (readByte t p) := by
    simp only [readByte, hend, htend]
    split
    · exact .raise _ _ h
    · rename_i hne
      have hlt : p.toNat < s0.srcEnd.toNat := hhigh.lt_of_ne (fun hh => hne (BitVec.eq_of_toNat_eq hh))
      exact h.memRead_alike hR (hsrc _ ((inRegion_iff ..).mpr ⟨hlow, hlt⟩))
  refine (hboth.and_spec (readByte_spec hk hhigh)).mono (fun r r' hr => ?_)
  obtain ⟨hrr, hkeep, -, hp, hle⟩ := hr
  exact ⟨hrr, hkeep, by omega, by omega⟩

theorem ParseTwin.next_alike {s0 : State} {x y : ParseState} (hR : LockStep R src)
    (hsrc : CoversSource src s0) (h : ParseTwin R s0 x y) :
    x.next.Alike (fun r r' => r'.1 = r.1 ∧ ParseTwin R s0 r.2 r'.2) (State.Twin R) y.next := by
  obtain ⟨⟨t, rfl, hs⟩, hk, hlow, hhigh⟩ := h
  refine (hs.readByte_alike hR hsrc hk hlow hhigh).bind (fun r r' hr => ?_)
  obtain ⟨⟨hb, h1⟩, hk1, hl1, hh1⟩ := hr
  exact .ok ⟨hb, ⟨_, rfl, h1⟩, hk1, hl1, hh1⟩

theorem ParseTwin.states {s0 : State} {x y : ParseState} (h : ParseTwin R s0 x y) : x.s.Twin R y.s := by
  obtain ⟨⟨t, rfl, hs⟩, -⟩ := h
  exact hs

theorem ParseTwin.pointer {s0 : State} {x y : ParseState} (h : ParseTwin R s0 x y) : y.p = x.p := by
  obtain ⟨⟨t, rfl, -⟩, -⟩ := h
  rfl

theorem ParseTwin.parseSym_alike {s0 : State} {x y : ParseState} (hR : LockStep R src)
    (hsrc : CoversSource src s0) (h : ParseTwin R s0 x y) :
    (parseSym x).Alike (fun r r' => r'.1 = r.1 ∧ ParseTwin R s0 r.2 r'.2) (State.Twin R) (parseSym y) := by
  have hctrl : y.s.ctrl = x.s.ctrl := h.states.field State.ctrl (fun _ => rfl)
  simp only [parseSym, hctrl, h.pointer]
  split
  · refine (h.next_alike hR hsrc).bind (fun hi hi' hhi => (hhi.2.next_alike hR hsrc).bind (fun lo lo' hlo => ?_))
    rw [hhi.1]
    split
    · exact .ok hlo
    · exact .raise _ _ hlo.2.states
  · exact h.next_alike hR hsrc

/-- A node written in both runs. -/
theorem ParseTwin.putNode {s0 : State} {x y : ParseState} (h : ParseTwin R s0 x y) (i : NodeIdx) (n : Node) :
    ParseTwin R s0 (x.putNode i n) (y.putNode i n) := by
  obtain ⟨⟨t, rfl, m, rfl, hm⟩, hk, hlow, hhigh⟩ := h
  refine ⟨⟨_, rfl, m, rfl, hm⟩, ?_, hlow, hhigh⟩
  unfold NodesOnly at hk ⊢
  simp only [ParseState.putNode]
  rw [hk]

theorem ParseTwin.parse_alike {s0 : State} (hR : LockStep R src)
    (hsrc : CoversSource src s0) (calls : Nat) :
    ∀ {x y : ParseState}, ParseTwin R s0 x y →
    (parse calls x).Alike (fun r r' => r'.1 = r.1 ∧ ParseTwin R s0 r.2 r'.2) (State.Twin R) (parse calls y) := by
  induction calls with
  | zero => intro x y _; exact .stuck _
  | succ calls ih =>
    intro x y h
    obtain ⟨t, rfl, hs⟩ := h.same
    simp only [parse]
    split
    · rename_i hroom
      have h1 : ParseTwin R s0 { x with k := x.k + 1 } { x with s := t, k := x.k + 1 } :=
        ⟨⟨t, rfl, hs⟩, h.keeps, h.low, h.high⟩
      refine (h1.next_alike hR hsrc).bind (fun tag tag' htag => ?_)
      obtain ⟨htag, h2⟩ := htag
      rw [htag]
      split
      · refine (h2.parseSym_alike hR hsrc).bind (fun sym sym' hsym => ?_)
        obtain ⟨hsym, h3⟩ := hsym
        rw [hsym]
        obtain ⟨⟨t4, h4, hs4⟩, hk4, hl4, hh4⟩ := h3.putNode ⟨x.k, hroom⟩ (Node.mkLeaf sym.1 0#32)
        refine .ok ⟨rfl, ⟨t4, ?_, hs4⟩, hk4, hl4, hh4⟩
        rw [h4]
      · split
        · refine (ih h2).bind (fun l l' hl => (ih hl.2).bind (fun r r' hr => ?_))
          rw [hl.1, hr.1]
          exact .ok ⟨rfl, hr.2.putNode _ _⟩
        · exact .raise _ _ h2.states
    · exact .raise _ _ hs

/-- The count read in both runs. -/
theorem State.Twin.readCount_alike {s t : State} (hR : LockStep R src)
    (hsrc : CoversSource src s) (h : s.Twin R t)
    (hle : s.srcAddr.toNat ≤ s.srcEnd.toNat) :
    (readCount s s.srcAddr).Alike
      (fun c c' => c'.1 = c.1 ∧ c'.2.2 = c.2.2 ∧ c.2.1.Twin R c'.2.1 ∧ NodesOnly s c.2.1 ∧
        s.srcAddr.toNat ≤ c.2.2.toNat ∧ c.2.2.toNat ≤ s.srcEnd.toNat)
      (State.Twin R) (readCount t s.srcAddr) := by
  have e2 : s.srcAddr + 1#32 + 1#32 = s.srcAddr + 2#32 := by rw [BitVec.add_assoc]; rfl
  have e3 : s.srcAddr + 2#32 + 1#32 = s.srcAddr + 3#32 := by rw [BitVec.add_assoc]; rfl
  have e4 : s.srcAddr + 3#32 + 1#32 = s.srcAddr + 4#32 := by rw [BitVec.add_assoc]; rfl
  refine (h.readByte_alike hR hsrc (NodesOnly.refl s) (Nat.le_refl _) hle).bind (fun c3 d3 h3 => ?_)
  obtain ⟨⟨b3, t3⟩, k3, l3, u3⟩ := h3
  refine (t3.readByte_alike hR hsrc k3 l3 u3).bind (fun c2 d2 h2 => ?_)
  obtain ⟨⟨b2, t2⟩, k2, l2, u2⟩ := h2
  rw [e2] at l2 u2
  refine (t2.readByte_alike hR hsrc k2 l2 u2).bind (fun c1 d1 h1 => ?_)
  obtain ⟨⟨b1, t1⟩, k1, l1, u1⟩ := h1
  rw [e3] at l1 u1
  refine (t1.readByte_alike hR hsrc k1 l1 u1).bind (fun c0 d0 h0 => ?_)
  obtain ⟨⟨b0, t0⟩, k0, l0, u0⟩ := h0
  rw [e4] at l0 u0
  exact .ok ⟨by rw [b3, b2, b1, b0], rfl, t0, k0, l0, u0⟩

theorem State.Twin.deserializeBody_alike (hadTree : Bool) {s t : State} (hR : LockStep R src) (h : s.Twin R t)
    (hle : s.srcAddr.toNat ≤ s.srcEnd.toNat) (hsrc : CoversSource src s) :
    (deserializeBody hadTree s).Alike (State.Twin R) (State.Twin R) (deserializeBody hadTree t) := by
  have haddr : t.srcAddr = s.srcAddr := h.field State.srcAddr (fun _ => rfl)
  unfold deserializeBody
  rw [haddr]
  refine (h.readCount_alike hR hsrc hle).bind (fun c c' hc => ?_)
  obtain ⟨hcount, hptr, ⟨m, hm, hrel⟩, hk, hlow, hhigh⟩ := hc
  simp only [hcount, hptr, hm]
  split
  · cases hadTree <;> exact .ok ⟨m, rfl, hrel⟩
  · have hstart : ParseTwin R s { s := c.2.1, p := c.2.2, k := 0, leaves := 0 }
        { s := { c.2.1 with mem := m }, p := c.2.2, k := 0, leaves := 0 } :=
      ⟨⟨_, rfl, m, rfl, hrel⟩, hk, hlow, hhigh⟩
    refine (hstart.parse_alike hR hsrc 512).bind (fun r r' hr => ?_)
    obtain ⟨hroot, ⟨t', hst, m', rfl, hrel'⟩, -⟩ := hr
    rw [hroot, hst]
    exact .ok ⟨m', rfl, hrel'⟩

end

end Sys2Proof.Machine
end

section
/-! The rules and the completions of two runs side by side, and what one command keeps: the canonical form of shared
memory (assumption log 3) and what is the host's. -/

namespace Sys2Proof.Machine

/-! ### Rules that end alike -/

/-- Two rules end alike: both done, or both in the same error, with twin states, or both without a result for the same
reason. -/
inductive RunResult.Alike (R : Memory → Memory → Prop) : RunResult → RunResult → Prop where
  | done {s t : State} (h : s.Twin R t) : RunResult.Alike R (.done s) (.done t)
  | raised (e : Err) (info : Word) (trash : Bool) {s t : State} (h : s.Twin R t) :
    RunResult.Alike R (.raised e info trash s) (.raised e info trash t)
  | stuck (f : Fault) : RunResult.Alike R (.stuck f) (.stuck f)

section
variable {R : Memory → Memory → Prop} {src : Nat → Prop}

theorem State.Twin.runBuild_alike {s t : State} (h : s.Twin R t) : (runBuild s).Alike R (runBuild t) := by
  have hfreq : freqValues t = freqValues s := h.field freqValues (fun _ => rfl)
  obtain ⟨m, rfl, hm⟩ := h
  simp only [runBuild, hfreq]
  cases freqValues s with
  | none => exact .stuck _
  | some fs =>
    simp only
    split
    · exact .raised _ _ _ ⟨m, rfl, hm⟩
    · split
      · exact .raised _ _ _ ⟨m, rfl, hm⟩
      · exact .done ⟨m, rfl, hm⟩

theorem State.Twin.runGencode_alike {s t : State} (h : s.Twin R t) : (runGencode s).Alike R (runGencode t) := by
  obtain ⟨m, rfl, hm⟩ := h
  simp only [runGencode]
  split
  · cases walk s.node Config.treeLevels s.root [] noCodes with
    | ok tab => exact .done ⟨m, rfl, hm⟩
    | dup sym => exact .raised _ _ _ ⟨m, rfl, hm⟩
    | stuck => exact .stuck _
  · exact .raised _ _ _ ⟨m, rfl, hm⟩

theorem State.Twin.runSerialize_alike (hR : LockStep R src) {s t : State} (h : s.Twin R t) :
    (runSerialize s).Alike R (runSerialize t) := by
  have hsize : headerSize t = headerSize s := h.field headerSize (fun _ => rfl)
  have hbytes : headerBytes t = headerBytes s := h.field headerBytes (fun _ => rfl)
  have hputs := fun bs => h.putBytes_alike hR bs s.dstAddr
  obtain ⟨m, rfl, hm⟩ := h
  simp only [runSerialize, hsize, hbytes]
  split; · exact .raised _ _ _ ⟨m, rfl, hm⟩
  split; · exact .raised _ _ _ ⟨m, rfl, hm⟩
  split; · exact .raised _ _ _ ⟨m, rfl, hm⟩
  cases headerBytes s with
  | none => exact .stuck _
  | some bs =>
    have hbs := hputs bs
    simp only
    generalize putBytes bs s s.dstAddr = p, putBytes bs { s with mem := m } s.dstAddr = q at hbs ⊢
    cases hbs with
    | ok hr =>
      obtain ⟨⟨m', ht, hm'⟩, hq⟩ := hr
      simp only [ht, hq]
      exact .done ⟨m', rfl, hm'⟩
    | raise e info h' => exact .raised _ _ _ h'
    | stuck f => exact .stuck _

theorem State.Twin.runDeserialize_alike (hR : LockStep R src) {s t : State} (h : s.Twin R t)
    (hsrc : CoversSource src s) : (runDeserialize s).Alike R (runDeserialize t) := by
  obtain ⟨m, rfl, hm⟩ := h
  simp only [runDeserialize]
  split; · exact .raised _ _ _ ⟨m, rfl, hm⟩
  rename_i hmal
  rw [regionMalformed_iff] at hmal
  have hstart : s.withoutTree.Twin R (State.withoutTree { s with mem := m }) := ⟨m, rfl, hm⟩
  have hbody := hstart.deserializeBody_alike s.status.treeValid hR (by simpa using hmal) hsrc
  generalize deserializeBody s.status.treeValid s.withoutTree = p,
    deserializeBody s.status.treeValid (State.withoutTree { s with mem := m }) = q at hbody ⊢
  cases hbody with
  | ok h' => exact .done h'
  | raise e info h' =>
    obtain ⟨m', rfl, hm'⟩ := h'
    exact .raised _ _ _ ⟨m', rfl, hm'⟩
  | stuck f => exact .stuck _

theorem State.Twin.runPack_alike (hR : LockStep R src) {s t : State} (h : s.Twin R t)
    (hsrc : CoversSource src s) : (runPack s).Alike R (runPack t) := by
  have hover : t.overlap = s.overlap := h.field State.overlap (fun _ => rfl)
  have hbody := fun hle => h.packBody_alike hR hle hsrc
  obtain ⟨m, rfl, hm⟩ := h
  simp only [runPack, hover]
  split; · exact .raised _ _ _ ⟨m, rfl, hm⟩
  split; · exact .raised _ _ _ ⟨m, rfl, hm⟩
  split; · exact .raised _ _ _ ⟨m, rfl, hm⟩
  split; · exact .raised _ _ _ ⟨m, rfl, hm⟩
  split; · exact .raised _ _ _ ⟨m, rfl, hm⟩
  rename_i hmal _ _ _ _
  rw [regionMalformed_iff] at hmal
  specialize hbody (by omega)
  generalize packBody s = p, packBody { s with mem := m } = q at hbody ⊢
  cases hbody with
  | ok hxy =>
    obtain ⟨_, rfl, m', rfl, hm'⟩ := hxy
    exact .done ⟨m', rfl, hm'⟩
  | raise e info h' => exact .raised _ _ _ h'
  | stuck f => exact .stuck _

/-- UNPACK's last lines. -/
theorem UnpackState.Twin.done_alike {x y : UnpackState} (h : x.Twin R y) : (unpackDone x).Alike R (unpackDone y) := by
  obtain ⟨_, rfl, m, rfl, hm⟩ := h
  exact .done ⟨m, rfl, hm⟩

theorem State.Twin.runUnpack_alike (hR : LockStep R src) {s t : State} (h : s.Twin R t)
    (hsrc : CoversSource src s) : (runUnpack s).Alike R (runUnpack t) := by
  have hover : t.overlap = s.overlap := h.field State.overlap (fun _ => rfl)
  have haccess : ∀ e, unpackAccessed t e = unpackAccessed s e := fun e => h.field (unpackAccessed · e) (fun _ => rfl)
  have hsymbols := fun hle => h.unpackSymbols_alike hR hle hsrc
  obtain ⟨m, rfl, hm⟩ := h
  have hstart : (unpackStart s).Twin R (unpackStart { s with mem := m }) := ⟨_, rfl, m, rfl, hm⟩
  simp only [runUnpack, hover, haccess]
  split; · exact .raised _ _ _ ⟨m, rfl, hm⟩
  split; · exact .raised _ _ _ ⟨m, rfl, hm⟩
  split; · exact .raised _ _ _ ⟨m, rfl, hm⟩
  rename_i hmal _ _
  rw [regionMalformed_iff] at hmal
  split
  · have hchecks := hstart.strictChecks_alike
    generalize strictChecks (unpackStart s) = p, strictChecks (unpackStart { s with mem := m }) = q at hchecks ⊢
    cases hchecks with
    | ok hxy => exact hxy.done_alike
    | raise e info h' => exact .raised _ _ _ h'
    | stuck f => exact .stuck _
  split; · exact .raised _ _ _ ⟨m, rfl, hm⟩
  split; · exact .raised _ _ _ ⟨m, rfl, hm⟩
  have hbody := (hsymbols (by omega)).bind (fun _ _ hxy => hxy.strictChecks_alike)
  generalize (unpackSymbols s (unpackStart s)).bind strictChecks = p,
    (unpackSymbols { s with mem := m } (unpackStart { s with mem := m })).bind strictChecks = q at hbody ⊢
  cases hbody with
  | ok hxy => exact hxy.done_alike
  | raise e info h' => exact .raised _ _ _ h'
  | stuck f => exact .stuck _

/-- From twin states a command's rule ends alike, when the memories read alike in the source region of a command that
has one. -/
theorem State.Twin.rule_alike (hR : LockStep R src) {s t : State} (h : s.Twin R t) (i : Instr)
    (hsrc : Instr.usesSrc i = true → CoversSource src s) : (Instr.rule i s).Alike R (Instr.rule i t) := by
  cases i with
  | nop => obtain ⟨m, rfl, hm⟩ := h; exact .done ⟨m, rfl, hm⟩
  | clear => obtain ⟨m, rfl, hm⟩ := h; exact .done ⟨m, rfl, hm⟩
  | build => exact h.runBuild_alike
  | gencode => exact h.runGencode_alike
  | serialize => exact h.runSerialize_alike hR
  | deserialize => exact h.runDeserialize_alike hR (hsrc rfl)
  | pack => exact h.runPack_alike hR (hsrc rfl)
  | unpack => exact h.runUnpack_alike hR (hsrc rfl)

/-- Completing rules that end alike: twin states, or the same stop. An error frees the same bytes by the same draws. -/
theorem RunResult.Alike.complete (hR : LockStep R src) {r r' : RunResult} (h : r.Alike R r') {s t : State}
    (hst : s.Twin R t) :
    (∃ u v, complete s r = .next u ∧ complete t r' = .next v ∧ u.Twin R v) ∨
      ∃ f, complete s r = .fault f ∧ complete t r' = .fault f := by
  obtain ⟨m, rfl, -⟩ := hst
  cases h with
  | stuck f => exact .inr ⟨f, rfl, rfl⟩
  | done h =>
    obtain ⟨m', rfl, hm'⟩ := h
    exact .inl ⟨_, _, rfl, rfl, m', rfl, hm'⟩
  | raised e info trash h =>
    obtain ⟨m', rfl, hm'⟩ := h
    refine .inl ⟨_, _, rfl, rfl, ?_⟩
    cases trash with
    | false => exact ⟨m', rfl, hm'⟩
    | true => exact ⟨_, rfl, hR.havoc _ _ _ (regionBytes_end_lt ..).le hm'⟩

end

/-- Two runs of a command from twin states leave twin states or stop alike. -/
theorem State.Twin.exec_alike {R : Memory → Memory → Prop} {src : Nat → Prop} (hR : LockStep R src) {s t : State}
    (h : s.Twin R t) (i : Instr) (hsrc : Instr.usesSrc i = true → CoversSource src s) :
    (∃ u v, exec i s = .next u ∧ exec i t = .next v ∧ u.Twin R v) ∨ ∃ f, exec i s = .fault f ∧ exec i t = .fault f := by
  rw [exec_eq_complete, exec_eq_complete]
  exact (h.rule_alike hR i hsrc).complete hR h

/-! ### The canonical form of shared memory -/

/-- A memory in canonical form beside itself. -/
def WfTwice (m m' : Memory) : Prop := m' = m ∧ Memory.wf m

theorem wfTwice_lockStep : LockStep WfTwice (fun _ => True) where
  write v ha h := ⟨by rw [h.1], Memory.wf_write h.2 ha v⟩
  read h _ := by rw [h.1]

/-- A command keeps the canonical form: its run is a twin of itself. -/
theorem exec_wf {i : Instr} {s u : State} (hs : Memory.wf s.mem) (h : exec i s = .next u) : Memory.wf u.mem := by
  have hself : s.Twin WfTwice s := ⟨s.mem, rfl, rfl, hs⟩
  rcases hself.exec_alike wfTwice_lockStep i (fun _ _ _ => trivial) with ⟨u', v, hu, -, ⟨m, -, hm⟩⟩ | ⟨f, hf, -⟩
  · obtain rfl : u' = u := by rw [h] at hu; injection hu with hu; exact hu.symm
    exact hm.2
  · rw [h] at hf
    cases hf

/-- A command's rule writes nothing of the host's. -/
theorem rule_keepsHost (i : Instr) (s : State) : (Instr.rule i s).Leaves (KeepsHost s) := by
  have hregister : i ∈ [Instr.nop, .clear, .build, .gencode, .deserialize] → (Instr.rule i s).Leaves (KeepsHost s) :=
    fun hi => (rule_registers hi s).leaves.mono (fun _ ht => ht.host)
  cases i with
  | nop | clear | build | gencode | deserialize => exact hregister (by decide)
  | serialize => exact (runSerialize_leaves s).mono (fun _ ht => ht.1.keepsHost)
  | pack => exact (runPack_streams s).leaves.mono (fun _ ht => ht.keepsHost)
  | unpack => exact (runUnpack_streams s).leaves.mono (fun _ ht => ht.keepsHost)

/-- Nor does the pending word's run. -/
theorem runWord_keepsHost {w : Word} {s t : State} (h : runWord w s = .next t) : KeepsHost s t := by
  have hleaves : ∃ r : RunResult, r.Leaves (KeepsHost s) ∧ complete s r = .next t := by
    rcases runWord_eq_complete w s with ⟨i, hi⟩ | hi
    · exact ⟨_, rule_keepsHost i s, hi ▸ h⟩
    · exact ⟨.raised .illegal w false s, KeepsHost.refl s, hi ▸ h⟩
  obtain ⟨r, hr, hc⟩ := hleaves
  obtain ⟨t0, ht0, hcomp⟩ := complete_leaves hr hc
  exact ht0.trans hcomp.host

/-- The pending word's run keeps the canonical form; an illegal command changes no memory. -/
theorem runWord_wf {w : Word} {s t : State} (hs : Memory.wf s.mem) (h : runWord w s = .next t) : Memory.wf t.mem := by
  cases hd : decode w with
  | ok i => exact exec_wf hs (runWord_ok hd s ▸ h)
  | error r =>
    rw [runWord_error hd] at h
    injection h with h
    exact h ▸ hs

end Sys2Proof.Machine
end

section
/-! The statements on shared memory (R70, R81, R86) and on the checks that come before any access to it (R71, R82). -/

namespace Sys2Proof.Machine

/-! ### Steps that keep the canonical form -/

/-- Settled races leave the canonical form, and no raced byte (R86). -/
theorem settleRaces_memInv {s : State} (h : MemInv s) : MemInv s.settleRaces :=
  ⟨Memory.wf_havocAt s.raced h.1 s.draws h.2, fun _ ha => by cases ha⟩

theorem engineStep_memInv {s u : State} (h : MemInv s) (hu : engineStep s = .next u) : MemInv u := by
  rcases engineStep_next hu with ⟨-, rfl⟩ | ⟨-, w, t, -, ht, rfl⟩
  · exact h
  · obtain ⟨hwf, hraced⟩ := h
    exact settleRaces_memInv ⟨runWord_wf hwf ht, (runWord_keepsHost ht).raced ▸ hraced⟩

/-- A host read of a register touches neither shared memory nor the raced bytes. -/
theorem hostReadReg_memInv {s : State} (h : MemInv s) (off : Word) (size : AccessSize) :
    MemInv (hostReadReg s off size) := by
  rcases hostReadReg_cases s off size with ⟨-, hr⟩ | ⟨-, w, hr⟩ | ⟨-, hr⟩ <;> rw [hr] <;> exact h

/-- Nor does a host write of a register. -/
theorem hostWriteReg_memInv {s : State} (h : MemInv s) (off : Word) (size : AccessSize) (v : Word) :
    MemInv (hostWriteReg s off size v) := by
  rcases hostWriteReg_cases s off size v with hw | ⟨-, -, hw⟩ <;> rw [hw]
  · exact h
  · cases decodeOffset off <;> exact h

theorem hostReadMem_memInv {s : State} (h : MemInv s) (a : Word) : MemInv (hostReadMem s a) := by
  unfold hostReadMem
  split <;> exact h

/-- A host write of shared memory stores at an address, and only that address can join the raced ones (R86). -/
theorem hostWriteMem_memInv {s : State} (h : MemInv s) (a : Word) (v : Byte) : MemInv (hostWriteMem s a v) := by
  obtain ⟨hm, hr⟩ := hostWriteMem_cases s a v
  refine ⟨hm ▸ Memory.wf_write h.1 a.isLt v, fun x hx => ?_⟩
  rcases hr x hx with rfl | hx
  · exact a.isLt
  · exact h.2 x hx

theorem hostStep_memInv {s : State} (h : MemInv s) (op : HostOp) : MemInv (hostStep op s) := by
  cases op with
  | readReg off size => exact hostReadReg_memInv h off size
  | writeReg off size v => exact hostWriteReg_memInv h off size v
  | readMem a => exact hostReadMem_memInv h a
  | writeMem a v => exact hostWriteMem_memInv h a v

/-- A hardware reset frees an abandoned command's destination region, and no race outlives it (R280). -/
theorem hardwareReset_memInv {s : State} (h : MemInv s) : MemInv s.hardwareReset := by
  obtain ⟨-, -, -, -, hwf⟩ := s.abandon_spec
  exact ⟨hwf h.1, fun _ ha => by cases ha⟩

/-- Settles O59: each kind of step keeps the canonical form; a command, because every byte it writes has an address. -/
theorem memoryInvariantKept : Obligations.MemoryInvariantKept := by
  unfold Obligations.MemoryInvariantKept
  intro s u hs h
  have htake : ∀ rest, MemInv (s.takeEvent rest) := fun _ => hs
  rcases step_cases h with ⟨s0, hs0, hu⟩ | ⟨op, rest, -, rfl⟩ | ⟨rest, -, rfl⟩ | ⟨rest, -, rfl⟩
  · rcases hs0 with rfl | ⟨rest, -, rfl⟩
    · exact engineStep_memInv hs hu
    · exact engineStep_memInv (htake rest) hu
  · exact hostStep_memInv (htake rest) op
  · obtain ⟨sched, hw⟩ := waitStep_cases rest (s.takeEvent rest)
    rw [hw]
    exact hostReadReg_memInv (htake rest) _ _
  · exact hardwareReset_memInv (htake rest)

/-! ### Races -/

theorem Memory.lookup_havocAt_inside (as : List Nat) : ∀ (m : Memory) (k : Nat) {x : Nat}, x ∈ as →
    ∃ d, Memory.lookup (Memory.havocAt m as k) x = some (Config.freeByte d) := by
  induction as with
  | nil => intro m k x hx; cases hx
  | cons a as ih =>
    intro m k x hx
    by_cases hmem : x ∈ as
    · exact ih _ _ hmem
    · obtain rfl : x = a := (List.mem_cons.mp hx).resolve_right hmem
      exact ⟨k, by rw [Memory.havocAt, Memory.lookup_havocAt_outside as _ _ _ hmem, Memory.lookup_write_same]⟩

/-- The ENGINE's step ends with a free value at every raced byte (R86). -/
theorem engineStep_raced_free {s u : State} (hb : s.status.busy = true) {x : Nat} (hx : x ∈ s.raced)
    (h : engineStep s = .next u) : ∃ k, Memory.lookup u.mem x = some (Config.freeByte k) := by
  rcases engineStep_next h with ⟨hidle, -⟩ | ⟨-, w, t, -, ht, rfl⟩
  · rw [hb] at hidle
    cases hidle
  · have hraced : t.raced = s.raced := (runWord_keepsHost ht).raced
    exact Memory.lookup_havocAt_inside _ _ _ (hraced ▸ hx)

/-- A byte lies in a region of the running command only while a command is pending (R86). -/
theorem busy_of_inRunning {s : State} {x : Nat} (h : s.inRunningSrc x = true ∨ s.inRunningDst x = true) :
    s.status.busy = true := by
  cases hb : s.status.busy with
  | true => rfl
  | false => simp [State.inRunningSrc, State.inRunningDst, State.running, hb] at h

/-- A host write in a region of the running command is a race (R86). -/
theorem hostWriteMem_raced {s : State} {a : Word} (v : Byte)
    (h : s.inRunningSrc a.toNat = true ∨ s.inRunningDst a.toNat = true) :
    hostWriteMem s a v = { s with mem := Memory.write s.mem a.toNat v, raced := insertAddr a.toNat s.raced } := by
  simp [hostWriteMem, h]

/-- Settles O18: a raced byte is free for every ENGINE read, and settling the races frees it in shared memory. -/
theorem hostRaceMakesByteFree : Obligations.HostRaceMakesByteFree := by
  unfold Obligations.HostRaceMakesByteFree
  intro s a v
  refine ⟨fun hdst => ?_, fun hin => ?_, fun hsrc hdst => ?_⟩
  · rw [hostReadMem, if_pos hdst]
    rfl
  · have hmem : a.toNat ∈ (hostWriteMem s a v).raced := by
      rw [hostWriteMem_raced v hin]
      exact (insertAddr_mem ..).mpr (.inl rfl)
    have hbusy : (hostWriteMem s a v).status.busy = true := by
      rw [hostWriteMem_raced v hin]
      exact busy_of_inRunning hin
    exact ⟨fun t ht hadm => memRead_raced hadm (ht ▸ hmem), fun u hu => engineStep_raced_free hbusy hmem hu⟩
  · simp [hostWriteMem, hostReadMem, hsrc, hdst, State.respondByte]

/-! ### A command's regions -/

/-- At every byte the two memories read alike, or each reads as it did at first. -/
def AlikeOrKept (m0 m0' m m' : Memory) : Prop :=
  ∀ a, Memory.read m a = Memory.read m' a ∨
    (Memory.read m a = Memory.read m0 a ∧ Memory.read m' a = Memory.read m0' a)

theorem alikeOrKept_lockStep (m0 m0' : Memory) :
    LockStep (AlikeOrKept m0 m0') (fun a => Memory.read m0' a = Memory.read m0 a) where
  write {m m' a} v _ h x := by
    by_cases hx : x = a
    · subst hx
      exact .inl (by rw [Memory.read_write_same, Memory.read_write_same])
    · rw [Memory.read_write_other _ _ _ _ hx, Memory.read_write_other _ _ _ _ hx]
      exact h x
  read {m m' a} h ha := by
    rcases h a with heq | ⟨hm, hm'⟩
    · exact heq
    · rw [hm, hm', ha]

/-- A command writes no byte outside its destination region (R81). -/
theorem exec_keepsOutsideDst {i : Instr} {s u : State} (hs : TablesInv s) (h : exec i s = .next u) {a : Nat}
    (ha : inRegion s.dstAddr s.dstEnd a = false) : Memory.read u.mem a = Memory.read s.mem a := by
  have hout : ¬ (s.dstAddr.toNat ≤ a ∧ a < s.dstEnd.toNat) := by
    rw [← inRegion_iff, ha]
    exact Bool.false_ne_true
  have hregister : i ∈ [Instr.nop, .clear, .build, .gencode, .deserialize] →
      Memory.read u.mem a = Memory.read s.mem a := fun hi => by
    rw [exec_eq_complete] at h
    rw [(complete_registers (rule_registers hi s) h).mem]
  have hstream : i ∈ [Instr.serialize, .pack, .unpack] → Memory.read u.mem a = Memory.read s.mem a := fun hi => by
    rw [exec_eq_complete] at h
    obtain ⟨hok, herr⟩ := complete_streams (rule_streams hi hs) h
    by_cases h0 : u.status.err = 0#8
    · obtain ⟨-, hhigh, hkeep⟩ := hok h0
      exact hkeep a (by omega)
    · obtain ⟨-, -, -, -, hkeep⟩ := herr h0
      exact hkeep a hout
  cases i with
  | nop | clear | build | gencode | deserialize => exact hregister (by decide)
  | serialize | pack | unpack => exact hstream (by decide)

/-- Settles O55: the frames of the commands bound what is written; two runs side by side bound what is read. -/
theorem commandTouchesOnlyItsRegions : Obligations.CommandTouchesOnlyItsRegions := by
  unfold Obligations.CommandTouchesOnlyItsRegions
  intro i s hs
  refine ⟨fun u hu a ha => exec_keepsOutsideDst hs hu ha, fun hi u hu => ?_, fun w m => ⟨_, rfl, rfl, rfl⟩,
    fun m hm => ?_⟩
  · rw [exec_eq_complete] at hu
    have hmem : i ∈ [Instr.nop, .clear, .build, .gencode, .deserialize] := List.mem_append_left [Instr.deserialize] hi
    exact (complete_registers (rule_registers hmem s) hu).mem
  · have htwin : s.Twin (AlikeOrKept s.mem m) { s with mem := m } := ⟨m, rfl, fun _ => .inr ⟨rfl, rfl⟩⟩
    have hsrc : Instr.usesSrc i = true → CoversSource (fun a => Memory.read m a = Memory.read s.mem a) s := by
      intro huse
      rcases hm with hi | hm
      · cases i <;> simp [Instr.usesSrc] at huse hi
      · exact hm
    rcases htwin.exec_alike (alikeOrKept_lockStep s.mem m) i hsrc with ⟨u, v, hu, hv, ⟨m', rfl, hrel⟩⟩ | hf
    · exact .inl ⟨u, _, hu, hv, rfl, hrel⟩
    · exact .inr hf

/-! ### The checks before any access -/

/-- A rule that raises before it has written anything completes with only the result registers, BUSY, DONE, ERR and the
pending word changed (R252 item 2). -/
theorem exec_refused {i : Instr} {s : State} {e : Err} {info : Word} (h : Instr.rule i s = .raised e info false s) :
    exec i s = .next { s with
      pending := none, outcnt := 0#32, bitcnt := 0#40, errInfo := info
      status := { s.status with busy := false, done := true, err := e.code } } := by
  rw [exec_eq_complete, h]
  rfl

theorem regionMalformed_false {a e : Word} (h : a.toNat ≤ e.toNat) : regionMalformed a e = false := by
  simp [regionMalformed, h]

/-- The overlap of R82 in numbers. -/
theorem overlap_iff (s : State) : s.overlap = true ↔
    s.srcAddr ≠ s.srcEnd ∧ s.dstAddr ≠ s.dstEnd ∧ s.srcAddr.toNat < s.dstEnd.toNat ∧
      s.dstAddr.toNat < s.srcEnd.toNat := by
  simp [State.overlap, and_assoc]

/-- PACK and UNPACK check both regions first (R71, R210, R230). -/
theorem rule_range {i : Instr} {s : State} (hi : i = .pack ∨ i = .unpack)
    (h : s.srcEnd.toNat < s.srcAddr.toNat ∨ s.dstEnd.toNat < s.dstAddr.toNat) :
    Instr.rule i s = .raised .range 0#32 false s := by
  rw [← regionMalformed_iff, ← regionMalformed_iff] at h
  rcases hi with rfl | rfl <;> rcases h with h | h <;> simp [Instr.rule, runPack, runUnpack, h]

/-- Then that the regions do not overlap (R82). -/
theorem rule_overlap {i : Instr} {s : State} (hi : i = .pack ∨ i = .unpack)
    (hsrc : s.srcAddr.toNat < s.srcEnd.toNat) (hdst : s.dstAddr.toNat < s.dstEnd.toNat)
    (h1 : s.srcAddr.toNat < s.dstEnd.toNat) (h2 : s.dstAddr.toNat < s.srcEnd.toNat) :
    Instr.rule i s = .raised .overlap 0#32 false s := by
  have hover : s.overlap = true := (overlap_iff s).mpr
    ⟨fun h => by rw [h] at hsrc; omega, fun h => by rw [h] at hdst; omega, h1, h2⟩
  have hs := regionMalformed_false hsrc.le
  have hd := regionMalformed_false hdst.le
  rcases hi with rfl | rfl <;> simp [Instr.rule, runPack, runUnpack, hs, hd, hover]

section
variable {s : State}

theorem runSerialize_range (h : s.dstEnd.toNat < s.dstAddr.toNat) :
    runSerialize s = .raised .range 0#32 false s := by
  simp [runSerialize, (regionMalformed_iff ..).mpr h]

theorem runSerialize_notree (hdst : s.dstAddr.toNat ≤ s.dstEnd.toNat) (hv : s.status.treeValid = false)
    (he : s.status.empty = false) : runSerialize s = .raised .notree 0#32 false s := by
  simp [runSerialize, regionMalformed_false hdst, hv, he]

/-- The destination region is smaller than the header (R186). -/
theorem runSerialize_dstFull (hdst : s.dstAddr.toNat ≤ s.dstEnd.toNat)
    (htree : s.status.treeValid = true ∨ s.status.empty = true)
    (hfull : s.dstEnd.toNat < s.dstAddr.toNat + headerSize s) :
    runSerialize s = .raised .dstFull s.dstEnd false s := by
  have hroom : regionBytes s.dstAddr s.dstEnd < headerSize s := by unfold regionBytes; omega
  have hflags : (!s.status.treeValid && !s.status.empty) = false := by rcases htree with h | h <;> simp [h]
  simp [runSerialize, regionMalformed_false hdst, hflags, hroom]

theorem runDeserialize_range (h : s.srcEnd.toNat < s.srcAddr.toNat) :
    runDeserialize s = .raised .range 0#32 false s := by
  simp [runDeserialize, (regionMalformed_iff ..).mpr h]

end

/-! PACK and UNPACK past their region checks. -/

section
variable {s : State} (hsrc : s.srcAddr.toNat ≤ s.srcEnd.toNat) (hdst : s.dstAddr.toNat ≤ s.dstEnd.toNat)
  (hover : s.overlap = false)
include hsrc hdst hover

theorem runPack_length (h : regionBytes s.srcAddr s.srcEnd ≠ s.total.toNat) :
    runPack s = .raised .length 0#32 false s := by
  simp [runPack, regionMalformed_false hsrc, regionMalformed_false hdst, hover, h]

theorem runPack_nocodes (h : regionBytes s.srcAddr s.srcEnd = s.total.toNat) (h0 : s.total ≠ 0#32)
    (hc : s.status.codesValid = false) : runPack s = .raised .nocodes 0#32 false s := by
  simp [runPack, regionMalformed_false hsrc, regionMalformed_false hdst, hover, h, h0, hc]

theorem runUnpack_notree (h0 : s.total ≠ 0#32) (hv : s.status.treeValid = false) :
    runUnpack s = .raised .notree 0#32 false s := by
  simp [runUnpack, regionMalformed_false hsrc, regionMalformed_false hdst, hover, h0, hv]

theorem runUnpack_dstFull (h0 : s.total ≠ 0#32) (hv : s.status.treeValid = true)
    (h : regionBytes s.dstAddr s.dstEnd < s.total.toNat) : runUnpack s = .raised .dstFull s.dstEnd false s := by
  simp [runUnpack, regionMalformed_false hsrc, regionMalformed_false hdst, hover, h0, hv, h]

end

/-- Settles O44: each check by its command's rule, which raises before it has written anything. -/
theorem preconditionErrors : Obligations.PreconditionErrors := by
  unfold Obligations.PreconditionErrors
  intro i s e info h
  apply exec_refused
  rcases h with ⟨rfl, hser⟩ | ⟨rfl, hsrc, rfl, rfl⟩ | ⟨hi, rfl, rfl, hmal⟩ | ⟨hi, hsrc, hdst, h1, h2, rfl, rfl⟩ |
    ⟨hsrc, hdst, hover, rfl, hpack⟩ | ⟨hsrc, hdst, hover, rfl, h0, hunpack⟩
  · rcases hser with ⟨hmal, rfl, rfl⟩ | ⟨hdst, hv, he, rfl, rfl⟩ | ⟨hdst, hv, hfull, rfl, rfl⟩ |
      ⟨hdst, hv, he, hfull, rfl, rfl⟩
    · exact runSerialize_range hmal
    · exact runSerialize_notree hdst hv he
    · refine runSerialize_dstFull hdst (.inl hv) ?_
      simp only [headerSize, hv, if_true]
      omega
    · refine runSerialize_dstFull hdst (.inr he) ?_
      simp only [headerSize, hv]
      exact hfull
  · exact runDeserialize_range hsrc
  · exact rule_range hi hmal
  · exact rule_overlap hi hsrc hdst h1 h2
  · rcases hpack with ⟨hlen, rfl, rfl⟩ | ⟨hlen, h0, hc, rfl, rfl⟩
    · exact runPack_length hsrc hdst hover hlen
    · exact runPack_nocodes hsrc hdst hover hlen h0 hc
  · rcases hunpack with ⟨hv, rfl, rfl⟩ | ⟨hv, hfull, rfl, rfl⟩
    · exact runUnpack_notree hsrc hdst hover h0 hv
    · exact runUnpack_dstFull hsrc hdst hover h0 hv hfull

end Sys2Proof.Machine
end

section
/-! The decoder and the encoder are inverse to each other (spec/30_encoding.md R100 to R104): a word decodes to a command
exactly when it is that command's own word. -/

namespace Sys2Proof.Machine

/-- A row of the opcode map carries the opcode of its command: no two rows share a command (R102). -/
theorem opcodeOf_cmd_of_mem : ∀ r ∈ opcodeMap, opcodeOf r.cmd = r.op := by decide

/-- A word whose field RSV is 0 is its field OP, extended by zeros (R100). -/
theorem eq_append_opField {w : Word} (h : rsvField w = 0#24) : w = 0#24 ++ opField w := by
  calc w = w.extractLsb' 0 (24 + 8) := BitVec.extractLsb'_eq_self.symm
    _ = rsvField w ++ opField w := (BitVec.extractLsb'_append_extractLsb'_eq_extractLsb' rfl).symm
    _ = 0#24 ++ opField w := by rw [h]

/-- The words that decode to a command are its own word alone. -/
theorem decode_eq_ok_iff {w : Word} {i : Instr} : decode w = .ok i ↔ w = encode i := by
  refine ⟨fun h => ?_, fun h => h ▸ decode_encode i⟩
  unfold decode at h
  split at h
  next hrsv =>
    split at h
    next r hfind =>
      obtain rfl : r.cmd = i := Except.ok.inj h
      have hop : r.op = opField w := by simpa using List.find?_some hfind
      rw [encode, opcodeOf_cmd_of_mem r (List.mem_of_find?_eq_some hfind), hop]
      exact eq_append_opField hrsv
    next => cases h
  next => cases h

/-- The decoder is total: it answers with a reason exactly when it answers with no command (R103). -/
theorem decode_eq_error_iff {w : Word} : (∃ r, decode w = .error r) ↔ ∀ i, decode w ≠ .ok i := by
  cases decode w <;> simp

/-- A command's word, as a number, is its opcode. -/
theorem encode_toNat (i : Instr) : (encode i).toNat = (opcodeOf i).toNat := by
  exact (BitVec.toNat_append (0#24) (opcodeOf i)).trans (by simp)

/-- A command's own word, by its two fields as numbers. -/
theorem eq_encode_iff {w : Word} {i : Instr} :
    w = encode i ↔ w.toNat / 256 = 0 ∧ w.toNat % 256 = (opcodeOf i).toNat := by
  rw [← BitVec.toNat_inj, encode_toNat]
  have hop := (opcodeOf i).isLt
  omega

/-- The eight opcodes of R102 are the commands' opcodes. -/
theorem mem_opcodes_iff {n : Nat} :
    n ∈ [0x00, 0x01, 0x10, 0x11, 0x20, 0x21, 0x30, 0x31] ↔ ∃ i, n = (opcodeOf i).toNat := by
  constructor
  · intro h
    have hmap : ∀ m ∈ [0x00, 0x01, 0x10, 0x11, 0x20, 0x21, 0x30, 0x31], ∃ r ∈ opcodeMap, m = r.op.toNat := by decide
    obtain ⟨r, hr, hn⟩ := hmap n h
    exact ⟨r.cmd, by rw [hn, opcodeOf_cmd_of_mem r hr]⟩
  · rintro ⟨i, rfl⟩
    cases i <;> decide

/-- Settles O3: a word decodes to a command exactly when it is the command's own, and is rejected when it is none's. -/
theorem decodeIsTotalAndExact : Obligations.DecodeIsTotalAndExact := by
  unfold Obligations.DecodeIsTotalAndExact
  have hok (w : Word) (i : Instr) := (decode_eq_ok_iff (w := w) (i := i)).trans eq_encode_iff
  refine ⟨hok, fun w => ?_⟩
  rw [decode_eq_error_iff, mem_opcodes_iff, ← not_and_or, ← exists_and_left, not_exists]
  exact forall_congr' fun i => not_congr (hok w i)

/-- Settles O1: each word of the map is its command's own. -/
theorem opcodeMapWordsDecode : Obligations.OpcodeMapWordsDecode := by
  unfold Obligations.OpcodeMapWordsDecode
  exact ⟨decode_encode .nop, decode_encode .clear, decode_encode .build, decode_encode .gencode,
    decode_encode .serialize, decode_encode .deserialize, decode_encode .pack, decode_encode .unpack⟩

/-- Settles O2: every command's word decodes to it. -/
theorem decodeInvertsEncode : Obligations.DecodeInvertsEncode := by
  unfold Obligations.DecodeInvertsEncode
  exact fun i _ => decode_encode i

end Sys2Proof.Machine
end

section
/-! The statements on launch, NOP, CLEAR and the illegal command (R120, R124, R125, R126), each as an equation of the state
it leaves. -/

namespace Sys2Proof.Machine

/-! ### Launch -/

/-- The field OP of a word is its last byte (R100). -/
theorem opField_eq_ofNat (w : Word) : opField w = BitVec.ofNat 8 (w.toNat % 256) := by
  apply BitVec.eq_of_toNat_eq
  simp [opField]

/-- Settles O6: idle, the write is the launch at CMD's own offset; busy, it is refused as every write is. -/
theorem launchLatchesTheWord : Obligations.LaunchLatchesTheWord := by
  unfold Obligations.LaunchLatchesTheWord
  intro s w
  refine ⟨fun hb => ?_, fun hb => hostWriteReg_busy hb ..⟩
  rw [← opField_eq_ofNat]
  exact hostWriteReg_offset hb .cmd w

/-! ### NOP and the illegal command -/

/-- Settles O19: NOP's rule writes the counts only, and its completion the rest. -/
theorem nopEffect : Obligations.NopEffect := by
  unfold Obligations.NopEffect
  intro s
  exact ⟨exec_eq_complete .nop s, State.launch_status_lastop s _⟩

/-- Settles O21: a word that is no command's own decodes to none, so it runs as the error ILLEGAL. -/
theorem illegalCommandEffect : Obligations.IllegalCommandEffect := by
  unfold Obligations.IllegalCommandEffect
  intro s w h
  obtain ⟨r, hr⟩ := (decodeIsTotalAndExact.2 w).mpr h
  exact ⟨runWord_error hr s, opField_eq_ofNat w⟩

/-! ### CLEAR -/

/-- A table of zeros has no present symbol (R142). -/
theorem presentList_of_zero {s : State} (h : ∀ sym : Byte, s.freqAt sym = some 0#32) : s.presentList = [] :=
  List.filter_eq_nil_iff.mpr fun sym _ => by simp [State.freqNat, h sym]

theorem exec_build (s : State) : exec .build s = complete s (runBuild s) := rfl

/-- BUILD on a table of zeros aborts with EMPTY (R143). -/
theorem exec_build_of_zero {s : State} (h : ∀ sym : Byte, s.freqAt sym = some 0#32) :
    ∃ v : State, exec .build s = .next v ∧ v.status.err = Err.empty.code := by
  have hnone := presentList_of_zero h
  rcases runBuild_cases s with ⟨⟨sym, hsym⟩, -⟩ | ⟨-, -, hrun⟩ | ⟨-, hne, -⟩ | ⟨-, hne, -⟩
  · rw [h sym] at hsym
    cases hsym
  · exact ⟨_, by rw [exec_build, hrun]; rfl, rfl⟩
  · exact absurd hnone hne
  · exact absurd hnone hne

/-- Settles O20: CLEAR's rule writes constant tables and registers, and on the FREQ table it leaves BUILD answers EMPTY. -/
theorem clearEffect : Obligations.ClearEffect := by
  unfold Obligations.ClearEffect
  intro s
  refine ⟨State.launch_status_lastop s _, _, exec_eq_complete .clear s, fun sym => ⟨?freq, codeIn_noCodes sym⟩,
    fun i => ?node, rfl, exec_build_of_zero fun sym => ?freq'⟩
  case freq | freq' => exact Vector.getElem_replicate sym.isLt
  case node => exact Vector.getElem_replicate i.isLt

end Sys2Proof.Machine
end

section
/-! That every launched command completes (R121, R127): from a state with the invariants no rule gets stuck, but BUILD's on
an unwritten FREQ entry. GENCODE, SERIALIZE and UNPACK find a tree under TREE_VALID, PACK finds codes under CODES_VALID. -/

namespace Sys2Proof.Machine

/-! ### What the invariants say is written -/

/-- Every node of a held tree is written. -/
theorem NodeTree.written_of_mem {m : Vector (Option Node) 511} {t : NodeTree} (h : t.heldIn m = true) {i : NodeIdx}
    (hi : i ∈ t.indices) : (nodeIn m i).isSome = true := by
  induction t with
  | leaf j sym =>
    obtain ⟨f, hf⟩ := NodeTree.heldIn_leaf h
    obtain rfl : i = j := List.mem_singleton.mp hi
    rw [hf]; rfl
  | node j l r hl hr =>
    obtain ⟨⟨f, hf⟩, h1, h2⟩ := NodeTree.heldIn_node h
    rcases List.mem_cons.mp hi with rfl | hi
    · rw [hf]; rfl
    · exact (List.mem_append.mp hi).elim (hl h1) (hr h2)

/-- With a tree every NODE entry is written: those of the tree, and the others are zero (R41). -/
theorem TreeAt.nodes_written {s : State} {t : NodeTree} (h : TreeAt s t) (i : NodeIdx) :
    (s.nodeAt i).isSome = true := by
  by_cases hi : i.val < s.nodeCount.val
  · exact NodeTree.written_of_mem h.held ((h.all i).mpr hi)
  · rw [h.others i (by omega)]; rfl

/-- With codes every CODE entry is written, as they are a tree's (R50, R51). -/
theorem codes_written {s : State} (hs : StatusInv s) (ht : TablesInv s) (hc : s.status.codesValid = true) (sym : Byte) :
    (s.codeAt sym).isSome = true := by
  obtain ⟨-, t, -, hcodes⟩ := ht (hs.codes_tree hc)
  rw [(hcodes hc).entry sym]; rfl

/-! ### GENCODE and SERIALIZE -/

theorem assignList_not_stuck (l : List (Byte × List Bool)) (tab : Vector (Option Code) 256) :
    assignList l tab ≠ .stuck := by
  induction l generalizing tab with
  | nil => simp [assignList]
  | cons c l ih =>
    rw [assignList]
    split
    · simp
    · exact ih _

/-- GENCODE's walk follows the tree that TREE_VALID promises (R49, R161). -/
theorem runGencode_not_stuck {s : State} (ht : TablesInv s) (f : Fault) : runGencode s ≠ .stuck f := by
  intro h
  unfold runGencode at h
  split at h
  next hv =>
    obtain ⟨-, t, htree, -⟩ := ht hv
    rw [walk_tree htree] at h
    cases hl : assignList t.shape.codes noCodes with
    | ok tab => rw [hl] at h; cases h
    | dup sym => rw [hl] at h; cases h
    | stuck => exact assignList_not_stuck _ _ hl
  next => cases h

/-- SERIALIZE's header is that of the tree that TREE_VALID promises (R49, R182). -/
theorem runSerialize_not_stuck {s : State} (ht : TablesInv s) (f : Fault) : runSerialize s ≠ .stuck f := by
  obtain ⟨bs, hb, -⟩ := headerBytes_length (s := s) (fun hv => (ht hv).2.imp (fun _ h => h.1))
  unfold runSerialize
  split; · simp
  split; · simp
  split; · simp
  rw [hb]
  cases hp : putBytes bs s s.dstAddr with
  | ok r => simp [hp]
  | raise e info t => simp [hp]
  | stuck g => exact ((putBytes_memOnly bs s s.dstAddr).stuck hp).elim

/-! ### DESERIALIZE -/

/-- `parse()` calls itself no deeper than TREE_OVF allows (R192). -/
theorem runDeserialize_not_stuck (s : State) (f : Fault) : runDeserialize s ≠ .stuck f := by
  rcases runDeserialize_cases s with h | ⟨t, -, h⟩ | ⟨e, info, t, -, h⟩ <;> simp [h]

/-! ### PACK -/

/-- PACK's body finds the code of every byte it reads. -/
theorem packBody_not_stuck {s : State} (hc : ∀ sym : Byte, (s.codeAt sym).isSome = true) (f : Fault) :
    packBody s ≠ .stuck f := by
  intro h
  rcases Part.bind_eq_stuck.mp h with h | ⟨st, -, h⟩
  · exact (packBytes_written _ hc).stuck h
  · unfold PackState.flush at h
    split at h
    · cases h
    · exact (emit_memOnly _ _).stuck h

/-- PACK's body on an empty source region reads no byte. -/
theorem packBody_empty {s : State} (h : regionBytes s.srcAddr s.srcEnd = 0) :
    packBody s = .ok { s := s, q := s.dstAddr, acc := 0x00#8, n := 0, bits := 0 } := by
  unfold packBody
  rw [h]
  rfl

/-- Past NOCODES (R213) PACK has a code table, or nothing to read. -/
theorem runPack_not_stuck {s : State} (hs : StatusInv s) (ht : TablesInv s) (f : Fault) : runPack s ≠ .stuck f := by
  unfold runPack
  split; · simp
  split; · simp
  split; · simp
  split; · simp
  split; · simp
  rename_i hlength hcodes
  cases hb : packBody s with
  | ok st => simp
  | raise e info t => simp
  | stuck g =>
    exfalso
    by_cases h0 : s.total = 0#32
    · rw [packBody_empty (by simpa [h0] using hlength)] at hb
      cases hb
    · have hc : s.status.codesValid = true := by simpa [h0] using hcodes
      exact packBody_not_stuck (codes_written hs ht hc) g hb

/-! ### UNPACK -/

theorem putSym_not_stuck (st : UnpackState) (sym : Byte) (f : Fault) : st.putSym sym ≠ .stuck f := by
  intro h
  rcases Part.bind_eq_stuck.mp h with h | ⟨t, -, h⟩
  · exact memWrite_not_stuck h
  · cases h

theorem putRun_not_stuck (sym : Byte) (k : Nat) (f : Fault) : ∀ st : UnpackState, putRun sym k st ≠ .stuck f := by
  induction k with
  | zero => intro st h; cases h
  | succ k ih =>
    intro st h
    rcases Part.bind_eq_stuck.mp h with h | ⟨x, -, h⟩
    · exact putSym_not_stuck st sym f h
    · exact ih x h

section
variable {s0 : State} (hw : ∀ i : NodeIdx, (s0.nodeAt i).isSome = true)
include hw

/-- A step of the walk finds the node it stands on and the child it moves to, as UNPACK writes no NODE entry. -/
theorem takeBit_not_stuck {st : UnpackState} (h : UnpackFrame s0 st) (f : Fault) :
    st.takeBit ≠ .stuck f := by
  have hnode : ∀ i : NodeIdx, ∃ nd, st.s.nodeAt i = some nd := fun i =>
    (h.stores.field (fun s => s.nodeAt i) (fun _ _ => rfl)) ▸ Option.isSome_iff_exists.mp (hw i)
  intro hstuck
  unfold UnpackState.takeBit at hstuck
  obtain ⟨nd, hnd⟩ := hnode st.n
  obtain ⟨cd, hcd⟩ := hnode (if st.cur.getLsbD (st.rem - 1) then nd.right else nd.left)
  simp only [hnd, hcd] at hstuck
  split at hstuck
  · rcases Part.bind_eq_stuck.mp hstuck with hput | ⟨x, -, hx⟩
    · exact putSym_not_stuck _ _ f hput
    · cases hx
  · cases hstuck

theorem takeBits_not_stuck (hr : HoldsTotal s0) (f : Fault) (k : Nat) : ∀ {st : UnpackState},
    UnpackFrame s0 st → takeBits s0.total.toNat k st ≠ .stuck f := by
  induction k with
  | zero => intro st _ h; cases h
  | succ k ih =>
    intro st hst h
    rw [takeBits] at h
    split at h
    · cases h
    · rename_i hne
      have hcnt : st.cnt < s0.total.toNat := lt_of_le_of_ne hst.cnt hne
      rcases Part.bind_eq_stuck.mp h with h | ⟨x, hx, h⟩
      · exact takeBit_not_stuck hw hst f h
      · exact ih ((hst.takeBit hr hcnt).ok hx).1 h

theorem unpackBytes_not_stuck (hr : HoldsTotal s0) (f : Fault) (left : Nat) : ∀ {st : UnpackState},
    UnpackFrame s0 st → unpackBytes s0.total.toNat left st ≠ .stuck f := by
  induction left with
  | zero =>
    intro st _ h
    rw [unpackBytes] at h
    split at h <;> cases h
  | succ left ih =>
    intro st hst h
    rw [unpackBytes] at h
    split at h
    · cases h
    · rcases Part.bind_eq_stuck.mp h with h | ⟨r, hread, h⟩
      · exact memRead_not_stuck h
      · have hloaded : UnpackFrame s0 { st with s := r.2, p := st.p + 1#32, cur := r.1, rem := 8 } :=
          ⟨hst.q, hst.cnt, hst.stores.trans (memRead_onlyStores hread _ _)⟩
        rcases Part.bind_eq_stuck.mp h with h | ⟨x, hx, h⟩
        · exact takeBits_not_stuck hw hr f 8 hloaded h
        · exact ih ((hloaded.takeBits hr 8).ok hx).1 h

theorem unpackSymbols_not_stuck (hr : HoldsTotal s0) (f : Fault) : unpackSymbols s0 (unpackStart s0) ≠ .stuck f := by
  have hstart : UnpackFrame s0 (unpackStart s0) := ⟨rfl, Nat.zero_le _, OnlyStores.refl ..⟩
  obtain ⟨nd, hnd⟩ := Option.isSome_iff_exists.mp (hw s0.root)
  simp only [unpackSymbols, hnd]
  split
  · exact putRun_not_stuck _ _ f _
  · exact unpackBytes_not_stuck hw hr f _ hstart

end

/-- Past NOTREE (R232) and DST_FULL (R234) UNPACK has a tree, and room for TOTAL bytes. -/
theorem runUnpack_not_stuck {s : State} (ht : TablesInv s) (f : Fault) : runUnpack s ≠ .stuck f := by
  unfold runUnpack
  split; · simp
  split; · simp
  split; · simp
  split
  · cases hb : strictChecks (unpackStart s) with
    | ok st => simp [unpackDone]
    | raise e info t => simp
    | stuck g => exact ((strictChecks_spec _).stuck hb).elim
  split; · simp
  split; · simp
  rename_i hdst _ h0 hv hfull
  cases hb : (unpackSymbols s (unpackStart s)).bind strictChecks with
  | ok st => simp [unpackDone]
  | raise e info t => simp
  | stuck g =>
    exfalso
    obtain ⟨-, t, htree, -⟩ := ht (by simpa using hv)
    have hroom : HoldsTotal s := by
      rw [regionMalformed_iff] at hdst
      unfold HoldsTotal regionBytes at *
      omega
    rcases Part.bind_eq_stuck.mp hb with hb | ⟨st, -, hb⟩
    · exact unpackSymbols_not_stuck htree.nodes_written hroom g hb
    · exact (strictChecks_spec st).stuck hb

/-! ### Every rule, and the ENGINE's step -/

/-- From a state with the invariants the one rule without a result is BUILD's, on an unwritten FREQ entry (R153). -/
theorem rule_stuck {i : Instr} {s : State} {f : Fault} (hs : StatusInv s) (ht : TablesInv s)
    (h : Instr.rule i s = .stuck f) : i = .build ∧ (∃ sym, s.freqAt sym = none) ∧ f = .unwrittenFreq := by
  cases i with
  | nop => cases h
  | clear => cases h
  | build =>
    have h : runBuild s = .stuck f := h
    rcases runBuild_cases s with ⟨hnone, hb⟩ | ⟨-, -, hb⟩ | ⟨-, -, -, hb⟩ | ⟨-, -, -, hb⟩ <;> rw [hb] at h
      <;> cases h
    exact ⟨rfl, hnone, rfl⟩
  | gencode => exact absurd h (runGencode_not_stuck ht f)
  | serialize => exact absurd h (runSerialize_not_stuck ht f)
  | deserialize => exact absurd h (runDeserialize_not_stuck s f)
  | pack => exact absurd h (runPack_not_stuck hs ht f)
  | unpack => exact absurd h (runUnpack_not_stuck ht f)

/-- A rule with a result completes with no error or with a listed code, and the races are settled (R86, R121, R251). -/
theorem afterCompletion_complete {r : RunResult} (h : ∀ f, r ≠ .stuck f) (s : State) :
    ∃ u : State, afterCompletion (complete s r) = .next u ∧ Completed u ∧ u.raced = [] ∧
      (u.status.err = 0#8 ∨ ∃ e : Err, u.status.err = e.code) := by
  cases r with
  | done t => exact ⟨_, rfl, ⟨rfl, rfl, rfl⟩, rfl, .inl rfl⟩
  | raised e info trash t => exact ⟨_, rfl, ⟨rfl, rfl, rfl⟩, rfl, .inr ⟨e, rfl⟩⟩
  | stuck f => exact absurd rfl (h f)

/-- Settles O56: an illegal word's error completes, and so does every command's rule that is not stuck. -/
theorem everyCommandCompletes : Obligations.EveryCommandCompletes := by
  unfold Obligations.EveryCommandCompletes
  intro s w hs ht hb hp
  rw [engineStep_busy s w hb hp]
  cases hd : decode w with
  | error r =>
    rw [runWord_error hd]
    exact .inl (afterCompletion_complete (by simp) s)
  | ok i =>
    rw [runWord_ok hd, exec_eq_complete]
    cases hr : Instr.rule i s with
    | done t => exact .inl (afterCompletion_complete (by simp) s)
    | raised e info trash t => exact .inl (afterCompletion_complete (by simp) s)
    | stuck f =>
      obtain ⟨rfl, hnone, rfl⟩ := rule_stuck hs ht hr
      exact .inr ⟨rfl, hnone, rfl⟩

end Sys2Proof.Machine
end

section
/-! Huffman's argument on weights and depths alone (R152). A competing tree enters only by the depths of its leaves,
which obey Kraft's inequality; giving the two smallest weights the two greatest depths and merging them keeps that
inequality and saves at least their sum. -/

namespace Sys2Proof.Machine

/-! ### Weights at depths -/

/-- SUM of weight * depth over pairs of a weight and its depth. -/
def depthCost (ps : List (Nat × Nat)) : Nat := (ps.map (fun p => p.1 * p.2)).sum

@[simp] theorem depthCost_cons (p : Nat × Nat) (ps : List (Nat × Nat)) :
    depthCost (p :: ps) = p.1 * p.2 + depthCost ps := rfl

theorem depthCost_perm {ps qs : List (Nat × Nat)} (h : ps.Perm qs) : depthCost ps = depthCost qs :=
  (h.map _).sum_eq

/-- A weight `a` no greater than the others can trade its depth for the greatest one at no cost. -/
theorem depthCost_deepest {a : Nat} (ps : List (Nat × Nat)) (h : ∀ p ∈ ps, a ≤ p.1) (e : Nat) :
    ∃ (d : Nat) (qs : List (Nat × Nat)), qs.map Prod.fst = ps.map Prod.fst ∧
      (d :: qs.map Prod.snd).Perm (e :: ps.map Prod.snd) ∧ (∀ q ∈ qs, q.2 ≤ d) ∧
      a * d + depthCost qs ≤ a * e + depthCost ps := by
  induction ps generalizing e with
  | nil => exact ⟨e, [], rfl, .refl _, by simp, le_rfl⟩
  | cons p ps ih =>
    obtain ⟨w, f⟩ := p
    have hw : a ≤ w := h _ (List.mem_cons_self ..)
    obtain ⟨d, qs, hfst, hsnd, hle, hcost⟩ := ih (fun p hp => h p (List.mem_cons_of_mem _ hp)) (max e f)
    have hd : max e f ≤ d := by
      rcases List.mem_cons.mp (hsnd.mem_iff.mpr (List.mem_cons_self ..)) with heq | hmem
      · exact heq.le
      · obtain ⟨q, hq, heq⟩ := List.mem_map.mp hmem
        exact heq ▸ hle q hq
    have htrade : a * max e f + w * min e f ≤ a * e + w * f := by
      rcases le_total e f with hef | hfe
      · rw [max_eq_right hef, min_eq_left hef]
        nlinarith
      · rw [max_eq_left hfe, min_eq_right hfe]
    refine ⟨d, (w, min e f) :: qs, by simp [hfst], ?_, ?_, by simp only [depthCost_cons]; omega⟩
    · have hswap : (min e f :: max e f :: ps.map Prod.snd).Perm (e :: f :: ps.map Prod.snd) := by
        rcases le_total e f with hef | hfe
        · rw [max_eq_right hef, min_eq_left hef]
        · rw [max_eq_left hfe, min_eq_right hfe]
          exact .swap ..
      exact (List.Perm.swap ..).trans ((hsnd.cons _).trans hswap)
    · intro q hq
      rcases List.mem_cons.mp hq with rfl | hq
      · exact (min_le_max (a := e) (b := f)).trans hd
      · exact hle q hq

/-- The same for a list that holds `a` anywhere. -/
theorem depthCost_deepest_of_perm {a : Nat} {ws : List Nat} {ps : List (Nat × Nat)}
    (hps : (ps.map Prod.fst).Perm (a :: ws)) (h : ∀ w ∈ ws, a ≤ w) :
    ∃ (d : Nat) (qs : List (Nat × Nat)), (qs.map Prod.fst).Perm ws ∧
      (d :: qs.map Prod.snd).Perm (ps.map Prod.snd) ∧ (∀ q ∈ qs, q.2 ≤ d) ∧
      a * d + depthCost qs ≤ depthCost ps := by
  obtain ⟨⟨b, e⟩, hmem, rfl⟩ := List.mem_map.mp (hps.mem_iff.mpr (List.mem_cons_self ..))
  have hout := List.perm_cons_erase hmem
  have hws : ((ps.erase (b, e)).map Prod.fst).Perm ws := ((hout.map Prod.fst).symm.trans hps).cons_inv
  obtain ⟨d, qs, hfst, hsnd, hle, hcost⟩ := depthCost_deepest (ps.erase (b, e))
    (fun p hp => h _ (hws.mem_iff.mp (List.mem_map_of_mem hp))) e
  refine ⟨d, qs, hfst ▸ hws, hsnd.trans (hout.map Prod.snd).symm, hle, ?_⟩
  rw [depthCost_perm hout]
  exact hcost

/-! ### Kraft's inequality -/

/-- SUM of 2^-depth, in units of 2^-n. -/
def kraftSum (n : Nat) (ds : List Nat) : Nat := (ds.map (fun d => 2 ^ (n - d))).sum

/-- SUM of 2^-depth is at most 1: what the depths of a binary tree's leaves obey. -/
def Kraft (ds : List Nat) : Prop := ∃ n : Nat, (∀ d ∈ ds, d ≤ n) ∧ kraftSum n ds ≤ 2 ^ n

@[simp] theorem kraftSum_cons (n d : Nat) (ds : List Nat) : kraftSum n (d :: ds) = 2 ^ (n - d) + kraftSum n ds := rfl

theorem Kraft.perm {ds es : List Nat} (h : Kraft ds) (hp : ds.Perm es) : Kraft es := by
  obtain ⟨n, hle, hsum⟩ := h
  exact ⟨n, fun d hd => hle d (hp.mem_iff.mpr hd), (hp.map _).sum_eq.symm.trans_le hsum⟩

/-- Kraft's sum in a finer unit. -/
theorem kraftSum_refine {m n : Nat} (h : m ≤ n) {ds : List Nat} (hds : ∀ d ∈ ds, d ≤ m) :
    kraftSum n ds = 2 ^ (n - m) * kraftSum m ds := by
  rw [kraftSum, kraftSum, ← List.sum_map_mul_left]
  refine congrArg List.sum (List.map_congr_left fun d hd => ?_)
  rw [← pow_add, Nat.sub_add_sub_cancel h (hds d hd)]

/-- In a unit that is fine enough Kraft's inequality holds of the sum. -/
theorem kraftSum_le {m n : Nat} (h : m ≤ n) {ds : List Nat} (hds : ∀ d ∈ ds, d ≤ m) (hsum : kraftSum m ds ≤ 2 ^ m) :
    kraftSum n ds ≤ 2 ^ n := by
  rw [kraftSum_refine h hds, ← Nat.sub_add_cancel h, pow_add, Nat.add_sub_cancel]
  exact Nat.mul_le_mul_left _ hsum

/-- The leaves of two trees obey Kraft's inequality below a common node, one level deeper. -/
theorem Kraft.node {ds es : List Nat} (hd : Kraft ds) (he : Kraft es) : Kraft ((ds ++ es).map (· + 1)) := by
  obtain ⟨m, hdm, hdsum⟩ := hd
  obtain ⟨n, hen, hesum⟩ := he
  refine ⟨max m n + 1, ?_, ?_⟩
  · simp only [List.mem_map, List.mem_append]
    rintro _ ⟨d, hd | hd, rfl⟩
    · exact Nat.add_le_add_right (le_max_of_le_left (hdm d hd)) 1
    · exact Nat.add_le_add_right (le_max_of_le_right (hen d hd)) 1
  · have hds := kraftSum_le (le_max_left m n) hdm hdsum
    have hes := kraftSum_le (le_max_right m n) hen hesum
    simp only [kraftSum] at hds hes
    simp only [kraftSum, List.map_append, List.map_map, Function.comp_def, Nat.add_sub_add_right, List.sum_append]
    rw [pow_succ]
    omega

/-- Two leaves, one of them at the greatest depth `e` of all leaves but the other, can be one leaf at depth `e - 1`: in
units of 2^-e the other leaves take a whole number, so that less than 1 - 2^-e is at most 1 - 2 * 2^-e. -/
theorem Kraft.merge {d e : Nat} {ds : List Nat} (h : Kraft (d :: e :: ds)) (hds : ∀ x ∈ ds, x ≤ e) :
    0 < e ∧ Kraft ((e - 1) :: ds) := by
  obtain ⟨n, hle, hsum⟩ := h
  have hen : e ≤ n := hle e (by simp)
  have hunit : 2 ^ n = 2 ^ (n - e) * 2 ^ e := by rw [← pow_add, Nat.sub_add_cancel hen]
  rw [kraftSum_cons, kraftSum_cons, kraftSum_refine hen hds, hunit] at hsum
  have hroom : kraftSum e ds + 1 < 2 ^ e := by
    have hpos : 0 < 2 ^ (n - d) := Nat.two_pow_pos _
    refine Nat.lt_of_mul_lt_mul_left (a := 2 ^ (n - e)) ?_
    rw [Nat.mul_add_one]
    omega
  have he : 0 < e := Nat.pos_of_ne_zero fun h0 => by simp [h0] at hroom
  refine ⟨he, e, ?_, ?_⟩
  · simpa using hds
  · rw [kraftSum_cons, Nat.sub_sub_self he]
    omega

/-- One merge of the two smallest weights: the depths of any competitor lose at least the merged weight. -/
theorem depthCost_merge {a b : Nat} {ws : List Nat} {ps : List (Nat × Nat)}
    (hps : (ps.map Prod.fst).Perm (a :: b :: ws)) (hab : a ≤ b) (hb : ∀ w ∈ ws, b ≤ w) (hk : Kraft (ps.map Prod.snd)) :
    ∃ qs : List (Nat × Nat), (qs.map Prod.fst).Perm ((a + b) :: ws) ∧ Kraft (qs.map Prod.snd) ∧
      depthCost qs + (a + b) ≤ depthCost ps := by
  have ha : ∀ w ∈ b :: ws, a ≤ w := List.forall_mem_cons.mpr ⟨hab, fun w hw => hab.trans (hb w hw)⟩
  obtain ⟨d, ps', hfst, hsnd, hd, hcost⟩ := depthCost_deepest_of_perm hps ha
  obtain ⟨e, qs, hfst', hsnd', he, hcost'⟩ := depthCost_deepest_of_perm hfst hb
  have hed : e ≤ d := by
    obtain ⟨q, hq, rfl⟩ := List.mem_map.mp (hsnd'.mem_iff.mp (List.mem_cons_self ..))
    exact hd q hq
  obtain ⟨hpos, hk'⟩ := (hk.perm (hsnd.symm.trans (hsnd'.symm.cons d))).merge (List.forall_mem_map.mpr he)
  refine ⟨(a + b, e - 1) :: qs, hfst'.cons _, hk', ?_⟩
  obtain ⟨e, rfl⟩ := Nat.exists_eq_succ_of_ne_zero hpos.ne'
  simp only [depthCost_cons, Nat.succ_sub_one]
  nlinarith

/-! ### The leaves of a tree -/

/-- SUM of the weights of the leaves. -/
def Shape.weight (w : Byte → Nat) (sh : Shape) : Nat := (sh.symbols.map w).sum

@[simp] theorem Shape.weight_leaf (w : Byte → Nat) (sym : Byte) : (Shape.leaf sym).weight w = w sym := by
  simp [Shape.weight, Shape.symbols]

@[simp] theorem Shape.weight_node (w : Byte → Nat) (l r : Shape) :
    (Shape.node l r).weight w = l.weight w + r.weight w := by
  simp [Shape.weight, Shape.symbols]

/-- The weight and the depth of each leaf. -/
def Shape.leafDepths (w : Byte → Nat) (sh : Shape) : List (Nat × Nat) := sh.codes.map (fun p => (w p.1, p.2.length))

theorem Shape.leafDepths_fst (w : Byte → Nat) (sh : Shape) : (sh.leafDepths w).map Prod.fst = sh.symbols.map w := by
  simp [Shape.leafDepths, ← sh.codes_symbols, Function.comp_def]

theorem Shape.leafDepths_node (w : Byte → Nat) (l r : Shape) :
    (Shape.node l r).leafDepths w = (l.leafDepths w ++ r.leafDepths w).map (fun p => (p.1, p.2 + 1)) := by
  simp [Shape.leafDepths, Shape.codes, Function.comp_def]

theorem Shape.cost_eq_depthCost (w : Byte → Nat) (sh : Shape) : sh.cost w = depthCost (sh.leafDepths w) := by
  simp [Shape.cost, depthCost, Shape.leafDepths, Function.comp_def]

theorem depthCost_deeper (ps : List (Nat × Nat)) :
    depthCost (ps.map (fun p => (p.1, p.2 + 1))) = depthCost ps + (ps.map Prod.fst).sum := by
  simp [depthCost, Function.comp_def, Nat.mul_add, List.sum_map_add]

@[simp] theorem Shape.cost_leaf (w : Byte → Nat) (sym : Byte) : (Shape.leaf sym).cost w = 0 := by
  simp [Shape.cost, Shape.codes]

/-- A node puts every leaf below it one level deeper. -/
@[simp] theorem Shape.cost_node (w : Byte → Nat) (l r : Shape) :
    (Shape.node l r).cost w = l.cost w + r.cost w + (l.weight w + r.weight w) := by
  rw [← Shape.weight_node, Shape.weight, ← Shape.leafDepths_fst]
  simp only [Shape.cost_eq_depthCost, Shape.leafDepths_node, depthCost_deeper]
  simp [depthCost, Function.comp_def]

/-- The depths of a tree's leaves obey Kraft's inequality. -/
theorem Shape.kraft (w : Byte → Nat) (sh : Shape) : Kraft ((sh.leafDepths w).map Prod.snd) := by
  induction sh with
  | leaf sym => exact ⟨0, by simp [Shape.leafDepths, Shape.codes], by simp [Shape.leafDepths, Shape.codes, kraftSum]⟩
  | node l r hl hr =>
    simpa [Shape.leafDepths_node, Function.comp_def] using hl.node hr

end Sys2Proof.Machine
end

section
/-! The statements on BUILD (R140 to R153) but the one on its tree's cost: the outcomes of its rule, the order of its
queue, and the state that a successful BUILD leaves. -/

namespace Sys2Proof.Machine

/-! ### The stop and the errors -/

/-- Settles O22: an unwritten entry is the first outcome of BUILD's rule and excluded by the others. -/
theorem buildStopsOnUnwrittenFrequency : Obligations.BuildStopsOnUnwrittenFrequency := by
  unfold Obligations.BuildStopsOnUnwrittenFrequency
  rintro s ⟨sym, hsym⟩
  have hunwritten : ¬ s.freqWritten := fun hw => by simpa [hsym] using hw sym
  rcases runBuild_cases s with ⟨-, hrun⟩ | ⟨hw, -⟩ | ⟨hw, -⟩ | ⟨hw, -⟩
  · rw [exec_build, hrun]
    rfl
  all_goals exact absurd hw hunwritten

/-- What BUILD's errors leave besides the code: no tree, no codes, and a free value in every NODE entry (R143, R144). -/
theorem raiseError_withoutTree (s : State) (e : Err) (empty : Bool) :
    let u := raiseError s e 0#32 false (s.clearTreeRegs.setTreeFlags false empty false).trashNodes
    Completed u ∧ Aborted s u e 0#32 ∧
      u.status.treeValid = false ∧ u.status.empty = empty ∧ u.status.codesValid = false ∧
      u.total = 0#32 ∧ u.root = 0 ∧ u.nodeCount = 0 ∧ u.leafCount = 0 ∧
      (∀ i : NodeIdx, ∃ k : Nat, s.draws ≤ k ∧ u.nodeAt i = some (freeNode k)) :=
  ⟨raiseError_completed .., raiseError_aborted .., rfl, rfl, rfl, rfl, rfl, rfl, rfl,
    fun i => ⟨s.draws + 2 * i.val, Nat.le_add_right .., State.trashNodes_nodeAt _ i⟩⟩

/-- Settles O23: a table of zeros has no present symbol, which leaves the outcome EMPTY. -/
theorem buildEmptyTable : Obligations.BuildEmptyTable := by
  unfold Obligations.BuildEmptyTable
  intro s hzero
  have hnone := presentList_of_zero hzero
  rcases runBuild_cases s with ⟨⟨sym, hsym⟩, -⟩ | ⟨-, -, hrun⟩ | ⟨-, hne, -⟩ | ⟨-, hne, -⟩
  · simp [hzero sym] at hsym
  · exact ⟨_, by rw [exec_build, hrun]; rfl, raiseError_withoutTree s .empty true⟩
  · exact absurd hnone hne
  · exact absurd hnone hne

/-- Without a present symbol the sum is 0 (R140, R142). -/
theorem State.freqTotal_of_presentList_nil {s : State} (h : s.presentList = []) : s.freqTotal = 0 := by
  refine List.sum_eq_zero fun n hn => ?_
  obtain ⟨sym, hsym, rfl⟩ := List.mem_map.mp hn
  simpa using List.filter_eq_nil_iff.mp h sym hsym

/-- Settles O24: a written table whose sum is too large has a present symbol, which leaves the outcome TOTAL_OVF. -/
theorem buildTotalOverflow : Obligations.BuildTotalOverflow := by
  unfold Obligations.BuildTotalOverflow
  intro s hw hover
  rcases runBuild_cases s with ⟨⟨sym, hsym⟩, -⟩ | ⟨-, hnone, -⟩ | ⟨-, -, -, hrun⟩ | ⟨-, -, hmax, -⟩
  · simpa [hsym] using hw sym
  · rw [s.freqTotal_of_presentList_nil hnone] at hover
    omega
  · exact ⟨_, by rw [exec_build, hrun]; rfl, raiseError_withoutTree s .totalOvf false⟩
  · exact absurd hover hmax.not_gt

/-! ### The queue -/

/-- The key of an entry in its order: FREQ first, then the node index (R146). -/
def QEntry.key (e : QEntry) : ℕ ×ₗ ℕ := toLex (e.freq.toNat, e.idx)

theorem QEntry.before_iff (a b : QEntry) : a.before b = true ↔ a.key < b.key := by
  simp [QEntry.before, QEntry.key, Prod.Lex.toLex_lt_toLex, BitVec.toNat_inj]

theorem QEntry.key_le_iff (a b : QEntry) :
    a.key ≤ b.key ↔ a.freq.toNat < b.freq.toNat ∨ (a.freq = b.freq ∧ a.idx ≤ b.idx) := by
  simp [QEntry.key, Prod.Lex.toLex_le_toLex, BitVec.toNat_inj]

/-- `minEntry` has a key no greater than any entry's (R146). -/
theorem minEntry_key_le (e : QEntry) (q : List QEntry) : ∀ x ∈ e :: q, (minEntry e q).key ≤ x.key := by
  induction q generalizing e with
  | nil => simp [minEntry]
  | cons y q ih =>
    have hstep : minEntry e (y :: q) = minEntry (if y.before e then y else e) q := rfl
    have hfirst : (if y.before e then y else e).key ≤ e.key ∧ (if y.before e then y else e).key ≤ y.key := by
      split
      case isTrue h => exact ⟨((y.before_iff e).mp h).le, le_rfl⟩
      case isFalse h => exact ⟨le_rfl, not_lt.mp (mt (y.before_iff e).mpr h)⟩
    have hmin := ih (if y.before e then y else e)
    have hhead := hmin _ (List.mem_cons_self ..)
    rw [hstep]
    intro x hx
    rcases List.mem_cons.mp hx with rfl | hx
    · exact hhead.trans hfirst.1
    rcases List.mem_cons.mp hx with rfl | hx
    · exact hhead.trans hfirst.2
    · exact hmin x (List.mem_cons_of_mem _ hx)

/-- What `extractMin` takes has a key no greater than any entry's (R146). -/
theorem extractMin_key_le {q q' : List QEntry} {m : QEntry} (h : extractMin q = some (m, q')) :
    ∀ x ∈ q, m.key ≤ x.key := by
  cases q with
  | nil => cases h
  | cons e q =>
    obtain ⟨rfl, -⟩ : minEntry e q = m ∧ _ := by simpa [extractMin] using h
    exact minEntry_key_le e q

/-- One turn of the merge loop (R140). -/
theorem mergeLoop_succ {q q1 q2 : List QEntry} {x y : QEntry} (hx : extractMin q = some (x, q1))
    (hy : extractMin q1 = some (y, q2)) (fuel : Nat) (nodes : List Node) :
    mergeLoop (fuel + 1) nodes q =
      mergeLoop fuel (nodes ++ [mergedNode x y]) (⟨(mergedNode x y).freq, nodes.length⟩ :: q2) := by
  simp only [mergeLoop, hx, hy]

/-- Settles O28: the minimum of a queue by its key's order, and the turn of the loop on the two extracted entries. -/
theorem mergeTakesTheTwoSmallestKeys : Obligations.MergeTakesTheTwoSmallestKeys := by
  unfold Obligations.MergeTakesTheTwoSmallestKeys
  refine ⟨fun q hq => ?_, fun fuel nodes q q1 q2 x y hx hy => mergeLoop_succ hx hy fuel nodes⟩
  obtain ⟨e, q, rfl⟩ := List.exists_cons_of_ne_nil hq
  exact ⟨minEntry e q, rfl, minEntry_mem e q, fun x hx => (QEntry.key_le_iff ..).mp (minEntry_key_le e q x hx)⟩

/-- What every merge keeps holds when the loop ends (R140). -/
theorem mergeLoop_keeps {I : List Node → List QEntry → Prop}
    (hmerge : ∀ {nodes q q1 q2 x y}, I nodes q → extractMin q = some (x, q1) → extractMin q1 = some (y, q2) →
      I (nodes ++ [mergedNode x y]) (⟨(mergedNode x y).freq, nodes.length⟩ :: q2))
    (fuel : Nat) {nodes : List Node} {q : List QEntry} (h : I nodes q) :
    I (mergeLoop fuel nodes q).1 (mergeLoop fuel nodes q).2 := by
  induction fuel generalizing nodes q with
  | zero => exact h
  | succ fuel ih =>
    cases hx : extractMin q with
    | none => simpa only [mergeLoop, hx] using h
    | some xq =>
      obtain ⟨x, q1⟩ := xq
      cases hy : extractMin q1 with
      | none => simpa only [mergeLoop, hx, hy] using h
      | some yq =>
        rw [mergeLoop_succ hx hy]
        exact ih (hmerge h hx hy)

/-- The merges append nodes that are no leaves (R148). -/
theorem mergeLoop_appends (fuel : Nat) (nodes : List Node) (q : List QEntry) :
    ∃ merged : List Node, (mergeLoop fuel nodes q).1 = nodes ++ merged ∧ ∀ n ∈ merged, n.leaf = false := by
  refine mergeLoop_keeps (I := fun ns _ => ∃ merged, ns = nodes ++ merged ∧ ∀ n ∈ merged, n.leaf = false) ?_ fuel
    ⟨[], by simp⟩
  rintro _ q q1 q2 x y ⟨merged, rfl, hleaf⟩ - -
  refine ⟨merged ++ [mergedNode x y], List.append_assoc .., fun n hn => ?_⟩
  rcases List.mem_append.mp hn with hn | hn
  · exact hleaf n hn
  · rw [List.mem_singleton.mp hn]
    rfl

/-! ### The success -/

/-- The present symbols with their frequencies (R142). -/
def State.presentFreqs (s : State) : List (Byte × Word) :=
  s.presentList.map (fun sym => (sym, (s.freqAt sym).getD 0#32))

theorem State.presentFreqs_length (s : State) : s.presentFreqs.length = s.presentList.length := List.length_map ..

/-- The state that a successful BUILD leaves (R145). -/
def State.built (s : State) : State :=
  (buildSuccess s (allSymbols.map (fun sym => (s.freqAt sym).getD 0#32))).finish 0#8 0#32

theorem State.built_node (s : State) : s.built.node = nodeMemory (buildNodes (leafNodes s.presentFreqs)).1 := by
  rw [State.presentFreqs, ← presentSymbols_eq]
  rfl

theorem State.built_root (s : State) : s.built.root = queueRoot (buildNodes (leafNodes s.presentFreqs)).2 := by
  rw [State.presentFreqs, ← presentSymbols_eq]
  rfl

theorem State.built_nodeCount (s : State) :
    s.built.nodeCount = Fin.ofNat 512 (2 * (leafNodes s.presentFreqs).length - 1) := by
  rw [State.presentFreqs, ← presentSymbols_eq]
  rfl

theorem State.built_leafCount (s : State) : s.built.leafCount = Fin.ofNat 257 (leafNodes s.presentFreqs).length := by
  rw [State.presentFreqs, ← presentSymbols_eq]
  rfl

theorem State.built_total (s : State) : s.built.total = BitVec.ofNat 32 s.freqTotal := by
  rw [← freqSum_eq]
  rfl

/-- What BUILD installs is a tree of the present symbols whose root is its last node (R149, R151). -/
theorem State.built_tree {s : State} (h : s.presentList ≠ []) :
    ∃ t : NodeTree, TreeAt s.built t ∧ t.shape.symbols.Perm s.presentList ∧
      s.built.root.val = 2 * s.presentList.length - 2 ∧
      (buildNodes (leafNodes s.presentFreqs)).1.length = 2 * s.presentList.length - 1 := by
  have hne : s.presentFreqs ≠ [] := by simpa [State.presentFreqs] using h
  obtain ⟨t, htree, hsyms, hroot, hlen, -⟩ := buildNodes_tree s.presentFreqs hne
    (s.presentFreqs_length ▸ presentList_length s) s.built s.built_node s.built_root s.built_nodeCount s.built_leafCount
  rw [s.presentFreqs_length] at hroot hlen
  exact ⟨t, htree, by simpa [State.presentFreqs, Function.comp_def] using hsyms, hroot, hlen⟩

/-- BUILD succeeds on a written table with a present symbol and a sum of 32 bits (R145). -/
theorem exec_build_built {s : State} (hw : s.freqWritten) (hne : s.presentList ≠ []) (hmax : s.freqTotal ≤ 0xFFFFFFFF) :
    exec .build s = .next s.built := by
  rcases runBuild_cases s with ⟨⟨sym, hsym⟩, -⟩ | ⟨-, hnone, -⟩ | ⟨-, -, hover, -⟩ | ⟨-, -, -, hrun⟩
  · simpa [hsym] using hw sym
  · exact absurd hnone hne
  · exact absurd hover hmax.not_gt
  · rw [exec_build, hrun]
    rfl

/-- Settles O25: the registers of the state BUILD leaves, its counts from the tree's. -/
theorem buildSuccess_holds : Obligations.BuildSuccess := by
  unfold Obligations.BuildSuccess
  intro s hw hne hmax
  obtain ⟨t, htree, hsyms, hroot, -⟩ := State.built_tree hne
  have hleaves := htree.leaves.trans hsyms.length_eq
  have hnodes : s.built.nodeCount.val = 2 * s.presentList.length - 1 := by
    have := t.shape.nodes_eq
    rw [htree.count, ← hsyms.length_eq]
    omega
  refine ⟨s.built, exec_build_built hw hne hmax, finish_completed .., ⟨rfl, rfl, rfl, rfl⟩, by constructor <;> rfl,
    rfl, rfl, rfl, hnodes, hleaves, hroot, ?_, fun i hi => htree.others i (hnodes ▸ hi), rfl, rfl, rfl, rfl, rfl⟩
  rw [s.built_total, BitVec.toNat_ofNat, Nat.mod_eq_of_lt (by omega)]

/-- Settles O26: NODE begins with the leaves of the present symbols, and the merges append no leaf. -/
theorem buildLeavesInSymbolOrder : Obligations.BuildLeavesInSymbolOrder := by
  unfold Obligations.BuildLeavesInSymbolOrder
  intro s hw hne hmax
  obtain ⟨merged, happ, hmerged⟩ := mergeLoop_appends (leafNodes s.presentFreqs).length (leafNodes s.presentFreqs)
    (initialQueue (leafNodes s.presentFreqs))
  have hnode : ∀ i : NodeIdx, s.built.nodeAt i = some ((leafNodes s.presentFreqs ++ merged).getD i.val Node.zero) := by
    intro i
    rw [State.nodeAt, s.built_node, nodeIn_nodeMemory, buildNodes, happ]
  have hlen : (leafNodes s.presentFreqs).length = s.presentList.length := by simp [leafNodes, s.presentFreqs_length]
  refine ⟨s.built, exec_build_built hw hne hmax, fun i sym f hsym hf => ?_, fun i n hi hn => ?_⟩
  · obtain ⟨hi, -⟩ := List.getElem?_eq_some_iff.mp hsym
    rw [hnode, getD_append_left _ _ _ (hlen ▸ hi)]
    simp [leafNodes, State.presentFreqs, List.getD_eq_getElem?_getD, hsym, hf, Node.mkLeaf]
  · obtain rfl : _ = n := Option.some.inj ((hnode i).symm.trans hn)
    rw [List.getD_append_right _ _ _ _ (hlen ▸ hi), List.getD_eq_getElem?_getD]
    cases hat : merged[i.val - (leafNodes s.presentFreqs).length]? with
    | none => rfl
    | some m => exact hmerged m (List.mem_of_getElem? hat)

/-- Settles O27: the tree that BUILD installs. -/
theorem buildTreeHasThePresentLeaves : Obligations.BuildTreeHasThePresentLeaves := by
  unfold Obligations.BuildTreeHasThePresentLeaves
  intro s hw hne hmax
  obtain ⟨t, htree, hsyms, -⟩ := State.built_tree hne
  exact ⟨s.built, t, exec_build_built hw hne hmax, htree, hsyms⟩

end Sys2Proof.Machine
end

section
/-! The tree that BUILD makes is optimal (R152). The invariant of the merge loop, for every competing tree: the trees
made so far, with their weights placed at some depths that obey Kraft's inequality, cost no more than the competitor. -/

namespace Sys2Proof.Machine

/-! ### Trees and entries of a forest -/

/-- Two trees that a node memory holds at one index are the same tree. -/
theorem NodeTree.eq_of_heldIn {m : Vector (Option Node) 511} {t t' : NodeTree} (h : t.heldIn m = true)
    (h' : t'.heldIn m = true) (hidx : t.idx = t'.idx) : t = t' := by
  induction t generalizing t' with
  | leaf i sym =>
    obtain ⟨f, hnode⟩ := NodeTree.heldIn_leaf h
    cases t' with
    | leaf j sym' =>
      obtain rfl : i = j := hidx
      obtain ⟨f', hnode'⟩ := NodeTree.heldIn_leaf h'
      simp_all [Node.mkLeaf]
    | node j l' r' =>
      obtain rfl : i = j := hidx
      obtain ⟨⟨f', hnode'⟩, -⟩ := NodeTree.heldIn_node h'
      simp [hnode, Node.mkLeaf, Node.mkNode] at hnode'
  | node i l r hl hr =>
    obtain ⟨⟨f, hnode⟩, hheldl, hheldr⟩ := NodeTree.heldIn_node h
    cases t' with
    | leaf j sym' =>
      obtain rfl : i = j := hidx
      obtain ⟨f', hnode'⟩ := NodeTree.heldIn_leaf h'
      simp [hnode, Node.mkLeaf, Node.mkNode] at hnode'
    | node j l' r' =>
      obtain rfl : i = j := hidx
      obtain ⟨⟨f', hnode'⟩, hheldl', hheldr'⟩ := NodeTree.heldIn_node h'
      obtain ⟨-, hil, hir⟩ : f = f' ∧ l.idx = l'.idx ∧ r.idx = r'.idx := by
        simpa [hnode, Node.mkNode] using hnode'
      rw [hl hheldl hheldl' hil, hr hheldr hheldr' hir]

/-- A new node leaves the entries of the trees before it. -/
theorem entryOf_append {nodes : List Node} {t : NodeTree} (h : t.idx.val < nodes.length) (n : Node) :
    entryOf (nodes ++ [n]) t = entryOf nodes t := by
  rw [entryOf, entryOf, getD_append_left _ _ _ h]

theorem entryOf_append_node {nodes : List Node} (h : nodes.length < 511) (n : Node) (l r : NodeTree) :
    (entryOf (nodes ++ [n]) (.node ⟨nodes.length, h⟩ l r)).freq = n.freq := by
  simp [entryOf]

/-- The trees of the first forest are the leaves of the present symbols. -/
theorem Forest.leaf_of_mem {present : List (Byte × Word)} {q : List QEntry} {ts : List NodeTree}
    (h : Forest (leafNodes present) q ts) {t : NodeTree} (ht : t ∈ ts) :
    ∃ p ∈ present, t = .leaf t.idx p.1 ∧ (entryOf (leafNodes present) t).freq = p.2 := by
  have hlt : t.idx.val < present.length := by simpa [leafNodes] using h.lt ht t.idx_mem
  have hget : (leafNodes present).getD t.idx.val Node.zero =
      Node.mkLeaf present[t.idx.val].1 present[t.idx.val].2 := by
    simp [leafNodes, List.getD_eq_getElem?_getD, hlt]
  have hnode : nodeIn (nodeMemory (leafNodes present)) t.idx =
      some (Node.mkLeaf present[t.idx.val].1 present[t.idx.val].2) := by
    rw [nodeIn_nodeMemory, hget]
  refine ⟨_, List.getElem_mem hlt, ?_, by rw [entryOf, hget]; rfl⟩
  refine NodeTree.eq_of_heldIn (h.held t ht) ?_ rfl
  simp [NodeTree.heldIn, hnode, Node.mkLeaf]

/-! ### The bound through the merges -/

/-- FREQ of each root in the forest `ts` is its tree's weight, the weights fit a word, and no competitor over the symbols
`present` is cheaper than the forest: its cost covers the trees' costs and their weights at some depths. -/
structure CostBounded (w : Byte → Nat) (present : List Byte) (nodes : List Node) (ts : List NodeTree) : Prop where
  freq  : ∀ t ∈ ts, (entryOf nodes t).freq.toNat = t.shape.weight w
  fits  : (ts.map (fun t => t.shape.weight w)).sum < 2 ^ 32
  bound : ∀ sh : Shape, sh.symbols.Perm present → ∃ ps : List (Nat × Nat),
    (ps.map Prod.fst).Perm (ts.map (fun t => t.shape.weight w)) ∧ Kraft (ps.map Prod.snd) ∧
      (ts.map (fun t => t.shape.cost w)).sum + depthCost ps ≤ sh.cost w

/-- The first forest: single leaves cost nothing, and a competitor's own depths suit them. -/
theorem Forest.costBounded_leaves {s : State} {q : List QEntry} {ts : List NodeTree}
    (h : Forest (leafNodes s.presentFreqs) q ts) (hsyms : ts.flatMap (fun t => t.shape.symbols) = s.presentList)
    (hmax : s.freqTotal ≤ 0xFFFFFFFF) : CostBounded s.freqNat s.presentList (leafNodes s.presentFreqs) ts := by
  have hleaf : ∀ t ∈ ts, ∃ sym, t.shape = .leaf sym ∧
      (entryOf (leafNodes s.presentFreqs) t).freq = (s.freqAt sym).getD 0#32 := by
    intro t ht
    obtain ⟨p, hp, hshape, hfreq⟩ := h.leaf_of_mem ht
    obtain ⟨sym, -, rfl⟩ := List.mem_map.mp hp
    exact ⟨sym, by rw [hshape]; rfl, hfreq⟩
  have hweights : ts.map (fun t => t.shape.weight s.freqNat) = s.presentList.map s.freqNat := by
    rw [← hsyms, List.map_flatMap, ← flatMap_singletons]
    refine List.flatMap_congr fun t ht => ?_
    obtain ⟨sym, hshape, -⟩ := hleaf t ht
    simp [hshape, Shape.symbols]
  refine ⟨fun t ht => ?_, ?_, fun sh hsh => ⟨sh.leafDepths s.freqNat, ?_, sh.kraft _, ?_⟩⟩
  · obtain ⟨sym, hshape, hfreq⟩ := hleaf t ht
    rw [hfreq, hshape, Shape.weight_leaf]
    rfl
  · have hle : (s.presentList.map s.freqNat).sum ≤ s.freqTotal :=
      (List.filter_sublist.map s.freqNat).sum_le_sum (by simp)
    rw [hweights]
    omega
  · rw [hweights, Shape.leafDepths_fst]
    exact hsh.map _
  · have hcost : (ts.map (fun t => t.shape.cost s.freqNat)).sum = 0 := by
      refine List.sum_eq_zero fun n hn => ?_
      obtain ⟨t, ht, rfl⟩ := List.mem_map.mp hn
      obtain ⟨sym, hshape, -⟩ := hleaf t ht
      rw [hshape, Shape.cost_leaf]
    rw [hcost, Nat.zero_add, Shape.cost_eq_depthCost]

/-- The two trees that a merge takes have the smallest weights, the first the smaller (R146). -/
theorem extracted_weights_le {w : Byte → Nat} {nodes : List Node} {q q1 q2 : List QEntry} {ts ts' : List NodeTree}
    {tx ty : NodeTree} (hq : q.Perm (ts.map (entryOf nodes)))
    (hfreq : ∀ t ∈ ts, (entryOf nodes t).freq.toNat = t.shape.weight w) (hp : ts.Perm (tx :: ty :: ts'))
    (hx : extractMin q = some (entryOf nodes tx, q1)) (hy : extractMin q1 = some (entryOf nodes ty, q2)) :
    tx.shape.weight w ≤ ty.shape.weight w ∧
      ∀ v ∈ ts'.map (fun t => t.shape.weight w), ty.shape.weight w ≤ v := by
  have hle : ∀ t ∈ ts, ∀ t' ∈ ts, (entryOf nodes t).key ≤ (entryOf nodes t').key →
      t.shape.weight w ≤ t'.shape.weight w := by
    intro t ht t' ht' hkey
    rw [← hfreq t ht, ← hfreq t' ht']
    rcases (QEntry.key_le_iff ..).mp hkey with hlt | ⟨heq, -⟩
    · exact hlt.le
    · exact heq ▸ le_rfl
  have hty : ty ∈ ts := hp.mem_iff.mpr (by simp)
  have hq1 : q1.Perm (entryOf nodes ty :: ts'.map (entryOf nodes)) :=
    ((extractMin_perm hx).symm.trans (hq.trans (hp.map _))).cons_inv
  refine ⟨hle tx (hp.mem_iff.mpr (by simp)) ty hty
    (extractMin_key_le hx _ (hq.mem_iff.mpr (List.mem_map_of_mem hty))), List.forall_mem_map.mpr fun t ht => ?_⟩
  exact hle ty hty t (hp.mem_iff.mpr (by simp [ht]))
    (extractMin_key_le hy _ (hq1.mem_iff.mpr (List.mem_cons_of_mem _ (List.mem_map_of_mem ht))))

/-- One merge keeps the bound: it takes the two smallest weights (R146), and their sum is the new node's FREQ (R148). -/
theorem Forest.costBounded_merge {w : Byte → Nat} {present : List Byte} {nodes : List Node} {q q1 q2 : List QEntry}
    {ts : List NodeTree} {x y : QEntry} (h : Forest nodes q ts) (hb : CostBounded w present nodes ts)
    (hn : nodes.length < 511) (hx : extractMin q = some (x, q1)) (hy : extractMin q1 = some (y, q2)) :
    ∃ ts' : List NodeTree, Forest (nodes ++ [mergedNode x y]) (⟨(mergedNode x y).freq, nodes.length⟩ :: q2) ts' ∧
      CostBounded w present (nodes ++ [mergedNode x y]) ts' := by
  obtain ⟨tx, ty, ts', hp, rfl, rfl, hforest⟩ := h.merge hn hx hy
  obtain ⟨hfreq, hfits, hbound⟩ := hb
  have hweights : (ts.map (fun t => t.shape.weight w)).Perm
      (tx.shape.weight w :: ty.shape.weight w :: ts'.map (fun t => t.shape.weight w)) := hp.map _
  have htx : tx ∈ ts := hp.mem_iff.mpr (by simp)
  have hty : ty ∈ ts := hp.mem_iff.mpr (by simp)
  have hts' : ∀ t ∈ ts', t ∈ ts := fun t ht => hp.mem_iff.mpr (by simp [ht])
  obtain ⟨hxy, hrest⟩ := extracted_weights_le h.entries hfreq hp hx hy
  have hsum := hweights.sum_eq
  simp only [List.sum_cons] at hsum
  refine ⟨_, hforest, fun t ht => ?_, ?_, fun sh hsh => ?_⟩
  · rcases List.mem_cons.mp ht with rfl | ht
    · have hx' := hfreq tx htx
      have hy' := hfreq ty hty
      rw [entryOf_append_node, NodeTree.shape, Shape.weight_node, ← hx', ← hy', Nat.add_comm]
      exact BitVec.toNat_add_of_lt (by omega)
    · rw [entryOf_append (h.lt (hts' t ht) t.idx_mem)]
      exact hfreq t (hts' t ht)
  · simp only [List.map_cons, List.sum_cons, NodeTree.shape, Shape.weight_node]
    omega
  · obtain ⟨ps, hfst, hkraft, hcost⟩ := hbound sh hsh
    obtain ⟨qs, hfst', hkraft', hcost'⟩ := depthCost_merge (hfst.trans hweights) hxy hrest hkraft
    have hcosts := (hp.map (fun t => t.shape.cost w)).sum_eq
    simp only [List.map_cons, List.sum_cons] at hcosts
    refine ⟨qs, ?_, hkraft', ?_⟩
    · rw [List.map_cons, NodeTree.shape, Shape.weight_node, Nat.add_comm]
      exact hfst'
    · simp only [List.map_cons, List.sum_cons, NodeTree.shape, Shape.cost_node]
      omega

/-! ### The optimal tree -/

/-- The merge loop ends with the bound on its forest, each merge having turned two entries into a node and an entry. -/
theorem buildNodes_costBounded {s : State} (hmax : s.freqTotal ≤ 0xFFFFFFFF) :
    let built := buildNodes (leafNodes s.presentFreqs)
    built.1.length + built.2.length = 2 * s.presentList.length ∧
      ∃ ts : List NodeTree, Forest built.1 built.2 ts ∧ CostBounded s.freqNat s.presentList built.1 ts := by
  have hle := presentList_length s
  have hlen := s.presentFreqs_length
  obtain ⟨ts, hforest, hsyms, -⟩ := Forest.leaves s.presentFreqs (hlen ▸ hle)
  refine mergeLoop_keeps (I := fun nodes q => nodes.length + q.length = 2 * s.presentList.length ∧
    ∃ ts : List NodeTree, Forest nodes q ts ∧ CostBounded s.freqNat s.presentList nodes ts) ?_ _ ⟨?_, ts, hforest, ?_⟩
  · rintro nodes q q1 q2 x y ⟨hcount, ts, hf, hb⟩ hx hy
    have hqx := (extractMin_perm hx).length_eq
    have hqy := (extractMin_perm hy).length_eq
    simp only [List.length_cons] at hqx hqy
    exact ⟨by simp only [List.length_append, List.length_cons, List.length_nil]; omega,
      hf.costBounded_merge hb (by omega) hx hy⟩
  · simp only [initialQueue, leafNodes, List.length_map, List.length_zipIdx, hlen]
    omega
  · exact hforest.costBounded_leaves (by simpa [State.presentFreqs, Function.comp_def] using hsyms) hmax

/-- Settles O29: the last forest is BUILD's one tree, so the loop's invariant bounds its cost by any competitor's. -/
theorem buildTreeIsOptimal : Obligations.BuildTreeIsOptimal := by
  unfold Obligations.BuildTreeIsOptimal
  intro s hw hne hmax
  obtain ⟨t, htree, hsyms, -, hlen⟩ := State.built_tree hne
  refine ⟨s.built, t, exec_build_built hw hne hmax, htree, hsyms, fun sh hsh => ?_⟩
  obtain ⟨hcount, ts, hforest, hb⟩ := buildNodes_costBounded hmax
  have hpos := List.length_pos_iff.mpr hne
  have hone : ts.length = 1 := by
    have := hforest.entries.length_eq
    rw [List.length_map] at this
    omega
  obtain ⟨t', rfl⟩ := List.length_eq_one_iff.mp hone
  have hroot : t'.idx = s.built.root := by
    rw [s.built_root, List.perm_singleton.mp hforest.entries]
    exact (Fin.ext (Nat.mod_eq_of_lt t'.idx.isLt)).symm
  obtain rfl : t' = t :=
    NodeTree.eq_of_heldIn (s.built_node ▸ hforest.held t' (by simp)) htree.held (hroot.trans htree.root.symm)
  obtain ⟨ps, -, -, hcost⟩ := hb.bound sh hsh
  simp only [List.map_cons, List.map_nil, List.sum_singleton] at hcost
  omega

end Sys2Proof.Machine
end

section
/-! The statements on GENCODE and its codes (R160 to R168): the outcomes of its rule on the registers' tree, the codes of
a tree as its paths, and the form of a code in the CODE window. -/

namespace Sys2Proof.Machine

/-! ### GENCODE's rule -/

theorem exec_gencode (s : State) : exec .gencode s = complete s (runGencode s) := rfl

/-- Without a tree the rule is the error NOTREE (R162). -/
theorem runGencode_notree {s : State} (hv : s.status.treeValid = false) :
    runGencode s = .raised .notree 0#32 false s.clearCodesValid := by
  simp [runGencode, hv]

/-- On a tree the rule ends as the assignment of its leaves' paths does (R161, R163). -/
theorem runGencode_ok {s : State} {t : NodeTree} {tab : Vector (Option Code) 256} (hv : s.status.treeValid = true)
    (ht : TreeAt s t) (h : assignList t.shape.codes noCodes = .ok tab) :
    runGencode s =
      .done (State.setCounts { s with code := tab, status := { s.status with codesValid := true } } 0#32 0#40) := by
  simp [runGencode, hv, walk_tree ht, h]

/-- A symbol that is assigned twice ends the rule with DUP_SYM (R164). -/
theorem runGencode_dup {s : State} {t : NodeTree} {sym : Byte} (hv : s.status.treeValid = true) (ht : TreeAt s t)
    (h : assignList t.shape.codes noCodes = .dup sym) :
    runGencode s = .raised .dupSym (sym.setWidth 32) false { s.clearCodesValid with code := noCodes } := by
  simp [runGencode, hv, walk_tree ht, h]

theorem codePresent_noCodes (sym : Byte) : codePresent noCodes sym = false := by
  simp [codePresent, Code.absent]

/-- Settles O30: NOTREE is the rule's outcome, and its completion writes the result registers. -/
theorem gencodeWithoutTree : Obligations.GencodeWithoutTree := by
  unfold Obligations.GencodeWithoutTree
  intro s hv
  rw [exec_gencode, runGencode_notree hv]
  rfl

/-- Settles O32: the leaves' paths are assigned up to the first symbol that is already there. -/
theorem gencodeDuplicateSymbol : Obligations.GencodeDuplicateSymbol := by
  unfold Obligations.GencodeDuplicateSymbol
  intro s t sym hv ht hdup
  have hassign : assignList t.shape.codes noCodes = .dup sym :=
    assignList_dup _ _ [] (fun x => by simp [codePresent_noCodes]) sym (by rwa [Shape.codes_symbols])
  rw [exec_gencode, runGencode_dup hv ht hassign]
  exact ⟨_, rfl, raiseError_completed .., raiseError_aborted .., rfl, codeIn_noCodes, by constructor <;> rfl, rfl⟩

/-! ### The codes of a tree -/

/-- Where the symbols are distinct, a leaf's path is its symbol's code (R163). -/
theorem Shape.codeOf_of_mem {sh : Shape} {sym : Byte} {p : List Bool} (hnd : sh.symbols.Nodup)
    (hmem : (sym, p) ∈ sh.codes) : sh.codeOf sym = { present := true, bits := p } := by
  cases hfind : sh.codes.find? (fun c => c.1 == sym) with
  | none => simpa using List.find?_eq_none.mp hfind _ hmem
  | some c =>
    have hsym : c.1 = sym := by simpa using List.find?_some hfind
    have hc : c = (sym, p) :=
      List.inj_on_of_nodup_map (sh.codes_symbols ▸ hnd) (List.mem_of_find?_eq_some hfind) hmem hsym
    rw [Shape.codeOf, hfind, hc]

/-- A symbol of no leaf has no code (R163). -/
theorem Shape.codeOf_of_not_mem {sh : Shape} {sym : Byte} (h : sym ∉ sh.symbols) : sh.codeOf sym = Code.absent := by
  have hnone : sh.codes.find? (fun c => c.1 == sym) = none := by
    refine List.find?_eq_none.mpr fun c hc heq => h ?_
    rw [← sh.codes_symbols, ← eq_of_beq heq]
    exact List.mem_map_of_mem hc
  rw [Shape.codeOf, hnone]

/-- A present code of the tree's table is the path of a leaf with its symbol (R51). -/
theorem CodesOf.mem_codes {s : State} {sh : Shape} {sym : Byte} {c : Code} (h : CodesOf s sh)
    (hc : s.codeAt sym = some c) (hp : c.present = true) : (sym, c.bits) ∈ sh.codes := by
  obtain rfl : sh.codeOf sym = c := Option.some.inj ((h.entry sym).symm.trans hc)
  by_cases hmem : sym ∈ sh.symbols
  · obtain ⟨⟨_, p⟩, hcode, rfl⟩ := List.mem_map.mp (sh.codes_symbols.symm ▸ hmem)
    rwa [Shape.codeOf_of_mem h.distinct hcode]
  · simp [Shape.codeOf_of_not_mem hmem, Code.absent] at hp

/-- Settles O31: distinct symbols are all assigned, which leaves the tree's code table. -/
theorem gencodeWritesPaths : Obligations.GencodeWritesPaths := by
  unfold Obligations.GencodeWritesPaths
  intro s t hv ht hnd
  obtain ⟨tab, hassign, -⟩ :=
    assignList_ok t.shape.codes noCodes (by rwa [Shape.codes_symbols]) (fun c _ => codePresent_noCodes c.1)
  have hentry := (assignList_codesOf hassign).2
  rw [exec_gencode, runGencode_ok hv ht hassign]
  exact ⟨_, rfl, finish_completed .., ⟨rfl, rfl, rfl, rfl⟩, by constructor <;> rfl, by constructor <;> rfl, rfl,
    fun sym p hmem => (hentry sym).trans (congrArg some (Shape.codeOf_of_mem hnd hmem)),
    fun sym hmem => (hentry sym).trans (congrArg some (Shape.codeOf_of_not_mem hmem)), rfl, rfl, rfl, rfl⟩

/-! ### No code begins another, and the code is complete -/

/-- No leaf lies below another, as two paths that begin alike stay in the same child (R166). -/
theorem Shape.codes_prefix {sh : Shape} {x y : Byte} {p q : List Bool} (hx : (x, p) ∈ sh.codes)
    (hy : (y, q) ∈ sh.codes) (hpre : p <+: q) : x = y := by
  induction sh generalizing p q with
  | leaf sym =>
    obtain ⟨rfl, -⟩ : x = sym ∧ p = [] := by simpa [Shape.codes] using hx
    obtain ⟨rfl, -⟩ : y = x ∧ q = [] := by simpa [Shape.codes] using hy
    rfl
  | node l r hl hr =>
    obtain ⟨b, p, rfl, hxb⟩ := Shape.codes_node hx
    obtain ⟨b', q, rfl, hyb⟩ := Shape.codes_node hy
    obtain ⟨rfl, hrest⟩ := List.cons_prefix_cons.mp hpre
    cases b with
    | false => exact hl hxb hyb hrest
    | true => exact hr hxb hyb hrest

/-- Settles O33: the codes are the paths of the leaves of one tree. -/
theorem codesArePrefixFree : Obligations.CodesArePrefixFree := by
  unfold Obligations.CodesArePrefixFree
  intro s hinv hv hcv x y c d hne hx hy hc hd hpre
  obtain ⟨-, t, -, hcodes⟩ := hinv hv
  exact hne (Shape.codes_prefix ((hcodes hcv).mem_codes hx hc) ((hcodes hcv).mem_codes hy hd) hpre)

/-- 2 to the minus LEN for a present code, 0 for an absent one (R167). -/
def Code.share (c : Code) : ℚ := if c.present then (1 / 2) ^ c.len else 0

/-- The shares of the leaves sum to 1, as a node gives each of its two children one half (R167). -/
theorem Shape.codes_share (sh : Shape) : (sh.codes.map (fun p => ((1 : ℚ) / 2) ^ p.2.length)).sum = 1 := by
  induction sh with
  | leaf sym => simp [Shape.codes]
  | node l r hl hr =>
    simp only [Shape.codes, List.map_append, List.map_map, Function.comp_def, List.length_cons, pow_succ,
      List.sum_append, List.sum_map_mul_right, hl, hr]
    norm_num

/-- The same sum over the symbols of the leaves. -/
theorem Shape.symbols_share {sh : Shape} (hnd : sh.symbols.Nodup) :
    (sh.symbols.map (fun sym => (sh.codeOf sym).share)).sum = 1 := by
  rw [← sh.codes_share, ← sh.codes_symbols, List.map_map]
  refine congrArg List.sum (List.map_congr_left fun c hc => ?_)
  simp [Code.share, Code.len, Shape.codeOf_of_mem hnd hc]

/-- A sum over all symbols is the sum over distinct symbols outside which it has no term. -/
theorem allSymbols_sum {f : Byte → ℚ} {l : List Byte} (hnd : l.Nodup) (h : ∀ sym, sym ∉ l → f sym = 0) :
    (allSymbols.map f).sum = (l.map f).sum := by
  rw [← List.sum_toFinset f allSymbols_nodup, ← List.sum_toFinset f hnd]
  refine (Finset.sum_subset (fun sym _ => ?_) fun sym _ hsym => h sym (by simpa using hsym)).symm
  exact List.mem_toFinset.mpr (allSymbols_mem sym)

/-- Settles O34: each symbol's term is the share of its code in the tree, and only the leaves have one. -/
theorem codesAreComplete : Obligations.CodesAreComplete := by
  unfold Obligations.CodesAreComplete
  intro s hinv hv hcv
  obtain ⟨-, t, -, hcodes⟩ := hinv hv
  obtain ⟨hnd, hentry⟩ := hcodes hcv
  have hout : ∀ sym, sym ∉ t.shape.symbols → (t.shape.codeOf sym).share = 0 := fun sym hsym => by
    simp [Shape.codeOf_of_not_mem hsym, Code.share, Code.absent]
  calc
    _ = (allSymbols.map (fun sym => (t.shape.codeOf sym).share)).sum :=
      congrArg List.sum (List.map_congr_left fun sym _ => by rw [hentry sym]; rfl)
    _ = (t.shape.symbols.map (fun sym => (t.shape.codeOf sym).share)).sum := allSymbols_sum hnd hout
    _ = 1 := Shape.symbols_share hnd

/-! ### The form of a code in the window -/

/-- Word 0 of a code: PRESENT, 23 zero bits, and LEN (R168). -/
theorem Code.word_zero_layout {c : Code} (h : c.bits.length ≤ 255) :
    (c.word 0).getLsbD 31 = c.present ∧ (c.word 0).extractLsb' 8 23 = 0#23 ∧
      ((c.word 0).extractLsb' 0 8).toNat = c.bits.length := by
  simp [Code.word, Code.len, BitVec.getElem_append (m := 8), BitVec.getElem_append (m := 23),
    BitVec.extractLsb'_append_eq_ite (w := 8), BitVec.extractLsb'_append_eq_ite (w := 23),
    Nat.mod_eq_of_lt (Nat.lt_succ_of_le h)]

/-- The first `n` bits of a list, shifted in one after the other: the last of them is bit 0. -/
theorem getLsbD_foldl_concat (bits : List Bool) {n j : Nat} (hj : j < 32) :
    ((List.range n).foldl (fun acc k => (acc.concat (bits.getD k false)).setWidth 32) 0#32).getLsbD j =
      (decide (j < n) && bits.getD (n - 1 - j) false) := by
  induction n generalizing j with
  | zero => simp
  | succ n ih =>
    rw [List.range_succ, List.foldl_append, List.foldl_cons, List.foldl_nil, BitVec.getLsbD_setWidth,
      BitVec.getLsbD_concat]
    cases j with
    | zero => simp
    | succ j =>
      rw [Nat.add_sub_cancel, ih (by omega), show n + 1 - 1 - (j + 1) = n - 1 - j by omega]
      simp [hj]

/-- The bits of a list, left-aligned in a word (R168). -/
theorem getLsbD_wordOfBits (bits : List Bool) {j : Nat} (hj : j < 32) :
    (wordOfBits bits).getLsbD j = bits.getD (31 - j) false := by
  rw [wordOfBits, getLsbD_foldl_concat bits hj]
  simp [hj]

/-- Words 1 to 8 of a code: its bits, 32 to a word (R168). -/
theorem Code.getLsbD_word (c : Code) {w : Fin 16} {j : Nat} (h1 : 1 ≤ w.val) (h8 : w.val ≤ 8) (hj : j < 32) :
    (c.word w).getLsbD j = c.bits.getD (32 * (w.val - 1) + (31 - j)) false := by
  rw [Code.word, if_neg (by omega), if_pos h8, getLsbD_wordOfBits _ hj]
  simp [List.getD_eq_getElem?_getD]

/-- While BUSY = 0 a read of one of the nine words of a written code returns it (R42, R45). -/
theorem hostReadReg_code {s : State} {sym : Byte} {c : Code} (hb : s.status.busy = false) (hc : s.codeAt sym = some c)
    (w : Fin 16) (hw : w.val ≤ 8) : (hostReadReg s (Target.code sym w).offset .word).response = .word (c.word w) := by
  rw [hostReadReg_response _ hb, registerValue, if_neg (by omega), hc]
  rfl

/-- Settles O14: the window returns the code's words, word 0 by its fields and the others bit by bit. -/
theorem codeWindowForm : Obligations.CodeWindowForm := by
  unfold Obligations.CodeWindowForm
  intro s sym c hb hc hlen
  exact ⟨⟨_, hostReadReg_code hb hc 0 (by decide), Code.word_zero_layout hlen⟩, fun k h1 h8 =>
    ⟨_, hostReadReg_code hb hc ⟨k, by omega⟩ h8, fun j hj => c.getLsbD_word h1 h8 hj⟩⟩

end Sys2Proof.Machine
end

section
/-! SERIALIZE (R180 to R185): the header it writes with a tree and in the EMPTY state, and what its success says of the
destination region. -/

namespace Sys2Proof.Machine

/-! ### The header written -/

/-- What SERIALIZE leaves once it has written the header `bs` (R183, R185). -/
structure HeaderWritten (s u : State) (bs : List Byte) : Prop where
  completed : Completed u
  succeeded : Succeeded u bs.length 0
  host      : KeepsHost s u
  tree      : KeepsTree s u
  codes     : KeepsCodes s u
  freq      : u.freq = s.freq
  srcAddr   : u.srcAddr = s.srcAddr
  dstAddr   : u.dstAddr.toNat = s.dstAddr.toNat + bs.length
  bytes     : Memory.bytesAt u.mem s.dstAddr.toNat bs.length = bs
  outside   : KeepsBytesOutside s.dstAddr.toNat (s.dstAddr.toNat + bs.length) s u

/-- With room for the header and an ADMIT that allows its bytes, SERIALIZE writes it (R182, R183). -/
theorem serialize_headerWritten {s : State} {bs : List Byte}
    (hv : s.status.treeValid = true ∨ s.status.empty = true) (hb : headerBytes s = some bs)
    (hlen : headerSize s = bs.length) (hfit : s.dstAddr.toNat + bs.length ≤ s.dstEnd.toNat)
    (hadm : s.admitsRange .write s.dstAddr.toNat (s.dstAddr.toNat + bs.length)) :
    ∃ u : State, exec .serialize s = .next u ∧ HeaderWritten s u bs := by
  have hE : s.dstEnd.toNat < 4294967296 := s.dstEnd.isLt
  have hmal : ¬ regionMalformed s.dstAddr s.dstEnd = true := by rw [regionMalformed_iff]; omega
  have htree : ¬ (!s.status.treeValid && !s.status.empty) = true := by rcases hv with h | h <;> simp [h]
  have hroom : ¬ regionBytes s.dstAddr s.dstEnd < bs.length := by unfold regionBytes; omega
  obtain ⟨q, hq, hp⟩ := putBytes_admitted bs s s.dstAddr (by omega) hadm
  simp only [exec_serialize, runSerialize, if_neg hmal, if_neg htree, hlen, if_neg hroom, hb, hp]
  exact ⟨_, rfl, finish_completed .., ⟨rfl, rfl, rfl, rfl⟩, by constructor <;> rfl, by constructor <;> rfl, ⟨rfl, rfl⟩, rfl,
    rfl, hq, Memory.bytesAt_load .., fun x hx => Memory.read_load_outside _ _ _ _ hx⟩

/-- The header's size in the leaves of the tree alone: a tree of L leaves has 2L - 1 nodes (R185). -/
theorem headerSize_leaves {s : State} {t : NodeTree} (hv : s.status.treeValid = true) (ht : TreeAt s t) :
    headerSize s = 4 + (2 * s.leafCount.val - 1) + (if s.ctrl.symw then 2 else 1) * s.leafCount.val := by
  have hnodes : s.nodeCount.val = 2 * s.leafCount.val - 1 := by
    rw [ht.count, ht.leaves, ← t.shape.nodes_eq, Nat.add_sub_cancel]
  simp only [headerSize, hv, if_true, hnodes, symWidth, Nat.add_assoc]

/-- Settles O35: the header of the registers' tree, whose size is that of its leaves. -/
theorem serializeWritesHeader : Obligations.SerializeWritesHeader := by
  unfold Obligations.SerializeWritesHeader
  intro s t hv ht _ hfit hadm
  have hlen := headerSize_tree hv ht
  rw [← headerSize_leaves hv ht, hlen] at hfit hadm ⊢
  obtain ⟨u, hu, hw⟩ := serialize_headerWritten (.inl hv) (headerBytes_tree hv ht) hlen hfit hadm
  exact ⟨u, _, hu, rfl, hw.completed, hw.succeeded, hw.host, hw.tree, hw.codes, hw.freq, hw.srcAddr, hw.dstAddr, hw.bytes,
    hw.outside⟩

/-- Settles O36: without a tree the header is the count alone, which is 0. -/
theorem serializeEmptyArtifact : Obligations.SerializeEmptyArtifact := by
  unfold Obligations.SerializeEmptyArtifact
  intro s he hv h0 hfit hadm
  have hb : headerBytes s = some [0#8, 0#8, 0#8, 0#8] := by simp [headerBytes, hv, h0, countField]
  obtain ⟨u, hu, hw⟩ := serialize_headerWritten (.inr he) hb (by simp [headerSize, hv]) hfit hadm
  exact ⟨u, hu, hw.completed, hw.succeeded, hw.dstAddr, hw.bytes, hw.outside⟩

/-! ### What a success says -/

/-- SERIALIZE succeeds only where the header fits and ADMIT allows its bytes (R182, R186). -/
theorem serialize_success {s u : State} {bs : List Byte} (hb : headerBytes s = some bs) (hlen : headerSize s = bs.length)
    (h : exec .serialize s = .next u) (herr : u.status.err = 0#8) :
    s.dstAddr.toNat + bs.length ≤ s.dstEnd.toNat ∧
      s.admitsRange .write s.dstAddr.toNat (s.dstAddr.toNat + bs.length) := by
  have hE : s.dstEnd.toNat < 4294967296 := s.dstEnd.isLt
  rcases complete_next h with ⟨t, ht, -⟩ | ⟨e, info, trash, t, -, rfl⟩
  · unfold runSerialize at ht
    split at ht; · cases ht
    split at ht; · cases ht
    split at ht; · cases ht
    rename_i hmal _ hroom
    rw [regionMalformed_iff] at hmal
    have hfit : s.dstAddr.toNat + bs.length ≤ s.dstEnd.toNat := by unfold regionBytes at hroom; omega
    refine ⟨hfit, ?_⟩
    rcases putBytes_cases bs s s.dstAddr (by omega) with ⟨_, _, -, -, -, hadm⟩ | ⟨a, t', hp, -⟩
    · exact hadm
    · simp [hb, hp] at ht
  · exact absurd herr e.code_pos

end Sys2Proof.Machine
end

section
/-! DESERIALIZE (R190 to R200): the tree it rebuilds, the state its errors leave, where it raises them, and that it reads
back what SERIALIZE wrote (R198). -/

namespace Sys2Proof.Machine

/-! ### The tree rebuilt -/

/-- The state that DESERIALIZE installs from the end of `parse()`: the tree, its counts and the pointer (R193). -/
def ParseState.install (st : ParseState) (root : NodeIdx) (count start : Word) : State :=
  State.setCounts
    (State.setTreeFlags
      { st.s with
        root := root
        node := fill 511 (some Node.zero) (st.s.node.toList.take st.k)
        nodeCount := Fin.ofNat 512 st.k
        leafCount := Fin.ofNat 257 st.leaves
        total := count
        srcAddr := st.p } true false false)
    (st.p - start) 0#40

/-- The working state in which `parse()` starts: no node yet, the pointer after the count (R190). -/
abbrev State.parseStart (s : State) : ParseState := { s := s, p := s.srcAddr + 4#32, k := 0, leaves := 0 }

/-- DESERIALIZE's body on the header of a tree installs what `parse()` makes of its encoding (R190, R193). -/
theorem deserializeBody_header (hadTree : Bool) {s : State} {sh : Shape} {count : Word} (hc : count ≠ 0#32)
    (hn : sh.nodes ≤ 511) (h : Ahead s s.srcAddr (countField count ++ sh.enc s.ctrl.symw)) :
    ∃ (r : NodeIdx × ParseState) (t : NodeTree), deserializeBody hadTree s = .ok (r.2.install r.1 count s.srcAddr) ∧
      NodesOnly s r.2.s ∧ r.2.p.toNat = s.srcAddr.toNat + (4 + (sh.enc s.ctrl.symw).length) ∧
      Parsed s.parseStart r.1 r.2 t ∧ t.shape = sh := by
  obtain ⟨hcount, hp4, htree⟩ := readCount_ahead h
  obtain ⟨r, hr, hk, -, hp, t, ht, hsh⟩ := parse_enc sh 512 s.parseStart htree (by simpa using hn) (Nat.le_refl _)
  refine ⟨r, t, ?_, hk, by rw [hp, hp4, Nat.add_assoc], ht, hsh⟩
  simp only [deserializeBody, hcount, Part.bind_ok, if_neg hc, hr]
  rfl

/-- Indices that run from 0 on are the first ones of all (R192). -/
theorem Parsed.indices_eq_take {st st' : ParseState} {idx : NodeIdx} {t : NodeTree} (h : Parsed st idx st' t)
    (hk : st.k = 0) (hn : t.shape.nodes ≤ 511) : t.indices = (List.finRange 511).take t.shape.nodes := by
  apply List.map_injective_iff.mpr Fin.val_injective
  rw [h.indices, hk, List.map_take, List.map_coe_finRange_eq_range, List.take_range, Nat.min_eq_left hn,
    List.range_eq_range']

/-- The root of a parsed tree has the first of its indices (R192). -/
theorem Parsed.idx_val {st st' : ParseState} {idx : NodeIdx} {t : NodeTree} (h : Parsed st idx st' t) :
    idx.val = st.k := by
  have hlist := h.indices
  rw [← h.idx]
  cases t with
  | leaf i sym => simpa [NodeTree.indices, NodeTree.shape, Shape.nodes] using hlist
  | node i l r =>
    simp only [NodeTree.indices, NodeTree.shape, Shape.nodes, List.map_cons, List.range'_succ] at hlist
    exact (List.cons.inj hlist).1

/-- Below the nodes that `parse()` allocated, the installed NODE memory is the one it filled (R193). -/
theorem ParseState.install_nodeAt {st : ParseState} {root : NodeIdx} {count start : Word} {i : NodeIdx}
    (h : i.val < st.k) : (st.install root count start).nodeAt i = nodeIn st.s.node i := by
  refine (fill_getElem _ _ _ _ i.isLt).trans ?_
  rw [List.getD_eq_getElem?_getD, List.getElem?_take_of_lt h]
  simp [nodeIn]

/-- Installed, the nodes of a parsed tree and the zero nodes after it have FREQ 0 (R193). -/
theorem Parsed.install_freq {st st' : ParseState} {idx root : NodeIdx} {t : NodeTree} {count start : Word}
    (h : Parsed st idx st' t) (ht : TreeAt (st'.install root count start) t) {i : NodeIdx} {n : Node}
    (hi : (st'.install root count start).nodeAt i = some n) : n.freq = 0#32 := by
  by_cases hmem : i ∈ t.indices
  · rw [ParseState.install_nodeAt (h.range hmem).2] at hi
    exact h.freq i hmem n hi
  · have hzero := ht.others i (by rw [ht.all] at hmem; omega)
    rw [← Option.some.inj (hzero.symm.trans hi)]
    rfl

/-- A pointer `n` bytes on from another differs from it by `n`. -/
theorem pointer_sub {p q : Word} {n : Nat} (h : q.toNat = p.toNat + n) : q - p = BitVec.ofNat 32 n := by
  bv_omega

/-- Settles O38: the header ahead is parsed into the tree, which the body installs. -/
theorem deserializeRebuildsTree : Obligations.DeserializeRebuildsTree := by
  unfold Obligations.DeserializeRebuildsTree
  intro s sh count hc hn hfit hbytes hrd hu
  have hahead : Ahead s.withoutTree s.srcAddr (countField count ++ sh.enc s.ctrl.symw) := by
    have h := srcPrefix_ahead (s := s.withoutTree) hfit hrd hu
    rwa [show s.withoutTree.srcPrefix _ = countField count ++ sh.enc s.ctrl.symw from hbytes] at h
  obtain ⟨r, t, hb, hk, hp, ht, rfl⟩ := deserializeBody_header s.status.treeValid hc hn hahead
  have hmal : ¬ regionMalformed s.srcAddr s.srcEnd = true := by rw [regionMalformed_iff]; omega
  have hrun : exec .deserialize s = .next ((r.2.install r.1 count s.srcAddr).finish 0#8 0#32) := by
    rw [exec_deserialize, runDeserialize, if_neg hmal, hb]
    rfl
  have htree : TreeAt (r.2.install r.1 count s.srcAddr) t :=
    ht.treeAt rfl rfl (by rw [ht.k]; simpa using hn) rfl rfl rfl rfl
  have hframe := complete_registers (runDeserialize_registers s) hrun
  exact ⟨_, t, hrun, finish_completed .., ⟨rfl, rfl, pointer_sub hp, rfl⟩, hframe.host, htree.congr rfl rfl rfl rfl, rfl,
    ht.indices_eq_take rfl hn, Fin.ext ht.idx_val, htree.count, rfl, fun _ _ hi => ht.install_freq htree hi, rfl, rfl, rfl,
    hp, hframe.dstAddr, hframe.mem, hframe.freq (by decide), hframe.code (by decide)⟩

/-! ### The state after an error -/

/-- A read only advances the draw counter. -/
theorem readByte_draws {s : State} {p : Word} {k : Nat} (h : k ≤ s.draws) :
    (readByte s p).Spec (fun r => k ≤ r.2.draws) (fun _ _ t => k ≤ t.draws) (fun _ => True) := by
  unfold readByte
  split
  · exact h
  · cases hr : memRead s p with
    | ok r => rcases (memRead_ok hr).2 with ⟨-, rfl⟩ | ⟨-, rfl⟩ <;> [exact Nat.le_succ_of_le h; exact h]
    | raise e i t => obtain ⟨-, -, -, rfl⟩ := memRead_raise hr; exact h
    | stuck f => trivial

theorem ParseState.next_draws {st : ParseState} {k : Nat} (h : k ≤ st.s.draws) :
    st.next.Spec (fun r => k ≤ r.2.s.draws) (fun _ _ t => k ≤ t.draws) (fun _ => True) :=
  (readByte_draws h).bind (fun _ hr => hr)

theorem parseSym_draws {st : ParseState} {k : Nat} (h : k ≤ st.s.draws) :
    (parseSym st).Spec (fun r => k ≤ r.2.s.draws) (fun _ _ t => k ≤ t.draws) (fun _ => True) := by
  unfold parseSym
  split
  · refine (ParseState.next_draws h).bind fun hi hhi => (ParseState.next_draws hhi).bind fun lo hlo => ?_
    split <;> exact hlo
  · exact ParseState.next_draws h

theorem parse_draws (calls : Nat) : ∀ {st : ParseState} {k : Nat}, k ≤ st.s.draws →
    (parse calls st).Spec (fun r => k ≤ r.2.s.draws) (fun _ _ t => k ≤ t.draws) (fun _ => True) := by
  induction calls with
  | zero => intros; trivial
  | succ calls ih =>
    intro st k h
    unfold parse
    split
    · refine (ParseState.next_draws (st := { st with k := st.k + 1 }) h).bind fun tag htag => ?_
      split
      · exact (parseSym_draws htag).bind fun _ hsym => hsym
      · split
        · exact (ih htag).bind fun l hl => (ih hl).bind fun _ hr => hr
        · exact htag
    · exact h

theorem readCount_draws {s : State} {p : Word} {k : Nat} (h : k ≤ s.draws) :
    (readCount s p).Spec (fun c => k ≤ c.2.1.draws) (fun _ _ t => k ≤ t.draws) (fun _ => True) :=
  (readByte_draws h).bind fun _ h3 => (readByte_draws h3).bind fun _ h2 => (readByte_draws h2).bind fun _ h1 =>
    (readByte_draws h1).bind fun _ h0 => h0

/-- No error of DESERIALIZE's body sets the draw counter back, so what is free after it is fresh. -/
theorem deserializeBody_draws (hadTree : Bool) {s : State} {k : Nat} (h : k ≤ s.draws) :
    (deserializeBody hadTree s).Spec (fun _ => True) (fun _ _ t => k ≤ t.draws) (fun _ => True) := by
  unfold deserializeBody
  refine (readCount_draws h).bind fun c hc => ?_
  simp only
  split
  · trivial
  · exact (parse_draws 512 (st := { s := c.2.1, p := c.2.2, k := 0, leaves := 0 }) hc).bind fun _ _ => trivial

/-- On a well-formed source region an error is one of the body, which writes NODE at most (R199). -/
theorem runDeserialize_bodyError {s t : State} {e : Err} {info : Word} {trash : Bool}
    (hsrc : s.srcAddr.toNat ≤ s.srcEnd.toNat) (h : runDeserialize s = .raised e info trash t) :
    trash = false ∧ ∃ t0, t = t0.trashNodes ∧ NodesOnly s.withoutTree t0 ∧ s.draws ≤ t0.draws := by
  have hspec := deserializeBody_spec s.status.treeValid (s := s.withoutTree) hsrc
  have hdraws := deserializeBody_draws s.status.treeValid (s := s.withoutTree) (Nat.le_refl _)
  rw [runDeserialize, if_neg (by rw [regionMalformed_iff]; omega)] at h
  split at h
  · cases h
  · rename_i hb
    injection h with _ _ htrash ht
    exact ⟨htrash.symm, _, ht.symm, hspec.raise hb, hdraws.raise hb⟩
  · cases h

/-- Settles O40: RANGE is raised before anything is written, and any other error is one of the body. -/
theorem deserializeErrorState : Obligations.DeserializeErrorState := by
  unfold Obligations.DeserializeErrorState
  intro s
  refine ⟨fun h => ?range, fun u hsrc h herr => ?later⟩
  case range =>
    rw [exec_deserialize, runDeserialize_range h]
    exact ⟨_, rfl, raiseError_aborted .., by constructor <;> rfl, ⟨rfl, rfl⟩⟩
  case later =>
    rcases complete_next h with ⟨t, -, rfl⟩ | ⟨e, info, trash, t, ht, rfl⟩
    · exact absurd rfl herr
    · obtain ⟨rfl, t0, rfl, hk, hd⟩ := runDeserialize_bodyError hsrc ht
      have hnode : ∀ i : NodeIdx, ∃ k : Nat, s.draws ≤ k ∧ t0.trashNodes.nodeAt i = some (freeNode k) :=
        fun i => ⟨_, Nat.le_add_right_of_le hd, t0.trashNodes_nodeAt i⟩
      rw [hk] at hnode ⊢
      exact ⟨rfl, rfl, rfl, rfl, rfl, rfl, rfl, rfl, hnode, rfl, rfl⟩

/-! ### Where the errors are raised -/

/-- An error of DESERIALIZE's body leaves shared memory and the pointers alone (R121, R199). -/
theorem deserialize_abortedRead {s t : State} {e : Err} {info : Word} (h : s.srcAddr.toNat ≤ s.srcEnd.toNat)
    (hb : deserializeBody s.status.treeValid s.withoutTree = .raise e info t) (ht : NodesOnly s.withoutTree t) :
    ∃ u : State, exec .deserialize s = .next u ∧ AbortedRead s u e info := by
  have hmem : t.mem = s.mem := by rw [ht]; rfl
  rw [exec_deserialize, runDeserialize_raised h hb]
  exact ⟨_, rfl, raiseError_completed .., raiseError_aborted .., hmem⟩

/-- The source bytes end at SRC_END (R200). -/
theorem endsWith_srcEnd {s : State} {n : Nat} (h : n = s.srcEnd.toNat) : EndsWith s n .srcExhausted s.srcEnd := by
  intro t q ht hq
  have hend : t.srcEnd = s.srcEnd := by rw [ht]
  rw [readByte, if_pos (by rw [hend]; exact BitVec.eq_of_toNat_eq (by omega)), hend]

/-- Where the first `n` source bytes are known and hold no whole header, DESERIALIZE ends with the error they give, or, if
they are a header's beginning, with the one at the byte after them (R190, R200). -/
theorem deserialize_headerError {s : State} {n : Nat} {e : Err} {info : Word} (hn : s.srcAddr.toNat + n ≤ s.srcEnd.toNat)
    (hrd : s.admitsRange .read s.srcAddr.toNat (s.srcAddr.toNat + n)) (hu : s.srcUnraced)
    (hwhole : scanHeader s.ctrl.symw (s.srcPrefix n) ≠ .whole)
    (hend : scanHeader s.ctrl.symw (s.srcPrefix n) = .more → EndsWith s.withoutTree (s.srcAddr.toNat + n) e info) :
    ∃ (e' : Err) (i : Word) (u : State), exec .deserialize s = .next u ∧ AbortedRead s u e' i ∧
      ((∃ o, scanHeader s.ctrl.symw (s.srcPrefix n) = .bad e' o ∧ i.toNat = s.srcAddr.toNat + o) ∨
        (scanHeader s.ctrl.symw (s.srcPrefix n) = .more ∧ e' = e ∧ i = info)) := by
  have hl : (s.withoutTree.srcPrefix n).length = n := Memory.bytesAt_length ..
  have hspec := deserializeBody_scan s.status.treeValid (srcPrefix_ahead (s := s.withoutTree) hn hrd hu)
    (fun hm => by rw [hl]; exact hend hm)
  cases hb : deserializeBody s.status.treeValid s.withoutTree with
  | ok t => exact absurd (hspec.ok hb) hwhole
  | stuck f => exact (hspec.stuck hb).elim
  | raise e' i t =>
    obtain ⟨ht, herr⟩ := hspec.raise hb
    obtain ⟨u, hnext, habort⟩ := deserialize_abortedRead (by omega) hb ht
    exact ⟨e', i, u, hnext, habort, herr⟩

/-- A header that is bad at an offset ends DESERIALIZE with that error there (R192, R194, R195). -/
theorem deserialize_badHeader {s : State} {n off : Nat} {e : Err} (hn : s.srcAddr.toNat + n ≤ s.srcEnd.toNat)
    (hrd : s.admitsRange .read s.srcAddr.toNat (s.srcAddr.toNat + n)) (hu : s.srcUnraced)
    (hbad : scanHeader s.ctrl.symw (s.srcPrefix n) = .bad e off) :
    ∃ u : State, exec .deserialize s = .next u ∧ AbortedRead s u e (s.srcAddr + BitVec.ofNat 32 off) := by
  obtain ⟨e', i, u, hnext, habort, ⟨o, ho, hi⟩ | ⟨hm, -⟩⟩ := deserialize_headerError (e := e) (info := 0#32) hn hrd hu
    (by simp [hbad]) (by simp [hbad])
  · obtain ⟨rfl, rfl⟩ : e = e' ∧ off = o := by simpa [hbad] using ho
    obtain rfl : i = s.srcAddr + BitVec.ofNat 32 off := by bv_omega
    exact ⟨u, hnext, habort⟩
  · simp [hbad] at hm

/-- A header that needs a byte past the source region ends DESERIALIZE with SRC_EXHAUSTED (R200). -/
theorem deserialize_shortHeader {s : State} {n : Nat} (hn : s.srcAddr.toNat + n = s.srcEnd.toNat)
    (hrd : s.admitsRange .read s.srcAddr.toNat s.srcEnd.toNat) (hu : s.srcUnraced)
    (hmore : scanHeader s.ctrl.symw (s.srcPrefix n) = .more) :
    ∃ u : State, exec .deserialize s = .next u ∧ AbortedRead s u .srcExhausted s.srcEnd := by
  obtain ⟨e, i, u, hnext, habort, ⟨o, ho, -⟩ | ⟨-, rfl, rfl⟩⟩ := deserialize_headerError hn.le (hn.symm ▸ hrd) hu
    (by simp [hmore]) (fun _ => endsWith_srcEnd (s := s.withoutTree) hn)
  · simp [hmore] at ho
  · exact ⟨u, hnext, habort⟩

/-- `readByte()` at SRC_END, in `parse()` (R200). -/
theorem ParseState.next_exhausted {st : ParseState} (h : st.p = st.s.srcEnd) :
    st.next = .raise .srcExhausted st.s.srcEnd st.s := by
  rw [ParseState.next, readByte, if_pos h, Part.bind_raise]

/-- `readByte()` of an admitted byte that was not raced for, in `parse()` (R190). -/
theorem ParseState.next_read {st : ParseState} (h : st.p ≠ st.s.srcEnd) (hadm : st.s.admits st.p .read = true)
    (hr : st.p.toNat ∉ st.s.raced) :
    st.next = .ok (Memory.read st.s.mem st.p.toNat, { st with p := st.p + 1#32 }) := by
  rw [ParseState.next, readByte, if_neg h, memRead_admitted hadm hr, Part.bind_ok]

/-- `parse()` with 511 nodes allocated (R192). -/
theorem parse_treeOvf {st : ParseState} (calls : Nat) (h : st.k = 511) :
    parse (calls + 1) st = .raise .treeOvf st.p st.s := by
  rw [parse, dif_neg (by omega)]

/-- `parse()` at SRC_END (R200). -/
theorem parse_exhausted {st : ParseState} (calls : Nat) (hk : st.k < 511) (h : st.p = st.s.srcEnd) :
    parse (calls + 1) st = .raise .srcExhausted st.s.srcEnd st.s := by
  have hnext := ParseState.next_exhausted (st := { st with k := st.k + 1 }) h
  rw [parse, dif_pos hk]
  simp only [hnext, Part.bind_raise]

/-- `parse()` at a tag that is neither 0x00 nor 0x01 (R194). -/
theorem parse_badTag {st : ParseState} (calls : Nat) (hk : st.k < 511) (h : st.p ≠ st.s.srcEnd)
    (hadm : st.s.admits st.p .read = true) (hr : st.p.toNat ∉ st.s.raced)
    (h0 : Memory.read st.s.mem st.p.toNat ≠ 0x00#8) (h1 : Memory.read st.s.mem st.p.toNat ≠ 0x01#8) :
    parse (calls + 1) st = .raise .badTag st.p st.s := by
  have hnext := ParseState.next_read (st := { st with k := st.k + 1 }) h hadm hr
  rw [parse, dif_pos hk]
  simp only [hnext, Part.bind_ok, if_neg h1, if_neg h0]

/-- A symbol field whose high byte is not 0 (R195). -/
theorem parseSym_badSym {st : ParseState} {hi lo : Byte} (hw : st.s.ctrl.symw = true) (h : Ahead st.s st.p [hi, lo])
    (hne : hi ≠ 0x00#8) : parseSym st = .raise .badSym st.p st.s := by
  have hlo := next_ahead (st := { st with p := st.p + 1#32 }) h.tail.2.2
  rw [parseSym, if_pos hw, next_ahead h, Part.bind_ok, hlo, Part.bind_ok, if_neg hne]

/-- Settles O41: the body ends as the known bytes scan, and each error of `parse()` by the read before it. -/
theorem parseErrors : Obligations.ParseErrors := by
  unfold Obligations.ParseErrors
  refine ⟨fun s n off e hn hrd hu hbad => deserialize_badHeader hn hrd hu hbad,
    fun s n hn hrd hu hmore => deserialize_shortHeader hn hrd hu hmore, fun calls st =>
      ⟨parse_treeOvf calls, parse_exhausted calls, parse_badTag calls, ?badSym⟩⟩
  case badSym =>
    intro hi lo hw hfit hrd hr0 hr1 hbytes hne
    refine parseSym_badSym hw ⟨hfit, hbytes, hrd, fun j hj => ?_⟩ hne
    match j, hj with
    | 0, _ => exact hr0
    | 1, _ => exact hr1

/-! ### Reading back what SERIALIZE wrote -/

/-- Settles O42: SERIALIZE's success wrote the header of the tree, from which DESERIALIZE rebuilds it. -/
theorem serializeDeserializeRoundTrip : Obligations.SerializeDeserializeRoundTrip := by
  unfold Obligations.SerializeDeserializeRoundTrip
  intro s u v t hv ht h0 hser herr hsymw hsrc hfit hsame hrd hu
  have hb := headerBytes_tree hv ht
  have hlen := headerSize_tree hv ht
  obtain ⟨hroom, hadm⟩ := serialize_success hb hlen hser herr
  obtain ⟨u', hser', hw⟩ := serialize_headerWritten (.inl hv) hb hlen hroom hadm
  obtain rfl : u = u' := by simpa [hser] using hser'
  have hnodes : t.shape.nodes ≤ 511 := t.indices_length ▸ ht.indices_le
  have hend := hw.dstAddr
  have hsize : (countField s.total ++ t.shape.enc s.ctrl.symw).length = 4 + (t.shape.enc v.ctrl.symw).length := by
    rw [List.length_append, hsymw]
    rfl
  have hbytes : Memory.bytesAt v.mem v.srcAddr.toNat (4 + (t.shape.enc v.ctrl.symw).length) =
      countField s.total ++ t.shape.enc v.ctrl.symw :=
    calc
      _ = Memory.bytesAt u.mem s.dstAddr.toNat (countField s.total ++ t.shape.enc s.ctrl.symw).length := by
        rw [← hsize, hsrc]
        exact Memory.bytesAt_congr fun k hk => hsame _ (by omega) (by omega)
      _ = _ := by rw [hw.bytes, hsymw]
  rw [hsize, ← hsrc] at hend
  obtain ⟨w, t', hw', -, hsucc, -, htree, hshape, -, -, -, htotal, -, hvalid, -, -, hsrc', -⟩ :=
    deserializeRebuildsTree v t.shape s.total h0 hnodes (hend ▸ hfit) hbytes (by rw [← hend, hsrc]; exact hrd) hu
  exact ⟨w, t', hw', hsucc.err, hvalid, htree, hshape, htotal, BitVec.eq_of_toNat_eq (hsrc'.trans hend.symm),
    by rw [hsucc.outcnt, hw.succeeded.outcnt, hsize]⟩

end Sys2Proof.Machine
end

section
/-! PACK (R210 to R220): how its body ends on an input whose bytes all have codes, and at the first byte without one; from
that the payload it writes, and its NOCODE and DST_FULL errors. -/

namespace Sys2Proof.Machine

/-! ### The body -/

/-- PACK before its first byte. -/
abbrev State.packStart (s : State) : PackState := { s := s, q := s.dstAddr, acc := 0x00#8, n := 0, bits := 0 }

theorem State.coded.entry {s : State} {m j : Nat} (h : s.coded (s.srcPrefix m)) (hj : j < m) :
    ∃ c, s.codeAt (Memory.read s.mem (s.srcAddr.toNat + j)) = some c ∧ c.present = true :=
  h _ (List.mem_map_of_mem (List.mem_range.mpr hj))

theorem State.coded.present {s : State} {m j : Nat} {c : Code} (h : s.coded (s.srcPrefix m)) (hj : j < m)
    (hc : s.codeAt (Memory.read s.mem (s.srcAddr.toNat + j)) = some c) : c.present = true := by
  obtain ⟨d, hd, hp⟩ := h.entry hj
  obtain rfl : d = c := by simpa [hd] using hc
  exact hp

/-- More source bytes give no fewer payload bits. -/
theorem State.payload_length_le (s : State) {j m : Nat} (h : j ≤ m) :
    (s.payloadOf (s.srcPrefix j)).length ≤ (s.payloadOf (s.srcPrefix m)).length := by
  obtain ⟨d, rfl⟩ := Nat.exists_eq_add_of_le h
  simp only [State.srcPrefix, Memory.bytesAt_append, State.payloadOf_append, List.length_append, Nat.le_add_right]

/-- How PACK's loop over the first `m` source bytes ends, each with a CODE entry: with all of them packed, at the first byte
without a code, or at the wall (R210, R215). -/
theorem PackReady.packBytes_cases {s : State} {lim m : Nat} {e : Err} {info : Word} (h : PackReady s)
    (hw : Wall s s.dstAddr lim e info) (hl : s.dstAddr.toNat ≤ lim) (hm : m ≤ s.total.toNat)
    (hentry : ∀ j, j < m → ∃ c, s.codeAt (Memory.read s.mem (s.srcAddr.toNat + j)) = some c)
    (hrd : s.admitsRange .read s.srcAddr.toNat (s.srcAddr.toNat + m)) :
    (s.coded (s.srcPrefix m) ∧ s.dstAddr.toNat + (s.payloadOf (s.srcPrefix m)).length / 8 ≤ lim ∧
      ∃ st, packBytes m s.srcAddr s.packStart = .ok st ∧ PackRel s s.dstAddr (s.payloadOf (s.srcPrefix m)) st) ∨
    (∃ (j : Nat) (c : Code) (x : Word), j < m ∧ x.toNat = s.srcAddr.toNat + j ∧ s.coded (s.srcPrefix j) ∧
      s.codeAt (Memory.read s.mem (s.srcAddr.toNat + j)) = some c ∧ c.present = false ∧
      ∃ t, packBytes m s.srcAddr s.packStart = .raise .nocode x t ∧
        OnlyStores s.dstAddr.toNat s.dstEnd.toNat s t ∧ t.draws = s.draws) ∨
    (∃ j : Nat, j ≤ m ∧ s.coded (s.srcPrefix j) ∧
      lim < s.dstAddr.toNat + (s.payloadOf (s.srcPrefix j)).length / 8 ∧
      ∃ t, packBytes m s.srcAddr s.packStart = .raise e info t ∧
        OnlyStores s.dstAddr.toNat s.dstEnd.toNat s t ∧ t.draws = s.draws) := by
  have hE : s.srcEnd.toNat < 4294967296 := s.srcEnd.isLt
  have hlen := h.length
  unfold regionBytes at hlen
  have hcases := PackRel.packBytes hw m (a := s.srcAddr) (PackRel.start s) hl (by omega)
    (fun j hj => h.apart_at hw.inside (by omega)) hrd
    (fun j hj => h.unraced _ ((inRegion_iff _ _ _).mpr (by omega)))
    (fun j hj => Option.isSome_iff_exists.mpr (hentry j hj))
  simp only [List.length_nil, Nat.zero_add, List.nil_append] at hcases
  rcases hcases with hpacked | ⟨j, c, x, hj, hx, hcj, hc, hp, -, hraise⟩ | hwall
  · exact .inl hpacked
  · exact .inr (.inl ⟨j, c, x, hj, hx, hcj, hc, hp, hraise⟩)
  · exact .inr (.inr hwall)

/-- On an input whose bytes all have codes PACK's body stores the whole payload, or ends at the wall (R210, R211, R218). -/
theorem packBody_coded {s : State} {lim : Nat} {e : Err} {info : Word} (h : PackReady s)
    (hw : Wall s s.dstAddr lim e info) (hl : s.dstAddr.toNat ≤ lim) (hc : s.coded s.srcBytes)
    (hrd : s.admitsRange .read s.srcAddr.toNat s.srcEnd.toNat) :
    (s.dstAddr.toNat + bytesFor (s.payloadOf s.srcBytes).length ≤ lim ∧
      ∃ st, packBody s = .ok st ∧ st.bits = (s.payloadOf s.srcBytes).length ∧
        st.q.toNat = s.dstAddr.toNat + bytesFor (s.payloadOf s.srcBytes).length ∧
        st.s = { s with mem := Memory.load s.mem s.dstAddr.toNat (packBits (s.payloadOf s.srcBytes)) }) ∨
    (lim < s.dstAddr.toNat + bytesFor (s.payloadOf s.srcBytes).length ∧
      ∃ t, packBody s = .raise e info t ∧ OnlyStores s.dstAddr.toNat s.dstEnd.toNat s t ∧ t.draws = s.draws) := by
  have hend : s.srcAddr.toNat + regionBytes s.srcAddr s.srcEnd = s.srcEnd.toNat := Nat.add_sub_cancel' h.src
  rw [State.srcBytes, ← State.srcPrefix] at hc ⊢
  unfold packBody
  rcases h.packBytes_cases hw hl h.length.le (fun j hj => (hc.entry hj).imp fun _ => And.left) (hend.symm ▸ hrd) with
    ⟨-, hroom, st, hrun, hrel⟩ | ⟨j, c, x, hj, -, -, hcode, hp, -⟩ | ⟨j, hj, -, hwall, t, hrun, hst⟩
  · rw [hrun, Part.bind_ok]
    rcases hrel.flush hw hroom with hfits | ⟨hwall, hflush⟩
    · exact .inl hfits
    · refine .inr ⟨hwall, st.s, hflush, ⟨by rw [hrel.s], fun x hx => ?_⟩, by rw [hrel.s]⟩
      have hin := hw.inside
      rw [hrel.s]
      exact Memory.lookup_load_outside _ _ _ _ (by rw [wholeBytes_length]; omega)
  · simp [hc.present hj hcode] at hp
  · have hle := s.payload_length_le hj
    exact .inr ⟨by unfold bytesFor; omega, t, by rw [hrun, Part.bind_raise], hst⟩

/-- PACK's body raises NOCODE at input byte `k`, the first without a code, when the whole payload bytes before it fit
(R215). -/
theorem packBody_nocode {s : State} {k : Nat} {a : Word} {c : Code} (h : PackReady s) (hk : k < s.total.toNat)
    (hcoded : s.coded (s.srcPrefix k)) (ha : a.toNat = s.srcAddr.toNat + k)
    (hc : s.codeAt (Memory.read s.mem a.toNat) = some c) (hp : c.present = false)
    (hfit : s.dstAddr.toNat + (s.payloadOf (s.srcPrefix k)).length / 8 ≤ s.dstEnd.toNat)
    (hrd : s.admitsRange .read s.srcAddr.toNat s.srcEnd.toNat)
    (hwr : s.admitsRange .write s.dstAddr.toNat s.dstEnd.toNat) :
    ∃ t, packBody s = .raise .nocode a t ∧ OnlyStores s.dstAddr.toNat s.dstEnd.toNat s t ∧ t.draws = s.draws := by
  have hlen := h.length
  have hend : s.srcAddr.toNat + regionBytes s.srcAddr s.srcEnd = s.srcEnd.toNat := Nat.add_sub_cancel' h.src
  rw [ha] at hc
  have hfirst : ∀ j, s.coded (s.srcPrefix j) → j ≤ k := fun j hj => by
    by_contra hlt
    simp [hj.present (by omega) hc] at hp
  have hentry : ∀ j, j < k + 1 → ∃ d, s.codeAt (Memory.read s.mem (s.srcAddr.toNat + j)) = some d := fun j hj => by
    rcases Nat.lt_succ_iff_lt_or_eq.mp hj with hj | rfl
    · exact (hcoded.entry hj).imp fun _ => And.left
    · exact ⟨c, hc⟩
  rcases h.packBytes_cases (Wall.dstFull hwr) h.dst hk hentry (fun x hlo hhi => hrd x hlo (by omega)) with
    ⟨hall, -⟩ | ⟨j, d, x, hj, hx, -, hd, hdp, t, hrun, hst⟩ | ⟨j, -, hcj, hwall, -⟩
  · exact absurd (hfirst _ hall) (by omega)
  · have hkj : k ≤ j := by
      by_contra hlt
      simp [hcoded.present (by omega) hd] at hdp
    obtain rfl : x = a := BitVec.eq_of_toNat_eq (by omega)
    refine ⟨t, ?_, hst⟩
    rw [packBody, hlen, show s.total.toNat = (k + 1) + (s.total.toNat - (k + 1)) by omega, packBytes_add, hrun,
      Part.bind_raise, Part.bind_raise]
  · have hle := s.payload_length_le (hfirst j hcj)
    omega

/-! ### The command -/

/-- Past its precondition checks PACK's rule completes with what its body leaves: SRC_ADDR at SRC_END, DST_ADDR at the
output pointer, and the counts (R210, R219). -/
theorem runPack_done {s : State} {st : PackState} (h : PackReady s) (hp : packBody s = .ok st) :
    runPack s = .done (State.setCounts { st.s with srcAddr := s.srcEnd, dstAddr := st.q } (st.q - s.dstAddr)
      (BitVec.ofNat 40 st.bits)) := by
  have hsrc : ¬ regionMalformed s.srcAddr s.srcEnd = true := by rw [regionMalformed_iff]; have := h.src; omega
  have hdst : ¬ regionMalformed s.dstAddr s.dstEnd = true := by rw [regionMalformed_iff]; have := h.dst; omega
  have hcodes : ¬ (s.total ≠ 0#32 ∧ s.status.codesValid = false) := fun ⟨h0, hc⟩ => by simp [h.codes h0] at hc
  simp only [runPack, if_neg hsrc, if_neg hdst, h.apart, Bool.false_eq_true, if_false, h.length, ne_eq, not_true_eq_false,
    if_neg hcodes, hp]

/-- Settles O43: the body meets no wall within the payload, so it stores all of it and the rule completes. -/
theorem packWritesPayload : Obligations.PackWritesPayload := by
  unfold Obligations.PackWritesPayload
  intro s hsrc hdst hov hlen hcodes hcoded hfit hrd hwr hunraced
  have hready : PackReady s := ⟨hsrc, hdst, hov, hlen, hcodes, hunraced⟩
  obtain ⟨lim, e, info, hle, hw⟩ := Wall.exists (Nat.le_add_right ..) hfit hwr
  rcases packBody_coded hready hw (by omega) hcoded hrd with ⟨-, st, hp, hbits, hq, hs⟩ | ⟨hwall, -⟩
  · have hbytes : (packBits (s.payloadOf s.srcBytes)).length = bytesFor (s.payloadOf s.srcBytes).length := by
      simp [packBits]
    rw [exec_pack, runPack_done hready hp, hs, hbits, pointer_sub hq, ← hbytes]
    exact ⟨_, rfl, finish_completed .., ⟨rfl, rfl, rfl, rfl⟩, by constructor <;> rfl, by constructor <;> rfl, ⟨rfl, rfl⟩,
      rfl, rfl, hbytes ▸ hq, Memory.bytesAt_load .., fun x hx => Memory.read_load_outside _ _ _ _ hx⟩
  · omega

/-- Settles O45: the body raises NOCODE after stores to the destination region only. -/
theorem packRejectsByteWithoutCode : Obligations.PackRejectsByteWithoutCode := by
  unfold Obligations.PackRejectsByteWithoutCode
  intro s k a c hsrc hdst hov hlen hcodes hk hcoded ha hc hp hfit hrd hwr hunraced
  have hready : PackReady s := ⟨hsrc, hdst, hov, hlen, fun _ => hcodes, hunraced⟩
  obtain ⟨u, hu, hab⟩ := pack_abortedInBody hready (packBody_nocode hready hk hcoded ha hc hp hfit hrd hwr)
  exact ⟨u, hu, hab.completed, hab.aborted, hab.tree, hab.codes, hab.outside⟩

/-- Settles O46: the wall at DST_END stands within the payload, so the body ends there. -/
theorem packDestinationTooSmall : Obligations.PackDestinationTooSmall := by
  unfold Obligations.PackDestinationTooSmall
  intro s hsrc hdst hov hlen hcodes hcoded hfull hrd hwr hunraced
  have hready : PackReady s := ⟨hsrc, hdst, hov, hlen, fun _ => hcodes, hunraced⟩
  rcases packBody_coded hready (Wall.dstFull hwr) hdst hcoded hrd with ⟨hfits, -⟩ | ⟨-, hraise⟩
  · omega
  · obtain ⟨u, hu, hab⟩ := pack_abortedInBody hready hraise
    exact ⟨u, hu, hab.completed, hab.aborted, hab.outside, hab.inside⟩

end Sys2Proof.Machine
end

section
/-! UNPACK (R230 to R244): what its symbols leave for the strict checks and how its rule completes; from that what it
decodes from a run of codes and with a single leaf, and its errors SRC_EXHAUSTED, PAD and TRAIL. -/

namespace Sys2Proof.Machine

/-! ### The strict checks -/

theorem UnpackState.paddingZero_iff (st : UnpackState) :
    st.paddingZero = true ↔ ∀ j, j < st.rem → st.cur.getLsbD j = false := by
  simp [UnpackState.paddingZero]

section
variable {st : UnpackState}

theorem strictChecks_lax (h : st.s.ctrl.strict = false) : strictChecks st = .ok st := by
  simp [strictChecks, h]

theorem strictChecks_pad (h : st.s.ctrl.strict = true) (hpad : ∃ j, j < st.rem ∧ st.cur.getLsbD j = true) :
    strictChecks st = .raise .pad (st.p - 1#32) st.s := by
  obtain ⟨j, hj, hone⟩ := hpad
  have hrem : 0 < st.rem := by omega
  have hzero : st.paddingZero = false := by
    rw [← Bool.not_eq_true, UnpackState.paddingZero_iff]
    intro hall
    simp [hall j hj] at hone
  simp [strictChecks, h, hrem, hzero]

theorem strictChecks_trail (h : st.s.ctrl.strict = true) (hzero : ∀ j, j < st.rem → st.cur.getLsbD j = false)
    (hp : st.p ≠ st.s.srcEnd) : strictChecks st = .raise .trail st.p st.s := by
  simp [strictChecks, h, st.paddingZero_iff.mpr hzero, hp]

theorem strictChecks_ok (hzero : st.s.ctrl.strict = true → ∀ j, j < st.rem → st.cur.getLsbD j = false)
    (hp : st.s.ctrl.strict = true → st.p = st.s.srcEnd) : strictChecks st = .ok st := by
  cases h : st.s.ctrl.strict with
  | false => exact strictChecks_lax h
  | true => simp [strictChecks, h, st.paddingZero_iff.mpr (hzero h), hp h]

end

/-! ### The symbols written -/

/-- UNPACK has written the symbols `out` for the first `n` payload bits, and nothing else: `st` is how the strict checks
find it (R230, R236). -/
structure SymbolsWritten (s : State) (out : List Byte) (n : Nat) (st : UnpackState) : Prop where
  symbols : unpackSymbols s (unpackStart s) = .ok st
  state   : st.s = { s with mem := Memory.load s.mem s.dstAddr.toNat out }
  q       : st.q.toNat = s.dstAddr.toNat + out.length
  cnt     : st.cnt = out.length
  bits    : st.bits = n
  p       : st.p.toNat = s.srcAddr.toNat + bytesFor n
  rem     : st.rem + n = 8 * bytesFor n
  unread  : ∀ i, i < st.rem → st.cur.getLsbD i = Memory.bitAt s.mem s.srcAddr.toNat (8 * bytesFor n - 1 - i)

/-- A run of codes within the payload is decoded as a whole (R230). -/
theorem UnpackSetup.symbolsWritten {s : State} {root : NodeTree} {picks : List (Byte × List Bool)} {e : Err} {info : Word}
    (h : UnpackSetup s root picks (runBits picks).length s.total.toNat e info) :
    ∃ st, SymbolsWritten s (picks.map Prod.fst) (runBits picks).length st := by
  have hlen : (picks.map Prod.fst).length = s.total.toNat := by rw [List.length_map, h.count]
  rcases unpackSymbols_run (rn := 0) (e' := e) (info' := info) h (.inl (Nat.le_refl _)) with
    ⟨-, -, st, hsym, hrem8, hrel⟩ | ⟨hlt, -⟩ | ⟨-, hlt, -⟩
  · obtain ⟨hcnt, hq, hs⟩ := hrel.final h
    have hrem := hrel.rem
    refine ⟨st, hsym, hs, hq.trans (by rw [hlen]), hcnt.trans hlen.symm, hrel.bits, hrel.p, hrem, fun i hi => ?_⟩
    rw [hrel.cur (by omega), Memory.bitAt]
    congr 2 <;> omega
  · exact absurd hlt (Nat.lt_irrefl _)
  · exact absurd hlt (Nat.lt_irrefl _)

/-- The symbol of a single leaf is written TOTAL times, without a payload bit (R235). -/
theorem symbolsWritten_leaf {s : State} {i : NodeIdx} {sym : Byte} (h : TreeAt s (.leaf i sym)) (hroom : HoldsTotal s)
    (hwr : s.admitsRange .write s.dstAddr.toNat (s.dstAddr.toNat + s.total.toNat)) :
    ∃ st, SymbolsWritten s (List.replicate s.total.toNat sym) 0 st := by
  have hE : s.dstEnd.toNat < 4294967296 := s.dstEnd.isLt
  unfold HoldsTotal at hroom
  obtain ⟨q, hq, hrun⟩ := putRun_admitted s sym s.total.toNat (st := unpackStart s) (out := []) rfl rfl rfl
    (by simp only [List.length_nil]; omega) (by simpa using hwr)
  rw [List.length_nil, Nat.zero_add] at hq hrun
  exact ⟨_, (unpackSymbols_leaf h).trans hrun, rfl, by simpa using hq, by simp, rfl, rfl, rfl,
    fun i hi => absurd hi (Nat.not_lt_zero i)⟩

section
variable {s : State} {out : List Byte} {n : Nat} {st : UnpackState} (h : SymbolsWritten s out n st)
include h

/-- The bits that no symbol needed are the padding of the payload's last byte (R236). -/
theorem SymbolsWritten.padding_zero
    (hpad : ∀ j, n ≤ j → j < 8 * bytesFor n → Memory.bitAt s.mem s.srcAddr.toNat j = false) (i : Nat)
    (hi : i < st.rem) : st.cur.getLsbD i = false := by
  have hrem := h.rem
  rw [h.unread i hi]
  exact hpad _ (by omega) (by omega)

theorem SymbolsWritten.padding_one {j : Nat} (hlo : n ≤ j) (hhi : j < 8 * bytesFor n)
    (hone : Memory.bitAt s.mem s.srcAddr.toNat j = true) : ∃ i, i < st.rem ∧ st.cur.getLsbD i = true := by
  have hrem := h.rem
  refine ⟨8 * bytesFor n - 1 - j, by omega, ?_⟩
  rwa [h.unread _ (by omega), show 8 * bytesFor n - 1 - (8 * bytesFor n - 1 - j) = j by omega]

theorem SymbolsWritten.ctrl : st.s.ctrl = s.ctrl := by rw [h.state]

theorem SymbolsWritten.srcEnd : st.s.srcEnd = s.srcEnd := by rw [h.state]


/-- The symbols are stored in the destination region (R81). -/
theorem SymbolsWritten.onlyStores (hout : out.length = s.total.toNat) (hroom : HoldsTotal s) :
    OnlyStores s.dstAddr.toNat s.dstEnd.toNat s st.s := by
  unfold HoldsTotal at hroom
  rw [h.state]
  exact ⟨rfl, fun x hx => Memory.lookup_load_outside _ _ _ _ (by omega)⟩

end

/-! ### The command -/

/-- Without a symbol to write UNPACK's body leaves the state it starts with (R238). -/
theorem unpackSymbols_zero {s : State} {st : UnpackState} (h0 : s.total = 0#32)
    (h : unpackSymbols s (unpackStart s) = .ok st) : st = unpackStart s := by
  have hbytes : ∀ k, unpackBytes 0 k (unpackStart s) = .ok (unpackStart s) := fun k => by cases k <;> rfl
  unfold unpackSymbols at h
  rw [h0] at h
  split at h
  · cases h
  · split at h
    · exact (Part.ok.inj h).symm
    · exact (Part.ok.inj ((hbytes _).symm.trans h)).symm

/-- Past its precondition checks UNPACK's rule ends with the state that its strict checks pass; with TOTAL = 0 as well,
where that is the state it starts with (R230, R238). -/
theorem runUnpack_done {s : State} {st : UnpackState} (hsrc : s.srcAddr.toNat ≤ s.srcEnd.toNat) (hroom : HoldsTotal s)
    (hover : s.overlap = false) (hv : s.status.treeValid = true) (hsym : unpackSymbols s (unpackStart s) = .ok st)
    (hstrict : strictChecks st = .ok st) : runUnpack s = unpackDone st := by
  unfold HoldsTotal at hroom
  have hdst : s.dstAddr.toNat ≤ s.dstEnd.toNat := by omega
  have hfull : ¬ regionBytes s.dstAddr s.dstEnd < s.total.toNat := by unfold regionBytes; omega
  by_cases h0 : s.total = 0#32
  · obtain rfl := unpackSymbols_zero h0 hsym
    simp [runUnpack, regionMalformed_false hsrc, regionMalformed_false hdst, hover, h0, hstrict]
  · simp [runUnpack, regionMalformed_false hsrc, regionMalformed_false hdst, hover, h0, hv, hfull, hsym, hstrict]

/-- Past its precondition checks UNPACK's rule raises the error of its symbols and strict checks (R230, R252). -/
theorem runUnpack_raised {s t : State} {tree : NodeTree} {e : Err} {info : Word} (h : UnpackReady s tree)
    (hp : (unpackSymbols s (unpackStart s)).bind strictChecks = .raise e info t) :
    runUnpack s = .raised e info (unpackAccessed s e) t := by
  have hroom := h.room
  have hdst : s.dstAddr.toNat ≤ s.dstEnd.toNat := by omega
  have hfull : ¬ regionBytes s.dstAddr s.dstEnd < s.total.toNat := by unfold regionBytes; omega
  simp [runUnpack, regionMalformed_false h.src, regionMalformed_false hdst, h.apart, h.total, h.tree, hfull, hp]

/-- UNPACK completes with an error of its symbols or strict checks that comes once accesses have begun (R252 item 3). -/
theorem unpack_bodyError {s t : State} {tree : NodeTree} {e : Err} {info : Word} (h : UnpackReady s tree)
    (hp : (unpackSymbols s (unpackStart s)).bind strictChecks = .raise e info t) (hbegun : unpackAccessed s e = true)
    (hst : OnlyStores s.dstAddr.toNat s.dstEnd.toNat s t) (hd : t.draws = s.draws) :
    ∃ u : State, exec .unpack s = .next u ∧ AbortedInBody s u e info := by
  rw [exec_unpack, runUnpack_raised h hp, hbegun]
  exact complete_abortedInBody hst hd

/-- UNPACK completes with the error its strict checks raise once the symbols are written (R236). -/
theorem SymbolsWritten.strictError {s : State} {tree : NodeTree} {out : List Byte} {n : Nat} {st : UnpackState} {e : Err}
    {info : Word} (h : SymbolsWritten s out n st) (hr : UnpackReady s tree) (hout : out.length = s.total.toNat)
    (hp : strictChecks st = .raise e info st.s) (hbegun : unpackAccessed s e = true) :
    ∃ u : State, exec .unpack s = .next u ∧ AbortedInBody s u e info :=
  unpack_bodyError hr (by rw [h.symbols, Part.bind_ok, hp]) hbegun (h.onlyStores hout hr.room) (by rw [h.state])

/-- What UNPACK leaves once it has written the symbols `out` for `n` payload bits (R230, R244). -/
structure Unpacked (s u : State) (out : List Byte) (n : Nat) : Prop where
  completed : Completed u
  succeeded : Succeeded u out.length n
  host      : KeepsHost s u
  tree      : KeepsTree s u
  codes     : KeepsCodes s u
  freq      : u.freq = s.freq
  srcAddr   : u.srcAddr.toNat = s.srcAddr.toNat + bytesFor n
  dstAddr   : u.dstAddr.toNat = s.dstAddr.toNat + out.length
  bytes     : Memory.bytesAt u.mem s.dstAddr.toNat out.length = out
  outside   : KeepsBytesOutside s.dstAddr.toNat (s.dstAddr.toNat + out.length) s u

/-- UNPACK succeeds when its symbols are written and its strict checks pass. -/
theorem SymbolsWritten.unpacked {s : State} {out : List Byte} {n : Nat} {st : UnpackState} (h : SymbolsWritten s out n st)
    (hsrc : s.srcAddr.toNat ≤ s.srcEnd.toNat) (hroom : HoldsTotal s) (hover : s.overlap = false)
    (hv : s.status.treeValid = true) (hstrict : strictChecks st = .ok st) :
    ∃ u : State, exec .unpack s = .next u ∧ Unpacked s u out n := by
  rw [exec_unpack, runUnpack_done hsrc hroom hover hv h.symbols hstrict, unpackDone, h.state, h.cnt, h.bits]
  exact ⟨_, rfl, finish_completed .., ⟨rfl, rfl, rfl, rfl⟩, by constructor <;> rfl, by constructor <;> rfl, ⟨rfl, rfl⟩,
    rfl, h.p, h.q, Memory.bytesAt_load .., fun x hx => Memory.read_load_outside _ _ _ _ hx⟩

/-- Settles O47: the run lies within the payload, so it is decoded as a whole, and the strict checks pass. -/
theorem unpackDecodes : Obligations.UnpackDecodes := by
  unfold Obligations.UnpackDecodes
  intro s i l r picks hv ht hsrc hover hcount hcodes hroom hfit hbits hstrict hrd hwr hu
  have hset : UnpackSetup s (.node i l r) picks (runBits picks).length s.total.toNat .bus 0#32 :=
    { held := ht.held, idx := ht.root, internal := rfl, codes := hcodes, count := hcount, room := hroom, unraced := hu,
      apart := hover, fits := hfit, rd := fun x hlo hhi => hrd x hlo (by unfold runBits at hhi; omega),
      bit := fun j hj _ => hbits j hj, some := Nat.le_refl _, wr := hwr, wall := fun h => absurd h (Nat.lt_irrefl _) }
  have hlen : (picks.map Prod.fst).length = s.total.toNat := by rw [List.length_map, hcount]
  obtain ⟨st, hst⟩ := hset.symbolsWritten
  have hchecks : strictChecks st = .ok st := by
    refine strictChecks_ok (fun hs => hst.padding_zero (hstrict (hst.ctrl ▸ hs)).2) (fun hs => ?_)
    exact BitVec.eq_of_toNat_eq (by rw [hst.p, hst.srcEnd]; exact (hstrict (hst.ctrl ▸ hs)).1)
  obtain ⟨u, hx, hun⟩ := hst.unpacked hsrc hroom hover hv hchecks
  rw [← hlen]
  exact ⟨u, hx, hun.completed, hun.succeeded, hun.host, hun.tree, hun.codes, hun.freq, hun.srcAddr, hun.dstAddr,
    hun.bytes, hun.outside⟩

/-- Settles O48: the symbol is written TOTAL times with nothing loaded, so no padding is checked. -/
theorem unpackSingleLeaf : Obligations.UnpackSingleLeaf := by
  unfold Obligations.UnpackSingleLeaf
  intro s i sym hv ht hsrc hover hstrict hroom hwr
  obtain ⟨st, hst⟩ := symbolsWritten_leaf ht hroom hwr
  have hp : st.p = s.srcAddr := BitVec.eq_of_toNat_eq hst.p
  have hchecks : strictChecks st = .ok st :=
    strictChecks_ok (fun _ => hst.padding_zero fun j _ hj => absurd hj (Nat.not_lt_zero j))
      (fun hs => by rw [hp, hst.srcEnd, hstrict (hst.ctrl ▸ hs)])
  obtain ⟨u, hx, hun⟩ := hst.unpacked hsrc hroom hover hv hchecks
  have hout := hun.outside
  have hbytes := hun.bytes
  have hsucc := hun.succeeded
  have hdst := hun.dstAddr
  rw [List.length_replicate] at hout hbytes hsucc hdst
  exact ⟨u, hx, hun.completed, hsucc, BitVec.eq_of_toNat_eq hun.srcAddr, hdst, hbytes, hout⟩

/-- Settles O49: with TOTAL = 0 only the strict checks are left, in the state UNPACK starts with. -/
theorem unpackCountZero : Obligations.UnpackCountZero := by
  unfold Obligations.UnpackCountZero
  intro s h0 hsrc hdst hover
  have hnone : ∀ j, j < (unpackStart s).rem → (unpackStart s).cur.getLsbD j = false := fun j hj =>
    absurd hj (Nat.not_lt_zero j)
  refine ⟨fun hpass => ?_, fun ⟨hs, hne⟩ => ?_⟩
  · have hchecks : strictChecks (unpackStart s) = .ok (unpackStart s) :=
      strictChecks_ok (fun _ => hnone) (fun hs => hpass.resolve_left (ne_false_of_eq_true hs))
    have hrun : runUnpack s = unpackDone (unpackStart s) := by
      simp [runUnpack, regionMalformed_false hsrc, regionMalformed_false hdst, hover, h0, hchecks]
    rw [exec_unpack, hrun]
    rfl
  · have hrun : Instr.rule .unpack s = .raised .trail s.srcAddr false s := by
      have hchecks : strictChecks (unpackStart s) = .raise .trail s.srcAddr s := strictChecks_trail hs hnone hne
      simp [Instr.rule, runUnpack, regionMalformed_false hsrc, regionMalformed_false hdst, hover, h0, hchecks]
    exact exec_refused hrun

/-- Settles O51: the symbols are written as a whole, and the strict checks raise by the padding and the pointer that they
leave. -/
theorem unpackStrictChecks : Obligations.UnpackStrictChecks := by
  unfold Obligations.UnpackStrictChecks
  refine ⟨?run, ?leaf, fun st => ⟨strictChecks_lax, fun hs => ⟨strictChecks_pad hs, strictChecks_trail hs,
    fun hzero hp => strictChecks_ok (fun _ => hzero) (fun _ => hp)⟩⟩⟩
  case run =>
    intro s i l r picks hr hrun hs hfit hbegin hrd hwr
    have hset : UnpackSetup s (.node i l r) picks (runBits picks).length s.total.toNat .bus 0#32 :=
      hr.setup hrun hfit hrd hbegin (Nat.le_refl _) hwr (fun h => absurd h (Nat.lt_irrefl _))
    have hlen : (picks.map Prod.fst).length = s.total.toNat := by rw [List.length_map, hrun.count]
    obtain ⟨st, hst⟩ := hset.symbolsWritten
    have hp := hst.p
    have hstrict : st.s.ctrl.strict = true := hst.ctrl ▸ hs
    refine ⟨fun a ha ⟨j, hlo, hhi, hone⟩ => ?_, fun a ha hlt hzero => ?_⟩
    · obtain rfl : st.p - 1#32 = a := by bv_omega
      exact hst.strictError hr hlen (strictChecks_pad hstrict (hst.padding_one hlo hhi hone)) rfl
    · obtain rfl : st.p = a := BitVec.eq_of_toNat_eq (hp.trans ha.symm)
      have hne : st.p ≠ st.s.srcEnd := fun heq => by rw [heq, hst.srcEnd] at hlt; exact Nat.lt_irrefl _ hlt
      exact hst.strictError hr hlen (strictChecks_trail hstrict (hst.padding_zero hzero) hne) rfl
  case leaf =>
    intro s i sym hr hs hne hwr
    obtain ⟨st, hst⟩ := symbolsWritten_leaf hr.held hr.room hwr
    obtain hp : st.p = s.srcAddr := BitVec.eq_of_toNat_eq hst.p
    rw [← hp]
    exact hst.strictError hr List.length_replicate (strictChecks_trail (hst.ctrl ▸ hs)
      (hst.padding_zero fun j _ hj => absurd hj (Nat.not_lt_zero j)) (by rwa [hp, hst.srcEnd])) rfl

/-! ### A payload that ends early -/

/-- A code of a tree with an internal root has a bit. -/
theorem runBits_pos {root : NodeTree} {picks : List (Byte × List Bool)} (hi : root.internal = true) (hne : picks ≠ [])
    (hcodes : ∀ p ∈ picks, p ∈ root.shape.codes) : 0 < (runBits picks).length := by
  cases picks with
  | nil => exact absurd rfl hne
  | cons p picks =>
    cases root with
    | leaf j sym => cases hi
    | node j l r =>
      obtain ⟨b, rest, hpath, -⟩ := Shape.codes_node (hcodes p (List.mem_cons_self ..))
      simp [runBits, hpath]

/-- With an internal root UNPACK's symbols are those of its decode loop (R230). -/
theorem unpackSymbols_node {s : State} {i : NodeIdx} {l r : NodeTree} (h : TreeAt s (.node i l r)) :
    unpackSymbols s (unpackStart s) =
      unpackBytes s.total.toNat (regionBytes s.srcAddr s.srcEnd) (unpackStart s) := by
  obtain ⟨⟨f, hf⟩, -, -⟩ := NodeTree.heldIn_node h.held
  have hn : s.nodeAt s.root = some (Node.mkNode f l.idx r.idx) := by rw [← h.root]; exact hf
  simp [unpackSymbols, hn, Node.mkNode]

section
variable {s : State} {i : NodeIdx} {l r : NodeTree} (h : UnpackReady s (.node i l r))
include h

/-- An empty source region is exhausted at the first bit, before any access (R237). -/
theorem unpackSymbols_empty (hempty : s.srcAddr = s.srcEnd) :
    unpackSymbols s (unpackStart s) = .raise .srcExhausted s.srcEnd s := by
  have hregion : regionBytes s.srcAddr s.srcEnd = 0 := by simp [regionBytes, hempty]
  have hne : (unpackStart s).cnt ≠ s.total.toNat := fun h0 => h.total (BitVec.eq_of_toNat_eq h0.symm)
  rw [unpackSymbols_node h.held, hregion]
  exact LoadStops.exhausted (n := 0) (by rw [hempty, Nat.add_zero]) 0 (unpackStart s) rfl rfl
    (congrArg BitVec.toNat hempty) hne

/-- A source region with too few bytes for the run is exhausted after its last (R237). -/
theorem unpackSymbols_truncated {picks : List (Byte × List Bool)} (hrun : RunOf s (.node i l r) picks)
    (hshort : 8 * regionBytes s.srcAddr s.srcEnd < (runBits picks).length)
    (hpay : PayloadBegins s picks (8 * regionBytes s.srcAddr s.srcEnd))
    (hrd : s.admitsRange .read s.srcAddr.toNat s.srcEnd.toNat)
    (hwr : s.admitsRange .write s.dstAddr.toNat s.dstEnd.toNat) :
    ∃ t, unpackSymbols s (unpackStart s) = .raise .srcExhausted s.srcEnd t ∧
      OnlyStores s.dstAddr.toNat s.dstEnd.toNat s t ∧ t.draws = s.draws := by
  have hroom := h.room
  have hbytes : bytesFor (8 * regionBytes s.srcAddr s.srcEnd) = regionBytes s.srcAddr s.srcEnd := by unfold bytesFor; omega
  have hend := regionBytes_le s.srcAddr s.srcEnd h.src
  have hset : UnpackSetup s (.node i l r) picks (8 * regionBytes s.srcAddr s.srcEnd) s.total.toNat .bus 0#32 :=
    h.setup hrun (by rw [hbytes, hend]) (by rwa [hbytes, hend]) hpay (Nat.le_refl _)
      (fun x hlo hhi => hwr x hlo (by omega)) (fun hlt => absurd hlt (Nat.lt_irrefl _))
  rcases unpackSymbols_run hset (.inr (.inr ⟨rfl, LoadStops.exhausted hend⟩)) with
    ⟨-, hle, -⟩ | ⟨hlt, -⟩ | ⟨-, -, -, hraise⟩
  · omega
  · exact absurd hlt (Nat.lt_irrefl _)
  · exact hraise

end

/-- Settles O50: the loop needs a byte after the region's last; in an empty region before any access. -/
theorem unpackTruncatedPayload : Obligations.UnpackTruncatedPayload := by
  unfold Obligations.UnpackTruncatedPayload
  intro s i l r picks hv ht h0 hover hcount hcodes hroom hshort hbits hrd hwr hu
  have hpos : 0 < (runBits picks).length := by
    refine runBits_pos (root := .node i l r) rfl (fun hnil => h0 (BitVec.eq_of_toNat_eq ?_)) hcodes
    rw [← hcount, hnil]
    rfl
  rw [← runBits] at hshort
  have hsrc : s.srcAddr.toNat ≤ s.srcEnd.toNat := by unfold bytesFor at hshort; omega
  have hready : UnpackReady s (.node i l r) := ⟨hv, ht, h0, hsrc, hroom, hover, hu⟩
  by_cases hempty : s.srcAddr = s.srcEnd
  · have hrule : Instr.rule .unpack s = .raised .srcExhausted s.srcEnd false s := by
      have hnone : unpackAccessed s .srcExhausted = false := by simp [unpackAccessed, hempty]
      rw [← hnone]
      exact runUnpack_raised hready (by rw [unpackSymbols_empty hready hempty, Part.bind_raise])
    exact ⟨_, exec_refused hrule, ⟨rfl, rfl, rfl⟩, ⟨rfl, rfl, rfl, rfl, rfl, rfl⟩, by constructor <;> rfl, ⟨rfl, rfl⟩,
      fun _ _ => rfl, fun _ => rfl, fun hne => absurd hempty hne⟩
  · have hend := regionBytes_le s.srcAddr s.srcEnd hsrc
    have hbegun : unpackAccessed s .srcExhausted = true := by simp [unpackAccessed, hempty]
    obtain ⟨t, hsym, hst, hd⟩ := unpackSymbols_truncated hready ⟨hcount, hcodes⟩
      (by unfold bytesFor at hshort; omega) hbits hrd hwr
    obtain ⟨u, hx, hab⟩ := unpack_bodyError hready (by rw [hsym, Part.bind_raise]) hbegun hst hd
    exact ⟨u, hx, hab.completed, hab.aborted, hab.tree, hab.codes, hab.outside, fun heq => absurd heq hempty,
      fun _ => hab⟩

end Sys2Proof.Machine
end

section
/-! UNPACK reads back what PACK wrote (R242): what a success of PACK says of its input, the bits of the payload it wrote,
and that those bits are a run of the tree's leaves. -/

namespace Sys2Proof.Machine

/-! ### What a success of PACK says -/

/-- PACK succeeds only past its precondition checks (R210). -/
theorem runPack_success {s t : State} (hu : s.srcUnraced) (h : runPack s = .done t) :
    PackReady s ∧ ∃ st, packBody s = .ok st := by
  unfold runPack at h
  split at h; · cases h
  split at h; · cases h
  split at h; · cases h
  split at h; · cases h
  split at h; · cases h
  rename_i hsrc hdst hover hlen hcodes
  rw [regionMalformed_iff] at hsrc hdst
  refine ⟨⟨by omega, by omega, by simpa using hover, by simpa using hlen, fun h0 => by simpa [h0] using hcodes, hu⟩, ?_⟩
  cases hb : packBody s with
  | ok st => exact ⟨st, rfl⟩
  | raise e info t => simp [hb] at h
  | stuck f => simp [hb] at h

/-- PACK's body raises what the loop over its first `m` source bytes raises. -/
theorem packBody_raise_of_packBytes {s t : State} {m : Nat} {e : Err} {info : Word}
    (hm : m ≤ regionBytes s.srcAddr s.srcEnd) (h : packBytes m s.srcAddr s.packStart = .raise e info t) :
    packBody s = .raise e info t := by
  obtain ⟨k, hk⟩ := Nat.exists_eq_add_of_le hm
  rw [packBody, hk, packBytes_add, h, Part.bind_raise, Part.bind_raise]

/-- PACK's body succeeds only on an input whose bytes all have codes, where the payload fits and ADMIT allows the
accesses. -/
theorem packBody_success {s : State} {st : PackState} (h : PackReady s) (hentry : ∀ sym, ∃ c, s.codeAt sym = some c)
    (hp : packBody s = .ok st) :
    s.coded s.srcBytes ∧ s.dstAddr.toNat + bytesFor (s.payloadOf s.srcBytes).length ≤ s.dstEnd.toNat ∧
      s.admitsRange .read s.srcAddr.toNat s.srcEnd.toNat ∧
      s.admitsRange .write s.dstAddr.toNat (s.dstAddr.toNat + bytesFor (s.payloadOf s.srcBytes).length) := by
  have hE : s.srcEnd.toNat < 4294967296 := s.srcEnd.isLt
  have hlen := h.length
  have hend := regionBytes_le s.srcAddr s.srcEnd h.src
  obtain ⟨lim, e, info, hle, hw⟩ := Wall.exists (s := s) (q := s.dstAddr) (Nat.le_refl _) h.dst
    (fun x hlo hhi => by omega)
  have hin := hw.inside
  obtain ⟨m, hm, hadm, hstop⟩ := s.admits_until .read s.srcAddr.toNat s.total.toNat (by omega)
  have hnoraise : ∀ {e info t}, packBytes m s.srcAddr s.packStart ≠ .raise e info t := fun hrun => by
    rw [packBody_raise_of_packBytes (by omega) hrun] at hp
    cases hp
  rcases h.packBytes_cases hw hle hm (fun j _ => hentry _) hadm with
    ⟨hcoded, hfit, -⟩ | ⟨_, _, _, -, -, -, -, -, t, hrun, -⟩ | ⟨_, -, -, -, t, hrun, -⟩
  · rcases hm.lt_or_eq with hlt | rfl
    · obtain ⟨a, ha, hr⟩ := hstop hlt
      obtain ⟨t, hraise, -⟩ := packBody_readRefused h hlt hcoded (by omega) hadm
        (fun x hlo hhi => hw.adm x hlo (by omega)) ha hr
      rw [hp] at hraise
      cases hraise
    · rw [← hlen, hend] at hadm
      rw [← hlen] at hcoded
      rcases packBody_coded h hw hle hcoded hadm with ⟨hfits, -⟩ | ⟨-, t, hraise, -⟩
      · exact ⟨hcoded, by omega, hadm, fun x hlo hhi => hw.adm x hlo (by omega)⟩
      · rw [hp] at hraise
        cases hraise
  · exact absurd hrun hnoraise
  · exact absurd hrun hnoraise

/-! ### The bits of a payload -/

/-- A payload byte's bits are the list's, the first in bit 7 (R211). -/
theorem getLsbD_byteOfBits (bits : List Bool) {j : Nat} (hj : j < 8) :
    (byteOfBits bits).getLsbD j = bits.getD (7 - j) false := by
  simp only [byteOfBits, show List.range 8 = [0, 1, 2, 3, 4, 5, 6, 7] from rfl, List.foldl_cons, List.foldl_nil]
  interval_cases j <;> simp

/-- The bits of a payload in shared memory: the packed bits, then zeros (R74, R211). -/
theorem Memory.bitAt_packBits {m : Memory} {a j : Nat} {bits : List Bool}
    (h : Memory.bytesAt m a (bytesFor bits.length) = packBits bits) (hj : j < 8 * bytesFor bits.length) :
    Memory.bitAt m a j = bits.getD j false := by
  have hbyte : Memory.read m (a + j / 8) = byteOfBits (bits.drop (8 * (j / 8))) :=
    List.map_inj_left.mp h (j / 8) (List.mem_range.mpr (by omega))
  rw [Memory.bitAt, hbyte, getLsbD_byteOfBits _ (by omega), List.getD_eq_getElem?_getD, List.getElem?_drop,
    ← List.getD_eq_getElem?_getD, show 8 * (j / 8) + (7 - (7 - j % 8)) = j by omega]

/-! ### The round trip -/

/-- Each byte of an input with its code. -/
def State.codeRun (s : State) (input : List Byte) : List (Byte × List Bool) :=
  input.map (fun b => (b, ((s.codeAt b).getD Code.absent).bits))

theorem State.codeRun_symbols (s : State) (input : List Byte) : (s.codeRun input).map Prod.fst = input := by
  simp [State.codeRun, Function.comp_def]

theorem State.codeRun_bits (s : State) (input : List Byte) : runBits (s.codeRun input) = s.payloadOf input := by
  simp [State.codeRun, runBits, State.payloadOf, List.flatMap_map]

/-- With the codes of a tree, an input whose bytes all have one is a run of the tree's leaves (R51, R211). -/
theorem CodesOf.codeRun_mem {s : State} {sh : Shape} {input : List Byte} (h : CodesOf s sh) (hc : s.coded input) :
    ∀ p ∈ s.codeRun input, p ∈ sh.codes := by
  intro p hp
  obtain ⟨b, hb, rfl⟩ := List.mem_map.mp hp
  obtain ⟨c, hcode, hpresent⟩ := hc b hb
  rw [hcode]
  exact h.mem_codes hcode hpresent

/-- What a success of PACK with a tree's codes leaves: the packed bits of its input at DST_ADDR, and their counts. -/
theorem pack_success {s u : State} {sh : Shape} (hcv : s.status.codesValid = true) (hcodes : CodesOf s sh)
    (hu : s.srcUnraced) (h : exec .pack s = .next u) (herr : u.status.err = 0#8) :
    s.coded s.srcBytes ∧ regionBytes s.srcAddr s.srcEnd = s.total.toNat ∧
      u.bitcnt = BitVec.ofNat 40 (s.payloadOf s.srcBytes).length ∧
      u.dstAddr.toNat = s.dstAddr.toNat + bytesFor (s.payloadOf s.srcBytes).length ∧
      Memory.bytesAt u.mem s.dstAddr.toNat (bytesFor (s.payloadOf s.srcBytes).length) =
        packBits (s.payloadOf s.srcBytes) := by
  rcases complete_next h with ⟨t, ht, -⟩ | ⟨e, info, trash, t, -, rfl⟩
  · obtain ⟨hready, st, hp⟩ := runPack_success hu ht
    obtain ⟨hcoded, hfit, hrd, hwr⟩ := packBody_success hready (fun sym => ⟨_, hcodes.entry sym⟩) hp
    obtain ⟨u', hx, -, hsucc, -, -, -, -, -, hdst, hbytes, -⟩ := packWritesPayload s hready.src hready.dst hready.apart
      hready.length (fun _ => hcv) hcoded hfit hrd hwr hu
    obtain rfl : u = u' := by simpa [h] using hx
    exact ⟨hcoded, hready.length, hsucc.bitcnt, hdst, hbytes⟩
  · exact absurd herr e.code_pos

/-- A run of the leaves of a single-leaf tree repeats the one leaf, whose path is empty. -/
theorem run_leaf {sym : Byte} {picks : List (Byte × List Bool)} (h : ∀ p ∈ picks, p ∈ (Shape.leaf sym).codes) :
    picks.map Prod.fst = List.replicate picks.length sym ∧ runBits picks = [] := by
  have hpicks : picks = List.replicate picks.length (sym, []) :=
    List.eq_replicate_iff.mpr ⟨rfl, fun p hp => by simpa [Shape.codes] using h p hp⟩
  rw [hpicks]
  simp [runBits]

/-- Settles O52: PACK's success wrote the packed bits of its input's codes, which are a run of leaves that UNPACK decodes;
with a single leaf the run has no bits and repeats its symbol. -/
theorem packUnpackRoundTrip : Obligations.PackUnpackRoundTrip := by
  unfold Obligations.PackUnpackRoundTrip
  intro s u v t t' hcv _ hcodes hsu hpack herr hv ht' hshape htotal hsrc hsame hover hroom hrd hwr hvu
  obtain ⟨hcoded, hlen, hbitcnt, hdst, hpacked⟩ := pack_success hcv hcodes hsu hpack herr
  have hsize : u.dstAddr.toNat - s.dstAddr.toNat = bytesFor (s.payloadOf s.srcBytes).length := by omega
  rw [hsize] at hsrc hsame ⊢
  have hbytes : Memory.bytesAt v.mem v.srcAddr.toNat (bytesFor (s.payloadOf s.srcBytes).length) =
      packBits (s.payloadOf s.srcBytes) := (Memory.bytesAt_congr hsame).trans hpacked
  have hsyms := s.codeRun_symbols s.srcBytes
  have hbits := s.codeRun_bits s.srcBytes
  have hcount : (s.codeRun s.srcBytes).length = v.total.toNat := by
    rw [← List.length_map (f := Prod.fst), hsyms, State.srcBytes, Memory.bytesAt_length, hlen, htotal]
  have hmem : ∀ p ∈ s.codeRun s.srcBytes, p ∈ t'.shape.codes := hshape ▸ hcodes.codeRun_mem hcoded
  cases t' with
  | node i l r =>
    have hdecode := unpackDecodes v i l r (s.codeRun s.srcBytes) hv ht' (by omega) hover hcount hmem hroom
    rw [← runBits, hbits, hsyms] at hdecode
    obtain ⟨w, hx, -, hsucc, -, -, -, -, hsrc', -, hout, -⟩ := hdecode hsrc.le
      (fun j hj => Memory.bitAt_packBits hbytes (by unfold bytesFor; omega))
      (fun _ => ⟨hsrc, fun j hlo hhi => by rw [Memory.bitAt_packBits hbytes hhi, List.getD_eq_default _ _ hlo]⟩)
      hrd (fun x hlo hhi => hwr x hlo (by omega)) hvu
    exact ⟨w, hx, hsucc.err, hout, hsucc.bitcnt.trans hbitcnt.symm, hsrc'⟩
  | leaf i sym =>
    obtain ⟨hrep, hnil⟩ := run_leaf hmem
    rw [hsyms, hcount] at hrep
    have hlen0 : (s.payloadOf s.srcBytes).length = 0 := by rw [← hbits, hnil]; rfl
    rw [hlen0] at hsrc hbitcnt ⊢
    obtain ⟨w, hx, -, hsucc, hsrc', -, hout, -⟩ := unpackSingleLeaf v i sym hv ht' hsrc.le hover
      (fun _ => BitVec.eq_of_toNat_eq hsrc) hroom (fun x hlo hhi => hwr x hlo (by omega))
    exact ⟨w, hx, hsucc.err, hout.trans hrep.symm, hsucc.bitcnt.trans hbitcnt.symm, congrArg BitVec.toNat hsrc'⟩

end Sys2Proof.Machine
end

section
/-! The interrupt (R260): `irq` is a level, so each way it changes is a fact about DONE and IRQ_EN. A completion sets DONE
and leaves CTRL to the host; a launch, a clearing write of STATUS and a write of CTRL each take away one of the two. -/

namespace Sys2Proof.Machine

/-! ### The completion of a command -/

/-- A completed command that left CTRL alone asserts `irq` when it is enabled. -/
theorem Completed.irq {s u : State} (h : Completed u) (hs : KeepsHost s u) : u.irq = s.ctrl.irqEn := by
  simp [State.irq, h.done, hs.ctrl]

/-- Whether its rule succeeded or raised an error is no matter. -/
theorem complete_irq {s u : State} {r : RunResult} (hr : r.Leaves (KeepsHost s)) (h : complete s r = .next u) :
    u.irq = s.ctrl.irqEn := by
  obtain ⟨t, ht, hcomp⟩ := complete_leaves hr h
  exact hcomp.completed.irq (ht.trans hcomp.host)

theorem exec_irq {i : Instr} {s u : State} (h : exec i s = .next u) : u.irq = s.ctrl.irqEn :=
  complete_irq (rule_keepsHost i s) (exec_eq_complete i s ▸ h)

theorem execIllegal_irq {w : Word} {s u : State} (h : execIllegal w s = .next u) : u.irq = s.ctrl.irqEn :=
  complete_irq (r := .raised .illegal w false s) (KeepsHost.refl s) h

/-! ### The host's writes that make it fall -/

@[simp] theorem State.launch_irq (s : State) (w : Word) : (s.launch w).irq = false := by
  simp [State.irq, State.launch]

theorem writeTarget_status_irq (s : State) {v : Word} (hv : v.getLsbD 1 = true) :
    (writeTarget s .status v).irq = false := by
  simp [State.irq, writeTarget, hv]

theorem writeTarget_ctrl_irq (s : State) {v : Word} (hv : v.getLsbD 2 = false) :
    (writeTarget s .ctrl v).irq = false := by
  simp only [State.irq, writeTarget, Ctrl.ofWord, hv, Bool.and_false]

/-! ### The statement -/

/-- Settles O15: a completion sets DONE and keeps CTRL, and each of the three host writes clears DONE or IRQ_EN. -/
theorem irqIsDoneAndEnabled : Obligations.IrqIsDoneAndEnabled := by
  unfold Obligations.IrqIsDoneAndEnabled
  refine ⟨fun _ => rfl, rfl, fun _ _ _ => exec_irq, fun _ _ _ => execIllegal_irq, fun s v hb => ?_⟩
  have hcmd : hostWriteReg s 0x000C#32 .word v = s.launch v := hostWriteReg_offset hb .cmd v
  have hstatus : hostWriteReg s 0x0010#32 .word v = writeTarget s .status v := hostWriteReg_offset hb .status v
  have hctrl : hostWriteReg s 0x0008#32 .word v = writeTarget s .ctrl v := hostWriteReg_offset hb .ctrl v
  rw [hcmd, hstatus, hctrl]
  exact ⟨s.launch_irq v, writeTarget_status_irq s, fun hv => ⟨writeTarget_ctrl_irq s hv, rfl⟩⟩

end Sys2Proof.Machine
end
